-- ==== Sys2Proof/Word.lean ====
section
/-! DEFINITION. The widths of 2IM-CORE's registers and memory elements (10_state.md R22, R28, R30, R38). -/

namespace Sys2Proof

/-- One byte of `IN`, `OUT` or `PIX`, or one colour channel (10_state.md R35, R36). -/
abbrev Byte := BitVec 8

/-- One register as the host sees it (10_state.md R22: registers are 64 bits wide). -/
abbrev Word := BitVec 64

/-- A coder value `low`, `range` or `code` (00_scope.md R7: bits 47:0, bits 63:48 zero). -/
abbrev Window := BitVec 48

/-- A value of at most 2^32 (10_state.md R28, R38: 33 bits used). -/
abbrev Total := BitVec 33

end Sys2Proof
end

