-- ==== Sys2Proof/Machine/Records.lean ====
section
/-! DEFINITION. The records of the block's memories (10_state.md R36 to R39), the registers grouped by unit,
and the parameters of the implementation (00_scope.md R6). Plain data. -/

namespace Sys2Proof.Machine

/-- A logged triplet `(bottom, top, total)`, each 33 bits (10_state.md R38). -/
structure Triplet where
  bottom : Total
  top : Total
  total : Total
deriving DecidableEq, Repr, Inhabited

/-- A colour of four bytes (10_state.md R35, R39). -/
structure Colour where
  r : Byte
  g : Byte
  b : Byte
  a : Byte
deriving DecidableEq, Repr, Inhabited

/-- The state of a tree node: 0 `UNREAD`, 1 `FILL`, 2 `SPLIT` (10_state.md R36). -/
inductive NodeKind where
  | unread
  | fill
  | split
deriving DecidableEq, Repr, Inhabited

/-- A node record (10_state.md R36). Ids and counts are plain numbers: how the fields pack into words is left to
the platform (log 19). -/
structure NodeRec where
  kind : NodeKind
  colour : Colour
  left : Nat
  right : Nat
  base : Nat
  count : Nat
  cap : Nat
deriving DecidableEq, Repr, Inhabited

/-- A span record: row `y`, columns `x0 .. x1 - 1` (10_state.md R37). -/
structure SpanRec where
  y : Nat
  x0 : Nat
  x1 : Nat
deriving DecidableEq, Repr, Inhabited

/-- The seven memories an element of which can be written (10_state.md R35; the two ROMs are parameters, `Config.sines`, `Config.cosines`). -/
inductive Space where
  | inp
  | out
  | log
  | pal
  | node
  | span
  | pix
deriving DecidableEq, Repr

/-- `(low, range)` of a range coder (10_state.md R28, R30, R40: 48 bits each). -/
structure Coder where
  low : Window
  range : Window
deriving DecidableEq, Repr, Inhabited

/-- What `DeriveParams` answers (44_codec_params.md R224). -/
structure Derived where
  levelScale : Vector Word 7
  angleBits : Vector Word 7
  lineLimit : Word
  lineQuant : Word
  qr : Word
  qg : Word
  qb : Word
deriving DecidableEq, Repr, Inhabited

/-- Which `DeriveParams` the implementation has (00_scope.md R6: OPEN; log 3). -/
inductive Derivation where
  /-- The platform's own function, of which the spec gives no formula: the free function `Config.deriveParams`. -/
  | platform
  /-- The placeholder of the spec's test configuration TC (95_test_vectors.md section 2). -/
  | testConfig
deriving DecidableEq, Repr

/-- The parameters of the implementation, 00_scope.md R6: fixed for a machine, so a field of the state that nothing
changes (log 2). `N_ANGLES` is `Config.nAngles`. -/
structure Config where
  /-- `ANGLE_BITS_MAX`. -/
  angleBitsMax : Nat
  /-- `TRIG_SCALE`. -/
  trigScale : Nat
  /-- `TRIG_SIN`, the ROM image by angle index. -/
  sines : List Int
  /-- `TRIG_COS`, the ROM image by angle index. -/
  cosines : List Int
  /-- `MAX_CODE`. -/
  maxCode : Nat
  /-- `DeriveParams`. -/
  derive : Derivation
  /-- `PALETTE_MAX`. -/
  paletteMax : Nat
  /-- `SIZE_GROUP_TOTAL`. -/
  sizeGroupTotal : Nat
  /-- `NODE_FILL`. -/
  nodeFill : Nat
  /-- `NODE_SPLIT`. -/
  nodeSplit : Nat
  /-- `DIM_MAX`. -/
  dimMax : Nat
  /-- `IN_CAP`. -/
  inCap : Nat
  /-- `OUT_CAP`. -/
  outCap : Nat
  /-- `LOG_CAP`. -/
  logCap : Nat
  /-- `NODE_CAP`. -/
  nodeCap : Nat
  /-- `SPAN_CAP`. -/
  spanCap : Nat
  /-- `PIX_CAP`. -/
  pixCap : Nat
deriving DecidableEq, Repr

end Sys2Proof.Machine
end

