-- ==== Sys2Proof/Machine/Memory.lean ====
section
/-! DEFINITION. A memory of the block: its own index space (10_state.md R35), held as the list of the elements that
have been written, indices strictly rising. An unlisted element has no stored value; what a read of it gives is
`Config.powerOn…` (10_state.md R46; log 6). For a byte memory the list is one of `Host.Cell`. -/

namespace Sys2Proof.Machine

/-- A memory: written elements by index. -/
abbrev Memory (α : Type) := List (Nat × α)

/-- The stored value of element `i`, none where nothing has written it. -/
def Memory.read? {α : Type} : Memory α → Nat → Option α
  | [], _ => none
  | (k, v) :: rest, i => if k = i then some v else Memory.read? rest i

/-- `MEM[i] <- v` (00_scope.md R10). -/
def Memory.write {α : Type} : Memory α → Nat → α → Memory α
  | [], i, v => [(i, v)]
  | (k, u) :: rest, i, v =>
    if i < k then (i, v) :: (k, u) :: rest
    else if i = k then (i, v) :: rest
    else (k, u) :: Memory.write rest i v

/-- The canonical form: indices strictly rising. An unlisted element reads as no stored value, which no entry equals. -/
def Memory.wf {α : Type} : Memory α → Bool
  | [] => true
  | [_] => true
  | a :: b :: rest => decide (a.1 < b.1) && Memory.wf (b :: rest)

/-- Replace the stored value of every written element at index `from` and above. -/
def Memory.replaceFrom {α : Type} (lo : Nat) (f : Nat → α) (m : Memory α) : Memory α :=
  m.map (fun c => if lo ≤ c.1 then (c.1, f c.1) else c)

/-- `MEM[i] <- f(i)` for the `n` elements from `i` on. -/
def Memory.fill {α : Type} (f : Nat → α) : Nat → Nat → Memory α → Memory α
  | 0, _, m => m
  | n + 1, i, m => Memory.fill f n (i + 1) (Memory.write m i (f i))

/-- Store the elements of a list from index `i` on. -/
def Memory.writeList {α : Type} : List α → Nat → Memory α → Memory α
  | [], _, m => m
  | v :: vs, i, m => Memory.writeList vs (i + 1) (Memory.write m i v)

end Sys2Proof.Machine
end

