-- ==== Sys2Proof/Machine/TrigRom.lean ====
section
/-! DEFINITION. The default image of the trigonometry ROM (43_trig_lut.md R212), the value that 00_scope.md R6 takes for
`TRIG_SIN` and `TRIG_COS` (log 4). -/

namespace Sys2Proof.Machine

/-- `S[0]` to `S[63]` (43_trig_lut.md R212). -/
def sineRows0 : List Nat :=
  [0, 1608, 3217, 4825, 6433, 8041, 9649, 11256,
   12863, 14469, 16075, 17680, 19285, 20888, 22491, 24093,
   25695, 27295, 28894, 30492, 32089, 33685, 35280, 36873,
   38465, 40055, 41644, 43231, 44817, 46401, 47983, 49563,
   51142, 52718, 54293, 55866, 57436, 59004, 60570, 62134,
   63696, 65255, 66812, 68366, 69917, 71466, 73012, 74556,
   76096, 77634, 79169, 80701, 82230, 83756, 85278, 86798,
   88314, 89826, 91336, 92842, 94344, 95843, 97339, 98830]

/-- `S[64]` to `S[127]` (43_trig_lut.md R212). -/
def sineRows64 : List Nat :=
  [100318, 101802, 103283, 104759, 106232, 107700, 109165, 110625,
   112081, 113533, 114981, 116424, 117863, 119297, 120727, 122153,
   123574, 124990, 126402, 127808, 129210, 130607, 132000, 133387,
   134769, 136146, 137518, 138885, 140246, 141603, 142954, 144299,
   145639, 146974, 148303, 149627, 150945, 152257, 153563, 154864,
   156159, 157448, 158731, 160008, 161279, 162544, 163803, 165056,
   166302, 167543, 168777, 170004, 171225, 172440, 173648, 174850,
   176045, 177234, 178415, 179591, 180759, 181920, 183075, 184223]

/-- `S[128]` to `S[191]` (43_trig_lut.md R212). -/
def sineRows128 : List Nat :=
  [185364, 186498, 187625, 188744, 189857, 190963, 192061, 193152,
   194236, 195312, 196382, 197443, 198498, 199545, 200584, 201616,
   202640, 203657, 204666, 205667, 206660, 207646, 208624, 209594,
   210556, 211510, 212456, 213395, 214325, 215247, 216161, 217067,
   217965, 218854, 219736, 220609, 221473, 222330, 223178, 224017,
   224848, 225671, 226485, 227291, 228088, 228877, 229657, 230428,
   231190, 231944, 232689, 233426, 234153, 234872, 235582, 236283,
   236975, 237659, 238333, 238998, 239655, 240302, 240940, 241569]

/-- `S[192]` to `S[255]` (43_trig_lut.md R212). -/
def sineRows192 : List Nat :=
  [242189, 242800, 243402, 243995, 244578, 245153, 245718, 246274,
   246820, 247357, 247885, 248404, 248913, 249413, 249903, 250385,
   250856, 251318, 251771, 252214, 252648, 253072, 253487, 253892,
   254288, 254674, 255050, 255417, 255774, 256122, 256460, 256788,
   257107, 257416, 257715, 258005, 258285, 258555, 258815, 259066,
   259307, 259538, 259759, 259971, 260173, 260365, 260547, 260719,
   260882, 261034, 261177, 261310, 261434, 261547, 261651, 261744,
   261828, 261902, 261966, 262021, 262065, 262100, 262124, 262139]

/-- `S[256]` to `S[256]` (43_trig_lut.md R212). -/
def sineRows256 : List Nat :=
  [262144]

/-- The first quadrant `S[0 .. 256]` (43_trig_lut.md R212). -/
def sineTable : List Nat := sineRows0 ++ sineRows64 ++ sineRows128 ++ sineRows192 ++ sineRows256

/-- `S[i]`. -/
def sineEntry (i : Nat) : Int := (sineTable.getD i 0 : Nat)

/-- `TRIG_SIN[a]` of the default image (43_trig_lut.md R212). -/
def defaultSine (a : Nat) : Int := if a ≤ 256 then sineEntry a else sineEntry (512 - a)

/-- `TRIG_COS[a]` of the default image (43_trig_lut.md R212). -/
def defaultCosine (a : Nat) : Int := if a ≤ 256 then sineEntry (256 - a) else -sineEntry (a - 256)

/-- `TRIG_SIN` of the default image (43_trig_lut.md R212). -/
def defaultSines : List Int := (List.range 512).map defaultSine

/-- `TRIG_COS` of the default image (43_trig_lut.md R212). -/
def defaultCosines : List Int := (List.range 512).map defaultCosine

end Sys2Proof.Machine
end

