-- ==== Sys2Proof/Machine/Params.lean ====
section
/-! DEFINITION. The constants of 00_scope.md R5, and the values that the parameters of R6 have at `State.reset`. -/

namespace Sys2Proof.Machine

/-- `RANGE_INIT`, 00_scope.md R5. -/
def rangeInit : Window := BitVec.ofNat 48 (2 ^ 48 - 1)

/-- `RANGE_LIMIT`, 00_scope.md R5. -/
def rangeLimit : Nat := 2 ^ 32

/-- `2^HEAD_SHIFT`, 00_scope.md R5: the top byte of a 48-bit value is bits 47:40. -/
def headUnit : Nat := 2 ^ 40

/-- `TOTAL_MAX`, 00_scope.md R5. -/
def totalMax : Nat := 2 ^ 32

/-- `SEED_BYTES` and `FLUSH_BYTES`, 00_scope.md R5. -/
def seedBytes : Nat := 6

/-- `LEVELS`, 00_scope.md R5. -/
def levels : Nat := 7

/-- The parameters at `State.reset`. The first group has the values that 00_scope.md R6 takes, three of them and the ROM
PRESUMED by the spec from general knowledge (logs 4, 5). The others R6 leaves OPEN: they are those of the spec's test
configuration TC (95_test_vectors.md section 2), DESIGN CHOICE, unsafe for a claim about runs from `State.reset` (log 2). -/
def resetConfig : Config where
  angleBitsMax := 9
  trigScale := 2 ^ 18
  sines := defaultSines
  cosines := defaultCosines
  sizeGroupTotal := 8
  nodeFill := 0
  nodeSplit := 1
  dimMax := 32767
  maxCode := 4
  derive := .testConfig
  paletteMax := 4
  inCap := 64
  outCap := 64
  logCap := 256
  nodeCap := 64
  spanCap := 1024
  pixCap := 4096

end Sys2Proof.Machine
end

