-- ==== Sys2Proof/Machine/State.lean ====
section
/-! DEFINITION. The state of the block as plain data (10_state.md), what the host can do to it, and the state after
reset (10_state.md R45). -/

namespace Sys2Proof.Machine

/-- The bits of `STATUS` (10_state.md R26). The host cannot write it, and bits 63:4 read as 0. -/
structure Status where
  busy : Bool
  fault : Bool
  done : Bool
  pad : Bool
deriving DecidableEq, Repr

/-- `RD_STATE`: 0 `CLOSED`, 1 `READY`, 2 `PEEKED` (10_state.md R28). -/
inductive RdState where
  | closed
  | ready
  | peeked
deriving DecidableEq, Repr

/-- The decoder's registers (10_state.md R28), with the widths used. -/
structure RdRegs where
  state : RdState
  coder : Coder
  code : Window
  len : Word
  pos : Word
  pad : Word
  total : Total
  count : Window
deriving DecidableEq, Repr

/-- `RE_STATE`: 0 `CLOSED`, 1 `OPEN`, 2 `FINISHED`, 3 `MINIMIZED` (10_state.md R30). -/
inductive ReState where
  | closed
  | opened
  | finished
  | minimized
deriving DecidableEq, Repr

/-- The encoder's registers (10_state.md R30). -/
structure ReRegs where
  state : ReState
  coder : Coder
  outLen : Word
  logLen : Word
deriving DecidableEq, Repr

/-- The hidden registers of the replay decoder (10_state.md R40). -/
structure RpRegs where
  coder : Coder
  code : Window
  pos : Word
  len : Word
deriving DecidableEq, Repr

/-- The parameter bank (10_state.md R31). -/
structure CpRegs where
  width : Word
  height : Word
  code : Word
  lineLimit : Word
  lineQuant : Word
  qr : Word
  qg : Word
  qb : Word
  palSize : Word
  levelScale : Vector Word 7
  angleBits : Vector Word 7
deriving DecidableEq, Repr

/-- The distance quantizer's registers (10_state.md R33); `min` and `max` are signed. -/
structure DrRegs where
  valid : Bool
  min : Word
  max : Word
  quant : Word
  numLines : Word
  angle : Word
deriving DecidableEq, Repr

/-- `FT_PHASE`: 0 `IDLE`, 1 `BUILD`, 2 `RENDERED` (10_state.md R34). -/
inductive FtPhase where
  | idle
  | build
  | rendered
deriving DecidableEq, Repr

/-- The tree builder's registers (10_state.md R34). -/
structure FtRegs where
  phase : FtPhase
  head : Word
  tail : Word
  spanTop : Word
deriving DecidableEq, Repr

/-- The fault causes of 60_exceptions.md R331, one constructor for each pair (code, sub). -/
inductive Cause where
  /-- (1, 1): the opcode is not in the opcode map. -/
  | illegalOpcode
  /-- (1, 2): reserved bits of the command word are not zero. -/
  | illegalReserved
  /-- (2, 1): a decoder command in the wrong `RD_STATE`. -/
  | protocolDecoder
  /-- (2, 2): an encoder command in the wrong `RE_STATE`. -/
  | protocolEncoder
  /-- (2, 3): a tree command in the wrong `FT_PHASE`. -/
  | protocolTree
  /-- (2, 4): the bank is written while `FT_PHASE = BUILD`. -/
  | protocolLock
  /-- (2, 5): `DR.DIST` while `DR_VALID = 0`. -/
  | protocolDistance
  /-- (3, 1): a `total` or `max` operand is out of range. -/
  | argTotal
  /-- (3, 2): not `bottom < top <= total`. -/
  | argInterval
  /-- (3, 3): the interval does not hold the pending count. -/
  | argCount
  /-- (3, 4): the bank is not valid. -/
  | argBank
  /-- (3, 5): an index or value operand is out of range. -/
  | argValue
  /-- (4, 1): an empty region is asked for a level. -/
  | corruptRegion
  /-- (4, 2): a decoded symbol is at or above its bound. -/
  | corruptSymbol
  /-- (4, 3): a decoded width or height is above `DIM_MAX`. -/
  | corruptSize
  /-- (5, 1): range collapse in the decoder. -/
  | collapseDecoder
  /-- (5, 2): range collapse in the encoder. -/
  | collapseEncoder
  /-- (6, 1): `OUT` is full. -/
  | capacityOut
  /-- (6, 2): `LOG` is full. -/
  | capacityLog
  /-- (6, 3): `NODE` is full. -/
  | capacityNode
  /-- (6, 4): `SPAN` is full. -/
  | capacitySpan
  /-- (6, 5): `PIX` is too small. -/
  | capacityPix
deriving DecidableEq, Repr

/-- One action of the host (10_state.md R20, R22, R35; 30_encoding.md R110). A register or an element is accessed
whole: a partial bus access (20_memory.md R74) cannot be written down (log 22). -/
inductive HostAction where
  /-- Write a register by number (`SET`, and `CMD` is number 0). -/
  | writeReg (n : Nat) (v : Word)
  /-- Read a register by number (`GET`). -/
  | readReg (n : Nat)
  /-- Write an element (`POKE`). -/
  | writeIn (i : Nat) (v : Byte)
  | writeOut (i : Nat) (v : Byte)
  | writeLog (i : Nat) (v : Triplet)
  | writePal (i : Nat) (v : Colour)
  | writeNode (i : Nat) (v : NodeRec)
  | writeSpan (i : Nat) (v : SpanRec)
  | writePix (i : Nat) (v : Byte)
  /-- Read an element (`PEEK`). -/
  | readMem (space : Space) (i : Nat)
deriving DecidableEq, Repr

/-- What the last host read returned (the model's own; log 20). -/
inductive BusData where
  | nothing
  | word (v : Word)
  | byte (v : Byte)
  | triplet (v : Triplet)
  | colour (v : Colour)
  | node (v : NodeRec)
  | span (v : SpanRec)
deriving DecidableEq, Repr

/-- Everything the spec gives the block, and the model's own last four fields. -/
structure State where
  /-- `STATUS`, 10_state.md R26. -/
  status : Status
  /-- `FAULT_CODE`, 10_state.md R27. -/
  faultCode : Word
  /-- `FAULT_SUB`, 10_state.md R27. -/
  faultSub : Word
  /-- `FAULT_CMD`, 10_state.md R27. -/
  faultCmd : Word
  /-- `CMDSEQ`, 10_state.md R25. -/
  cmdSeq : Word
  /-- `ARG0` to `ARG2`, 10_state.md R23. -/
  arg0 : Word
  arg1 : Word
  arg2 : Word
  /-- `RES0` to `RES3`, 10_state.md R23. -/
  res0 : Word
  res1 : Word
  res2 : Word
  res3 : Word
  /-- `RD_*`, 10_state.md R28. -/
  rd : RdRegs
  /-- `RE_*`, `OUT_LEN`, `LOG_LEN`, 10_state.md R30. -/
  re : ReRegs
  /-- `RP_*`, 10_state.md R40. -/
  rp : RpRegs
  /-- `CP_*`, 10_state.md R31. -/
  cp : CpRegs
  /-- `DR_*`, 10_state.md R33. -/
  dr : DrRegs
  /-- `FT_*`, `SPAN_TOP`, 10_state.md R34. -/
  ft : FtRegs
  /-- The memories of 10_state.md R35; a list of bytes by index is a list of `Host.Cell`. -/
  inMem : List Host.Cell
  outMem : List Host.Cell
  logMem : Memory Triplet
  palMem : Memory Colour
  nodeMem : Memory NodeRec
  spanMem : Memory SpanRec
  pixMem : List Host.Cell
  /-- The parameters of the implementation, 00_scope.md R6 (log 2). Nothing changes it. -/
  cfg : Config
  /-- The host's actions still to come, next first (log 1). -/
  pending : List HostAction
  /-- What the last host read returned (log 20). -/
  bus : BusData
  /-- How many events have drawn free values (log 11). -/
  freeCount : Nat
deriving DecidableEq, Repr

/-- Why the model stops with a fault. A command never does: a fault of the block (60_exceptions.md R340) is a next
state. -/
inductive Fault where
  /-- Raised by a host access to an element index at or above the memory's capacity, which names no element
  (10_state.md R35; 20_memory.md R76). Safe: the model stops (log 15). -/
  | noSuchElement (space : Space)
deriving DecidableEq, Repr

/-- Why the model refuses. No command is refused: these concern host accesses that the spec says a model should refuse. -/
inductive Refusal where
  /-- Raised by `exec`'s arm of an instruction without a meaning (there is none). Safe. -/
  | notModelled (mnemonic : String)
  /-- Raised by any host access but a read of `STATUS` while `STATUS.BUSY = 1` (70_reset_and_hazards.md R385,
  93_implementation_defined.md I6). Safe, and no run from reset reaches it (log 12). -/
  | accessWhileBusy
  /-- Raised by a host write to `NODE` or `SPAN` while `FT_PHASE = BUILD` (70_reset_and_hazards.md R383,
  93_implementation_defined.md I7). Safe (log 13). -/
  | treeMemoryOwned
deriving DecidableEq, Repr

/-- `STATUS` after reset (10_state.md R45). -/
def Status.reset : Status := ⟨false, false, false, false⟩

/-- `(low, range)` after reset (10_state.md R45, 70_reset_and_hazards.md R371). -/
def Coder.reset : Coder := ⟨0, rangeInit⟩

/-- `RD_*` after reset (10_state.md R45). -/
def RdRegs.reset : RdRegs where
  state := .closed
  coder := Coder.reset
  code := 0
  len := 0
  pos := 0
  pad := 0
  total := 0
  count := 0

/-- `RE_*` after reset (10_state.md R45). -/
def ReRegs.reset : ReRegs where
  state := .closed
  coder := Coder.reset
  outLen := 0
  logLen := 0

/-- `RP_*` at power-on: unspecified in 10_state.md R45. DESIGN CHOICE 0 (log 10). -/
def RpRegs.reset : RpRegs where
  coder := ⟨0, 0⟩
  code := 0
  pos := 0
  len := 0

/-- `CP_*` after reset (10_state.md R45): 0, an illegal bank. -/
def CpRegs.reset : CpRegs where
  width := 0
  height := 0
  code := 0
  lineLimit := 0
  lineQuant := 0
  qr := 0
  qg := 0
  qb := 0
  palSize := 0
  levelScale := #v[0, 0, 0, 0, 0, 0, 0]
  angleBits := #v[0, 0, 0, 0, 0, 0, 0]

/-- `DR_*` after reset (10_state.md R45). -/
def DrRegs.reset : DrRegs where
  valid := false
  min := 0
  max := 0
  quant := 0
  numLines := 0
  angle := 0

/-- `FT_*` and `SPAN_TOP` after reset (10_state.md R45). -/
def FtRegs.reset : FtRegs where
  phase := .idle
  head := 0
  tail := 0
  spanTop := 0

/-- The block at power-on (10_state.md R45, R46; 70_reset_and_hazards.md R370): every register at its reset value, no
element of a memory written, and no host action waiting. -/
def State.reset : State where
  status := Status.reset
  faultCode := 0
  faultSub := 0
  faultCmd := 0
  cmdSeq := 0
  arg0 := 0
  arg1 := 0
  arg2 := 0
  res0 := 0
  res1 := 0
  res2 := 0
  res3 := 0
  rd := RdRegs.reset
  re := ReRegs.reset
  rp := RpRegs.reset
  cp := CpRegs.reset
  dr := DrRegs.reset
  ft := FtRegs.reset
  inMem := []
  outMem := []
  logMem := []
  palMem := []
  nodeMem := []
  spanMem := []
  pixMem := []
  cfg := resetConfig
  pending := []
  bus := .nothing
  freeCount := 0

end Sys2Proof.Machine
end

