-- ==== Sys2Proof/Machine/Coder.lean ====
section
/-! DEFINITION. The arithmetic on `(low, range)` that the decoder, the encoder and the replay decoder share
(40_range_decoder.md R143 to R147, 41_range_encoder.md R172, 42_byte_minimizer.md R192). -/

namespace Sys2Proof.Machine

/-- `top8(v)`, the top byte of a 48-bit value (00_scope.md R9). -/
def top8 (v : Nat) : Nat := v / headUnit

/-- The top byte of `low` and of `low + range - 1` agree: a settled byte (00_scope.md R13, 40_range_decoder.md R145). R9
defines `top8` below 2^48, where `low + range <= 2^48` keeps it (R146); `replay` stops before a value above it (log 26). -/
def Coder.settled (c : Coder) : Bool := top8 c.low.toNat == top8 (c.low.toNat + c.range.toNat - 1)

/-- `range <- floor(range / total)` (40_range_decoder.md R143, 41_range_encoder.md R172). -/
def Coder.divide (c : Coder) (total : Nat) : Coder := { c with range := BitVec.ofNat 48 (c.range.toNat / total) }

/-- `low <- low + bottom * range`, `range <- range * (top - bottom)` (40_range_decoder.md R144). -/
def Coder.narrow (c : Coder) (bottom top : Nat) : Coder where
  low := BitVec.ofNat 48 (c.low.toNat + bottom * c.range.toNat)
  range := BitVec.ofNat 48 (c.range.toNat * (top - bottom))

/-- Carry avoidance: shrink `range` to the next 2^40 boundary (40_range_decoder.md R145). -/
def Coder.shrink (c : Coder) : Coder := { c with range := BitVec.ofNat 48 (headUnit - c.low.toNat % headUnit) }

/-- The first half of one round of the renormalization loop (40_range_decoder.md R145): none, the loop exits; or the
values with which the shift is reached. -/
def Coder.toShift (c : Coder) : Option Coder :=
  if c.settled then some c
  else if c.range.toNat > rangeLimit then none
  else some c.shrink

/-- A shift reached with `range = 2^40` collapses (40_range_decoder.md R147). -/
def Coder.collapsed (c : Coder) : Bool := c.range.toNat == headUnit

/-- The shift: `low` and `range` are taken mod 2^40 and multiplied by 256 (40_range_decoder.md R145). -/
def Coder.shift (c : Coder) : Coder where
  low := BitVec.ofNat 48 (c.low.toNat % headUnit * 256)
  range := BitVec.ofNat 48 (c.range.toNat % headUnit * 256)

/-- The 48-bit window takes one byte at its low end (40_range_decoder.md R145). -/
def shiftCode (code : Window) (b : Byte) : Window := BitVec.ofNat 48 (code.toNat % headUnit * 256 + b.toNat)

/-- `floor(((code - low) mod 2^48) / range)` (40_range_decoder.md R143). -/
def Coder.countOf (c : Coder) (code : Window) : Nat := (code - c.low).toNat / c.range.toNat

/-- More rounds than any renormalization takes: at most 9 shifts, then the exit (40_range_decoder.md R155; log 18). -/
def normalizeRounds : Nat := 16

/-- The whole renormalization of `(low, range)`, which does not depend on the bytes moved (41_range_encoder.md R181):
the final values and the number of shifts, none where a collapse ends it. A definition for statements: the decoder, the
encoder and the replay decoder run the same rounds with their byte moves between. -/
def Coder.normalize : Nat → Coder → Option (Coder × Nat)
  | 0, c => some (c, 0)
  | n + 1, c =>
    match c.toShift with
    | none => some (c, 0)
    | some c' =>
      if c'.collapsed then none
      else (Coder.normalize n c'.shift).map (fun r => (r.1, r.2 + 1))

/-- The byte `top8(low)` that the encoder emits (41_range_encoder.md R172). -/
def Coder.topByte (c : Coder) : Byte := BitVec.ofNat 8 (top8 c.low.toNat)

/-- The bytes that the encoder emits while it renormalizes, first byte first (41_range_encoder.md R172): one for each
shift. A definition for statements, as `Coder.normalize`. -/
def Coder.emitted : Nat → Coder → List Byte
  | 0, _ => []
  | n + 1, c =>
    match c.toShift with
    | none => []
    | some c' => if c'.collapsed then [] else c'.topByte :: Coder.emitted n c'.shift

end Sys2Proof.Machine
end

