-- ==== Sys2Proof/Config.lean ====
section
/-! DEFINITION. The free values: constants without a body, of which nothing can be proved. Each stands where the
spec says that a value is unspecified (70_reset_and_hazards.md R389, 93_implementation_defined.md I1 to I5) or leaves
a function OPEN (00_scope.md R6). -/

namespace Sys2Proof

open Machine

/-- What a byte of `IN`, `OUT` or `PIX` reads as when nothing has written it since power-on: a fresh unknown for each
element, stable between reads (10_state.md R46, 93_implementation_defined.md I2; log 6). -/
opaque Config.powerOnByte : Space → Nat → Byte

/-- The same for an element of `LOG`. -/
opaque Config.powerOnTriplet : Nat → Triplet

/-- The same for an element of `PAL`. -/
opaque Config.powerOnColour : Nat → Colour

/-- The same for an element of `NODE`. -/
opaque Config.powerOnNode : Nat → NodeRec

/-- The same for an element of `SPAN`. -/
opaque Config.powerOnSpan : Nat → SpanRec

/-- `RES[i]` after the fault numbered by the first argument (10_state.md R23, I1; log 7). -/
opaque Config.freeResult : Nat → Nat → Word

/-- A `SPAN` element above a split child's count, by event and index (46_region_split.md R267, I3; log 8). -/
opaque Config.freeSpan : Nat → Nat → SpanRec

/-- An `OUT` element at or above `OUT_LEN` after `RE.OPTFIN`, by event and index (42_byte_minimizer.md R194, I4; log 9). -/
opaque Config.freeOutByte : Nat → Nat → Byte

/-- A 48-bit register of the replay decoder between commands, by event and register (10_state.md R40, I5; log 10). -/
opaque Config.freeReplayWindow : Nat → Nat → Window

/-- A 64-bit register of the replay decoder between commands, by event and register (10_state.md R40, I5; log 10). -/
opaque Config.freeReplayWord : Nat → Nat → Word

/-- Whether the replay decoder validates a `LOG` entry for which its arithmetic has no result (a range of 0, or values
that leave 48 bits or have no `top8`), by entry, `(low, range)` and window: only the host can have written such an entry
(42_byte_minimizer.md R193; log 26). -/
opaque Config.freeVerdict : Triplet → Coder → Window → Bool

/-- `DeriveParams(code, width, height)` of a platform (44_codec_params.md R224: OPEN, total and pure; log 3). -/
opaque Config.deriveParams : Nat → Nat → Nat → Derived

end Sys2Proof
end

