-- ==== Sys2Proof/Syntax.lean ====
section
/-! DEFINITION. The commands of 2IM-CORE: one constructor for each row of spec/opcode_table.json
(30_encoding.md R102). Operands are not in the command word (R100), so no constructor has an argument. -/

namespace Sys2Proof

/-- A command of the opcode map, 30_encoding.md R102. -/
inductive Instr where
  /-- `SYS.RESET`, 48_system.md R320. -/
  | sysReset
  /-- `RD.INIT len`, 40_range_decoder.md R150. -/
  | rdInit
  /-- `RD.COUNT total`, 40_range_decoder.md R151. -/
  | rdCount
  /-- `RD.REMOVE bottom, top`, 40_range_decoder.md R152. -/
  | rdRemove
  /-- `RD.NUM max`, 40_range_decoder.md R153. -/
  | rdNum
  /-- `RE.INIT`, 41_range_encoder.md R175. -/
  | reInit
  /-- `RE.PUT bottom, top, total`, 41_range_encoder.md R176. -/
  | rePut
  /-- `RE.NUM max, value`, 41_range_encoder.md R177. -/
  | reNum
  /-- `RE.FINISH`, 41_range_encoder.md R178. -/
  | reFinish
  /-- `RE.OPTFIN`, 42_byte_minimizer.md R195. -/
  | reOptfin
  /-- `TG.LOOKUP angle`, 43_trig_lut.md R214. -/
  | tgLookup
  /-- `CP.SETCODE code`, 44_codec_params.md R230. -/
  | cpSetcode
  /-- `CP.READ flags`, 44_codec_params.md R231. -/
  | cpRead
  /-- `CP.SIZE`, 44_codec_params.md R232. -/
  | cpSize
  /-- `CP.LEVEL node`, 44_codec_params.md R233. -/
  | cpLevel
  /-- `CP.DEQ v, q`, 44_codec_params.md R234. -/
  | cpDeq
  /-- `DR.UPDATE node, angle`, 45_distance_quantizer.md R255. -/
  | drUpdate
  /-- `DR.DIST line`, 45_distance_quantizer.md R256. -/
  | drDist
  /-- `RG.SPLIT node, angle, d`, 46_region_split.md R270. -/
  | rgSplit
  /-- `FT.ROOT`, 47_fragment_tree.md R290. -/
  | ftRoot
  /-- `FT.PARSE`, 47_fragment_tree.md R291. -/
  | ftParse
  /-- `FT.RENDER`, 47_fragment_tree.md R301. -/
  | ftRender
  /-- `FT.DECODE len, flags`, 47_fragment_tree.md R302. -/
  | ftDecode
deriving DecidableEq, Repr

end Sys2Proof
end

