-- ==== Sys2Proof/WellFormed.lean ====
section
/-! DEFINITION. What a well-formed command word is (30_encoding.md R100, R102, R104). A command has no
operand field (R103), so every `Instr` is well formed; the two checks that exist are on the word. -/

namespace Sys2Proof

/-- The opcode values of the opcode map, 30_encoding.md R102. -/
def legalOpcodes : List Byte :=
  [0x01, 0x10, 0x11, 0x12, 0x13, 0x20, 0x21, 0x22, 0x23, 0x24, 0x30, 0x40,
   0x41, 0x42, 0x43, 0x44, 0x50, 0x51, 0x58, 0x60, 0x61, 0x62, 0x63]

/-- The reserved bits 63:8 of a command word are zero (30_encoding.md R100, R104). -/
def reservedClear (w : Word) : Bool := w >>> 8 == 0

/-- Bits 7:0 of a command word are an opcode of the map (30_encoding.md R102, R104). -/
def opcodeListed (w : Word) : Bool := legalOpcodes.contains (w.setWidth 8)

/-- A command word that is some command's (30_encoding.md R104). -/
def wordWellFormed (w : Word) : Bool := reservedClear w && opcodeListed w

/-- Every command is well formed: the opcode map gives it one word and no operand field
(30_encoding.md R100, R103). -/
def Instr.wellFormed : Instr → Bool
  | .sysReset => true
  | .rdInit => true
  | .rdCount => true
  | .rdRemove => true
  | .rdNum => true
  | .reInit => true
  | .rePut => true
  | .reNum => true
  | .reFinish => true
  | .reOptfin => true
  | .tgLookup => true
  | .cpSetcode => true
  | .cpRead => true
  | .cpSize => true
  | .cpLevel => true
  | .cpDeq => true
  | .drUpdate => true
  | .drDist => true
  | .rgSplit => true
  | .ftRoot => true
  | .ftParse => true
  | .ftRender => true
  | .ftDecode => true

end Sys2Proof
end

