-- ==== Sys2Proof/Decode.lean ====
section
/-! DEFINITION. Decoding a command word (30_encoding.md R101, R104), total on every 64-bit value, and the
encoder, written from the opcode map (R102). -/

namespace Sys2Proof

/-- What a command word decodes to (30_encoding.md R101): a command, or one of the two illegal cases. -/
inductive Decoded where
  | command (i : Instr)
  /-- Bits 63:8 are not all zero: `Fault(ILLEGAL_CMD, 2)`. -/
  | reservedBits
  /-- Bits 7:0 are not in the opcode map: `Fault(ILLEGAL_CMD, 1)`. -/
  | unlistedOpcode
deriving DecidableEq, Repr

/-- The opcode map, one row a command (30_encoding.md R102, spec/opcode_table.json). -/
def opcodeTable : List (Byte × Instr) :=
  [(0x01, .sysReset),
   (0x10, .rdInit), (0x11, .rdCount), (0x12, .rdRemove), (0x13, .rdNum),
   (0x20, .reInit), (0x21, .rePut), (0x22, .reNum), (0x23, .reFinish), (0x24, .reOptfin),
   (0x30, .tgLookup),
   (0x40, .cpSetcode), (0x41, .cpRead), (0x42, .cpSize), (0x43, .cpLevel), (0x44, .cpDeq),
   (0x50, .drUpdate), (0x51, .drDist), (0x58, .rgSplit),
   (0x60, .ftRoot), (0x61, .ftParse), (0x62, .ftRender), (0x63, .ftDecode)]

/-- The command of an opcode, if the map lists it. -/
def instrOfOpcode (op : Byte) : Option Instr :=
  (opcodeTable.find? (fun row => row.1 == op)).map (fun row => row.2)

/-- Bits 7:0 of a command word (30_encoding.md R100). -/
def opcodeField (w : Word) : Byte := w.setWidth 8

/-- Decode a command word, reserved bits before the opcode (30_encoding.md R101, 60_exceptions.md R333). -/
def decode (w : Word) : Decoded :=
  if w >>> 8 ≠ 0 then .reservedBits
  else
    match instrOfOpcode (opcodeField w) with
    | some i => .command i
    | none => .unlistedOpcode

/-- The opcode of a command (30_encoding.md R102). -/
def opcode : Instr → Byte
  | .sysReset => 0x01
  | .rdInit => 0x10
  | .rdCount => 0x11
  | .rdRemove => 0x12
  | .rdNum => 0x13
  | .reInit => 0x20
  | .rePut => 0x21
  | .reNum => 0x22
  | .reFinish => 0x23
  | .reOptfin => 0x24
  | .tgLookup => 0x30
  | .cpSetcode => 0x40
  | .cpRead => 0x41
  | .cpSize => 0x42
  | .cpLevel => 0x43
  | .cpDeq => 0x44
  | .drUpdate => 0x50
  | .drDist => 0x51
  | .rgSplit => 0x58
  | .ftRoot => 0x60
  | .ftParse => 0x61
  | .ftRender => 0x62
  | .ftDecode => 0x63

/-- The command word of a command: the opcode in bits 7:0, zero above (30_encoding.md R100). -/
def encode (i : Instr) : Word := (opcode i).setWidth 64

/-- The command read from a row's bits, as spec/opcode_table.json numbers them: one 64-bit word, bit 0 least
significant. A value that does not fit the word is no command. -/
def decodeTableWord (_nbits w : Nat) : Option Instr :=
  if w < 2 ^ 64 then
    match decode (BitVec.ofNat 64 w) with
    | .command i => some i
    | .reservedBits => none
    | .unlistedOpcode => none
  else none

end Sys2Proof
end

