-- ==== Sys2Proof/Machine/Flags.lean ====
section
/-! DEFINITION. The bits of `STATUS`: what sets and clears each (10_state.md R26), and the word the host reads. -/

namespace Sys2Proof.Machine

/-- `STATUS` as the host reads it: BUSY bit 0, FAULT bit 1, DONE bit 2, PAD bit 3, the rest 0 (10_state.md R26). -/
def Status.toWord (f : Status) : Word :=
  BitVec.ofNat 64 (f.busy.toNat + 2 * f.fault.toNat + 4 * f.done.toNat + 8 * f.pad.toNat)

/-- A command starts: `STATUS.DONE <- 0`, `STATUS.BUSY <- 1` (30_encoding.md R101). -/
def Status.begin (f : Status) : Status := { f with done := false, busy := true }

/-- A command ends without fault: `STATUS.BUSY <- 0`, `STATUS.DONE <- 1` (30_encoding.md R101). -/
def Status.complete (f : Status) : Status := { f with busy := false, done := true }

/-- A fault is raised: `FAULT <- 1`, `BUSY <- 0`, `DONE <- 0`, `PAD` kept (60_exceptions.md R340). -/
def Status.failed (f : Status) : Status := { f with fault := true, busy := false, done := false }

/-- The decoder supplied a pad byte: `STATUS.PAD <- 1` (40_range_decoder.md R142). -/
def Status.padded (f : Status) : Status := { f with pad := true }

/-- The decoder starts: `STATUS.PAD <- 0` (40_range_decoder.md R141). -/
def Status.unpadded (f : Status) : Status := { f with pad := false }

end Sys2Proof.Machine
end

