-- ==== Sys2Proof/Machine/Ops.lean ====
section
/-! DEFINITION. The shared operations: element reads and writes, a command's run as a sequence that a fault can end
(00_scope.md R10), taking a fault (60_exceptions.md R340) and the return from it (48_system.md R320). -/

namespace Sys2Proof.Machine

/-! ### Named updates of the state -/

def State.withStatus (s : State) (v : Status) : State := { s with status := v }
def State.withRes0 (s : State) (v : Word) : State := { s with res0 := v }
def State.withRes1 (s : State) (v : Word) : State := { s with res1 := v }
def State.withRes2 (s : State) (v : Word) : State := { s with res2 := v }
def State.withRes3 (s : State) (v : Word) : State := { s with res3 := v }
def State.withRd (s : State) (v : RdRegs) : State := { s with rd := v }
def State.withRe (s : State) (v : ReRegs) : State := { s with re := v }
def State.withRp (s : State) (v : RpRegs) : State := { s with rp := v }
def State.withCp (s : State) (v : CpRegs) : State := { s with cp := v }
def State.withDr (s : State) (v : DrRegs) : State := { s with dr := v }
def State.withFt (s : State) (v : FtRegs) : State := { s with ft := v }
def State.withOutMem (s : State) (m : List Host.Cell) : State := { s with outMem := m }
def State.withSpanMem (s : State) (m : Memory SpanRec) : State := { s with spanMem := m }
def State.withBus (s : State) (v : BusData) : State := { s with bus := v }

/-- One more event has drawn free values (log 11). -/
def State.countFree (s : State) : State := { s with freeCount := s.freeCount + 1 }

/-! ### Elements of the memories (10_state.md R35, R46; 00_scope.md R10) -/

/-- `IN[i]`. -/
def State.inByte (s : State) (i : Nat) : Byte := (Memory.read? s.inMem i).getD (Config.powerOnByte .inp i)
/-- A byte of a memory given as `OUT`'s. -/
def outByteOf (m : List Host.Cell) (i : Nat) : Byte := (Memory.read? m i).getD (Config.powerOnByte .out i)
/-- `OUT[i]`. -/
def State.outByte (s : State) (i : Nat) : Byte := outByteOf s.outMem i
/-- `LOG[i]`. -/
def State.logEntry (s : State) (i : Nat) : Triplet := (Memory.read? s.logMem i).getD (Config.powerOnTriplet i)
/-- `PAL[i]`. -/
def State.palEntry (s : State) (i : Nat) : Colour := (Memory.read? s.palMem i).getD (Config.powerOnColour i)
/-- `NODE[i]`. -/
def State.nodeRec (s : State) (i : Nat) : NodeRec := (Memory.read? s.nodeMem i).getD (Config.powerOnNode i)
/-- `SPAN[i]`. -/
def State.spanRec (s : State) (i : Nat) : SpanRec := (Memory.read? s.spanMem i).getD (Config.powerOnSpan i)
/-- `PIX[i]`. -/
def State.pixByte (s : State) (i : Nat) : Byte := (Memory.read? s.pixMem i).getD (Config.powerOnByte .pix i)

/-- `IN[i] <- v`. -/
def State.putIn (s : State) (i : Nat) (v : Byte) : State := { s with inMem := Memory.write s.inMem i v }
/-- `OUT[i] <- v`. -/
def State.putOut (s : State) (i : Nat) (v : Byte) : State := { s with outMem := Memory.write s.outMem i v }
/-- `LOG[i] <- v`. -/
def State.putLog (s : State) (i : Nat) (v : Triplet) : State := { s with logMem := Memory.write s.logMem i v }
/-- `PAL[i] <- v`. -/
def State.putPal (s : State) (i : Nat) (v : Colour) : State := { s with palMem := Memory.write s.palMem i v }
/-- `NODE[i] <- v`. -/
def State.putNode (s : State) (i : Nat) (v : NodeRec) : State := { s with nodeMem := Memory.write s.nodeMem i v }
/-- `SPAN[i] <- v`. -/
def State.putSpan (s : State) (i : Nat) (v : SpanRec) : State := { s with spanMem := Memory.write s.spanMem i v }
/-- `PIX[i] <- v`. -/
def State.putPix (s : State) (i : Nat) (v : Byte) : State := { s with pixMem := Memory.write s.pixMem i v }

/-! ### A command's run -/

/-- A piece of a command's pseudocode (00_scope.md R10): it goes on with a value, or a `raise` ends it with a cause and
the state as it is at that point (60_exceptions.md R340: the fault is precise). -/
abbrev Cmd (α : Type) := EStateM Cause State α

/-- `raise Fault(code, sub)` inside a command (00_scope.md R10). -/
def raise {α : Type} (c : Cause) : Cmd α := fun s => .error c s

/-- `require cond else Fault(code, sub)` (00_scope.md R10). -/
def require (p : Prop) [Decidable p] (c : Cause) : Cmd Unit := fun s => if p then .ok () s else .error c s

/-- Change the state. -/
def update (f : State → State) : Cmd Unit := fun s => .ok () (f s)

/-! ### Taking a fault and the return from it -/

/-- `FAULT_CODE` of a cause (60_exceptions.md R331). -/
def Cause.code : Cause → Nat
  | .illegalOpcode => 1
  | .illegalReserved => 1
  | .protocolDecoder => 2
  | .protocolEncoder => 2
  | .protocolTree => 2
  | .protocolLock => 2
  | .protocolDistance => 2
  | .argTotal => 3
  | .argInterval => 3
  | .argCount => 3
  | .argBank => 3
  | .argValue => 3
  | .corruptRegion => 4
  | .corruptSymbol => 4
  | .corruptSize => 4
  | .collapseDecoder => 5
  | .collapseEncoder => 5
  | .capacityOut => 6
  | .capacityLog => 6
  | .capacityNode => 6
  | .capacitySpan => 6
  | .capacityPix => 6

/-- `FAULT_SUB` of a cause (60_exceptions.md R331). -/
def Cause.sub : Cause → Nat
  | .illegalOpcode => 1
  | .illegalReserved => 2
  | .protocolDecoder => 1
  | .protocolEncoder => 2
  | .protocolTree => 3
  | .protocolLock => 4
  | .protocolDistance => 5
  | .argTotal => 1
  | .argInterval => 2
  | .argCount => 3
  | .argBank => 4
  | .argValue => 5
  | .corruptRegion => 1
  | .corruptSymbol => 2
  | .corruptSize => 3
  | .collapseDecoder => 1
  | .collapseEncoder => 2
  | .capacityOut => 1
  | .capacityLog => 2
  | .capacityNode => 3
  | .capacitySpan => 4
  | .capacityPix => 5

/-- The fault registers are written by the first fault only (60_exceptions.md R340, 10_state.md R27). -/
def recordFault (c : Cause) (cmd : Word) (s : State) : State :=
  if s.status.fault then s
  else { s with faultCode := BitVec.ofNat 64 c.code, faultSub := BitVec.ofNat 64 c.sub, faultCmd := cmd }

/-- `RES0` to `RES3` are unspecified after a fault (10_state.md R23): four free values of a fresh event (log 7). -/
def freeResults (s : State) : State :=
  { s with
    res0 := Config.freeResult s.freeCount 0
    res1 := Config.freeResult s.freeCount 1
    res2 := Config.freeResult s.freeCount 2
    res3 := Config.freeResult s.freeCount 3
    freeCount := s.freeCount + 1 }

/-- Taking a fault, 60_exceptions.md R340: the cause and bits 7:0 of the command word (`cmd`) are recorded, `FAULT` is
set, `BUSY` and `DONE` are cleared, and what the command wrote before stays. -/
def raiseFault (c : Cause) (cmd : Word) (s : State) : State :=
  let t := freeResults (recordFault c cmd s)
  t.withStatus t.status.failed

/-- The replay decoder's registers hold unspecified values: free values of the event `n` (10_state.md R40; log 10). -/
def freeReplay (n : Nat) : RpRegs where
  coder := ⟨Config.freeReplayWindow n 0, Config.freeReplayWindow n 1⟩
  code := Config.freeReplayWindow n 2
  pos := Config.freeReplayWord n 0
  len := Config.freeReplayWord n 1

/-- The return from the fault state, 48_system.md R320 and 60_exceptions.md R343: every register takes its reset value
(10_state.md R45; `RP_*` unspecified), the memories keep their contents. -/
def resetRegisters (s : State) : State :=
  { State.reset with
    rp := freeReplay s.freeCount
    inMem := s.inMem
    outMem := s.outMem
    logMem := s.logMem
    palMem := s.palMem
    nodeMem := s.nodeMem
    spanMem := s.spanMem
    pixMem := s.pixMem
    cfg := s.cfg
    pending := s.pending
    bus := s.bus
    freeCount := s.freeCount + 1 }

/-! ### Start and end of a command (30_encoding.md R101) -/

/-- A command that is not refused starts: `CMDSEQ <- CMDSEQ + 1` (wrapping, 10_state.md R25), `DONE <- 0`, `BUSY <- 1`. -/
def beginCommand (s : State) : State :=
  { s with cmdSeq := s.cmdSeq + 1, status := s.status.begin }

/-- A command ends without fault: `BUSY <- 0`, `DONE <- 1`. -/
def endCommand (s : State) : State := s.withStatus s.status.complete

/-- The state when a command's pseudocode has ended or faulted: a fault is taken with bits 7:0 of the command's word
(30_encoding.md R101, 60_exceptions.md R340). -/
def commandState (i : Instr) : EStateM.Result Cause State Unit → State
  | .ok _ t => endCommand t
  | .error c t => raiseFault c ((opcode i).setWidth 64) t

/-- Run a command's pseudocode to its end or to its fault; either way there is a next state (60_exceptions.md R346). -/
def runCommand (i : Instr) (body : Cmd Unit) (s : State) : Host.Outcome State Fault Refusal :=
  .next (commandState i (body s))

end Sys2Proof.Machine
end

