-- ==== Sys2Proof/Machine/Operands.lean ====
section
/-! DEFINITION. Operands and results of a command (30_encoding.md R102, R103; 10_state.md R23): an operand is the whole
64-bit value of its `ARG` register, unsigned, but for `ARG2` of `RG.SPLIT`, which is signed. -/

namespace Sys2Proof.Machine

/-- `ARG0` as an operand of formats A, AB, ABC. -/
def State.operand0 (s : State) : Nat := s.arg0.toNat

/-- `ARG1` as an operand of formats AB, ABC. -/
def State.operand1 (s : State) : Nat := s.arg1.toNat

/-- `ARG2` as an operand of format ABC. -/
def State.operand2 (s : State) : Nat := s.arg2.toNat

/-- `signed(ARG2)`, the operand `d` of `RG.SPLIT` (30_encoding.md R103). -/
def State.signedOperand2 (s : State) : Int := s.arg2.toInt

/-- `zext_64(v)` (00_scope.md R10). -/
def zext64 (v : Nat) : Word := BitVec.ofNat 64 v

/-- `sext_64(v)` (00_scope.md R10). -/
def sext64 (v : Int) : Word := BitVec.ofInt 64 v

/-- `RES0 <- v`. -/
def setRes0 (v : Word) : Cmd Unit := update (fun s => s.withRes0 v)

/-- `RES1 <- v`. -/
def setRes1 (v : Word) : Cmd Unit := update (fun s => s.withRes1 v)

/-- `RES2 <- v`. -/
def setRes2 (v : Word) : Cmd Unit := update (fun s => s.withRes2 v)

/-- `RES3 <- v`. -/
def setRes3 (v : Word) : Cmd Unit := update (fun s => s.withRes3 v)

end Sys2Proof.Machine
end

