-- ==== Sys2Proof/Machine/RangeDecoder.lean ====
section
/-! DEFINITION. The range decoder: `RD.INIT`, `RD.COUNT`, `RD.REMOVE`, `RD.NUM` (40_range_decoder.md). -/

namespace Sys2Proof.Machine

/-- `RdByte()`, 40_range_decoder.md R142: the next input byte, or a counted pad byte of zero. -/
def rdByte (s : State) : Byte × State :=
  if s.rd.pos.toNat < s.rd.len.toNat then
    (s.inByte s.rd.pos.toNat, s.withRd { s.rd with pos := s.rd.pos + 1 })
  else
    (0, (s.withRd { s.rd with pad := s.rd.pad + 1 }).withStatus s.status.padded)

/-- Take `n` bytes into the window: `c <- c * 256 + RdByte()` (40_range_decoder.md R141). -/
def rdSeed : Nat → Window → State → Window × State
  | 0, c, s => (c, s)
  | n + 1, c, s =>
    let r := rdByte s
    rdSeed n (BitVec.ofNat 48 (c.toNat * 256 + r.1.toNat)) r.2

/-- The assignments of `RdInit(len)` before the seed (40_range_decoder.md R141). -/
def rdRestart (len : Nat) (s : State) : State :=
  (s.withRd { s.rd with len := zext64 len, pos := 0, pad := 0, coder := ⟨0, rangeInit⟩ }).withStatus s.status.unpadded

/-- `RdInit(len)`, 40_range_decoder.md R141. -/
def rdInit (len : Nat) (s : State) : State :=
  let r := rdSeed seedBytes 0 (rdRestart len s)
  r.2.withRd { r.2.rd with code := r.1, state := .ready }

/-- `RdCount(total)`, 40_range_decoder.md R143. -/
def rdCount (total : Nat) : Cmd Nat := fun s =>
  let c := s.rd.coder.divide total
  let count := c.countOf s.rd.code
  .ok count
    (s.withRd { s.rd with
      coder := c, total := BitVec.ofNat 33 total, count := BitVec.ofNat 48 count, state := .peeked })

/-- One shift of the decoder (40_range_decoder.md R145), `c` being `(low, range)` as the shift is reached. -/
def rdShift (c : Coder) (s : State) : State :=
  let r := rdByte s
  r.2.withRd { r.2.rd with code := shiftCode r.2.rd.code r.1, coder := c.shift }

/-- `RdNormalize()`, 40_range_decoder.md R145, R147. -/
def rdNormalize : Nat → Cmd Unit
  | 0, s => .ok () s
  | n + 1, s =>
    match s.rd.coder.toShift with
    | none => .ok () s
    | some c =>
      if c.collapsed then .error .collapseDecoder (s.withRd { s.rd with coder := c })
      else rdNormalize n (rdShift c s)

/-- `RdRemove(bottom, top)`, 40_range_decoder.md R144. -/
def rdRemove (bottom top : Nat) : Cmd Unit := do
  update (fun s => s.withRd { s.rd with coder := s.rd.coder.narrow bottom top })
  rdNormalize normalizeRounds
  update (fun s => s.withRd { s.rd with state := .ready })

/-- `ReadNumber(max)`, 40_range_decoder.md R149. -/
def readNumber (max : Nat) : Cmd Nat :=
  if max < 2 then pure 0
  else do
    let c ← rdCount max
    require (c < max) .corruptSymbol
    rdRemove c (c + 1)
    pure c

/-- `RD.INIT len`, 40_range_decoder.md R150. -/
def rdInitBody : Cmd Unit := do
  let s ← get
  require (s.operand0 ≤ s.cfg.inCap) .argValue
  update (rdInit s.operand0)
  update (fun t => t.withRes0 (t.rd.code.setWidth 64))

/-- `RD.COUNT total`, 40_range_decoder.md R151. -/
def rdCountBody : Cmd Unit := do
  let s ← get
  require (s.rd.state = .ready) .protocolDecoder
  require (1 ≤ s.operand0 ∧ s.operand0 ≤ totalMax) .argTotal
  let count ← rdCount s.operand0
  setRes0 (zext64 count)

/-- `RD.REMOVE bottom, top`, 40_range_decoder.md R152. -/
def rdRemoveBody : Cmd Unit := do
  let s ← get
  require (s.rd.state = .peeked) .protocolDecoder
  require (s.operand0 < s.operand1 ∧ s.operand1 ≤ s.rd.total.toNat) .argInterval
  require (s.operand0 ≤ s.rd.count.toNat ∧ s.rd.count.toNat < s.operand1) .argCount
  rdRemove s.operand0 s.operand1

/-- `RD.NUM max`, 40_range_decoder.md R153. -/
def rdNumBody : Cmd Unit := do
  let s ← get
  require (s.rd.state = .ready) .protocolDecoder
  require (s.operand0 ≤ totalMax) .argTotal
  let v ← readNumber s.operand0
  setRes0 (zext64 v)

/-- The meaning of `RD.INIT`. -/
def execRdInit (s : State) : Host.Outcome State Fault Refusal := runCommand .rdInit rdInitBody s

/-- The meaning of `RD.COUNT`. -/
def execRdCount (s : State) : Host.Outcome State Fault Refusal := runCommand .rdCount rdCountBody s

/-- The meaning of `RD.REMOVE`. -/
def execRdRemove (s : State) : Host.Outcome State Fault Refusal := runCommand .rdRemove rdRemoveBody s

/-- The meaning of `RD.NUM`. -/
def execRdNum (s : State) : Host.Outcome State Fault Refusal := runCommand .rdNum rdNumBody s

end Sys2Proof.Machine
end

