-- ==== Sys2Proof/Machine/Region.lean ====
section
/-! DEFINITION. Regions (46_region_split.md R265) and the validity of the parameter bank (44_codec_params.md R221), which
the commands of several units test. -/

namespace Sys2Proof.Machine

/-- The spans of a region: `SPAN[base .. base + count)` (10_state.md R36). -/
def State.spansFrom (s : State) : Nat → Nat → List SpanRec
  | 0, _ => []
  | k + 1, i => s.spanRec i :: s.spansFrom k (i + 1)

/-- The spans of the region of node `n`, in order (10_state.md R36). -/
def State.regionOf (s : State) (n : Nat) : List SpanRec := s.spansFrom (s.nodeRec n).count (s.nodeRec n).base

/-- A span inside the raster: `x0 < x1 <= DIM_MAX`, `y < DIM_MAX` (46_region_split.md R265). -/
def SpanRec.ok (dimMax : Nat) (p : SpanRec) : Bool :=
  decide (p.x0 < p.x1) && decide (p.x1 ≤ dimMax) && decide (p.y < dimMax)

/-- `y` is non-decreasing along a region (46_region_split.md R265, 10_state.md R37). -/
def rowsSorted : List SpanRec → Bool
  | [] => true
  | [_] => true
  | p :: q :: rest => decide (p.y ≤ q.y) && rowsSorted (q :: rest)

/-- `RegionOk(n)`, 46_region_split.md R265. -/
def State.regionOk (s : State) (n : Nat) : Bool :=
  decide (n < s.cfg.nodeCap) &&
  (decide ((s.nodeRec n).count ≤ (s.nodeRec n).cap) &&
  (decide ((s.nodeRec n).base + (s.nodeRec n).cap ≤ s.cfg.spanCap) &&
  ((s.regionOf n).all (SpanRec.ok s.cfg.dimMax) && rowsSorted (s.regionOf n))))

/-- A width or a height that the bank may have: 1 to `DIM_MAX` (44_codec_params.md R221). -/
def dimOk (dimMax : Nat) (v : Word) : Bool := decide (1 ≤ v.toNat) && decide (v.toNat ≤ dimMax)

/-- A colour quantizer that the bank may have: 2 to 2^32 (44_codec_params.md R221). -/
def quantizerOk (v : Word) : Bool := decide (2 ≤ v.toNat) && decide (v.toNat ≤ 2 ^ 32)

/-- The bounds of `CP_ANGLEBITS[i]` and `CP_LEVELSCALE[i]` (44_codec_params.md R221). -/
def CpRegs.levelOk (b : CpRegs) (angleBitsMax : Nat) (i : Fin 7) : Bool :=
  decide ((b.angleBits[i]).toNat ≤ angleBitsMax) && decide ((b.levelScale[i]).toNat ≤ 2 ^ 63 - 1)

/-- `ParamsValid()` on a bank, 44_codec_params.md R221. -/
def CpRegs.valid (b : CpRegs) (c : Config) : Bool :=
  dimOk c.dimMax b.width && dimOk c.dimMax b.height &&
  decide (16 ≤ b.lineQuant.toNat) && decide (b.lineQuant.toNat ≤ 2 ^ 40) && decide (b.lineLimit.toNat ≤ 2 ^ 32) &&
  quantizerOk b.qr && quantizerOk b.qg && quantizerOk b.qb &&
  decide (b.palSize.toNat ≤ c.paletteMax) &&
  (b.levelOk c.angleBitsMax 0 && b.levelOk c.angleBitsMax 1 && b.levelOk c.angleBitsMax 2 && b.levelOk c.angleBitsMax 3 &&
    b.levelOk c.angleBitsMax 4 && b.levelOk c.angleBitsMax 5 && b.levelOk c.angleBitsMax 6)

/-- `ParamsValid()`, 44_codec_params.md R221. -/
def State.paramsValid (s : State) : Bool := s.cp.valid s.cfg

/-- The bank's width and height are valid (44_codec_params.md R230, R231). -/
def State.dimsValid (s : State) : Bool := dimOk s.cfg.dimMax s.cp.width && dimOk s.cfg.dimMax s.cp.height

end Sys2Proof.Machine
end

