-- ==== Sys2Proof/Machine/CodecParams.lean ====
section
/-! DEFINITION. The codec parameters: `CP.SETCODE`, `CP.READ`, `CP.SIZE`, `CP.LEVEL`, `CP.DEQ` (44_codec_params.md). -/

namespace Sys2Proof.Machine

/-- One level of the placeholder derivation: `floor((w^2 + h^2) / 4^i)` (95_test_vectors.md section 2). -/
def testLevelScale (w h i : Nat) : Word := zext64 ((w * w + h * h) / 4 ^ i)

/-- One level of the placeholder derivation: `max(code + 1 - i, 0)` (95_test_vectors.md section 2). -/
def testAngleBits (code i : Nat) : Word := zext64 (code + 1 - i)

/-- The placeholder `DeriveParams` of the test configuration TC (95_test_vectors.md section 2; not normative, log 3). -/
def testDerive (code w h : Nat) : Derived where
  levelScale := #v[testLevelScale w h 0, testLevelScale w h 1, testLevelScale w h 2, testLevelScale w h 3,
    testLevelScale w h 4, testLevelScale w h 5, testLevelScale w h 6]
  angleBits := #v[testAngleBits code 0, testAngleBits code 1, testAngleBits code 2, testAngleBits code 3,
    testAngleBits code 4, testAngleBits code 5, testAngleBits code 6]
  lineLimit := 63
  lineQuant := 262144
  qr := 4
  qg := 4
  qb := 4

/-- `DeriveParams(code, width, height)`, 44_codec_params.md R224: the implementation's (log 3). -/
def deriveFor (d : Derivation) (code w h : Nat) : Derived :=
  match d with
  | .platform => Config.deriveParams code w h
  | .testConfig => testDerive code w h

/-- The bank with a derivation's result and the code written to it (44_codec_params.md R225). -/
def CpRegs.loadDerived (b : CpRegs) (code : Nat) (d : Derived) : CpRegs :=
  { b with
    levelScale := d.levelScale
    angleBits := d.angleBits
    lineLimit := d.lineLimit
    lineQuant := d.lineQuant
    qr := d.qr
    qg := d.qg
    qb := d.qb
    code := zext64 code }

/-- `SetCode(code)`, 44_codec_params.md R225. -/
def setCode (code : Nat) (s : State) : State :=
  s.withCp (s.cp.loadDerived code (deriveFor s.cfg.derive code s.cp.width.toNat s.cp.height.toNat))

/-- More groups than any size code has: from the second group on `bits` grows with each, and it ends above `DIM_MAX`
(44_codec_params.md R226; log 18). -/
def Config.sizeRounds (c : Config) : Nat := c.dimMax + 2

/-- The loop of `ReadSize()` from the accumulator `bits` (44_codec_params.md R226). -/
def readSizeLoop (c : Config) : Nat → Int → Cmd Nat
  | 0, bits => pure bits.toNat
  | n + 1, bits => do
    let v ← readNumber c.sizeGroupTotal
    let folded : Int := 8 * bits + v + 8
    require (folded ≤ c.dimMax) .corruptSize
    if folded < 8 then readSizeLoop c n folded
    else do
      let f ← readNumber 2
      if f = 1 then readSizeLoop c n folded else pure folded.toNat

/-- `ReadSize()`, 44_codec_params.md R226. -/
def readSize : Cmd Nat := do
  let s ← get
  readSizeLoop s.cfg s.cfg.sizeRounds (-1)

/-- The loop of `ReadPalette()` for the `k` colours from index `i` on (44_codec_params.md R227). -/
def readPaletteLoop : Nat → Nat → Cmd Unit
  | 0, _ => pure ()
  | k + 1, i => do
    let r ← readNumber 256
    let g ← readNumber 256
    let b ← readNumber 256
    update (fun s => s.putPal i ⟨BitVec.ofNat 8 r, BitVec.ofNat 8 g, BitVec.ofNat 8 b, 255⟩)
    readPaletteLoop k (i + 1)

/-- `ReadPalette()`, 44_codec_params.md R227. -/
def readPalette : Cmd Unit := do
  let s ← get
  let n ← readNumber (s.cfg.paletteMax + 1)
  readPaletteLoop n 0
  update (fun t => t.withCp { t.cp with palSize := zext64 n })

/-- The sizes of a header: width then height, each written as it is read (44_codec_params.md R231). -/
def readDims : Cmd Unit := do
  let w ← readSize
  update (fun s => s.withCp { s.cp with width := zext64 w })
  let h ← readSize
  update (fun s => s.withCp { s.cp with height := zext64 h })

/-- `ReadHeader(flags)`, 44_codec_params.md R231; the value is the parameter code. -/
def readHeader (flags : Nat) : Cmd Nat := do
  if flags % 2 = 0 then readDims else pure ()
  let s ← get
  let code ← readNumber s.cfg.maxCode
  update (setCode code)
  readPalette
  pure code

/-- The least element of a list, with a start value. -/
def leastOf (start : Int) (l : List Int) : Int := l.foldl min start

/-- The greatest element of a list, with a start value. -/
def greatestOf (start : Int) (l : List Int) : Int := l.foldl max start

/-- The squared diagonal of the bounding box of a non-empty region, in whole pixels (44_codec_params.md R228). -/
def diagonalSquared (p : SpanRec) (rest : List SpanRec) : Nat :=
  let dx := greatestOf p.x1 (rest.map (fun q => (q.x1 : Int))) - leastOf p.x0 (rest.map (fun q => (q.x0 : Int)))
  let dy := greatestOf p.y (rest.map (fun q => (q.y : Int))) - leastOf p.y (rest.map (fun q => (q.y : Int))) + 1
  (dx * dx + dy * dy).toNat

/-- The smallest level whose threshold `diag2` reaches, or the last (44_codec_params.md R228). -/
def CpRegs.levelFor (b : CpRegs) (diag2 : Nat) : Fin 7 :=
  if (b.levelScale[0]).toNat ≤ diag2 then 0
  else if (b.levelScale[1]).toNat ≤ diag2 then 1
  else if (b.levelScale[2]).toNat ≤ diag2 then 2
  else if (b.levelScale[3]).toNat ≤ diag2 then 3
  else if (b.levelScale[4]).toNat ≤ diag2 then 4
  else if (b.levelScale[5]).toNat ≤ diag2 then 5
  else 6

/-- `GetLevel(n)`: the level and the squared diagonal; none for an empty region (44_codec_params.md R228). -/
def State.getLevel (s : State) (n : Nat) : Option (Fin 7 × Nat) :=
  match s.regionOf n with
  | [] => none
  | p :: rest => some (s.cp.levelFor (diagonalSquared p rest), diagonalSquared p rest)

/-- `DequantizeColor(v, q)`, 44_codec_params.md R229. -/
def dequantizeColor (v q : Nat) : Nat := (255 * v + q - 2) / (q - 1)

/-- `CP.SETCODE code`, 44_codec_params.md R230. -/
def cpSetcodeBody : Cmd Unit := do
  let s ← get
  require (s.ft.phase ≠ .build) .protocolLock
  require (s.operand0 < s.cfg.maxCode) .argValue
  require (s.dimsValid = true) .argBank
  update (setCode s.operand0)
  setRes0 s.arg0

/-- `CP.READ flags`, 44_codec_params.md R231. -/
def cpReadBody : Cmd Unit := do
  let s ← get
  require (s.rd.state = .ready) .protocolDecoder
  require (s.ft.phase ≠ .build) .protocolLock
  require (s.operand0 < 2) .argValue
  require (s.operand0 = 1 → s.dimsValid = true) .argBank
  let code ← readHeader s.operand0
  update (fun t => t.withRes0 t.cp.width)
  update (fun t => t.withRes1 t.cp.height)
  setRes2 (zext64 code)
  update (fun t => t.withRes3 t.cp.palSize)

/-- `CP.SIZE`, 44_codec_params.md R232. -/
def cpSizeBody : Cmd Unit := do
  let s ← get
  require (s.rd.state = .ready) .protocolDecoder
  let n ← readSize
  setRes0 (zext64 n)

/-- `CP.LEVEL node`, 44_codec_params.md R233. -/
def cpLevelBody : Cmd Unit := do
  let s ← get
  require (s.regionOk s.operand0 = true) .argValue
  require (s.paramsValid = true) .argBank
  match s.getLevel s.operand0 with
  | none => raise .corruptRegion
  | some (level, diag2) => do
    setRes0 (zext64 level.val)
    setRes1 (zext64 diag2)

/-- `CP.DEQ v, q`, 44_codec_params.md R234. -/
def cpDeqBody : Cmd Unit := do
  let s ← get
  require (2 ≤ s.operand1 ∧ s.operand1 ≤ 2 ^ 32 ∧ s.operand0 < s.operand1) .argValue
  setRes0 (zext64 (dequantizeColor s.operand0 s.operand1))

/-- The meaning of `CP.SETCODE`. -/
def execCpSetcode (s : State) : Host.Outcome State Fault Refusal := runCommand .cpSetcode cpSetcodeBody s

/-- The meaning of `CP.READ`. -/
def execCpRead (s : State) : Host.Outcome State Fault Refusal := runCommand .cpRead cpReadBody s

/-- The meaning of `CP.SIZE`. -/
def execCpSize (s : State) : Host.Outcome State Fault Refusal := runCommand .cpSize cpSizeBody s

/-- The meaning of `CP.LEVEL`. -/
def execCpLevel (s : State) : Host.Outcome State Fault Refusal := runCommand .cpLevel cpLevelBody s

/-- The meaning of `CP.DEQ`. -/
def execCpDeq (s : State) : Host.Outcome State Fault Refusal := runCommand .cpDeq cpDeqBody s

end Sys2Proof.Machine
end

