-- ==== Sys2Proof/Machine/Trig.lean ====
section
/-! DEFINITION. Reading the trigonometry ROM (43_trig_lut.md R211) and `TG.LOOKUP`. The image is a parameter of the
implementation (00_scope.md R6), never written. -/

namespace Sys2Proof.Machine

/-- `N_ANGLES`, 00_scope.md R6: `2^ANGLE_BITS_MAX`. -/
def Config.nAngles (c : Config) : Nat := 2 ^ c.angleBitsMax

/-- `TRIG_SIN[a]` (43_trig_lut.md R211). -/
def Config.trigSin (c : Config) (a : Nat) : Int := c.sines.getD a 0

/-- `TRIG_COS[a]` (43_trig_lut.md R211). -/
def Config.trigCos (c : Config) (a : Nat) : Int := c.cosines.getD a 0

/-- `TG.LOOKUP angle`, 43_trig_lut.md R214. -/
def tgLookupBody : Cmd Unit := do
  let s ← get
  require (s.operand0 < s.cfg.nAngles) .argValue
  setRes0 (sext64 (s.cfg.trigSin s.operand0))
  setRes1 (sext64 (s.cfg.trigCos s.operand0))

/-- The meaning of `TG.LOOKUP`. -/
def execTgLookup (s : State) : Host.Outcome State Fault Refusal := runCommand .tgLookup tgLookupBody s

end Sys2Proof.Machine
end

