-- ==== Sys2Proof/Machine/DistanceQuantizer.lean ====
section
/-! DEFINITION. The distance quantizer: `DR.UPDATE`, `DR.DIST` (45_distance_quantizer.md). -/

namespace Sys2Proof.Machine

/-- `Proj(nx, ny, x, y)` for the unit vector of angle index `a` (45_distance_quantizer.md R251, R252). -/
def proj (c : Config) (a x y : Nat) : Int := c.trigCos a * y + c.trigSin a * x

/-- The projections of a span's first and last pixel (45_distance_quantizer.md R252). -/
def spanProjections (c : Config) (a : Nat) (p : SpanRec) : List Int := [proj c a p.x0 p.y, proj c a (p.x1 - 1) p.y]

/-- The projections of the end pixels of every span (45_distance_quantizer.md R253). -/
def projections (c : Config) (a : Nat) (l : List SpanRec) : List Int := l.flatMap (spanProjections c a)

/-- Grow the quantum while it gives more lines than the limit (45_distance_quantizer.md R253). Each step of a valid bank
adds at least 1, so `extent` rounds reach a quantum above the extent (log 18). -/
def growQuantum (extent limit : Nat) : Nat → Nat → Nat
  | 0, q => q
  | n + 1, q => if extent / q > limit then growQuantum extent limit n (q + q / 16) else q

/-- `DrUpdate(n, a)` with the region's spans given as the first and the rest (45_distance_quantizer.md R253). -/
def drUpdateWith (a : Nat) (p : SpanRec) (rest : List SpanRec) (s : State) : State :=
  let ps := projections s.cfg a (p :: rest)
  let mi := leastOf (proj s.cfg a p.x0 p.y) ps
  let ma := greatestOf (proj s.cfg a p.x0 p.y) ps
  let extent := (ma - mi).toNat
  let q := growQuantum extent s.cp.lineLimit.toNat extent s.cp.lineQuant.toNat
  s.withDr
    { valid := true, min := sext64 mi, max := sext64 ma, quant := zext64 q, numLines := zext64 (extent / q),
      angle := zext64 a }

/-- `DrUpdate(n, a)` for a non-empty region `n`, 45_distance_quantizer.md R253; on an empty one, for which the rule gives
no effect and which every caller excludes, nothing. -/
def drUpdate (n a : Nat) (s : State) : State :=
  match s.regionOf n with
  | [] => s
  | p :: rest => drUpdateWith a p rest s

/-- `DrDistance(line)`, 45_distance_quantizer.md R254. -/
def drDistance (d : DrRegs) (line : Nat) : Int :=
  let extent := d.max.toInt - d.min.toInt
  if d.numLines.toNat > 1 then
    d.min.toInt + (extent - ((d.numLines.toNat : Int) - 1) * d.quant.toNat) / 2 + d.quant.toNat * line
  else (d.max.toInt + d.min.toInt).tdiv 2

/-- `DR.UPDATE node, angle`, 45_distance_quantizer.md R255. -/
def drUpdateBody : Cmd Unit := do
  let s ← get
  require (s.regionOk s.operand0 = true) .argValue
  require (s.operand1 < s.cfg.nAngles) .argValue
  require (s.paramsValid = true) .argBank
  require (0 < (s.nodeRec s.operand0).count) .corruptRegion
  update (drUpdate s.operand0 s.operand1)
  update (fun t => t.withRes0 t.dr.numLines)
  update (fun t => t.withRes1 t.dr.quant)
  update (fun t => t.withRes2 t.dr.min)
  update (fun t => t.withRes3 t.dr.max)

/-- `DR.DIST line`, 45_distance_quantizer.md R256. -/
def drDistBody : Cmd Unit := do
  let s ← get
  require (s.dr.valid = true) .protocolDistance
  require (s.operand0 < max s.dr.numLines.toNat 1) .argValue
  setRes0 (sext64 (drDistance s.dr s.operand0))

/-- The meaning of `DR.UPDATE`. -/
def execDrUpdate (s : State) : Host.Outcome State Fault Refusal := runCommand .drUpdate drUpdateBody s

/-- The meaning of `DR.DIST`. -/
def execDrDist (s : State) : Host.Outcome State Fault Refusal := runCommand .drDist drDistBody s

end Sys2Proof.Machine
end

