-- ==== Sys2Proof/Machine/RegionSplit.lean ====
section
/-! DEFINITION. The region splitter: `RG.SPLIT` (46_region_split.md). -/

namespace Sys2Proof.Machine

/-- `xc`, the first column of row `y` that goes left, where `nx` is not 0 (46_region_split.md R266). -/
def crossing (c : Config) (a : Nat) (d : Int) (y : Nat) : Int :=
  (2 * d + c.trigSin a - 2 * c.trigCos a * y) / (2 * c.trigSin a)

/-- The left part of one span (46_region_split.md R266). -/
def leftPart (c : Config) (a : Nat) (d : Int) (p : SpanRec) : List SpanRec :=
  if c.trigSin a = 0 then (if d ≤ c.trigCos a * p.y then [p] else [])
  else if crossing c a d p.y < p.x1 then [{ p with x0 := (max (crossing c a d p.y) p.x0).toNat }] else []

/-- The right part of one span (46_region_split.md R266). -/
def rightPart (c : Config) (a : Nat) (d : Int) (p : SpanRec) : List SpanRec :=
  if c.trigSin a = 0 then (if d ≤ c.trigCos a * p.y then [] else [p])
  else if (p.x0 : Int) < crossing c a d p.y then [{ p with x1 := (min (crossing c a d p.y) p.x1).toNat }] else []

/-- The list `L` of `SplitSpans` (46_region_split.md R266). -/
def leftSpans (c : Config) (a : Nat) (d : Int) (l : List SpanRec) : List SpanRec := l.flatMap (leftPart c a d)

/-- The list `R` of `SplitSpans` (46_region_split.md R266). -/
def rightSpans (c : Config) (a : Nat) (d : Int) (l : List SpanRec) : List SpanRec := l.flatMap (rightPart c a d)

/-- One side of `SplitInto`: the spans are stored from the node's base on and its count is written (46_region_split.md
R267); the entries of its reservation above the count become free values (log 8). -/
def storeRegion (n : Nat) (l : List SpanRec) (s : State) : State :=
  let r := s.nodeRec n
  let stored := Memory.writeList l r.base s.spanMem
  let freed := Memory.fill (Config.freeSpan s.freeCount) (r.cap - l.length) (r.base + l.length) stored
  ((s.withSpanMem freed).putNode n { r with count := l.length }).countFree

/-- `SplitInto(n, a, d, l, r)`, 46_region_split.md R267. -/
def splitInto (n a : Nat) (d : Int) (l r : Nat) (s : State) : State :=
  storeRegion r (rightSpans s.cfg a d (s.regionOf n)) (storeRegion l (leftSpans s.cfg a d (s.regionOf n)) s)

/-- Two reserved intervals `[base, base + cap)` are disjoint (46_region_split.md R270). -/
def reservedDisjoint (p q : NodeRec) : Bool :=
  decide (p.base + p.cap ≤ q.base) || decide (q.base + q.cap ≤ p.base) || decide (p.cap = 0) || decide (q.cap = 0)

/-- The destinations of a split are usable (46_region_split.md R270). -/
def State.destinationsOk (s : State) (n : Nat) : Bool :=
  let p := s.nodeRec n
  let l := s.nodeRec p.left
  let r := s.nodeRec p.right
  decide (p.left < s.cfg.nodeCap) && decide (p.right < s.cfg.nodeCap) &&
  decide (p.left ≠ p.right) && decide (p.left ≠ n) && decide (p.right ≠ n) &&
  decide (p.count ≤ l.cap) && decide (p.count ≤ r.cap) &&
  decide (l.base + l.cap ≤ s.cfg.spanCap) && decide (r.base + r.cap ≤ s.cfg.spanCap) &&
  reservedDisjoint l r && reservedDisjoint p l && reservedDisjoint p r

/-- `RG.SPLIT node, angle, d`, 46_region_split.md R270. -/
def rgSplitBody : Cmd Unit := do
  let s ← get
  require (s.ft.phase ≠ .build) .protocolTree
  require (s.regionOk s.operand0 = true) .argValue
  require (s.operand1 < s.cfg.nAngles) .argValue
  require (-(2 ^ 40 : Int) < s.signedOperand2 ∧ s.signedOperand2 < 2 ^ 40) .argValue
  require (s.destinationsOk s.operand0 = true) .argValue
  update (splitInto s.operand0 s.operand1 s.signedOperand2 (s.nodeRec s.operand0).left (s.nodeRec s.operand0).right)
  update (fun t => t.withRes0 (zext64 (t.nodeRec (s.nodeRec s.operand0).left).count))
  update (fun t => t.withRes1 (zext64 (t.nodeRec (s.nodeRec s.operand0).right).count))

/-- The meaning of `RG.SPLIT`. -/
def execRgSplit (s : State) : Host.Outcome State Fault Refusal := runCommand .rgSplit rgSplitBody s

end Sys2Proof.Machine
end

