-- ==== Sys2Proof/Machine/FragmentTree.lean ====
section
/-! DEFINITION. The fragment tree decoder and rasterizer: `FT.ROOT`, `FT.PARSE`, `FT.RENDER`, `FT.DECODE`
(47_fragment_tree.md). -/

namespace Sys2Proof.Machine

/-- A node record just allocated: `UNREAD`, its reservation, other fields 0 (47_fragment_tree.md R281, R283). -/
def NodeRec.fresh (base count cap : Nat) : NodeRec where
  kind := .unread
  colour := ⟨0, 0, 0, 0⟩
  left := 0
  right := 0
  base := base
  count := count
  cap := cap

/-- `AllocChildren(n)`, 47_fragment_tree.md R281. -/
def allocChildren (n : Nat) : Cmd (Nat × Nat) := do
  let s ← get
  let c := (s.nodeRec n).count
  require (s.ft.tail.toNat + 2 ≤ s.cfg.nodeCap) .capacityNode
  require (s.ft.spanTop.toNat + 2 * c ≤ s.cfg.spanCap) .capacitySpan
  update (fun t => t.putNode s.ft.tail.toNat (NodeRec.fresh s.ft.spanTop.toNat 0 c))
  update (fun t => t.putNode (s.ft.tail.toNat + 1) (NodeRec.fresh (s.ft.spanTop.toNat + c) 0 c))
  update (fun t => t.withFt { t.ft with tail := zext64 (s.ft.tail.toNat + 2), spanTop := zext64 (s.ft.spanTop.toNat + 2 * c) })
  pure (s.ft.tail.toNat, s.ft.tail.toNat + 1)

/-- One span per row, the full width, for the `k` rows from `y` on (47_fragment_tree.md R283). -/
def rootSpans (width : Nat) : Nat → Nat → List SpanRec
  | 0, _ => []
  | k + 1, y => ⟨y, 0, width⟩ :: rootSpans width k (y + 1)

/-- The state that `MakeRoot()` leaves (47_fragment_tree.md R283). -/
def rootState (s : State) : State :=
  let h := s.cp.height.toNat
  (((s.withSpanMem (Memory.writeList (rootSpans s.cp.width.toNat h 0) 0 s.spanMem)).putNode 0 (NodeRec.fresh 0 h h)).withDr
    { s.dr with valid := false }).withFt { phase := .build, head := 0, tail := 1, spanTop := zext64 h }

/-- `MakeRoot()`, 47_fragment_tree.md R283. -/
def makeRoot : Cmd Unit := do
  let s ← get
  require (1 ≤ s.cfg.nodeCap) .capacityNode
  require (s.cp.height.toNat ≤ s.cfg.spanCap) .capacitySpan
  update rootState

/-- `ReadColor()`, 47_fragment_tree.md R284. -/
def readColor : Cmd Colour := do
  let s ← get
  if 0 < s.cp.palSize.toNat then do
    let k ← readNumber s.cp.palSize.toNat
    pure (s.palEntry k)
  else do
    let vr ← readNumber s.cp.qr.toNat
    let vg ← readNumber s.cp.qg.toNat
    let vb ← readNumber s.cp.qb.toNat
    pure ⟨BitVec.ofNat 8 (dequantizeColor vr s.cp.qr.toNat), BitVec.ofNat 8 (dequantizeColor vg s.cp.qg.toNat),
      BitVec.ofNat 8 (dequantizeColor vb s.cp.qb.toNat), 255⟩

/-- `ReadAngle(level)`, 47_fragment_tree.md R285. -/
def readAngle (level : Fin 7) : Cmd Nat := do
  let s ← get
  let b := (s.cp.angleBits[level]).toNat
  let idx ← readNumber (2 ^ b)
  pure (idx * 2 ^ (s.cfg.angleBitsMax - b))

/-- The Fill case of `ParseNode()` (47_fragment_tree.md R286). -/
def parseFill (n : Nat) : Cmd Unit := do
  let c ← readColor
  update (fun s => s.putNode n { s.nodeRec n with colour := c })
  update (fun s => s.putNode n { s.nodeRec n with kind := .fill })

/-- The Split case of `ParseNode()` (47_fragment_tree.md R286). -/
def parseSplit (n : Nat) : Cmd Unit := do
  let s ← get
  match s.getLevel n with
  | none => raise .corruptRegion
  | some (level, _) => do
    let ang ← readAngle level
    update (drUpdate n ang)
    let t ← get
    let line ← readNumber t.dr.numLines.toNat
    let d := drDistance t.dr line
    let kids ← allocChildren n
    update (splitInto n ang d kids.1 kids.2)
    update (fun u => u.putNode n { u.nodeRec n with left := kids.1, right := kids.2 })
    update (fun u => u.putNode n { u.nodeRec n with kind := .split })

/-- `ParseNode()`, 47_fragment_tree.md R286. -/
def parseNode : Cmd Unit := do
  let s ← get
  let t ← readNumber 2
  if t = s.cfg.nodeFill then parseFill s.ft.head.toNat else parseSplit s.ft.head.toNat
  update (fun u => u.withFt { u.ft with head := u.ft.head + 1 })

/-- Parse until the queue is empty, at most the given number of nodes (47_fragment_tree.md R302; log 18). -/
def parseAll : Nat → Cmd Unit
  | 0 => pure ()
  | k + 1 => do
    let s ← get
    if s.ft.head.toNat < s.ft.tail.toNat then do
      parseNode
      parseAll k
    else pure ()

/-- The four bytes of a pixel (20_memory.md R72). -/
def putPixel (c : Colour) (p : Nat) (s : State) : State :=
  (((s.putPix p c.r).putPix (p + 1) c.g).putPix (p + 2) c.b).putPix (p + 3) c.a

/-- The `k` pixels of row `y` from column `x` on (47_fragment_tree.md R300). -/
def paintRun (c : Colour) (y : Nat) : Nat → Nat → State → State
  | 0, _, s => s
  | k + 1, x, s => paintRun c y k (x + 1) (putPixel c (4 * (y * s.cp.width.toNat + x)) s)

/-- The pixels of a region (47_fragment_tree.md R300). -/
def paintSpans (c : Colour) : List SpanRec → State → State
  | [], s => s
  | p :: rest, s => paintSpans c rest (paintRun c p.y (p.x1 - p.x0) p.x0 s)

/-- One node of the render: a Fill leaf paints its region (47_fragment_tree.md R300). -/
def renderNode (n : Nat) (s : State) : State :=
  match (s.nodeRec n).kind with
  | .fill => paintSpans (s.nodeRec n).colour (s.regionOf n) s
  | .unread => s
  | .split => s

/-- The render of the `k` nodes from id `n` on (47_fragment_tree.md R300). -/
def renderFrom : Nat → Nat → State → State
  | 0, _, s => s
  | k + 1, n, s => renderFrom k (n + 1) (renderNode n s)

/-- `Render()`, 47_fragment_tree.md R300. -/
def render : Cmd Unit := do
  let s ← get
  require (4 * s.cp.width.toNat * s.cp.height.toNat ≤ s.cfg.pixCap) .capacityPix
  update (renderFrom s.ft.tail.toNat 0)

/-- `FT_PHASE <- p`. -/
def setPhase (p : FtPhase) : Cmd Unit := update (fun s => s.withFt { s.ft with phase := p })

/-- `RES0 <- CP_WIDTH; RES1 <- CP_HEIGHT; RES2 <- FT_TAIL` (47_fragment_tree.md R301, R302). -/
def setImageResults : Cmd Unit := do
  update (fun s => s.withRes0 s.cp.width)
  update (fun s => s.withRes1 s.cp.height)
  update (fun s => s.withRes2 s.ft.tail)

/-- The value of a node's `kind` (10_state.md R36). -/
def NodeKind.toNat : NodeKind → Nat
  | .unread => 0
  | .fill => 1
  | .split => 2

/-- `FT.ROOT`, 47_fragment_tree.md R290. -/
def ftRootBody : Cmd Unit := do
  let s ← get
  require (s.paramsValid = true) .argBank
  makeRoot
  setRes0 1

/-- `FT.PARSE`, 47_fragment_tree.md R291. -/
def ftParseBody : Cmd Unit := do
  let s ← get
  require (s.ft.phase = .build) .protocolTree
  require (s.ft.head.toNat < s.ft.tail.toNat) .protocolTree
  require (s.rd.state = .ready) .protocolDecoder
  parseNode
  setRes0 s.ft.head
  update (fun t => t.withRes1 (zext64 (t.nodeRec s.ft.head.toNat).kind.toNat))
  update (fun t => t.withRes2 (t.ft.tail - t.ft.head))

/-- `FT.RENDER`, 47_fragment_tree.md R301. -/
def ftRenderBody : Cmd Unit := do
  let s ← get
  require (s.ft.phase = .build) .protocolTree
  require (s.ft.head = s.ft.tail) .protocolTree
  render
  setPhase .rendered
  setImageResults

/-- `FT.DECODE len, flags`, 47_fragment_tree.md R302. -/
def ftDecodeBody : Cmd Unit := do
  let s ← get
  require (s.operand0 ≤ s.cfg.inCap) .argValue
  require (s.operand1 < 2) .argValue
  require (s.operand1 = 1 → s.dimsValid = true) .argBank
  setPhase .idle
  update (rdInit s.operand0)
  let _ ← readHeader s.operand1
  let t ← get
  require (t.paramsValid = true) .argBank
  makeRoot
  parseAll s.cfg.nodeCap
  render
  setPhase .rendered
  setImageResults
  update (fun u => u.withRes3 u.rd.pad)

/-- The meaning of `FT.ROOT`. -/
def execFtRoot (s : State) : Host.Outcome State Fault Refusal := runCommand .ftRoot ftRootBody s

/-- The meaning of `FT.PARSE`. -/
def execFtParse (s : State) : Host.Outcome State Fault Refusal := runCommand .ftParse ftParseBody s

/-- The meaning of `FT.RENDER`. -/
def execFtRender (s : State) : Host.Outcome State Fault Refusal := runCommand .ftRender ftRenderBody s

/-- The meaning of `FT.DECODE`. -/
def execFtDecode (s : State) : Host.Outcome State Fault Refusal := runCommand .ftDecode ftDecodeBody s

end Sys2Proof.Machine
end

