-- ==== Sys2Proof/Machine/RangeEncoder.lean ====
section
/-! DEFINITION. The range encoder: `RE.INIT`, `RE.PUT`, `RE.NUM`, `RE.FINISH` (41_range_encoder.md). -/

namespace Sys2Proof.Machine

/-- `ReEmit(v)`, 41_range_encoder.md R171. -/
def reEmit (v : Byte) : Cmd Unit := fun s =>
  if s.re.outLen.toNat < s.cfg.outCap then
    .ok () ((s.putOut s.re.outLen.toNat v).withRe { s.re with outLen := s.re.outLen + 1 })
  else .error .capacityOut s

/-- The renormalization loop of `RePut`, 41_range_encoder.md R172. -/
def reNormalize : Nat → Cmd Unit
  | 0, s => .ok () s
  | n + 1, s =>
    match s.re.coder.toShift with
    | none => .ok () s
    | some c =>
      let t := s.withRe { s.re with coder := c }
      if c.collapsed then .error .collapseEncoder t
      else
        match reEmit c.topByte t with
        | .error e u => .error e u
        | .ok _ u => reNormalize n (u.withRe { u.re with coder := c.shift })

/-- `RePut(bottom, top, total)`, 41_range_encoder.md R172. -/
def rePut (bottom top total : Nat) : Cmd Unit := do
  update (fun s => s.withRe { s.re with coder := (s.re.coder.divide total).narrow bottom top })
  reNormalize normalizeRounds

/-- `ReLog(bottom, top, total)`, 41_range_encoder.md R173. -/
def reLog (bottom top total : Nat) : Cmd Unit := fun s =>
  if s.re.logLen.toNat < s.cfg.logCap then
    .ok ()
      ((s.putLog s.re.logLen.toNat ⟨BitVec.ofNat 33 bottom, BitVec.ofNat 33 top, BitVec.ofNat 33 total⟩).withRe
        { s.re with logLen := s.re.logLen + 1 })
  else .error .capacityLog s

/-- One round of the flush: emit the top byte, `low <- (low mod 2^40) * 256` (41_range_encoder.md R174). -/
def reFlushByte : Cmd Unit := do
  let s ← get
  reEmit s.re.coder.topByte
  update (fun t => t.withRe { t.re with
    coder := { t.re.coder with low := BitVec.ofNat 48 (t.re.coder.low.toNat % headUnit * 256) } })

/-- Flush `n` bytes of `low` (41_range_encoder.md R174). -/
def reFlush : Nat → Cmd Unit
  | 0 => pure ()
  | n + 1 => do
    reFlushByte
    reFlush n

/-- `ReFinish()`, 41_range_encoder.md R174. -/
def reFinish : Cmd Unit := do
  reFlush seedBytes
  update (fun s => s.withRe { s.re with state := .finished })

/-- `RES0 <- OUT_LEN`. -/
def setRes0OutLen : Cmd Unit := update (fun s => s.withRes0 s.re.outLen)

/-- `RE.INIT`, 41_range_encoder.md R175. -/
def reInitBody : Cmd Unit :=
  update (fun s => s.withRe { state := .opened, coder := ⟨0, rangeInit⟩, outLen := 0, logLen := 0 })

/-- `RE.PUT bottom, top, total`, 41_range_encoder.md R176. -/
def rePutBody : Cmd Unit := do
  let s ← get
  require (s.re.state = .opened) .protocolEncoder
  require (1 ≤ s.operand2 ∧ s.operand2 ≤ totalMax) .argTotal
  require (s.operand0 < s.operand1 ∧ s.operand1 ≤ s.operand2) .argInterval
  reLog s.operand0 s.operand1 s.operand2
  rePut s.operand0 s.operand1 s.operand2
  setRes0OutLen

/-- `RE.NUM max, value`, 41_range_encoder.md R177. -/
def reNumBody : Cmd Unit := do
  let s ← get
  require (s.re.state = .opened) .protocolEncoder
  require (s.operand0 ≤ totalMax) .argTotal
  require (if s.operand0 < 2 then s.operand1 = 0 else s.operand1 < s.operand0) .argValue
  if s.operand0 < 2 then pure ()
  else do
    reLog s.operand1 (s.operand1 + 1) s.operand0
    rePut s.operand1 (s.operand1 + 1) s.operand0
  setRes0OutLen

/-- `RE.FINISH`, 41_range_encoder.md R178. -/
def reFinishBody : Cmd Unit := do
  let s ← get
  require (s.re.state = .opened) .protocolEncoder
  reFinish
  setRes0OutLen

/-- The meaning of `RE.INIT`. -/
def execReInit (s : State) : Host.Outcome State Fault Refusal := runCommand .reInit reInitBody s

/-- The meaning of `RE.PUT`. -/
def execRePut (s : State) : Host.Outcome State Fault Refusal := runCommand .rePut rePutBody s

/-- The meaning of `RE.NUM`. -/
def execReNum (s : State) : Host.Outcome State Fault Refusal := runCommand .reNum reNumBody s

/-- The meaning of `RE.FINISH`. -/
def execReFinish (s : State) : Host.Outcome State Fault Refusal := runCommand .reFinish reFinishBody s

end Sys2Proof.Machine
end

