-- ==== Sys2Proof/Machine/Minimizer.lean ====
section
/-! DEFINITION. The byte minimizer: `RE.OPTFIN` (42_byte_minimizer.md). -/

namespace Sys2Proof.Machine

/-- `RpByte()`: `RdByte` on `OUT[0 .. RP_LEN)` without a pad counter (42_byte_minimizer.md R192). -/
def rpByte (out : List Host.Cell) (r : RpRegs) : Byte × RpRegs :=
  if r.pos.toNat < r.len.toNat then (outByteOf out r.pos.toNat, { r with pos := r.pos + 1 })
  else (0, r)

/-- Take `n` bytes into the window (42_byte_minimizer.md R192, 40_range_decoder.md R141). -/
def rpSeed (out : List Host.Cell) : Nat → RpRegs → RpRegs
  | 0, r => r
  | n + 1, r =>
    let b := rpByte out r
    rpSeed out n { b.2 with code := BitVec.ofNat 48 (b.2.code.toNat * 256 + b.1.toNat) }

/-- `RpInit(n)` (42_byte_minimizer.md R192). -/
def rpInit (out : List Host.Cell) (n : Nat) : RpRegs :=
  rpSeed out seedBytes { coder := ⟨0, rangeInit⟩, code := 0, pos := 0, len := BitVec.ofNat 64 n }

/-- The renormalization of the replay decoder; none on a collapse (42_byte_minimizer.md R192). -/
def rpNormalize (out : List Host.Cell) : Nat → RpRegs → Option RpRegs
  | 0, r => some r
  | n + 1, r =>
    match r.coder.toShift with
    | none => some r
    | some c =>
      if c.collapsed then none
      else
        let b := rpByte out r
        rpNormalize out n { b.2 with code := shiftCode b.2.code b.1, coder := c.shift }

/-- `RpCount(total)`: the count, and the registers with the divided range (42_byte_minimizer.md R192). -/
def rpCount (total : Nat) (r : RpRegs) : Nat × RpRegs :=
  let c := r.coder.divide total
  (c.countOf r.code, { r with coder := c })

/-- `RpRemove(bottom, top)`; none on a collapse (42_byte_minimizer.md R192). -/
def rpRemove (out : List Host.Cell) (bottom top : Nat) (r : RpRegs) : Option RpRegs :=
  rpNormalize out normalizeRounds { r with coder := r.coder.narrow bottom top }

/-- The narrowed `(low, range)` fits its 48-bit registers (00_scope.md R8) with `low + range <= 2^48`, so that `top8` of
`low + range - 1` is defined (R9). It does for every triplet the encoder logs (40_range_decoder.md R146). -/
def Coder.narrowFits (c : Coder) (bottom top : Nat) : Bool :=
  decide (c.range.toNat * (top - bottom) < 2 ^ 48) &&
  decide (c.low.toNat + bottom * c.range.toNat + c.range.toNat * (top - bottom) ≤ 2 ^ 48)

/-- The loop of `Check(n)` over `LOG[i]` for the `k` entries from `i` on (42_byte_minimizer.md R193). An entry that the
host has written over, for which the rule divides by 0, leaves 48 bits or asks for `top8` of a value from 2^48 on, has a
free verdict (log 26). -/
def replay (log : Nat → Triplet) (out : List Host.Cell) : Nat → Nat → RpRegs → Bool
  | 0, _, _ => true
  | k + 1, i, r =>
    let t := log i
    let c := rpCount t.total.toNat r
    if c.2.coder.range = 0 then Config.freeVerdict t r.coder r.code
    else if t.bottom.toNat ≤ c.1 ∧ c.1 < t.top.toNat then
      if c.2.coder.narrowFits t.bottom.toNat t.top.toNat then
        match rpRemove out t.bottom.toNat t.top.toNat c.2 with
        | none => false
        | some r' => replay log out k (i + 1) r'
      else Config.freeVerdict t r.coder r.code
    else false

/-- `Check(n)`: `OUT[0 .. n)`, zero-padded, decodes to the logged triplets (42_byte_minimizer.md R193). -/
def check (log : Nat → Triplet) (logLen : Nat) (out : List Host.Cell) (n : Nat) : Bool :=
  replay log out logLen 0 (rpInit out n)

/-- The greatest index below `n` whose byte is not 0xFF (42_byte_minimizer.md R191 (c), (d)). -/
def lastNotFF (out : List Host.Cell) : Nat → Option Nat
  | 0 => none
  | n + 1 => if outByteOf out n ≠ 0xFF then some n else lastNotFF out n

/-- The carry: `OUT[k] <- OUT[k] + 1`, zeros from `k + 1` to `n - 1` (42_byte_minimizer.md R194). -/
def carryAt (out : List Host.Cell) (k n : Nat) : List Host.Cell :=
  Memory.fill (fun _ => (0 : Byte)) (n - 1 - k) (k + 1) (Memory.write out k (outByteOf out k + 1))

/-- The search of `Minimize()`: the kept length and the contents of `OUT`, from a candidate of length `n` that validates
(42_byte_minimizer.md R194). A failed increment is undone: the contents are those before it (R191 (b)). -/
def minimizeLoop (log : Nat → Triplet) (logLen : Nat) : Nat → List Host.Cell → Nat × List Host.Cell
  | 0, out => (0, out)
  | n + 1, out =>
    if outByteOf out n = 0 then minimizeLoop log logLen n out
    else if check log logLen out n then minimizeLoop log logLen n out
    else
      match lastNotFF out n with
      | none => (n + 1, out)
      | some k =>
        if check log logLen (carryAt out k n) n then minimizeLoop log logLen n (carryAt out k n)
        else (n + 1, out)

/-- The kept output decodes to the logged triplets: `Check(OUT_LEN)` (42_byte_minimizer.md R193, R196). -/
def State.outputValidates (s : State) : Bool := check s.logEntry s.re.logLen.toNat s.outMem s.re.outLen.toNat

/-- The first half of minimality: with a byte left, `Check(OUT_LEN - 1)` is false (42_byte_minimizer.md R198). -/
def State.LastByteNeeded (s : State) : Prop :=
  0 < s.re.outLen.toNat → check s.logEntry s.re.logLen.toNat s.outMem (s.re.outLen.toNat - 1) = false

/-- Minimality: no byte string shorter than the kept output validates against the log. 42_byte_minimizer.md R198 gives it
as the source's claim, to be stated as a conjecture; `Obligations.MinimizedIsShortest` states it of `RE.OPTFIN`. -/
def State.OutputIsShortest (s : State) : Prop :=
  ∀ bytes : List Byte, bytes.length < s.re.outLen.toNat →
    check s.logEntry s.re.logLen.toNat (Memory.writeList bytes 0 []) bytes.length = false

/-- `Minimize()`, 42_byte_minimizer.md R194. The written elements of `OUT` at and above the kept length become free
values (log 9), and the replay decoder's registers become unspecified (10_state.md R40; log 10). -/
def minimize (s : State) : State :=
  let r := minimizeLoop s.logEntry s.re.logLen.toNat s.re.outLen.toNat s.outMem
  (((s.withOutMem (Memory.replaceFrom r.1 (Config.freeOutByte s.freeCount) r.2)).withRe
    { s.re with outLen := BitVec.ofNat 64 r.1, state := .minimized }).withRp (freeReplay s.freeCount)).countFree

/-- `RE.OPTFIN`, 42_byte_minimizer.md R195. -/
def reOptfinBody : Cmd Unit := do
  let s ← get
  require (s.re.state = .opened ∨ s.re.state = .finished) .protocolEncoder
  if s.re.state = .opened then reFinish else pure ()
  update (fun t => t.withRes1 t.re.outLen)
  update minimize
  setRes0OutLen

/-- The meaning of `RE.OPTFIN`. -/
def execReOptfin (s : State) : Host.Outcome State Fault Refusal := runCommand .reOptfin reOptfinBody s

end Sys2Proof.Machine
end

