-- ==== Sys2Proof/Machine/System.lean ====
section
/-! DEFINITION. The system command `SYS.RESET` (48_system.md). -/

namespace Sys2Proof.Machine

/-- The meaning of `SYS.RESET`, 48_system.md R320: every register takes its reset value; the closing step of
30_encoding.md R101 is not performed. -/
def execSysReset (s : State) : Host.Outcome State Fault Refusal := .next (resetRegisters s)

end Sys2Proof.Machine
end

