-- ==== Sys2Proof/Machine/Dispatch.lean ====
section
/-! DEFINITION. What each command does, once it is decoded and started (30_encoding.md R101, R102): one arm a command. -/

namespace Sys2Proof.Machine

def exec (i : Instr) (s : State) : Host.Outcome State Fault Refusal :=
  match i with
  | .sysReset => Sys2Proof.Machine.execSysReset s
  | .rdInit => Sys2Proof.Machine.execRdInit s
  | .rdCount => Sys2Proof.Machine.execRdCount s
  | .rdRemove => Sys2Proof.Machine.execRdRemove s
  | .rdNum => Sys2Proof.Machine.execRdNum s
  | .reInit => Sys2Proof.Machine.execReInit s
  | .rePut => Sys2Proof.Machine.execRePut s
  | .reNum => Sys2Proof.Machine.execReNum s
  | .reFinish => Sys2Proof.Machine.execReFinish s
  | .reOptfin => Sys2Proof.Machine.execReOptfin s
  | .tgLookup => Sys2Proof.Machine.execTgLookup s
  | .cpSetcode => Sys2Proof.Machine.execCpSetcode s
  | .cpRead => Sys2Proof.Machine.execCpRead s
  | .cpSize => Sys2Proof.Machine.execCpSize s
  | .cpLevel => Sys2Proof.Machine.execCpLevel s
  | .cpDeq => Sys2Proof.Machine.execCpDeq s
  | .drUpdate => Sys2Proof.Machine.execDrUpdate s
  | .drDist => Sys2Proof.Machine.execDrDist s
  | .rgSplit => Sys2Proof.Machine.execRgSplit s
  | .ftRoot => Sys2Proof.Machine.execFtRoot s
  | .ftParse => Sys2Proof.Machine.execFtParse s
  | .ftRender => Sys2Proof.Machine.execFtRender s
  | .ftDecode => Sys2Proof.Machine.execFtDecode s

end Sys2Proof.Machine
end

