-- ==== Sys2Proof/Machine/HostPort.lean ====
section
/-! DEFINITION. The host's side of the block: register reads and writes (10_state.md R22, R24, R32, R351), the issue of
a command (30_encoding.md R101, 60_exceptions.md R342), and element reads and writes (10_state.md R35). -/

namespace Sys2Proof.Machine

/-! ### Registers -/

/-- `RD_STATE` as a number (10_state.md R28). -/
def RdState.toNat : RdState → Nat
  | .closed => 0
  | .ready => 1
  | .peeked => 2

/-- `RE_STATE` as a number (10_state.md R30). -/
def ReState.toNat : ReState → Nat
  | .closed => 0
  | .opened => 1
  | .finished => 2
  | .minimized => 3

/-- `FT_PHASE` as a number (10_state.md R34). -/
def FtPhase.toNat : FtPhase → Nat
  | .idle => 0
  | .build => 1
  | .rendered => 2

/-- A decoder register by number, 0x20 to 0x28 (10_state.md R28). -/
def RdRegs.read (r : RdRegs) (n : Nat) : Word :=
  if n = 0x20 then zext64 r.state.toNat
  else if n = 0x21 then r.coder.low.setWidth 64
  else if n = 0x22 then r.coder.range.setWidth 64
  else if n = 0x23 then r.code.setWidth 64
  else if n = 0x24 then r.len
  else if n = 0x25 then r.pos
  else if n = 0x26 then r.pad
  else if n = 0x27 then r.total.setWidth 64
  else if n = 0x28 then r.count.setWidth 64
  else 0

/-- An encoder register by number, 0x30 to 0x34 (10_state.md R30). -/
def ReRegs.read (r : ReRegs) (n : Nat) : Word :=
  if n = 0x30 then zext64 r.state.toNat
  else if n = 0x31 then r.coder.low.setWidth 64
  else if n = 0x32 then r.coder.range.setWidth 64
  else if n = 0x33 then r.outLen
  else if n = 0x34 then r.logLen
  else 0

/-- A register of the parameter bank by number (10_state.md R31). -/
def CpRegs.read (b : CpRegs) (n : Nat) : Word :=
  if n = 0x40 then b.width
  else if n = 0x41 then b.height
  else if n = 0x42 then b.code
  else if n = 0x43 then b.lineLimit
  else if n = 0x44 then b.lineQuant
  else if n = 0x45 then b.qr
  else if n = 0x46 then b.qg
  else if n = 0x47 then b.qb
  else if n = 0x48 then b.palSize
  else if h : 0x50 ≤ n ∧ n < 0x57 then b.levelScale[n - 0x50]
  else if h : 0x58 ≤ n ∧ n < 0x5F then b.angleBits[n - 0x58]
  else 0

/-- A distance quantizer register by number, 0x60 to 0x65 (10_state.md R33). -/
def DrRegs.read (d : DrRegs) (n : Nat) : Word :=
  if n = 0x60 then zext64 d.valid.toNat
  else if n = 0x61 then d.min
  else if n = 0x62 then d.max
  else if n = 0x63 then d.quant
  else if n = 0x64 then d.numLines
  else if n = 0x65 then d.angle
  else 0

/-- A tree register by number, 0x70 to 0x73 (10_state.md R34). -/
def FtRegs.read (f : FtRegs) (n : Nat) : Word :=
  if n = 0x70 then zext64 f.phase.toNat
  else if n = 0x71 then f.head
  else if n = 0x72 then f.tail
  else if n = 0x73 then f.spanTop
  else 0

/-- What a host read of register `n` returns (10_state.md R22): `CMD` and every number no rule defines read as 0. -/
def State.readReg (s : State) (n : Nat) : Word :=
  if n = 0x01 then s.status.toWord
  else if n = 0x02 then s.faultCode
  else if n = 0x03 then s.faultSub
  else if n = 0x04 then s.faultCmd
  else if n = 0x05 then s.cmdSeq
  else if n = 0x08 then s.arg0
  else if n = 0x09 then s.arg1
  else if n = 0x0A then s.arg2
  else if n = 0x10 then s.res0
  else if n = 0x11 then s.res1
  else if n = 0x12 then s.res2
  else if n = 0x13 then s.res3
  else if n < 0x30 then s.rd.read n
  else if n < 0x40 then s.re.read n
  else if n < 0x60 then s.cp.read n
  else if n < 0x70 then s.dr.read n
  else s.ft.read n

/-- The bank after a write of register `n`; none if `n` is no `CP_*` register (10_state.md R31). -/
def CpRegs.write? (b : CpRegs) (n : Nat) (v : Word) : Option CpRegs :=
  if n = 0x40 then some { b with width := v }
  else if n = 0x41 then some { b with height := v }
  else if n = 0x42 then some { b with code := v }
  else if n = 0x43 then some { b with lineLimit := v }
  else if n = 0x44 then some { b with lineQuant := v }
  else if n = 0x45 then some { b with qr := v }
  else if n = 0x46 then some { b with qg := v }
  else if n = 0x47 then some { b with qb := v }
  else if n = 0x48 then some { b with palSize := v }
  else if h : 0x50 ≤ n ∧ n < 0x57 then some { b with levelScale := b.levelScale.set (n - 0x50) v }
  else if h : 0x58 ≤ n ∧ n < 0x5F then some { b with angleBits := b.angleBits.set (n - 0x58) v }
  else none

/-- A host write that gives the bank `b` (10_state.md R32, 60_exceptions.md R341): while `FT_PHASE = BUILD` it is dropped
and faults with `FAULT_CMD = 0`, or, in the fault state, is dropped and nothing happens. -/
def writeBank (b : CpRegs) (s : State) : State :=
  if s.ft.phase = .build then
    if s.status.fault then s else raiseFault .protocolLock 0 s
  else s.withCp b

/-- A host write of a register other than `CMD` (10_state.md R22, R23, R31, 60_exceptions.md R351): a write of a
read-only register, or of a number no rule defines, has no effect. -/
def writeDataReg (n : Nat) (v : Word) (s : State) : State :=
  if n = 0x08 then { s with arg0 := v }
  else if n = 0x09 then { s with arg1 := v }
  else if n = 0x0A then { s with arg2 := v }
  else
    match s.cp.write? n v with
    | some b => writeBank b s
    | none => s

/-! ### Issue of a command -/

/-- A started command is decoded and runs (30_encoding.md R101, R104, 60_exceptions.md R333). -/
def runWord (w : Word) (s : State) : Host.Outcome State Fault Refusal :=
  match decode w with
  | .reservedBits => .next (raiseFault .illegalReserved ((opcodeField w).setWidth 64) s)
  | .unlistedOpcode => .next (raiseFault .illegalOpcode ((opcodeField w).setWidth 64) s)
  | .command i => exec i s

/-- A host write of `CMD` (10_state.md R24, 30_encoding.md R101): in the fault state every word but `SYS.RESET`'s is
refused, and a refusal changes nothing (60_exceptions.md R342). -/
def issueCommand (w : Word) (s : State) : Host.Outcome State Fault Refusal :=
  if s.status.fault = true ∧ w ≠ 0x01 then .next s
  else runWord w (beginCommand s)

/-! ### Elements -/

/-- The number of elements of a memory (10_state.md R35). -/
def Config.capacity (c : Config) : Space → Nat
  | .inp => c.inCap
  | .out => c.outCap
  | .log => c.logCap
  | .pal => c.paletteMax
  | .node => c.nodeCap
  | .span => c.spanCap
  | .pix => c.pixCap

/-- What a host read of an element returns (10_state.md R35). -/
def State.readElement (s : State) : Space → Nat → BusData
  | .inp, i => .byte (s.inByte i)
  | .out, i => .byte (s.outByte i)
  | .log, i => .triplet (s.logEntry i)
  | .pal, i => .colour (s.palEntry i)
  | .node, i => .node (s.nodeRec i)
  | .span, i => .span (s.spanRec i)
  | .pix, i => .byte (s.pixByte i)

/-- The tree memories belong to the block: `FT_PHASE = BUILD`, outside the fault state (70_reset_and_hazards.md R383,
60_exceptions.md R342; log 13). -/
def State.treeOwned (s : State) : Bool := decide (s.ft.phase = .build) && !s.status.fault

/-- A host access to element `i` of a memory: it exists, or the model faults (log 15). -/
def accessElement (sp : Space) (i : Nat) (s t : State) : Host.Outcome State Fault Refusal :=
  if i < s.cfg.capacity sp then .next t else .fault (.noSuchElement sp)

/-- A host action while no command executes (10_state.md R20). A host write to `OUT` or `LOG` is a plain write in every
`RE_STATE`: 70_reset_and_hazards.md R386 asks the host for restraint, and R389 gives such a write no other result (log 14). -/
def idleAction (a : HostAction) (s : State) : Host.Outcome State Fault Refusal :=
  match a with
  | .writeReg n v => if n = 0x00 then issueCommand v s else .next (writeDataReg n v s)
  | .readReg n => .next (s.withBus (.word (s.readReg n)))
  | .writeIn i v => accessElement .inp i s (s.putIn i v)
  | .writeOut i v => accessElement .out i s (s.putOut i v)
  | .writeLog i v => accessElement .log i s (s.putLog i v)
  | .writePal i v => accessElement .pal i s (s.putPal i v)
  | .writeNode i v => if s.treeOwned then .refused .treeMemoryOwned else accessElement .node i s (s.putNode i v)
  | .writeSpan i v => if s.treeOwned then .refused .treeMemoryOwned else accessElement .span i s (s.putSpan i v)
  | .writePix i v => accessElement .pix i s (s.putPix i v)
  | .readMem sp i => accessElement sp i s (s.withBus (s.readElement sp i))

/-- A host action while `STATUS.BUSY = 1`: only a read of `STATUS` is allowed (70_reset_and_hazards.md R385; log 12). -/
def busyAction (a : HostAction) (s : State) : Host.Outcome State Fault Refusal :=
  match a with
  | .readReg n => if n = 0x01 then .next (s.withBus (.word s.status.toWord)) else .refused .accessWhileBusy
  | .writeReg _ _ => .refused .accessWhileBusy
  | .writeIn _ _ => .refused .accessWhileBusy
  | .writeOut _ _ => .refused .accessWhileBusy
  | .writeLog _ _ => .refused .accessWhileBusy
  | .writePal _ _ => .refused .accessWhileBusy
  | .writeNode _ _ => .refused .accessWhileBusy
  | .writeSpan _ _ => .refused .accessWhileBusy
  | .writePix _ _ => .refused .accessWhileBusy
  | .readMem _ _ => .refused .accessWhileBusy

/-- One action of the host. -/
def hostAction (a : HostAction) (s : State) : Host.Outcome State Fault Refusal :=
  if s.status.busy then busyAction a s else idleAction a s

/-- The host's next action is taken from the front of the list; with none waiting the block is idle and nothing changes
(70_reset_and_hazards.md R372; log 1). -/
def nextAction (s : State) : Host.Outcome State Fault Refusal :=
  match s.pending with
  | [] => .next s
  | a :: rest => hostAction a { s with pending := rest }

/-- Put a write of `CMD` in front of the host's actions. -/
def State.queueCommand (s : State) (w : Word) : State := { s with pending := .writeReg 0x00 w :: s.pending }

end Sys2Proof.Machine
end

