-- ==== Sys2Proof/Machine/Step.lean ====
section
/-! DEFINITION. One step of the machine: one action of the host, and the whole command where it writes `CMD`. -/

namespace Sys2Proof.Machine

/-- One step (10_state.md R20: nothing but a host action changes state, and a command runs to its end in it). -/
def step (s : State) : Host.Outcome State Fault Refusal := nextAction s

/-- `s` with the 64-bit command word `w` written to `CMD` as the host's very next action (log 1). -/
def State.withFetchWord (s : State) (_nbits w : Nat) : State := s.queueCommand (BitVec.ofNat 64 w)

end Sys2Proof.Machine
end

