-- ==== Sys2Proof/Machine/Assembler.lean ====
section
/-! DEFINITION. The assembler lines of 30_encoding.md R110 and R111 as the host's actions: a line is a list of register
writes, element writes or reads. -/

namespace Sys2Proof.Machine

/-- Operand lines: `ARG0`, `ARG1`, `ARG2` in order, as many as are given, then `CMD` (30_encoding.md R110). -/
def commandLine (i : Instr) (operands : List Word) : List HostAction :=
  ([0x08, 0x09, 0x0A].zip operands).map (fun p => HostAction.writeReg p.1 p.2) ++ [.writeReg 0x00 (encode i)]

/-- `SET reg, v` (30_encoding.md R110). -/
def setLine (n : Nat) (v : Word) : List HostAction := [.writeReg n v]

/-- `GET reg` (30_encoding.md R110). -/
def getLine (n : Nat) : List HostAction := [.readReg n]

/-- The number of groups of the size code of `n` and the offset value `n - OFF(k)`: the least `k` from the given one on
with `n < OFF(k) + 8^k` (30_encoding.md R111). -/
def sizeGroupCount : Nat → Nat → Nat → Nat → Nat × Nat
  | 0, k, off, n => (k, n - off)
  | fuel + 1, k, off, n => if n < off + 8 ^ k then (k, n - off) else sizeGroupCount fuel (k + 1) (off + 8 ^ k) n

/-- The `k` base-8 digits of `m`, most significant first (30_encoding.md R111). -/
def octalDigits : Nat → Nat → List Nat
  | 0, _ => []
  | k + 1, m => (m / 8 ^ k) % 8 :: octalDigits k m

/-- The groups of the size code of `n`; values below 8 have none (30_encoding.md R111). -/
def sizeGroups (n : Nat) : Option (List Nat) :=
  if n < 8 then none
  else some (octalDigits (sizeGroupCount n 2 8 n).1 (sizeGroupCount n 2 8 n).2)

/-- The symbols (total, value) of groups from the third on: a flag 1 before each, a flag 0 at the end
(30_encoding.md R111). -/
def sizeTail (total : Nat) : List Nat → List (Nat × Nat)
  | [] => [(2, 0)]
  | g :: gs => (2, 1) :: (total, g) :: sizeTail total gs

/-- The symbols (total, value) of a string of two or more groups, each coded with the given total (30_encoding.md R111). -/
def groupSymbols (total : Nat) : List Nat → List (Nat × Nat)
  | g₁ :: g₂ :: gs => (total, g₁) :: (total, g₂) :: sizeTail total gs
  | [_] => []
  | [] => []

/-- The symbols that code the size `n` for a reader with this `SIZE_GROUP_TOTAL`, the mirror of `ReadSize`
(30_encoding.md R111, 44_codec_params.md R226); none below 8. -/
def sizeSymbols (total n : Nat) : Option (List (Nat × Nat)) := (sizeGroups n).map (groupSymbols total)

/-- The pseudo-instruction `RE.SIZE n`: one `RE.NUM` for each symbol, the groups out of 8; no expansion below 8
(30_encoding.md R111). -/
def reSizeLine (n : Nat) : Option (List HostAction) :=
  (sizeSymbols 8 n).map (fun l =>
    l.flatMap (fun p => commandLine .reNum [BitVec.ofNat 64 p.1, BitVec.ofNat 64 p.2]))

end Sys2Proof.Machine
end

