-- ==== Sys2Proof/Safety.lean ====
section
/-! DEFINITION. The terms in which claims speak of a run: what a command leaves unchanged, what completing and faulting
are, and the invariants of the block (10_state.md R29, R30, R34; 60_exceptions.md R331). -/

namespace Sys2Proof.Machine

/-! ### Frames -/

/-- The parts of the state, for saying which of them an instruction leaves unchanged. -/
inductive Part where
  | status
  | faultRegs
  | cmdSeq
  | args
  | res0
  | res1
  | res2
  | res3
  | rd
  | re
  | rp
  | cp
  | dr
  | ft
  /-- A memory, seen through the read of one element. -/
  | mem (sp : Space)
  /-- The parameters, the host's actions and its last read. -/
  | hostSide
  | freeCount
deriving DecidableEq, Repr

/-- A part of the state is the same in `t` as in `s`; a memory, when every element reads the same. -/
def Part.kept (p : Part) (s t : State) : Prop :=
  match p with
  | .status => t.status = s.status
  | .faultRegs => t.faultCode = s.faultCode ∧ t.faultSub = s.faultSub ∧ t.faultCmd = s.faultCmd
  | .cmdSeq => t.cmdSeq = s.cmdSeq
  | .args => t.arg0 = s.arg0 ∧ t.arg1 = s.arg1 ∧ t.arg2 = s.arg2
  | .res0 => t.res0 = s.res0
  | .res1 => t.res1 = s.res1
  | .res2 => t.res2 = s.res2
  | .res3 => t.res3 = s.res3
  | .rd => t.rd = s.rd
  | .re => t.re = s.re
  | .rp => t.rp = s.rp
  | .cp => t.cp = s.cp
  | .dr => t.dr = s.dr
  | .ft => t.ft = s.ft
  | .mem sp => ∀ i, t.readElement sp i = s.readElement sp i
  | .hostSide => t.cfg = s.cfg ∧ t.pending = s.pending ∧ t.bus = s.bus
  | .freeCount => t.freeCount = s.freeCount

/-- Every part but the listed ones is the same in `t` as in `s`. -/
def KeepsAllBut (changed : List Part) (s t : State) : Prop := ∀ p, p ∉ changed → p.kept s t

/-! ### How a command ends -/

/-- The command ended without fault: `BUSY = 0`, `DONE = 1`, `FAULT` as it was (30_encoding.md R101). -/
def Completed (s t : State) : Prop :=
  t.status.busy = false ∧ t.status.done = true ∧ t.status.fault = s.status.fault

/-- The command completed and `PAD` is as it was (10_state.md R26). -/
def CompletedKeepingPad (s t : State) : Prop := Completed s t ∧ t.status.pad = s.status.pad

/-- The fault state, entered with this cause by this command word's low byte (60_exceptions.md R331, R340). -/
def FaultedWith (code sub : Nat) (cmd : Byte) (t : State) : Prop :=
  t.status.fault = true ∧ t.status.busy = false ∧ t.status.done = false ∧
  t.faultCode = BitVec.ofNat 64 code ∧ t.faultSub = BitVec.ofNat 64 sub ∧ t.faultCmd = cmd.setWidth 64

/-- The parts that a fault raised before any effect may change (60_exceptions.md R333). -/
def faultParts : List Part := [.status, .faultRegs, .res0, .res1, .res2, .res3, .freeCount]

/-- The command stops in the fault state with nothing changed but what the fault entry writes (60_exceptions.md R333,
R340). -/
def TrapsCleanly (o : Host.Outcome State Fault Refusal) (code sub : Nat) (cmd : Byte) (s : State) : Prop :=
  ∃ t, o = .next t ∧ FaultedWith code sub cmd t ∧ t.status.pad = s.status.pad ∧ KeepsAllBut faultParts s t

/-! ### The input stream -/

/-- The `j`-th byte that the decoder will take: the input from `RD_POS` on, zero past `RD_LEN` (40_range_decoder.md R142). -/
def State.streamByte (s : State) (j : Nat) : Byte :=
  if s.rd.pos.toNat + j < s.rd.len.toNat then s.inByte (s.rd.pos.toNat + j) else 0

/-- The 48-bit window after `k` bytes have entered at its low end (40_range_decoder.md R145). -/
def absorb (bytes : Nat → Byte) : Nat → Nat → Nat
  | 0, code => code
  | k + 1, code => (absorb bytes k code * 256 + (bytes k).toNat) % 2 ^ 48

/-- How many of the next `k` bytes are input bytes; the others are pad bytes (40_range_decoder.md R142). -/
def State.inputAmong (s : State) (k : Nat) : Nat := min k (s.rd.len.toNat - s.rd.pos.toNat)

/-- The decoder has taken `k` bytes between `s` and `t` (40_range_decoder.md R142, R145). -/
def TookBytes (k : Nat) (s t : State) : Prop :=
  t.rd.pos = s.rd.pos + BitVec.ofNat 64 (s.inputAmong k) ∧
  t.rd.pad = s.rd.pad + BitVec.ofNat 64 (k - s.inputAmong k) ∧
  t.rd.len = s.rd.len ∧
  t.rd.code.toNat = absorb s.streamByte k s.rd.code.toNat ∧
  t.status.pad = (s.status.pad || decide (s.inputAmong k < k))

/-- The symbol `(max, v)`: `ReadNumber(max)` answers `v` and the decoder goes from `s` to `u` (40_range_decoder.md R149).
Below 2 outcomes nothing is read; otherwise the count of R143 is `v`, the interval `[v, v + 1)` is removed (R144) and the
renormalization takes `k` bytes (R145). -/
def ReadsSymbol (max v : Nat) (s u : State) : Prop :=
  if max < 2 then v = 0 ∧ u = s
  else
    v < max ∧ (s.rd.coder.divide max).countOf s.rd.code = v ∧
    ∃ c k, Coder.normalize normalizeRounds ((s.rd.coder.divide max).narrow v (v + 1)) = some (c, k) ∧
      TookBytes k s u ∧ u.rd.coder = c ∧ u.rd.state = .ready ∧
      u.rd.total = BitVec.ofNat 33 max ∧ u.rd.count = BitVec.ofNat 48 v ∧
      u = (s.withRd u.rd).withStatus { s.status with pad := u.status.pad }

/-- A list of symbols `(max, value)` is read in order. -/
def ReadsSymbols : List (Nat × Nat) → State → State → Prop
  | [], s, t => t = s
  | q :: rest, s, t => ∃ u, ReadsSymbol q.1 q.2 s u ∧ ReadsSymbols rest u t

/-- The symbols of an image header with its palette: sizes (of 8 and more) if the stream carries them, the code, the palette count and
three channels a colour (30_encoding.md R120). -/
def headerSymbols (c : Config) (dims : Option (Nat × Nat)) (code : Nat) (colours : List (Nat × Nat × Nat)) :
    List (Nat × Nat) :=
  (match dims with
    | none => []
    | some d => (sizeSymbols c.sizeGroupTotal d.1).getD [] ++ (sizeSymbols c.sizeGroupTotal d.2).getD []) ++
  [(c.maxCode, code), (c.paletteMax + 1, colours.length)] ++
  colours.flatMap (fun q => [(256, q.1), (256, q.2.1), (256, q.2.2)])

/-- The colour symbols of a Fill leaf and the colour they stand for: a palette index, or three quantized channels
(30_encoding.md R120, 47_fragment_tree.md R284). -/
def ColourSymbols (s : State) (symbols : List (Nat × Nat)) (c : Colour) : Prop :=
  if 0 < s.cp.palSize.toNat then ∃ k, symbols = [(s.cp.palSize.toNat, k)] ∧ c = s.palEntry k
  else ∃ vr vg vb, symbols = [(s.cp.qr.toNat, vr), (s.cp.qg.toNat, vg), (s.cp.qb.toNat, vb)] ∧
    c = ⟨BitVec.ofNat 8 ((255 * vr + s.cp.qr.toNat - 2) / (s.cp.qr.toNat - 1)),
         BitVec.ofNat 8 ((255 * vg + s.cp.qg.toNat - 2) / (s.cp.qg.toNat - 1)),
         BitVec.ofNat 8 ((255 * vb + s.cp.qb.toNat - 2) / (s.cp.qb.toNat - 1)), 255⟩

/-- The colour symbols of a Fill leaf of a stream that carries its own bank, and the colour they stand for: an index into
the header's colours, or three channels by the derived quantizers (30_encoding.md R120, 47_fragment_tree.md R284). -/
def LeafSymbols (d : Derived) (colours : List (Nat × Nat × Nat)) (symbols : List (Nat × Nat)) (c : Colour) : Prop :=
  if colours = [] then
    ∃ vr vg vb, symbols = [(d.qr.toNat, vr), (d.qg.toNat, vg), (d.qb.toNat, vb)] ∧
      c = ⟨BitVec.ofNat 8 ((255 * vr + d.qr.toNat - 2) / (d.qr.toNat - 1)),
           BitVec.ofNat 8 ((255 * vg + d.qg.toNat - 2) / (d.qg.toNat - 1)),
           BitVec.ofNat 8 ((255 * vb + d.qb.toNat - 2) / (d.qb.toNat - 1)), 255⟩
  else
    ∃ k q, colours[k]? = some q ∧ symbols = [(colours.length, k)] ∧
      c = ⟨BitVec.ofNat 8 q.1, BitVec.ofNat 8 q.2.1, BitVec.ofNat 8 q.2.2, 255⟩

/-! ### The encoder's output and log -/

/-- The bytes are appended to `OUT` between `s` and `t`; every other element reads as before (41_range_encoder.md R171). -/
def AppendsBytes (bytes : List Byte) (s t : State) : Prop :=
  t.re.outLen = s.re.outLen + BitVec.ofNat 64 bytes.length ∧
  ∀ i, t.outByte i =
    if s.re.outLen.toNat ≤ i ∧ i < s.re.outLen.toNat + bytes.length then bytes.getD (i - s.re.outLen.toNat) 0
    else s.outByte i

/-- The triplet is appended to `LOG` between `s` and `t`; every other element reads as before (41_range_encoder.md R173). -/
def LogsTriplet (bottom top total : Nat) (s t : State) : Prop :=
  t.re.logLen = s.re.logLen + 1 ∧
  ∀ i, t.logEntry i =
    if i = s.re.logLen.toNat then ⟨BitVec.ofNat 33 bottom, BitVec.ofNat 33 top, BitVec.ofNat 33 total⟩ else s.logEntry i

/-- The encoder's `(low, range)` for a symbol before the renormalization (41_range_encoder.md R172). -/
def State.putCoder (s : State) (bottom top total : Nat) : Coder := (s.re.coder.divide total).narrow bottom top

/-- What coding the triplet does when it ends without fault (41_range_encoder.md R172, R173): the triplet is logged, the
settled bytes are appended, and `(low, range)` is renormalized. -/
def CodesTriplet (bottom top total : Nat) (s t : State) : Prop :=
  (∃ c k, Coder.normalize normalizeRounds (s.putCoder bottom top total) = some (c, k) ∧ t.re.coder = c) ∧
  t.re.state = s.re.state ∧ LogsTriplet bottom top total s t ∧
  AppendsBytes (Coder.emitted normalizeRounds (s.putCoder bottom top total)) s t

/-- There is room for one more triplet and for the bytes that coding it emits, and coding it does not collapse. -/
def State.canCode (s : State) (bottom top total : Nat) : Prop :=
  s.re.logLen.toNat < s.cfg.logCap ∧
  s.re.outLen.toNat + (Coder.emitted normalizeRounds (s.putCoder bottom top total)).length ≤ s.cfg.outCap ∧
  (Coder.normalize normalizeRounds (s.putCoder bottom top total)).isSome = true

/-! ### Regions and pixels -/

/-- A list of spans covers the pixel `(x, y)` (00_scope.md R12). -/
def covers (l : List SpanRec) (x y : Nat) : Prop := ∃ p ∈ l, p.y = y ∧ p.x0 ≤ x ∧ x < p.x1

/-- The pixel `(x, y)` lies on the left of the cut (46_region_split.md R266). -/
def goesLeft (c : Config) (a : Nat) (d : Int) (x y : Nat) : Prop :=
  if c.trigSin a = 0 then d ≤ c.trigCos a * y
  else 2 * d < 2 * (c.trigSin a * x + c.trigCos a * y) + c.trigSin a

/-- The bounding box of a list of spans, `maxX` exclusive (44_codec_params.md R228). -/
def BoundingBox (l : List SpanRec) (minX maxX minY maxY : Nat) : Prop :=
  (∀ p ∈ l, minX ≤ p.x0 ∧ p.x1 ≤ maxX ∧ minY ≤ p.y ∧ p.y ≤ maxY) ∧
  (∃ p ∈ l, p.x0 = minX) ∧ (∃ p ∈ l, p.x1 = maxX) ∧ (∃ p ∈ l, p.y = minY) ∧ (∃ p ∈ l, p.y = maxY)

/-- The squared diagonal of a box in whole pixels (44_codec_params.md R228). -/
def boxDiagonal (minX maxX minY maxY : Nat) : Nat :=
  (maxX - minX) * (maxX - minX) + (maxY - minY + 1) * (maxY - minY + 1)

/-- `i` is the smallest index whose threshold `diag2` reaches, or 6 if there is none (44_codec_params.md R228). -/
def IsLevel (b : CpRegs) (diag2 : Nat) (i : Fin 7) : Prop :=
  ((b.levelScale[i]).toNat ≤ diag2 ∨ i = 6) ∧ ∀ j : Fin 7, j < i → diag2 < (b.levelScale[j]).toNat

/-- The projections of the first and last pixel of every span (45_distance_quantizer.md R252, R253). -/
def endProjections (c : Config) (a : Nat) (l : List SpanRec) : Set Int :=
  {z | ∃ p ∈ l, z = c.trigCos a * p.y + c.trigSin a * p.x0 ∨ z = c.trigCos a * p.y + c.trigSin a * ((p.x1 : Int) - 1)}

/-- The quantum after `k` growth steps `q <- q + floor(q / 16)` (45_distance_quantizer.md R253). -/
def grownQuantum (q : Nat) : Nat → Nat
  | 0 => q
  | k + 1 => grownQuantum q k + grownQuantum q k / 16

/-- `q` is the first of the growth sequence that gives at most `limit` lines (45_distance_quantizer.md R253). -/
def IsQuantum (extent limit q₀ q : Nat) : Prop :=
  ∃ k, q = grownQuantum q₀ k ∧ extent / q ≤ limit ∧ ∀ j < k, limit < extent / grownQuantum q₀ j

/-- The registers that `DrUpdate` leaves for a region at an angle (45_distance_quantizer.md R253). -/
def Measures (c : Config) (b : CpRegs) (l : List SpanRec) (a : Nat) (d : DrRegs) : Prop :=
  d.valid = true ∧ d.angle.toNat = a ∧
  IsLeast (endProjections c a l) d.min.toInt ∧ IsGreatest (endProjections c a l) d.max.toInt ∧
  IsQuantum (d.max.toInt - d.min.toInt).toNat b.lineLimit.toNat b.lineQuant.toNat d.quant.toNat ∧
  d.numLines.toNat = (d.max.toInt - d.min.toInt).toNat / d.quant.toNat

/-- Node `n` of the tree is a Fill leaf whose region covers the pixel `(x, y)` (47_fragment_tree.md R300). -/
def State.fillCovers (s : State) (n x y : Nat) : Prop :=
  n < s.ft.tail.toNat ∧ (s.nodeRec n).kind = .fill ∧ covers (s.regionOf n) x y

/-! ### Sequences of commands -/

/-- The host has written the operand registers. -/
def State.withArgs (s : State) (a b c : Word) : State := { s with arg0 := a, arg1 := b, arg2 := c }

/-- The command answers `t` without a fault. -/
def Runs (i : Instr) (s t : State) : Prop := exec i s = .next t ∧ t.status.fault = false

/-- `RE.PUT` of each triplet in order (41_range_encoder.md R176). -/
def EncodesTriplets : List Triplet → State → State → Prop
  | [], s, t => t = s
  | x :: rest, s, t =>
    ∃ u, Runs .rePut (s.withArgs (x.bottom.setWidth 64) (x.top.setWidth 64) (x.total.setWidth 64)) u ∧
      EncodesTriplets rest u t

/-- `RD.COUNT` then `RD.REMOVE` for each triplet in order, every count inside its triplet's interval
(40_range_decoder.md R156). -/
def DecodesTriplets : List Triplet → State → Prop
  | [], _ => True
  | x :: rest, s =>
    ∃ u v, Runs .rdCount (s.withArgs (x.total.setWidth 64) 0 0) u ∧
      x.bottom.toNat ≤ u.res0.toNat ∧ u.res0.toNat < x.top.toNat ∧
      Runs .rdRemove (u.withArgs (x.bottom.setWidth 64) (x.top.setWidth 64) 0) v ∧ DecodesTriplets rest v

/-- `FT.PARSE` until the queue is empty, `k` times (47_fragment_tree.md R302). -/
def ParsesQueue : Nat → State → State → Prop
  | 0, s, t => t = s ∧ s.ft.head = s.ft.tail
  | k + 1, s, t => s.ft.head.toNat < s.ft.tail.toNat ∧ ∃ u, Runs .ftParse s u ∧ ParsesQueue k u t

/-! ### Causes -/

/-- The causes that each command can raise (60_exceptions.md R331, last column). -/
def mayRaise : Instr → List Cause
  | .sysReset => []
  | .rdInit => [.argValue]
  | .rdCount => [.protocolDecoder, .argTotal]
  | .rdRemove => [.protocolDecoder, .argInterval, .argCount, .collapseDecoder]
  | .rdNum => [.protocolDecoder, .argTotal, .corruptSymbol, .collapseDecoder]
  | .reInit => []
  | .rePut => [.protocolEncoder, .argTotal, .argInterval, .capacityLog, .capacityOut, .collapseEncoder]
  | .reNum => [.protocolEncoder, .argTotal, .argValue, .capacityLog, .capacityOut, .collapseEncoder]
  | .reFinish => [.protocolEncoder, .capacityOut]
  | .reOptfin => [.protocolEncoder, .capacityOut]
  | .tgLookup => [.argValue]
  | .cpSetcode => [.protocolLock, .argValue, .argBank]
  | .cpRead => [.protocolDecoder, .protocolLock, .argValue, .argBank, .corruptSymbol, .corruptSize, .collapseDecoder]
  | .cpSize => [.protocolDecoder, .corruptSymbol, .corruptSize, .collapseDecoder]
  | .cpLevel => [.argValue, .argBank, .corruptRegion]
  | .cpDeq => [.argValue]
  | .drUpdate => [.argValue, .argBank, .corruptRegion]
  | .drDist => [.protocolDistance, .argValue]
  | .rgSplit => [.protocolTree, .argValue]
  | .ftRoot => [.argBank, .capacityNode, .capacitySpan]
  | .ftParse => [.protocolTree, .protocolDecoder, .corruptRegion, .corruptSymbol, .collapseDecoder, .capacityNode,
      .capacitySpan]
  | .ftRender => [.protocolTree, .capacityPix]
  | .ftDecode => [.argValue, .argBank, .corruptRegion, .corruptSymbol, .corruptSize, .collapseDecoder, .capacityNode,
      .capacitySpan, .capacityPix]

/-- The parts other than `STATUS`, the fault registers, the results and the free-value counter that a command can change,
faulting or not (10_state.md R35 and the command rules). `SYS.RESET`, which resets every register, is not described by it. -/
def mayWrite : Instr → List Part
  | .sysReset => [.cmdSeq, .args, .rd, .re, .rp, .cp, .dr, .ft]
  | .rdInit => [.rd]
  | .rdCount => [.rd]
  | .rdRemove => [.rd]
  | .rdNum => [.rd]
  | .reInit => [.re]
  | .rePut => [.re, .mem .out, .mem .log]
  | .reNum => [.re, .mem .out, .mem .log]
  | .reFinish => [.re, .mem .out]
  | .reOptfin => [.re, .rp, .mem .out]
  | .tgLookup => []
  | .cpSetcode => [.cp]
  | .cpRead => [.rd, .cp, .mem .pal]
  | .cpSize => [.rd]
  | .cpLevel => []
  | .cpDeq => []
  | .drUpdate => [.dr]
  | .drDist => []
  | .rgSplit => [.mem .node, .mem .span]
  | .ftRoot => [.dr, .ft, .mem .node, .mem .span]
  | .ftParse => [.rd, .dr, .ft, .mem .node, .mem .span]
  | .ftRender => [.ft, .mem .pix]
  | .ftDecode => [.rd, .cp, .dr, .ft, .mem .pal, .mem .node, .mem .span, .mem .pix]

/-! ### Host accesses -/

/-- The opcode values that 30_encoding.md R104 names as illegal. -/
def isIllegalOpcode (op : Nat) : Bool :=
  decide (op = 0x00) || decide (0x02 ≤ op ∧ op ≤ 0x0F) || decide (0x14 ≤ op ∧ op ≤ 0x1F) ||
  decide (0x25 ≤ op ∧ op ≤ 0x2F) || decide (0x31 ≤ op ∧ op ≤ 0x3F) || decide (0x45 ≤ op ∧ op ≤ 0x4F) ||
  decide (0x52 ≤ op ∧ op ≤ 0x57) || decide (0x59 ≤ op ∧ op ≤ 0x5F) || decide (0x64 ≤ op ∧ op ≤ 0xFF)

/-- The numbers of the operand registers (10_state.md R22). -/
def isArgNumber (n : Nat) : Bool := decide (0x08 ≤ n ∧ n ≤ 0x0A)

/-- The numbers of the parameter bank (10_state.md R22, R31). -/
def isBankNumber (n : Nat) : Bool :=
  decide (0x40 ≤ n ∧ n ≤ 0x48) || decide (0x50 ≤ n ∧ n ≤ 0x56) || decide (0x58 ≤ n ∧ n ≤ 0x5E)

/-- The numbers of the registers that the host can only read (10_state.md R22). -/
def isReadOnlyNumber (n : Nat) : Bool :=
  decide (0x01 ≤ n ∧ n ≤ 0x05) || decide (0x10 ≤ n ∧ n ≤ 0x13) || decide (0x20 ≤ n ∧ n ≤ 0x28) ||
  decide (0x30 ≤ n ∧ n ≤ 0x34) || decide (0x60 ≤ n ∧ n ≤ 0x65) || decide (0x70 ≤ n ∧ n ≤ 0x73)

/-- What a host write of an element stores, and where; none for the other actions (10_state.md R35). -/
def HostAction.stores : HostAction → Option (Space × Nat × BusData)
  | .writeReg _ _ => none
  | .readReg _ => none
  | .writeIn i v => some (.inp, i, .byte v)
  | .writeOut i v => some (.out, i, .byte v)
  | .writeLog i v => some (.log, i, .triplet v)
  | .writePal i v => some (.pal, i, .colour v)
  | .writeNode i v => some (.node, i, .node v)
  | .writeSpan i v => some (.span, i, .span v)
  | .writePix i v => some (.pix, i, .byte v)
  | .readMem _ _ => none

/-- A memory that belongs to the block, so that the model refuses a host write to it (70_reset_and_hazards.md R383;
log 13). -/
def State.owned (s : State) : Space → Bool
  | .inp => false
  | .out => false
  | .log => false
  | .pal => false
  | .node => s.treeOwned
  | .span => s.treeOwned
  | .pix => false

/-! ### Invariants -/

/-- The bounds of the parameters (00_scope.md R6; 92_eei_decisions.md D5 to D9; log 23): codes and capacities fit what they
are compared with, an angle symbol is a legal `max`, a squared diagonal fits a threshold register, a projected distance
stays below 2^34 (43_trig_lut.md R213 (b)), and the two node types are the two values of a symbol of 2. -/
abbrev Config.Bounds (c : Config) : Prop :=
  1 ≤ c.maxCode ∧ c.maxCode ≤ 2 ^ 32 ∧ c.paletteMax + 1 ≤ 2 ^ 32 ∧
  c.inCap < 2 ^ 64 ∧ c.outCap < 2 ^ 64 ∧ c.logCap < 2 ^ 64 ∧ c.nodeCap < 2 ^ 64 ∧ c.spanCap < 2 ^ 64 ∧ c.pixCap < 2 ^ 64 ∧
  c.angleBitsMax ≤ 32 ∧ 1 ≤ c.sizeGroupTotal ∧ c.sizeGroupTotal ≤ 2 ^ 32 ∧ 1 ≤ c.dimMax ∧ c.dimMax < 2 ^ 31 ∧
  2 * c.trigScale * c.dimMax < 2 ^ 34 ∧ c.nodeFill < 2 ∧ c.nodeSplit < 2 ∧ c.nodeFill ≠ c.nodeSplit

/-- What every ROM image keeps (43_trig_lut.md R213: 'a substituted image must keep (a) and (b)'). -/
abbrev Config.RomOk (c : Config) : Prop :=
  c.sines.length = c.nAngles ∧ c.cosines.length = c.nAngles ∧
  ∀ a < c.nAngles, (c.trigSin a = 0 ↔ a = 0) ∧ 0 ≤ c.trigSin a ∧ (c.trigSin a).natAbs ≤ c.trigScale ∧
    (c.trigCos a).natAbs ≤ c.trigScale

/-- The contract of `DeriveParams` (44_codec_params.md R224): for every code and every width and height in range, what it
answers, written to the bank, is a valid bank. It is total and pure as a function. -/
def Config.DeriveOk (c : Config) : Prop :=
  ∀ (b : CpRegs) (code : Nat), code < c.maxCode → dimOk c.dimMax b.width = true → dimOk c.dimMax b.height = true →
    b.palSize.toNat ≤ c.paletteMax →
    (b.loadDerived code (deriveFor c.derive code b.width.toNat b.height.toNat)).valid c = true

/-- The parameters are those of an implementation that the spec allows (00_scope.md R6, 43_trig_lut.md R213,
44_codec_params.md R224). -/
def Config.Ok (c : Config) : Prop := c.Bounds ∧ c.RomOk ∧ c.DeriveOk

/-- `1 <= range` and `low + range <= 2^48` (10_state.md R29). -/
abbrev Coder.Inv (c : Coder) : Prop := 1 ≤ c.range.toNat ∧ c.low.toNat + c.range.toNat ≤ 2 ^ 48

/-- Between symbols, in addition, `range > 2^32` (10_state.md R29, R30). -/
abbrev Coder.Normal (c : Coder) : Prop := 2 ^ 32 < c.range.toNat ∧ c.low.toNat + c.range.toNat ≤ 2 ^ 48

/-- No command is executing, and the fault registers hold 0 or a pair of 60_exceptions.md R331 (10_state.md R27). -/
def State.StatusInv (s : State) : Prop :=
  s.status.busy = false ∧
  (s.status.fault = false → s.faultCode = 0 ∧ s.faultSub = 0 ∧ s.faultCmd = 0) ∧
  (s.status.fault = true → ∃ c : Cause, s.faultCode = BitVec.ofNat 64 c.code ∧ s.faultSub = BitVec.ofNat 64 c.sub)

/-- The decoder's invariants (10_state.md R28, R29), and, while a count is pending, room for `RD_TOTAL` parts. -/
def State.DecoderInv (s : State) : Prop :=
  s.rd.pos.toNat ≤ s.rd.len.toNat ∧ s.rd.len.toNat ≤ s.cfg.inCap ∧ (s.status.pad = false → s.rd.pad = 0) ∧
  (s.status.fault = false → s.rd.state = .ready → s.rd.coder.Normal) ∧
  (s.status.fault = false → s.rd.state = .peeked →
    1 ≤ s.rd.total.toNat ∧ 1 ≤ s.rd.coder.range.toNat ∧
    s.rd.coder.low.toNat + s.rd.total.toNat * s.rd.coder.range.toNat ≤ 2 ^ 48)

/-- The encoder's invariants (10_state.md R30). -/
def State.EncoderInv (s : State) : Prop :=
  s.re.outLen.toNat ≤ s.cfg.outCap ∧ s.re.logLen.toNat ≤ s.cfg.logCap ∧
  (s.status.fault = false → s.re.state = .opened → s.re.coder.Normal)

/-- The tree builder's invariants (10_state.md R34, 44_codec_params.md R221 with the lock of 10_state.md R32). -/
def State.TreeInv (s : State) : Prop :=
  s.ft.head.toNat ≤ s.ft.tail.toNat ∧ s.ft.tail.toNat ≤ s.cfg.nodeCap ∧ s.ft.spanTop.toNat ≤ s.cfg.spanCap ∧
  (s.status.fault = false → s.ft.phase = .build → s.paramsValid = true)

/-- Every memory is in canonical form. -/
def State.memoriesWf (s : State) : Bool :=
  Memory.wf s.inMem && Memory.wf s.outMem && Memory.wf s.logMem && Memory.wf s.palMem && Memory.wf s.nodeMem &&
  Memory.wf s.spanMem && Memory.wf s.pixMem

/-- The invariant of the block. -/
def State.Inv (s : State) : Prop :=
  s.cfg.Ok ∧ s.StatusInv ∧ s.DecoderInv ∧ s.EncoderInv ∧ s.TreeInv

/-- The tree under construction (47_fragment_tree.md R283, R286, R303, R304; 10_state.md R36): every node's region lies in
its reservation and inside the image, one span a row at most; the nodes from `FT_HEAD` on are the unread ones; the
reservations are disjoint; every pixel of the image is covered by exactly one node that is not a Split; and there are
`2 * s + 1` nodes, `s` of them Splits. -/
def State.TreeShape (s : State) : Prop :=
  s.status.fault = false → s.ft.phase = .build →
    (∀ n < s.ft.tail.toNat,
      (s.nodeRec n).count ≤ (s.nodeRec n).cap ∧ (s.nodeRec n).base + (s.nodeRec n).cap ≤ s.ft.spanTop.toNat ∧
      (∀ p ∈ s.regionOf n, p.x0 < p.x1 ∧ p.x1 ≤ s.cp.width.toNat ∧ p.y < s.cp.height.toNat) ∧
      (s.regionOf n).Pairwise (fun p q => p.y < q.y)) ∧
    (∀ n < s.ft.tail.toNat, ((s.nodeRec n).kind = .unread ↔ s.ft.head.toNat ≤ n)) ∧
    (∀ m < s.ft.tail.toNat, ∀ n < s.ft.tail.toNat, m ≠ n → reservedDisjoint (s.nodeRec m) (s.nodeRec n) = true) ∧
    (∀ x < s.cp.width.toNat, ∀ y < s.cp.height.toNat,
      ∃! n, n < s.ft.tail.toNat ∧ (s.nodeRec n).kind ≠ .split ∧ covers (s.regionOf n) x y) ∧
    s.ft.tail.toNat =
      2 * ((List.range s.ft.tail.toNat).filter (fun n => decide ((s.nodeRec n).kind = .split))).length + 1

/-- The distance quantizer's registers are those of some measurement of a region inside the raster
(45_distance_quantizer.md R253). -/
def State.DistanceInv (s : State) : Prop :=
  s.dr.valid = true →
    s.dr.min.toInt ≤ s.dr.max.toInt ∧ -(2 ^ 34 : Int) < s.dr.min.toInt ∧ s.dr.max.toInt < 2 ^ 34 ∧
    16 ≤ s.dr.quant.toNat ∧ s.dr.quant.toNat < 2 ^ 41 ∧ s.dr.angle.toNat < s.cfg.nAngles ∧
    s.dr.numLines.toNat = (s.dr.max.toInt - s.dr.min.toInt).toNat / s.dr.quant.toNat

/-- Every written element of a memory lies below its capacity (20_memory.md R76). -/
def Memory.below {α : Type} (m : Memory α) (cap : Nat) : Bool := m.all (fun c => decide (c.1 < cap))

/-- Every written element of every memory lies below the memory's capacity (10_state.md R35, 20_memory.md R76). -/
def State.memoriesBounded (s : State) : Bool :=
  Memory.below s.inMem s.cfg.inCap && Memory.below s.outMem s.cfg.outCap && Memory.below s.logMem s.cfg.logCap &&
  Memory.below s.palMem s.cfg.paletteMax && Memory.below s.nodeMem s.cfg.nodeCap &&
  Memory.below s.spanMem s.cfg.spanCap && Memory.below s.pixMem s.cfg.pixCap

end Sys2Proof.Machine
end

