-- ==== Sys2Proof/Certificates/Slice0/Obligations.lean ====
section
/-! DEFINITION. The statements for the provers, one definition each; OBLIGATIONS.json lists them with the rules they cite. -/

open Sys2Proof Sys2Proof.Machine

/-! ### Encoding -/

/-- 30_encoding.md R100, R102, R104: the encoder and the decoder are inverse to each other, and a word decodes to a
command exactly when it is well formed. -/
def Obligations.DecodeEncodeAgree : Prop :=
  (∀ i : Instr, i.wellFormed = true → decode (encode i) = .command i ∧ decodeTableWord 64 (encode i).toNat = some i) ∧
  (∀ (w : Word) (i : Instr), decode w = .command i → w = encode i) ∧
  (∀ w : Word, (∃ i, decode w = .command i) ↔ wordWellFormed w = true) ∧
  (∀ w : Word, decode w = .reservedBits ↔ w.toNat / 256 ≠ 0)

/-- 30_encoding.md R102: command words written out from the opcode map. -/
def Obligations.ListedWordsDecode : Prop :=
  decode 0x01 = .command .sysReset ∧ decode 0x13 = .command .rdNum ∧ decode 0x21 = .command .rePut ∧
  decode 0x24 = .command .reOptfin ∧ decode 0x30 = .command .tgLookup ∧ decode 0x43 = .command .cpLevel ∧
  decode 0x51 = .command .drDist ∧ decode 0x58 = .command .rgSplit ∧ decode 0x63 = .command .ftDecode ∧
  decode 0x00 = .unlistedOpcode ∧ decode 0x101 = .reservedBits

/-! ### The host port and the step -/

/-- 30_encoding.md R101: a write of `CMD` with a command's word, outside the fault state (or of `SYS.RESET`'s word in any),
counts the command, marks it started and runs its meaning. -/
def Obligations.StepRunsDecodedCommand : Prop :=
  ∀ (s : State) (w : Word) (i : Instr) (rest : List HostAction),
    s.pending = .writeReg 0x00 w :: rest → s.status.busy = false → (s.status.fault = false ∨ w = 0x01) →
    decode w = .command i →
    step s = exec i { s with
      pending := rest
      cmdSeq := s.cmdSeq + 1
      status := { s.status with busy := true, done := false } }

/-- 30_encoding.md R101, R104: a word with a reserved bit set, or with an opcode that R104 names as illegal, faults. -/
def Obligations.IllegalWordsFault : Prop :=
  ∀ (s : State) (w : Word) (rest : List HostAction),
    s.pending = .writeReg 0x00 w :: rest → s.status.busy = false → s.status.fault = false →
    (w.toNat / 256 ≠ 0 →
      TrapsCleanly (step s) 1 2 (w.setWidth 8) { s with pending := rest, cmdSeq := s.cmdSeq + 1 }) ∧
    (w.toNat / 256 = 0 → isIllegalOpcode (w.toNat % 256) = true →
      TrapsCleanly (step s) 1 1 (w.setWidth 8) { s with pending := rest, cmdSeq := s.cmdSeq + 1 })

/-- 60_exceptions.md R342: in the fault state every word but `SYS.RESET`'s is refused without any change; host reads work,
and host writes to `ARG`, to the unlocked bank and to memories are accepted. -/
def Obligations.FaultStateRefusesCommands : Prop :=
  ∀ (s : State) (a : HostAction) (rest : List HostAction),
    s.pending = a :: rest → s.status.busy = false → s.status.fault = true →
    (∀ w : Word, a = .writeReg 0x00 w → w ≠ 0x01 → step s = .next { s with pending := rest }) ∧
    (∀ n, a = .readReg n → step s = .next { s with pending := rest, bus := .word (s.readReg n) }) ∧
    (∀ sp i, a = .readMem sp i → i < s.cfg.capacity sp →
      step s = .next { s with pending := rest, bus := s.readElement sp i }) ∧
    (∀ n v, a = .writeReg n v → isArgNumber n = true ∨ (isBankNumber n = true ∧ s.ft.phase ≠ .build) →
      ∃ t, step s = .next t ∧ t.readReg n = v ∧ t.status = s.status) ∧
    (∀ sp i d, a.stores = some (sp, i, d) → i < s.cfg.capacity sp →
      ∃ t, step s = .next t ∧ t.readElement sp i = d ∧ t.status = s.status)

/-- 60_exceptions.md R341: a host write to the locked bank is dropped and faults with `FAULT_CMD = 0`; in the fault state it
is dropped and nothing else happens. -/
def Obligations.LockedBankWriteFaults : Prop :=
  ∀ (s : State) (n : Nat) (v : Word) (rest : List HostAction),
    s.pending = .writeReg n v :: rest → s.status.busy = false → isBankNumber n = true → s.ft.phase = .build →
    (s.status.fault = false → TrapsCleanly (step s) 2 4 0 { s with pending := rest }) ∧
    (s.status.fault = true → step s = .next { s with pending := rest })

/-- 10_state.md R22, R26, R28, R30, R31, R33, R34, 60_exceptions.md R351: the register that each number names, with the bits
of `STATUS` and the values of the unit states; a host write changes the register it names and no other, and only if that is
an operand register or one of the unlocked bank; every other write has no effect; a read returns the register and changes
nothing; `CMD` and the numbers of no register read as 0. -/
def Obligations.RegisterAccessRights : Prop :=
  (∀ (s : State) (n : Nat) (v : Word) (rest : List HostAction),
    s.pending = .writeReg n v :: rest → s.status.busy = false → n ≠ 0x00 →
    (isBankNumber n = true → s.ft.phase ≠ .build) →
    ∃ t, step s = .next t ∧ t.pending = rest ∧
      (∀ m, t.readReg m = if m = n ∧ (isArgNumber n || isBankNumber n) = true then v else s.readReg m) ∧
      KeepsAllBut [.args, .cp, .hostSide] s t ∧ t.cfg = s.cfg ∧ t.bus = s.bus) ∧
  (∀ (s : State) (n : Nat) (rest : List HostAction),
    s.pending = .readReg n :: rest → s.status.busy = false →
    step s = .next { s with pending := rest, bus := .word (s.readReg n) }) ∧
  (∀ (s : State) (n : Nat), (isArgNumber n || isBankNumber n || isReadOnlyNumber n) = false → s.readReg n = 0) ∧
  (∀ s : State,
    ((s.readReg 0x01).getLsbD 0 = s.status.busy ∧ (s.readReg 0x01).getLsbD 1 = s.status.fault ∧
      (s.readReg 0x01).getLsbD 2 = s.status.done ∧ (s.readReg 0x01).getLsbD 3 = s.status.pad ∧
      ∀ k, 4 ≤ k → (s.readReg 0x01).getLsbD k = false) ∧
    (s.readReg 0x02 = s.faultCode ∧ s.readReg 0x03 = s.faultSub ∧ s.readReg 0x04 = s.faultCmd ∧
      s.readReg 0x05 = s.cmdSeq) ∧
    (s.readReg 0x08 = s.arg0 ∧ s.readReg 0x09 = s.arg1 ∧ s.readReg 0x0A = s.arg2) ∧
    (s.readReg 0x10 = s.res0 ∧ s.readReg 0x11 = s.res1 ∧ s.readReg 0x12 = s.res2 ∧ s.readReg 0x13 = s.res3) ∧
    (s.readReg 0x20 = (match s.rd.state with | .closed => 0 | .ready => 1 | .peeked => 2) ∧
      (s.readReg 0x21).toNat = s.rd.coder.low.toNat ∧ (s.readReg 0x22).toNat = s.rd.coder.range.toNat ∧
      (s.readReg 0x23).toNat = s.rd.code.toNat ∧ s.readReg 0x24 = s.rd.len ∧ s.readReg 0x25 = s.rd.pos ∧
      s.readReg 0x26 = s.rd.pad ∧ (s.readReg 0x27).toNat = s.rd.total.toNat ∧
      (s.readReg 0x28).toNat = s.rd.count.toNat) ∧
    (s.readReg 0x30 = (match s.re.state with | .closed => 0 | .opened => 1 | .finished => 2 | .minimized => 3) ∧
      (s.readReg 0x31).toNat = s.re.coder.low.toNat ∧ (s.readReg 0x32).toNat = s.re.coder.range.toNat ∧
      s.readReg 0x33 = s.re.outLen ∧ s.readReg 0x34 = s.re.logLen) ∧
    (s.readReg 0x40 = s.cp.width ∧ s.readReg 0x41 = s.cp.height ∧ s.readReg 0x42 = s.cp.code ∧
      s.readReg 0x43 = s.cp.lineLimit ∧ s.readReg 0x44 = s.cp.lineQuant ∧ s.readReg 0x45 = s.cp.qr ∧
      s.readReg 0x46 = s.cp.qg ∧ s.readReg 0x47 = s.cp.qb ∧ s.readReg 0x48 = s.cp.palSize ∧
      ∀ i : Fin 7, s.readReg (0x50 + i) = s.cp.levelScale[i] ∧ s.readReg (0x58 + i) = s.cp.angleBits[i]) ∧
    (s.readReg 0x60 = (if s.dr.valid then 1 else 0) ∧ s.readReg 0x61 = s.dr.min ∧ s.readReg 0x62 = s.dr.max ∧
      s.readReg 0x63 = s.dr.quant ∧ s.readReg 0x64 = s.dr.numLines ∧ s.readReg 0x65 = s.dr.angle) ∧
    (s.readReg 0x70 = (match s.ft.phase with | .idle => 0 | .build => 1 | .rendered => 2) ∧ s.readReg 0x71 = s.ft.head ∧
      s.readReg 0x72 = s.ft.tail ∧ s.readReg 0x73 = s.ft.spanTop))

/-- 10_state.md R20, R35, 20_memory.md R75: a host write of an element that exists and that the block does not own stores it
and changes nothing else; a read returns it. Outside the memory the model faults, and on `NODE` or `SPAN` in a build
it refuses (the model's own answers: logs 13 and 15). -/
def Obligations.ElementAccess : Prop :=
  (∀ (s : State) (a : HostAction) (rest : List HostAction) (sp : Space) (i : Nat) (d : BusData),
    s.pending = a :: rest → s.status.busy = false → a.stores = some (sp, i, d) → s.owned sp = false →
    (i < s.cfg.capacity sp →
      ∃ t, step s = .next t ∧ t.pending = rest ∧ t.readElement sp i = d ∧
        (∀ sp' j, (sp', j) ≠ (sp, i) → t.readElement sp' j = s.readElement sp' j) ∧
        KeepsAllBut [.mem sp, .hostSide] s t ∧ t.cfg = s.cfg ∧ t.bus = s.bus) ∧
    (s.cfg.capacity sp ≤ i → step s = .fault (.noSuchElement sp))) ∧
  (∀ (s : State) (a : HostAction) (rest : List HostAction) (sp : Space) (i : Nat) (d : BusData),
    s.pending = a :: rest → s.status.busy = false → a.stores = some (sp, i, d) → s.owned sp = true →
    ∃ r, step s = .refused r) ∧
  (∀ (s : State) (rest : List HostAction) (sp : Space) (i : Nat),
    s.pending = .readMem sp i :: rest → s.status.busy = false → i < s.cfg.capacity sp →
    step s = .next { s with pending := rest, bus := s.readElement sp i })

/-- 10_state.md R25: `CMDSEQ` counts every command that is not refused, faulting ones included, and nothing else. -/
def Obligations.CommandsAreCounted : Prop :=
  ∀ (s t : State) (a : HostAction) (rest : List HostAction),
    s.pending = a :: rest → step s = .next t →
    (∀ w, a = .writeReg 0x00 w →
      t.cmdSeq = if w = 0x01 then 0 else if s.status.fault = true then s.cmdSeq else s.cmdSeq + 1) ∧
    ((∀ w, a ≠ .writeReg 0x00 w) → t.cmdSeq = s.cmdSeq)

/-! ### Reset and the fault state -/

/-- 10_state.md R45: every register of the map at its reset value. That every memory lists no element, and so is in the
model's canonical form, is the model's own way to hold memories that R45 leaves unspecified (log 6). -/
def Obligations.ResetRegisterValues : Prop :=
  (∀ n, State.reset.readReg n = if n = 0x22 ∨ n = 0x32 then 0xFFFFFFFFFFFF else 0) ∧
  (State.reset.inMem = [] ∧ State.reset.outMem = [] ∧ State.reset.logMem = [] ∧ State.reset.palMem = [] ∧
    State.reset.nodeMem = [] ∧ State.reset.spanMem = [] ∧ State.reset.pixMem = []) ∧
  State.reset.memoriesWf = true ∧ State.reset.memoriesBounded = true

/-- 48_system.md R320: `SYS.RESET` in every state gives every register its reset value and keeps the memories. -/
def Obligations.SysResetResult : Prop :=
  ∀ s : State, ∃ t, exec .sysReset s = .next t ∧
    (∀ n, t.readReg n = if n = 0x22 ∨ n = 0x32 then 0xFFFFFFFFFFFF else 0) ∧
    t.status = Status.reset ∧ t.rd = RdRegs.reset ∧ t.re = ReRegs.reset ∧ t.cp = CpRegs.reset ∧ t.dr = DrRegs.reset ∧
    t.ft = FtRegs.reset ∧ (∀ sp, (Part.mem sp).kept s t) ∧ Part.hostSide.kept s t

/-- 60_exceptions.md R343: the only step that leaves the fault state is a `SYS.RESET`, and that one leaves it. -/
def Obligations.OnlyResetLeavesFaultState : Prop :=
  (∀ s t : State, s.status.fault = true → step s = .next t → t.status.fault = false →
    ∃ rest, s.pending = .writeReg 0x00 0x01 :: rest) ∧
  (∀ (s : State) (rest : List HostAction), s.pending = .writeReg 0x00 0x01 :: rest → s.status.busy = false →
    ∃ t, step s = .next t ∧ t.status = Status.reset)

/-- 60_exceptions.md R340: what entering the fault state writes, and that the first cause is the one kept. -/
def Obligations.FaultEntryWrites : Prop :=
  ∀ (c : Cause) (cmd : Byte) (s : State),
    (raiseFault c (cmd.setWidth 64) s).status = { s.status with fault := true, busy := false, done := false } ∧
    KeepsAllBut faultParts s (raiseFault c (cmd.setWidth 64) s) ∧
    (s.status.fault = false → FaultedWith c.code c.sub cmd (raiseFault c (cmd.setWidth 64) s)) ∧
    (s.status.fault = true → Part.faultRegs.kept s (raiseFault c (cmd.setWidth 64) s))

/-- 60_exceptions.md R331: a command that faults does so with one of the causes that the table lists for it, and records its
own opcode. -/
def Obligations.FaultCausesAreListed : Prop :=
  ∀ (i : Instr) (s t : State), s.status.fault = false → exec i s = .next t → t.status.fault = true →
    ∃ c ∈ mayRaise i, FaultedWith c.code c.sub (opcode i) t

/-- 60_exceptions.md R333: a command that faults with `PROTOCOL` or `INVALID_ARG` (for `FT.DECODE`, unless it is the bank test
inside its pseudocode, which fails only where `DeriveParams` breaks its contract, 44_codec_params.md R224), or `CP.LEVEL` or
`DR.UPDATE` with `CORRUPT`, has changed only what the fault entry writes. -/
def Obligations.PreconditionFaultsChangeNothing : Prop :=
  ∀ (i : Instr) (s t : State), s.status.fault = false → exec i s = .next t → t.status.fault = true →
    (t.faultCode = 2 ∨ t.faultCode = 3 ∨ (t.faultCode = 4 ∧ (i = .cpLevel ∨ i = .drUpdate))) →
    (i = .ftDecode → t.faultSub ≠ 4 ∨ (s.cfg.Bounds ∧ s.cfg.DeriveOk)) →
    KeepsAllBut faultParts s t ∧ t.status.pad = s.status.pad

/-- 60_exceptions.md R346, 30_encoding.md R101: every command ends, in a next state that is not busy; outside the fault
state it ends with `DONE` or with `FAULT` (but for `SYS.RESET`, which clears both). -/
def Obligations.EveryCommandEnds : Prop :=
  ∀ (i : Instr) (s : State), ∃ t, exec i s = .next t ∧ t.status.busy = false ∧
    (i ≠ .sysReset → s.status.fault = false → t.status.done = !t.status.fault)

/-- 10_state.md R23, R35 and the command rules: whether it completes or faults, a command changes nothing but `STATUS`, the
fault registers, the results, the free-value counter and the parts listed for it in `mayWrite`. In particular no command
but `SYS.RESET` writes an operand register, and each memory is written by the commands that R35 names. -/
def Obligations.CommandsWriteOnlyTheirParts : Prop :=
  ∀ (i : Instr) (s t : State), exec i s = .next t → KeepsAllBut (faultParts ++ mayWrite i) s t

/-! ### The range coder's arithmetic -/

/-- 40_range_decoder.md R143 to R146: between symbols the division is exact and positive, the narrowing and the shift stay
within 48 bits without wrapping, and each step keeps `1 <= range` and `low + range <= 2^48`. -/
def Obligations.CoderStaysInWidth : Prop :=
  (∀ (c : Coder) (bottom top total : Nat), c.Normal → 1 ≤ total → total ≤ 2 ^ 32 → bottom < top → top ≤ total →
    (c.divide total).low = c.low ∧ (c.divide total).range.toNat = c.range.toNat / total ∧
    1 ≤ (c.divide total).range.toNat ∧
    ((c.divide total).narrow bottom top).low.toNat = c.low.toNat + bottom * (c.range.toNat / total) ∧
    ((c.divide total).narrow bottom top).range.toNat = c.range.toNat / total * (top - bottom) ∧
    ((c.divide total).narrow bottom top).Inv) ∧
  (∀ c c' : Coder, c.Inv → c.toShift = some c' → c'.Inv ∧ c'.settled = true ∧ c'.low = c.low ∧
    (c'.range.toNat ≠ 2 ^ 40 →
      c'.shift.Inv ∧ c'.shift.low.toNat = c.low.toNat % 2 ^ 40 * 256 ∧ c'.shift.range.toNat = c'.range.toNat * 256))

/-- 40_range_decoder.md R155: from the coder's invariant the renormalization ends after at most 9 shifts, emits one byte a
shift, and leaves more than 2^32 of range and an unsettled top byte; more rounds than the model runs change nothing. -/
def Obligations.NormalizationEnds : Prop :=
  ∀ c : Coder, c.Inv →
    (∀ n, normalizeRounds ≤ n →
      Coder.normalize n c = Coder.normalize normalizeRounds c ∧ Coder.emitted n c = Coder.emitted normalizeRounds c) ∧
    (Coder.emitted normalizeRounds c).length ≤ 9 ∧
    (∀ c' k, Coder.normalize normalizeRounds c = some (c', k) →
      k = (Coder.emitted normalizeRounds c).length ∧ c'.Normal ∧ c'.settled = false)

/-- 40_range_decoder.md R147: after a shrink the coder collapses exactly when the new range is 1, 2^8, 2^16 or 2^24. -/
def Obligations.CollapseExactly : Prop :=
  ∀ c : Coder, c.Inv → c.settled = false → c.range.toNat ≤ 2 ^ 32 →
    (Coder.normalize normalizeRounds c = none ↔ c.shrink.range.toNat ∈ [1, 2 ^ 8, 2 ^ 16, 2 ^ 24])

/-! ### The range decoder -/

/-- 40_range_decoder.md R150 (with R141, R142, 20_memory.md R70): `RD.INIT` seeds the window with six bytes, the first the
most significant, zero past the end, and counts them. -/
def Obligations.RdInitResult : Prop :=
  ∀ s : State,
    (s.arg0.toNat ≤ s.cfg.inCap →
      ∃ t, exec .rdInit s = .next t ∧ Completed s t ∧ t.rd.state = .ready ∧
        t.rd.coder.low.toNat = 0 ∧ t.rd.coder.range.toNat = 2 ^ 48 - 1 ∧
        t.rd.len = s.arg0 ∧ t.rd.pos.toNat = min s.arg0.toNat 6 ∧ t.rd.pad.toNat = 6 - s.arg0.toNat ∧
        t.status.pad = decide (s.arg0.toNat < 6) ∧
        (let b := fun j => if j < s.arg0.toNat then (s.inByte j).toNat else 0
         t.rd.code.toNat = b 0 * 2 ^ 40 + b 1 * 2 ^ 32 + b 2 * 2 ^ 24 + b 3 * 2 ^ 16 + b 4 * 2 ^ 8 + b 5) ∧
        t.res0 = t.rd.code.setWidth 64 ∧ t.rd.total = s.rd.total ∧ t.rd.count = s.rd.count ∧
        KeepsAllBut [.status, .res0, .rd] s t) ∧
    (s.cfg.inCap < s.arg0.toNat → s.status.fault = false → TrapsCleanly (exec .rdInit s) 3 5 0x10 s)

/-- 40_range_decoder.md R151 (with R143): `RD.COUNT` divides the range and returns the count; its two checks. -/
def Obligations.RdCountResult : Prop :=
  ∀ s : State,
    (s.rd.state = .ready → s.rd.coder.Normal → 1 ≤ s.arg0.toNat → s.arg0.toNat ≤ 2 ^ 32 →
      ∃ t, exec .rdCount s = .next t ∧ CompletedKeepingPad s t ∧ t.rd.state = .peeked ∧
        t.rd.coder.low = s.rd.coder.low ∧ t.rd.coder.range.toNat = s.rd.coder.range.toNat / s.arg0.toNat ∧
        1 ≤ t.rd.coder.range.toNat ∧ t.rd.total.toNat = s.arg0.toNat ∧
        t.rd.count.toNat =
          (s.rd.code.toNat + 2 ^ 48 - s.rd.coder.low.toNat) % 2 ^ 48 / (s.rd.coder.range.toNat / s.arg0.toNat) ∧
        t.res0.toNat = t.rd.count.toNat ∧
        t.rd.code = s.rd.code ∧ t.rd.len = s.rd.len ∧ t.rd.pos = s.rd.pos ∧ t.rd.pad = s.rd.pad ∧
        KeepsAllBut [.status, .res0, .rd] s t) ∧
    (s.status.fault = false → s.rd.state ≠ .ready → TrapsCleanly (exec .rdCount s) 2 1 0x11 s) ∧
    (s.status.fault = false → s.rd.state = .ready → s.arg0.toNat = 0 ∨ 2 ^ 32 < s.arg0.toNat →
      TrapsCleanly (exec .rdCount s) 3 1 0x11 s)

/-- 40_range_decoder.md R152 (with R144, R145, R147): `RD.REMOVE` narrows to the interval and renormalizes, taking one byte
a shift; a collapse faults; its three checks. -/
def Obligations.RdRemoveResult : Prop :=
  ∀ s : State,
    (s.rd.state = .peeked → s.arg0.toNat < s.arg1.toNat → s.arg1.toNat ≤ s.rd.total.toNat →
      s.arg0.toNat ≤ s.rd.count.toNat → s.rd.count.toNat < s.arg1.toNat →
      (∀ c k, Coder.normalize normalizeRounds (s.rd.coder.narrow s.arg0.toNat s.arg1.toNat) = some (c, k) →
        ∃ t, exec .rdRemove s = .next t ∧ Completed s t ∧ t.rd.state = .ready ∧ t.rd.coder = c ∧ TookBytes k s t ∧
          t.rd.total = s.rd.total ∧ t.rd.count = s.rd.count ∧ KeepsAllBut [.status, .rd] s t) ∧
      (Coder.normalize normalizeRounds (s.rd.coder.narrow s.arg0.toNat s.arg1.toNat) = none → s.status.fault = false →
        ∃ t, exec .rdRemove s = .next t ∧ FaultedWith 5 1 0x12 t ∧ KeepsAllBut (.rd :: faultParts) s t)) ∧
    (s.status.fault = false → s.rd.state ≠ .peeked → TrapsCleanly (exec .rdRemove s) 2 1 0x12 s) ∧
    (s.status.fault = false → s.rd.state = .peeked →
      ¬ (s.arg0.toNat < s.arg1.toNat ∧ s.arg1.toNat ≤ s.rd.total.toNat) → TrapsCleanly (exec .rdRemove s) 3 2 0x12 s) ∧
    (s.status.fault = false → s.rd.state = .peeked → s.arg0.toNat < s.arg1.toNat → s.arg1.toNat ≤ s.rd.total.toNat →
      ¬ (s.arg0.toNat ≤ s.rd.count.toNat ∧ s.rd.count.toNat < s.arg1.toNat) → TrapsCleanly (exec .rdRemove s) 3 3 0x12 s)

/-- 40_range_decoder.md R153 (with R149): `RD.NUM` returns the symbol and moves the decoder past it; below 2 outcomes it
changes nothing; a count at or above the bound and a collapse fault; its two checks. -/
def Obligations.RdNumResult : Prop :=
  ∀ s : State,
    (s.rd.state = .ready → s.arg0.toNat ≤ 2 ^ 32 →
      (∀ v u, ReadsSymbol s.arg0.toNat v s u →
        ∃ t, exec .rdNum s = .next t ∧ Completed s t ∧ t.res0 = BitVec.ofNat 64 v ∧ t.rd = u.rd ∧
          t.status.pad = u.status.pad ∧ KeepsAllBut [.status, .res0, .rd] s t) ∧
      (2 ≤ s.arg0.toNat → s.status.fault = false →
        s.arg0.toNat ≤ (s.rd.coder.divide s.arg0.toNat).countOf s.rd.code →
        ∃ t, exec .rdNum s = .next t ∧ FaultedWith 4 2 0x13 t ∧ t.rd.state = .peeked ∧ t.rd.pos = s.rd.pos ∧
          t.rd.pad = s.rd.pad ∧ t.status.pad = s.status.pad ∧ KeepsAllBut (.rd :: faultParts) s t) ∧
      (2 ≤ s.arg0.toNat → s.status.fault = false → ∀ v, v < s.arg0.toNat →
        (s.rd.coder.divide s.arg0.toNat).countOf s.rd.code = v →
        Coder.normalize normalizeRounds ((s.rd.coder.divide s.arg0.toNat).narrow v (v + 1)) = none →
        ∃ t, exec .rdNum s = .next t ∧ FaultedWith 5 1 0x13 t ∧ KeepsAllBut (.rd :: faultParts) s t)) ∧
    (s.status.fault = false → s.rd.state ≠ .ready → TrapsCleanly (exec .rdNum s) 2 1 0x13 s) ∧
    (s.status.fault = false → s.rd.state = .ready → 2 ^ 32 < s.arg0.toNat → TrapsCleanly (exec .rdNum s) 3 1 0x13 s)

/-! ### The range encoder -/

/-- 41_range_encoder.md R175: `RE.INIT` opens the encoder in every state; the contents of `OUT` and `LOG` stay. -/
def Obligations.ReInitResult : Prop :=
  ∀ s : State, ∃ t, exec .reInit s = .next t ∧ CompletedKeepingPad s t ∧ t.re.state = .opened ∧
    t.re.coder.low.toNat = 0 ∧ t.re.coder.range.toNat = 2 ^ 48 - 1 ∧ t.re.outLen = 0 ∧ t.re.logLen = 0 ∧
    KeepsAllBut [.status, .re] s t

/-- 41_range_encoder.md R176 (with R171 to R173): `RE.PUT` logs the triplet, narrows, renormalizes and appends the settled
bytes, where there is room and no collapse; its three checks. -/
def Obligations.RePutResult : Prop :=
  ∀ s : State,
    (s.cfg.Bounds → s.re.state = .opened → 1 ≤ s.arg2.toNat → s.arg2.toNat ≤ 2 ^ 32 → s.arg0.toNat < s.arg1.toNat →
      s.arg1.toNat ≤ s.arg2.toNat → s.canCode s.arg0.toNat s.arg1.toNat s.arg2.toNat →
      ∃ t, exec .rePut s = .next t ∧ CompletedKeepingPad s t ∧ CodesTriplet s.arg0.toNat s.arg1.toNat s.arg2.toNat s t ∧
        t.res0 = t.re.outLen ∧ KeepsAllBut [.status, .res0, .re, .mem .out, .mem .log] s t) ∧
    (s.status.fault = false → s.re.state ≠ .opened → TrapsCleanly (exec .rePut s) 2 2 0x21 s) ∧
    (s.status.fault = false → s.re.state = .opened → s.arg2.toNat = 0 ∨ 2 ^ 32 < s.arg2.toNat →
      TrapsCleanly (exec .rePut s) 3 1 0x21 s) ∧
    (s.status.fault = false → s.re.state = .opened → 1 ≤ s.arg2.toNat → s.arg2.toNat ≤ 2 ^ 32 →
      ¬ (s.arg0.toNat < s.arg1.toNat ∧ s.arg1.toNat ≤ s.arg2.toNat) → TrapsCleanly (exec .rePut s) 3 2 0x21 s)

/-- 41_range_encoder.md R177: `RE.NUM` codes `(value, value + 1, max)`, and nothing where `max < 2`; its three checks. -/
def Obligations.ReNumResult : Prop :=
  ∀ s : State,
    (s.re.state = .opened → s.arg0.toNat < 2 → s.arg1 = 0 →
      ∃ t, exec .reNum s = .next t ∧ CompletedKeepingPad s t ∧ t.res0 = s.re.outLen ∧ KeepsAllBut [.status, .res0] s t) ∧
    (s.cfg.Bounds → s.re.state = .opened → 2 ≤ s.arg0.toNat → s.arg0.toNat ≤ 2 ^ 32 → s.arg1.toNat < s.arg0.toNat →
      s.canCode s.arg1.toNat (s.arg1.toNat + 1) s.arg0.toNat →
      ∃ t, exec .reNum s = .next t ∧ CompletedKeepingPad s t ∧
        CodesTriplet s.arg1.toNat (s.arg1.toNat + 1) s.arg0.toNat s t ∧
        t.res0 = t.re.outLen ∧ KeepsAllBut [.status, .res0, .re, .mem .out, .mem .log] s t) ∧
    (s.status.fault = false → s.re.state ≠ .opened → TrapsCleanly (exec .reNum s) 2 2 0x22 s) ∧
    (s.status.fault = false → s.re.state = .opened → 2 ^ 32 < s.arg0.toNat → TrapsCleanly (exec .reNum s) 3 1 0x22 s) ∧
    (s.status.fault = false → s.re.state = .opened → s.arg0.toNat ≤ 2 ^ 32 →
      (s.arg0.toNat < 2 ∧ s.arg1 ≠ 0) ∨ (2 ≤ s.arg0.toNat ∧ s.arg0.toNat ≤ s.arg1.toNat) →
      TrapsCleanly (exec .reNum s) 3 5 0x22 s)

/-- 41_range_encoder.md R178 (with R174): `RE.FINISH` appends the six bytes of `low`, the most significant first, and leaves
`low` at 0 and `range` as it was; its check, and the fault where six bytes do not fit. -/
def Obligations.ReFinishResult : Prop :=
  ∀ s : State,
    (s.cfg.Bounds → s.re.state = .opened → s.re.outLen.toNat + 6 ≤ s.cfg.outCap →
      ∃ t, exec .reFinish s = .next t ∧ CompletedKeepingPad s t ∧ t.re.state = .finished ∧ t.re.coder.low = 0 ∧
        t.re.coder.range = s.re.coder.range ∧ t.re.logLen = s.re.logLen ∧
        AppendsBytes ([40, 32, 24, 16, 8, 0].map (fun k => BitVec.ofNat 8 (s.re.coder.low.toNat / 2 ^ k))) s t ∧
        t.res0 = t.re.outLen ∧ KeepsAllBut [.status, .res0, .re, .mem .out] s t) ∧
    (s.status.fault = false → s.re.state ≠ .opened → TrapsCleanly (exec .reFinish s) 2 2 0x23 s) ∧
    (s.cfg.Bounds → s.status.fault = false → s.re.state = .opened → s.re.outLen.toNat ≤ s.cfg.outCap →
      s.cfg.outCap < s.re.outLen.toNat + 6 →
      ∃ t, exec .reFinish s = .next t ∧ FaultedWith 6 1 0x23 t ∧ t.re.outLen.toNat = s.cfg.outCap ∧
        t.re.state = .opened ∧ KeepsAllBut (.re :: .mem .out :: faultParts) s t)

/-- 41_range_encoder.md R171 to R173, 60_exceptions.md R344: the faults that `RE.PUT` meets while it runs: `LOG` full (before
anything is written), `OUT` full, and a collapse; what was appended before stays. -/
def Obligations.EncoderRunFaults : Prop :=
  ∀ s : State, s.cfg.Bounds → s.status.fault = false → s.re.state = .opened → 1 ≤ s.arg2.toNat → s.arg2.toNat ≤ 2 ^ 32 →
    s.arg0.toNat < s.arg1.toNat → s.arg1.toNat ≤ s.arg2.toNat → s.re.outLen.toNat ≤ s.cfg.outCap →
    (s.cfg.logCap ≤ s.re.logLen.toNat → TrapsCleanly (exec .rePut s) 6 2 0x21 s) ∧
    (let bytes := Coder.emitted normalizeRounds (s.putCoder s.arg0.toNat s.arg1.toNat s.arg2.toNat)
     s.re.logLen.toNat < s.cfg.logCap →
      (s.cfg.outCap < s.re.outLen.toNat + bytes.length →
        ∃ t, exec .rePut s = .next t ∧ FaultedWith 6 1 0x21 t ∧ LogsTriplet s.arg0.toNat s.arg1.toNat s.arg2.toNat s t ∧
          AppendsBytes (bytes.take (s.cfg.outCap - s.re.outLen.toNat)) s t ∧
          KeepsAllBut (.re :: .mem .out :: .mem .log :: faultParts) s t) ∧
      (s.re.outLen.toNat + bytes.length ≤ s.cfg.outCap →
        Coder.normalize normalizeRounds (s.putCoder s.arg0.toNat s.arg1.toNat s.arg2.toNat) = none →
        ∃ t, exec .rePut s = .next t ∧ FaultedWith 5 2 0x21 t ∧ LogsTriplet s.arg0.toNat s.arg1.toNat s.arg2.toNat s t ∧
          AppendsBytes bytes s t ∧ KeepsAllBut (.re :: .mem .out :: .mem .log :: faultParts) s t))

/-- 41_range_encoder.md R180: `RE.PUT`, `RE.NUM` and `RE.FINISH`, completing or faulting, only append: no byte of `OUT` below
`OUT_LEN` and no entry of `LOG` below `LOG_LEN` changes, and neither length goes down. -/
def Obligations.EncoderOnlyAppends : Prop :=
  ∀ (i : Instr) (s t : State), i ∈ [Instr.rePut, .reNum, .reFinish] → s.cfg.Bounds → exec i s = .next t →
    (∀ j < s.re.outLen.toNat, t.outByte j = s.outByte j) ∧ s.re.outLen.toNat ≤ t.re.outLen.toNat ∧
    (∀ j < s.re.logLen.toNat, t.logEntry j = s.logEntry j) ∧ s.re.logLen.toNat ≤ t.re.logLen.toNat

/-- 41_range_encoder.md R181: from equal `(low, range)`, coding a triplet and decoding it lead to equal `(low, range)`, and the
encoder emits as many bytes as the decoder takes in. -/
def Obligations.CodersMoveTogether : Prop :=
  ∀ (e e' d u d' : State) (bottom top total : Word),
    e.re.coder = d.rd.coder → Runs .rePut (e.withArgs bottom top total) e' →
    Runs .rdCount (d.withArgs total 0 0) u → Runs .rdRemove (u.withArgs bottom top 0) d' →
    e'.re.coder = d'.rd.coder ∧
    e'.re.outLen - e.re.outLen = (d'.rd.pos + d'.rd.pad) - (d.rd.pos + d.rd.pad)

/-- 40_range_decoder.md R156 and 42_byte_minimizer.md R196: every list of triplets that the encoder codes without fault is
read back from its output, after `RE.FINISH` and after `RE.OPTFIN`: every `RD.COUNT` answers a count in the coded interval. -/
def Obligations.TripletsRoundTrip : Prop :=
  ∀ (i : Instr) (triplets : List Triplet) (s s₀ s₁ t d : State),
    i ∈ [Instr.reFinish, .reOptfin] → s.cfg.Bounds →
    Runs .reInit s s₀ → EncodesTriplets triplets s₀ s₁ → Runs i s₁ t →
    d.status.fault = false → t.re.outLen.toNat ≤ d.cfg.inCap →
    (∀ j < t.re.outLen.toNat, d.inByte j = t.outByte j) →
    ∃ d₀, Runs .rdInit (d.withArgs t.re.outLen 0 0) d₀ ∧ DecodesTriplets triplets d₀

/-! ### The byte minimizer -/

/-- 42_byte_minimizer.md R195, R197, R198 (with R194): `RE.OPTFIN` completes from `FINISHED`, and from `OPEN` where the flush
does; it never lengthens the output, keeps a validating output validating, and cannot drop one more byte. -/
def Obligations.OptfinShortens : Prop :=
  ∀ s : State,
    (∀ u, ((s.re.state = .finished ∧ u = s) ∨ (s.re.state = .opened ∧ Runs .reFinish s u)) →
      ∃ t, exec .reOptfin s = .next t ∧ CompletedKeepingPad s t ∧ t.re.state = .minimized ∧
        t.res1 = u.re.outLen ∧ t.res0 = t.re.outLen ∧ t.re.outLen.toNat ≤ u.re.outLen.toNat ∧
        t.re.coder = u.re.coder ∧ t.re.logLen = u.re.logLen ∧
        (u.outputValidates = true → t.outputValidates = true) ∧ t.LastByteNeeded ∧
        KeepsAllBut [.status, .res0, .res1, .re, .rp, .mem .out, .freeCount] s t) ∧
    (s.status.fault = false → s.re.state = .closed ∨ s.re.state = .minimized →
      TrapsCleanly (exec .reOptfin s) 2 2 0x24 s)

/-- 42_byte_minimizer.md R198, the source's conjecture, which the spec states without proof: no byte string shorter than the
output of `RE.OPTFIN` validates against the coded triplets. -/
def Obligations.MinimizedIsShortest : Prop :=
  ∀ (triplets : List Triplet) (s s₀ s₁ t : State), s.cfg.Bounds → Runs .reInit s s₀ → EncodesTriplets triplets s₀ s₁ →
    (Runs .reOptfin s₁ t ∨ ∃ u, Runs .reFinish s₁ u ∧ Runs .reOptfin u t) →
    t.outputValidates = true ∧ t.OutputIsShortest

/-! ### The trigonometry table -/

/-- 43_trig_lut.md R214: `TG.LOOKUP` returns the two ROM entries, sign-extended (exactly, for a ROM within its scale); its
check. -/
def Obligations.TgLookupResult : Prop :=
  ∀ s : State,
    (s.arg0.toNat < s.cfg.nAngles →
      ∃ t, exec .tgLookup s = .next t ∧ CompletedKeepingPad s t ∧
        t.res0 = BitVec.ofInt 64 (s.cfg.trigSin s.arg0.toNat) ∧ t.res1 = BitVec.ofInt 64 (s.cfg.trigCos s.arg0.toNat) ∧
        (s.cfg.Bounds → s.cfg.RomOk →
          t.res0.toInt = s.cfg.trigSin s.arg0.toNat ∧ t.res1.toInt = s.cfg.trigCos s.arg0.toNat) ∧
        KeepsAllBut [.status, .res0, .res1] s t) ∧
    (s.status.fault = false → s.cfg.nAngles ≤ s.arg0.toNat → TrapsCleanly (exec .tgLookup s) 3 5 0x30 s)

/-- 43_trig_lut.md R213: the properties of the default ROM image that other rules rely on; and, for every image that keeps
(a) and (b), that a projected distance stays below 2^34. -/
def Obligations.TrigTableProperties : Prop :=
  (let c := resetConfig
   c.nAngles = 512 ∧ c.RomOk ∧
   ∀ a < 512, (c.trigSin a = 0 ↔ a = 0) ∧ (a ≠ 0 → 1608 ≤ c.trigSin a) ∧ (c.trigSin a).natAbs ≤ 2 ^ 18 ∧
    (c.trigCos a).natAbs ≤ 2 ^ 18 ∧ (0 < c.trigCos a ↔ a < 256) ∧ (c.trigCos a = 0 ↔ a = 256) ∧
    (c.trigSin a * c.trigSin a + c.trigCos a * c.trigCos a - 2 ^ 36).natAbs ≤ 329831) ∧
  (∀ (c : Config) (a x y : Nat), c.Bounds → c.RomOk → a < c.nAngles → x ≤ c.dimMax → y ≤ c.dimMax →
    (c.trigCos a * y + c.trigSin a * x).natAbs < 2 ^ 34)

/-! ### The codec parameters -/

/-- 44_codec_params.md R230 (with R224, R225): `CP.SETCODE` writes the derived bank and the code and keeps the rest, and
where `DeriveParams` keeps its contract the bank is valid; its three checks. Which derivation it is, is the
implementation's (log 3). -/
def Obligations.CpSetcodeResult : Prop :=
  ∀ s : State,
    (s.ft.phase ≠ .build → s.arg0.toNat < s.cfg.maxCode → s.dimsValid = true →
      ∃ t, exec .cpSetcode s = .next t ∧ CompletedKeepingPad s t ∧ t.res0 = s.arg0 ∧
        (let d := deriveFor s.cfg.derive s.arg0.toNat s.cp.width.toNat s.cp.height.toNat
         t.cp = ⟨s.cp.width, s.cp.height, s.arg0, d.lineLimit, d.lineQuant, d.qr, d.qg, d.qb, s.cp.palSize, d.levelScale,
           d.angleBits⟩) ∧
        (s.cfg.DeriveOk → s.cp.palSize.toNat ≤ s.cfg.paletteMax → t.paramsValid = true) ∧
        KeepsAllBut [.status, .res0, .cp] s t) ∧
    (s.status.fault = false → s.ft.phase = .build → TrapsCleanly (exec .cpSetcode s) 2 4 0x40 s) ∧
    (s.status.fault = false → s.ft.phase ≠ .build → s.cfg.maxCode ≤ s.arg0.toNat →
      TrapsCleanly (exec .cpSetcode s) 3 5 0x40 s) ∧
    (s.status.fault = false → s.ft.phase ≠ .build → s.arg0.toNat < s.cfg.maxCode → s.dimsValid = false →
      TrapsCleanly (exec .cpSetcode s) 3 4 0x40 s)

/-- 44_codec_params.md R231 (with R224 to R227, 30_encoding.md R120): where the stream holds the symbols of a header, `CP.READ`
reads them all, loads the bank and the palette, and returns the sizes, the code and the palette size, and where
`DeriveParams` keeps its contract the bank is valid; its four checks. -/
def Obligations.CpReadResult : Prop :=
  ∀ s : State,
    (∀ (dims : Option (Nat × Nat)) (w h code : Nat) (colours : List (Nat × Nat × Nat)) (u : State),
      s.cfg.Bounds → s.rd.state = .ready → s.ft.phase ≠ .build →
      (s.arg0 = 0 ∧ dims = some (w, h) ∧ 8 ≤ w ∧ w ≤ s.cfg.dimMax ∧ 8 ≤ h ∧ h ≤ s.cfg.dimMax) ∨
        (s.arg0 = 1 ∧ dims = none ∧ s.dimsValid = true ∧ w = s.cp.width.toNat ∧ h = s.cp.height.toNat) →
      ReadsSymbols (headerSymbols s.cfg dims code colours) s u →
      ∃ t, exec .cpRead s = .next t ∧ Completed s t ∧ t.rd = u.rd ∧ t.status.pad = u.status.pad ∧
        (let d := deriveFor s.cfg.derive code w h
         t.cp = ⟨BitVec.ofNat 64 w, BitVec.ofNat 64 h, BitVec.ofNat 64 code, d.lineLimit, d.lineQuant, d.qr, d.qg, d.qb,
           BitVec.ofNat 64 colours.length, d.levelScale, d.angleBits⟩) ∧
        (∀ k, t.palEntry k =
          match colours[k]? with
          | some q => ⟨BitVec.ofNat 8 q.1, BitVec.ofNat 8 q.2.1, BitVec.ofNat 8 q.2.2, 255⟩
          | none => s.palEntry k) ∧
        t.res0 = t.cp.width ∧ t.res1 = t.cp.height ∧ t.res2 = t.cp.code ∧ t.res3 = t.cp.palSize ∧
        (s.cfg.DeriveOk → t.paramsValid = true) ∧
        KeepsAllBut [.status, .res0, .res1, .res2, .res3, .rd, .cp, .mem .pal] s t) ∧
    (s.status.fault = false → s.rd.state ≠ .ready → TrapsCleanly (exec .cpRead s) 2 1 0x41 s) ∧
    (s.status.fault = false → s.rd.state = .ready → s.ft.phase = .build → TrapsCleanly (exec .cpRead s) 2 4 0x41 s) ∧
    (s.status.fault = false → s.rd.state = .ready → s.ft.phase ≠ .build → 2 ≤ s.arg0.toNat →
      TrapsCleanly (exec .cpRead s) 3 5 0x41 s) ∧
    (s.status.fault = false → s.rd.state = .ready → s.ft.phase ≠ .build → s.arg0 = 1 → s.dimsValid = false →
      TrapsCleanly (exec .cpRead s) 3 4 0x41 s)

/-- 44_codec_params.md R232 (with R226, 30_encoding.md R111): where the stream holds the symbols that code the size `n`,
`CP.SIZE` returns `n`, and faults after the last group where `n` is above `DIM_MAX` (and the groups before it did not
fault); its check. -/
def Obligations.CpSizeResult : Prop :=
  ∀ s : State,
    (∀ n symbols u, s.cfg.Bounds → s.rd.state = .ready → sizeSymbols s.cfg.sizeGroupTotal n = some symbols →
      n ≤ s.cfg.dimMax → ReadsSymbols symbols s u →
      ∃ t, exec .cpSize s = .next t ∧ Completed s t ∧ t.res0 = BitVec.ofNat 64 n ∧ t.rd = u.rd ∧
        t.status.pad = u.status.pad ∧ KeepsAllBut [.status, .res0, .rd] s t) ∧
    (∀ n symbols u, s.status.fault = false → s.rd.state = .ready → sizeSymbols s.cfg.sizeGroupTotal n = some symbols →
      s.cfg.dimMax < n → n ≤ 8 * s.cfg.dimMax + 15 → ReadsSymbols symbols.dropLast s u →
      ∃ t, exec .cpSize s = .next t ∧ FaultedWith 4 3 0x42 t ∧ t.rd = u.rd ∧ KeepsAllBut (.rd :: faultParts) s t) ∧
    (s.status.fault = false → s.rd.state ≠ .ready → TrapsCleanly (exec .cpSize s) 2 1 0x42 s)

/-- 30_encoding.md R111 and 44_codec_params.md R226: the groups of the size code and the fold of the reader are inverse to
each other between the integers from 8 on and the strings of two or more groups; values below 8 have no encoding. -/
def Obligations.SizeCodeIsBijective : Prop :=
  (∀ n : Nat, n < 8 ↔ sizeGroups n = none) ∧ (∀ n < 8, reSizeLine n = none) ∧
  (∀ (n : Nat) (gs : List Nat), sizeGroups n = some gs ↔
    2 ≤ gs.length ∧ (∀ g ∈ gs, g < 8) ∧
      gs.foldl (fun (bits : Int) (g : Nat) => 8 * bits + g + 8) (-1) = n) ∧
  (∀ gs : List Nat, 2 ≤ gs.length → (∀ g ∈ gs, g < 8) →
    8 ≤ gs.foldl (fun (bits : Int) (g : Nat) => 8 * bits + g + 8) (-1))

/-- 44_codec_params.md R233 (with R228): `CP.LEVEL` returns the level of the region's bounding box and its squared diagonal;
its two checks and the empty region. -/
def Obligations.CpLevelResult : Prop :=
  ∀ s : State,
    (∀ (minX maxX minY maxY : Nat) (i : Fin 7), s.cfg.Bounds → s.regionOk s.arg0.toNat = true →
      s.paramsValid = true → BoundingBox (s.regionOf s.arg0.toNat) minX maxX minY maxY → IsLevel s.cp (boxDiagonal minX maxX minY maxY) i →
      ∃ t, exec .cpLevel s = .next t ∧ CompletedKeepingPad s t ∧ t.res0.toNat = i.val ∧
        t.res1.toNat = boxDiagonal minX maxX minY maxY ∧ KeepsAllBut [.status, .res0, .res1] s t) ∧
    (s.status.fault = false → s.regionOk s.arg0.toNat = false → TrapsCleanly (exec .cpLevel s) 3 5 0x43 s) ∧
    (s.status.fault = false → s.regionOk s.arg0.toNat = true → s.paramsValid = false →
      TrapsCleanly (exec .cpLevel s) 3 4 0x43 s) ∧
    (s.status.fault = false → s.regionOk s.arg0.toNat = true → s.paramsValid = true →
      (s.nodeRec s.arg0.toNat).count = 0 → TrapsCleanly (exec .cpLevel s) 4 1 0x43 s)

/-- 44_codec_params.md R235: shrinking a region's bounding box can only move the level to an equal or higher index, whatever
the bank. -/
def Obligations.LevelIsMonotonic : Prop :=
  ∀ (s t t' : State) (m n : Word) (minX maxX minY maxY minX' maxX' minY' maxY' : Nat),
    BoundingBox (s.regionOf m.toNat) minX maxX minY maxY → BoundingBox (s.regionOf n.toNat) minX' maxX' minY' maxY' →
    minX ≤ minX' → maxX' ≤ maxX → minY ≤ minY' → maxY' ≤ maxY →
    Runs .cpLevel (s.withArgs m 0 0) t → Runs .cpLevel (s.withArgs n 0 0) t' → t.res0.toNat ≤ t'.res0.toNat

/-- 44_codec_params.md R234 (with R229): `CP.DEQ` returns `floor((255 v + q - 2) / (q - 1))`; its check. -/
def Obligations.CpDeqResult : Prop :=
  ∀ s : State,
    (2 ≤ s.arg1.toNat → s.arg1.toNat ≤ 2 ^ 32 → s.arg0.toNat < s.arg1.toNat →
      ∃ t, exec .cpDeq s = .next t ∧ CompletedKeepingPad s t ∧
        t.res0.toNat = (255 * s.arg0.toNat + s.arg1.toNat - 2) / (s.arg1.toNat - 1) ∧ t.res0.toNat ≤ 255 ∧
        KeepsAllBut [.status, .res0] s t) ∧
    (s.status.fault = false → ¬ (2 ≤ s.arg1.toNat ∧ s.arg1.toNat ≤ 2 ^ 32 ∧ s.arg0.toNat < s.arg1.toNat) →
      TrapsCleanly (exec .cpDeq s) 3 5 0x44 s)

/-- 44_codec_params.md R236: the endpoints map to 0 and 255 for every supported quantizer. -/
def Obligations.DequantizerEndpoints : Prop :=
  ∀ (s : State) (q : Word), 2 ≤ q.toNat → q.toNat ≤ 2 ^ 32 →
    (∃ t, exec .cpDeq (s.withArgs 0 q 0) = .next t ∧ CompletedKeepingPad s t ∧ t.res0 = 0) ∧
    (∃ t, exec .cpDeq (s.withArgs (q - 1) q 0) = .next t ∧ CompletedKeepingPad s t ∧ t.res0 = 255)

/-! ### The distance quantizer -/

/-- 45_distance_quantizer.md R255 (with R251 to R253): `DR.UPDATE` projects the end pixels, takes the extremes, grows the
quantum until at most `CP_LINELIMIT` lines remain, and returns what it wrote; its three checks and the empty region. -/
def Obligations.DrUpdateResult : Prop :=
  ∀ s : State,
    (s.cfg.Bounds → s.cfg.RomOk → s.regionOk s.arg0.toNat = true → s.arg1.toNat < s.cfg.nAngles → s.paramsValid = true →
      0 < (s.nodeRec s.arg0.toNat).count →
      ∃ t, exec .drUpdate s = .next t ∧ CompletedKeepingPad s t ∧
        Measures s.cfg s.cp (s.regionOf s.arg0.toNat) s.arg1.toNat t.dr ∧
        t.res0 = t.dr.numLines ∧ t.res1 = t.dr.quant ∧ t.res2 = t.dr.min ∧ t.res3 = t.dr.max ∧
        KeepsAllBut [.status, .res0, .res1, .res2, .res3, .dr] s t) ∧
    (s.status.fault = false → s.regionOk s.arg0.toNat = false ∨ s.cfg.nAngles ≤ s.arg1.toNat →
      TrapsCleanly (exec .drUpdate s) 3 5 0x50 s) ∧
    (s.status.fault = false → s.regionOk s.arg0.toNat = true → s.arg1.toNat < s.cfg.nAngles → s.paramsValid = false →
      TrapsCleanly (exec .drUpdate s) 3 4 0x50 s) ∧
    (s.status.fault = false → s.regionOk s.arg0.toNat = true → s.arg1.toNat < s.cfg.nAngles → s.paramsValid = true →
      (s.nodeRec s.arg0.toNat).count = 0 → TrapsCleanly (exec .drUpdate s) 4 1 0x50 s)

/-- 45_distance_quantizer.md R256 (with R254): `DR.DIST` returns the distance of a line, evenly spaced or the middle rounded
toward zero; its two checks. -/
def Obligations.DrDistResult : Prop :=
  ∀ s : State,
    (s.DistanceInv → s.dr.valid = true → s.arg0.toNat < max s.dr.numLines.toNat 1 →
      ∃ t, exec .drDist s = .next t ∧ CompletedKeepingPad s t ∧
        (1 < s.dr.numLines.toNat → t.res0.toInt =
          s.dr.min.toInt +
            (s.dr.max.toInt - s.dr.min.toInt - ((s.dr.numLines.toNat : Int) - 1) * s.dr.quant.toNat) / 2 +
            s.dr.quant.toNat * s.arg0.toNat) ∧
        (s.dr.numLines.toNat ≤ 1 → t.res0.toInt = (s.dr.max.toInt + s.dr.min.toInt).tdiv 2) ∧
        KeepsAllBut [.status, .res0] s t) ∧
    (s.status.fault = false → s.dr.valid = false → TrapsCleanly (exec .drDist s) 2 5 0x51 s) ∧
    (s.status.fault = false → s.dr.valid = true → max s.dr.numLines.toNat 1 ≤ s.arg0.toNat →
      TrapsCleanly (exec .drDist s) 3 5 0x51 s)

/-- 45_distance_quantizer.md R257: every legal line's distance lies between `DR_MIN` and `DR_MAX`. -/
def Obligations.DistancesStayInside : Prop :=
  ∀ s t : State, s.DistanceInv → s.dr.valid = true → s.arg0.toNat < max s.dr.numLines.toNat 1 →
    exec .drDist s = .next t → s.dr.min.toInt ≤ t.res0.toInt ∧ t.res0.toInt ≤ s.dr.max.toInt

/-! ### The region splitter -/

/-- 46_region_split.md R270 (with R267): `RG.SPLIT` stores the two parts in the reservations of the node's `left` and `right`,
writes their counts and nothing else of the records, and keeps the parent; its checks. -/
def Obligations.RgSplitResult : Prop :=
  ∀ s : State,
    (let n := s.arg0.toNat
     let l := (s.nodeRec n).left
     let r := (s.nodeRec n).right
     let a := s.arg1.toNat
     let d := s.arg2.toInt
     s.ft.phase ≠ .build → s.regionOk n = true → a < s.cfg.nAngles → -(2 ^ 40 : Int) < d → d < 2 ^ 40 → s.destinationsOk n = true →
      ∃ t, exec .rgSplit s = .next t ∧ CompletedKeepingPad s t ∧
        t.regionOf l = leftSpans s.cfg a d (s.regionOf n) ∧ t.regionOf r = rightSpans s.cfg a d (s.regionOf n) ∧
        t.regionOf n = s.regionOf n ∧
        t.nodeRec l = { s.nodeRec l with count := (leftSpans s.cfg a d (s.regionOf n)).length } ∧
        t.nodeRec r = { s.nodeRec r with count := (rightSpans s.cfg a d (s.regionOf n)).length } ∧
        (∀ m, m ≠ l → m ≠ r → t.nodeRec m = s.nodeRec m) ∧
        (∀ i, ¬ ((s.nodeRec l).base ≤ i ∧ i < (s.nodeRec l).base + (s.nodeRec l).cap) →
          ¬ ((s.nodeRec r).base ≤ i ∧ i < (s.nodeRec r).base + (s.nodeRec r).cap) → t.spanRec i = s.spanRec i) ∧
        t.res0 = BitVec.ofNat 64 (leftSpans s.cfg a d (s.regionOf n)).length ∧
        t.res1 = BitVec.ofNat 64 (rightSpans s.cfg a d (s.regionOf n)).length ∧
        KeepsAllBut [.status, .res0, .res1, .freeCount, .mem .node, .mem .span] s t) ∧
    (s.status.fault = false → s.ft.phase = .build → TrapsCleanly (exec .rgSplit s) 2 3 0x58 s) ∧
    (s.status.fault = false → s.ft.phase ≠ .build →
      ¬ (s.regionOk s.arg0.toNat = true ∧ s.arg1.toNat < s.cfg.nAngles ∧ -(2 ^ 40 : Int) < s.arg2.toInt ∧ s.arg2.toInt < 2 ^ 40 ∧
        s.destinationsOk s.arg0.toNat = true) → TrapsCleanly (exec .rgSplit s) 3 5 0x58 s)

/-- 46_region_split.md R266, R268: every pixel of the region goes to exactly one part, judged at its centre column; the parts
are well formed and sorted, keep one span a row, and have at most one span for each of the region's. -/
def Obligations.SplitPartitionsRegion : Prop :=
  ∀ (c : Config) (a : Nat) (d : Int) (l : List SpanRec), c.RomOk → a < c.nAngles → l.all (SpanRec.ok c.dimMax) = true →
    (∀ x y, covers (leftSpans c a d l) x y ↔ covers l x y ∧ goesLeft c a d x y) ∧
    (∀ x y, covers (rightSpans c a d l) x y ↔ covers l x y ∧ ¬ goesLeft c a d x y) ∧
    (leftSpans c a d l).all (SpanRec.ok c.dimMax) = true ∧ (rightSpans c a d l).all (SpanRec.ok c.dimMax) = true ∧
    (rowsSorted l = true → rowsSorted (leftSpans c a d l) = true ∧ rowsSorted (rightSpans c a d l) = true) ∧
    (l.Pairwise (fun p q => p.y < q.y) →
      (leftSpans c a d l).Pairwise (fun p q => p.y < q.y) ∧ (rightSpans c a d l).Pairwise (fun p q => p.y < q.y)) ∧
    (leftSpans c a d l).length ≤ l.length ∧ (rightSpans c a d l).length ≤ l.length

/-! ### The fragment tree -/

/-- 47_fragment_tree.md R290 (with R283): `FT.ROOT` makes one span a row, the root node, and the queue that holds it; its check
and the two capacities. -/
def Obligations.FtRootResult : Prop :=
  ∀ s : State,
    (let h := s.cp.height.toNat
     s.paramsValid = true → 1 ≤ s.cfg.nodeCap → h ≤ s.cfg.spanCap →
      ∃ t, exec .ftRoot s = .next t ∧ CompletedKeepingPad s t ∧ t.res0 = 1 ∧
        t.ft = ⟨.build, 0, 1, s.cp.height⟩ ∧ t.dr = { s.dr with valid := false } ∧
        (∀ i, t.spanRec i = if i < h then ⟨i, 0, s.cp.width.toNat⟩ else s.spanRec i) ∧
        (∀ n, t.nodeRec n = if n = 0 then ⟨.unread, ⟨0, 0, 0, 0⟩, 0, 0, 0, h, h⟩ else s.nodeRec n) ∧
        KeepsAllBut [.status, .res0, .dr, .ft, .mem .node, .mem .span] s t) ∧
    (s.status.fault = false → s.paramsValid = false → TrapsCleanly (exec .ftRoot s) 3 4 0x60 s) ∧
    (s.status.fault = false → s.paramsValid = true → s.cfg.nodeCap = 0 → TrapsCleanly (exec .ftRoot s) 6 3 0x60 s) ∧
    (s.status.fault = false → s.paramsValid = true → 1 ≤ s.cfg.nodeCap → s.cfg.spanCap < s.cp.height.toNat →
      TrapsCleanly (exec .ftRoot s) 6 4 0x60 s)

/-- 47_fragment_tree.md R291, R286 (with R284): where the stream holds the type symbol `NODE_FILL` and the symbols of a colour, `FT.PARSE`
makes the node at the head of the queue a Fill leaf of that colour; its checks. -/
def Obligations.FtParseFillResult : Prop :=
  (∀ (s u : State) (symbols : List (Nat × Nat)) (c : Colour),
    s.ft.phase = .build → s.ft.head.toNat < s.ft.tail.toNat → s.rd.state = .ready →
    ColourSymbols s symbols c → ReadsSymbols ((2, s.cfg.nodeFill) :: symbols) s u →
    ∃ t, exec .ftParse s = .next t ∧ Completed s t ∧ t.rd = u.rd ∧ t.status.pad = u.status.pad ∧
      t.ft = { s.ft with head := s.ft.head + 1 } ∧
      (∀ n, t.nodeRec n =
        if n = s.ft.head.toNat then { s.nodeRec n with kind := .fill, colour := c } else s.nodeRec n) ∧
      t.res0 = s.ft.head ∧ t.res1 = 1 ∧ t.res2 = s.ft.tail - (s.ft.head + 1) ∧
      KeepsAllBut [.status, .res0, .res1, .res2, .rd, .ft, .mem .node] s t) ∧
  (∀ s : State, s.status.fault = false →
    (s.ft.phase ≠ .build ∨ s.ft.tail.toNat ≤ s.ft.head.toNat → TrapsCleanly (exec .ftParse s) 2 3 0x61 s) ∧
    (s.ft.phase = .build → s.ft.head.toNat < s.ft.tail.toNat → s.rd.state ≠ .ready →
      TrapsCleanly (exec .ftParse s) 2 1 0x61 s))

/-- 47_fragment_tree.md R291, R286 (with R281, R285, R228, R253, R254, R267): where the stream holds the type symbol `NODE_SPLIT`, an
angle index of the level's bit depth and a line index, `FT.PARSE` measures the region, allocates two children of the parent's span
count, splits the region into them and makes the node a Split. -/
def Obligations.FtParseSplitResult : Prop :=
  ∀ (s u : State) (minX maxX minY maxY : Nat) (level : Fin 7) (idx line : Nat) (d : DrRegs),
    let n := s.ft.head.toNat
    let l := s.ft.tail.toNat
    let top := s.ft.spanTop.toNat
    let c := (s.nodeRec n).count
    let b := (s.cp.angleBits[level]).toNat
    let a := idx * 2 ^ (s.cfg.angleBitsMax - b)
    let dist : Int :=
      if 1 < d.numLines.toNat then
        d.min.toInt + (d.max.toInt - d.min.toInt - ((d.numLines.toNat : Int) - 1) * d.quant.toNat) / 2 + d.quant.toNat * line
      else (d.max.toInt + d.min.toInt).tdiv 2
    s.cfg.Bounds → s.cfg.RomOk → s.ft.phase = .build → n < l → s.rd.state = .ready → s.paramsValid = true → s.regionOk n = true →
    (s.nodeRec n).base + (s.nodeRec n).cap ≤ top → l + 2 ≤ s.cfg.nodeCap → top + 2 * c ≤ s.cfg.spanCap →
    BoundingBox (s.regionOf n) minX maxX minY maxY → IsLevel s.cp (boxDiagonal minX maxX minY maxY) level →
    Measures s.cfg s.cp (s.regionOf n) a d →
    ReadsSymbols [(2, s.cfg.nodeSplit), (2 ^ b, idx), (d.numLines.toNat, line)] s u →
    ∃ t, exec .ftParse s = .next t ∧ Completed s t ∧ t.rd = u.rd ∧ t.status.pad = u.status.pad ∧ t.dr = d ∧
      t.ft.phase = .build ∧ t.ft.head = s.ft.head + 1 ∧ t.ft.tail.toNat = l + 2 ∧ t.ft.spanTop.toNat = top + 2 * c ∧
      t.nodeRec n = { s.nodeRec n with kind := .split, left := l, right := l + 1 } ∧
      t.nodeRec l = ⟨.unread, ⟨0, 0, 0, 0⟩, 0, 0, top, (leftSpans s.cfg a dist (s.regionOf n)).length, c⟩ ∧
      t.nodeRec (l + 1) = ⟨.unread, ⟨0, 0, 0, 0⟩, 0, 0, top + c, (rightSpans s.cfg a dist (s.regionOf n)).length, c⟩ ∧
      (∀ m, m ≠ n → m ≠ l → m ≠ l + 1 → t.nodeRec m = s.nodeRec m) ∧
      t.regionOf l = leftSpans s.cfg a dist (s.regionOf n) ∧ t.regionOf (l + 1) = rightSpans s.cfg a dist (s.regionOf n) ∧
      (∀ i, i < top ∨ top + 2 * c ≤ i → t.spanRec i = s.spanRec i) ∧
      t.res0 = s.ft.head ∧ t.res1 = 2 ∧ t.res2 = t.ft.tail - t.ft.head ∧
      KeepsAllBut [.status, .res0, .res1, .res2, .rd, .dr, .ft, .freeCount, .mem .node, .mem .span] s t

/-- 47_fragment_tree.md R301 (with R300, 20_memory.md R72): `FT.RENDER` gives every pixel that a Fill leaf covers the colour of
the last such leaf, changes no other byte of `PIX`, and ends the build. -/
def Obligations.FtRenderResult : Prop :=
  ∀ s : State,
    (let w := s.cp.width.toNat
     s.ft.phase = .build → s.ft.head = s.ft.tail → 1 ≤ w → 4 * w * s.cp.height.toNat ≤ s.cfg.pixCap →
      (∀ n < s.ft.tail.toNat, (s.nodeRec n).kind = .fill → ∀ p ∈ s.regionOf n, p.x1 ≤ w) →
      ∃ t, exec .ftRender s = .next t ∧ CompletedKeepingPad s t ∧ t.ft = { s.ft with phase := .rendered } ∧
        (∀ n x y, s.fillCovers n x y → (∀ m, n < m → ¬ s.fillCovers m x y) →
          t.pixByte (4 * (y * w + x)) = (s.nodeRec n).colour.r ∧
          t.pixByte (4 * (y * w + x) + 1) = (s.nodeRec n).colour.g ∧
          t.pixByte (4 * (y * w + x) + 2) = (s.nodeRec n).colour.b ∧
          t.pixByte (4 * (y * w + x) + 3) = (s.nodeRec n).colour.a) ∧
        (∀ i, (∀ n, ¬ s.fillCovers n (i / 4 % w) (i / 4 / w)) → t.pixByte i = s.pixByte i) ∧
        t.res0 = s.cp.width ∧ t.res1 = s.cp.height ∧ t.res2 = s.ft.tail ∧
        KeepsAllBut [.status, .res0, .res1, .res2, .ft, .mem .pix] s t) ∧
    (s.status.fault = false → s.ft.phase ≠ .build ∨ s.ft.head ≠ s.ft.tail → TrapsCleanly (exec .ftRender s) 2 3 0x62 s) ∧
    (s.status.fault = false → s.ft.phase = .build → s.ft.head = s.ft.tail →
      s.cfg.pixCap < 4 * s.cp.width.toNat * s.cp.height.toNat → TrapsCleanly (exec .ftRender s) 6 5 0x62 s)

/-- 47_fragment_tree.md R302: `FT.DECODE` completes where the sequence `RD.INIT`, `CP.READ`, `FT.ROOT`, `FT.PARSE` until the queue
is empty, `FT.RENDER`, begun with the phase at `IDLE`, does, and leaves every unit and memory as that sequence does. -/
def Obligations.FtDecodeIsTheSequence : Prop :=
  ∀ (s s₁ s₂ s₃ s₄ s₅ : State) (k : Nat), s.cfg.Bounds →
    Runs .rdInit (s.withFt { s.ft with phase := .idle }) s₁ → Runs .cpRead (s₁.withArgs s.arg1 0 0) s₂ →
    Runs .ftRoot s₂ s₃ → ParsesQueue k s₃ s₄ → Runs .ftRender s₄ s₅ →
    ∃ t, exec .ftDecode s = .next t ∧ Completed s t ∧ t.status.pad = s₅.status.pad ∧
      t.rd = s₅.rd ∧ t.cp = s₅.cp ∧ t.dr = s₅.dr ∧ t.ft = s₅.ft ∧
      (∀ sp i, t.readElement sp i = s₅.readElement sp i) ∧
      t.res0 = s₅.res0 ∧ t.res1 = s₅.res1 ∧ t.res2 = s₅.res2 ∧ t.res3 = s₅.rd.pad ∧
      Part.re.kept s t ∧ Part.rp.kept s t ∧ Part.args.kept s t ∧ Part.cmdSeq.kept s t ∧ Part.faultRegs.kept s t ∧
      Part.hostSide.kept s t

/-- 47_fragment_tree.md R302 (with R283, R284, R286, R300, 44_codec_params.md R225, 30_encoding.md R120): `FT.DECODE` of a
stream that holds an image header and a single Fill leaf completes and gives every pixel of the image the leaf's colour; its
checks. -/
def Obligations.FtDecodeOneLeaf : Prop :=
  (∀ (s u : State) (w h code : Nat) (colours : List (Nat × Nat × Nat)) (symbols : List (Nat × Nat)) (c : Colour),
    let d := deriveFor s.cfg.derive code w h
    let bank : CpRegs := ⟨BitVec.ofNat 64 w, BitVec.ofNat 64 h, BitVec.ofNat 64 code, d.lineLimit, d.lineQuant, d.qr, d.qg,
      d.qb, BitVec.ofNat 64 colours.length, d.levelScale, d.angleBits⟩
    s.cfg.Bounds → s.arg0.toNat ≤ s.cfg.inCap → s.arg1 = 0 → 8 ≤ w → w ≤ s.cfg.dimMax → 8 ≤ h →
    h ≤ s.cfg.dimMax → bank.valid s.cfg = true → 1 ≤ s.cfg.nodeCap → h ≤ s.cfg.spanCap → 4 * w * h ≤ s.cfg.pixCap →
    LeafSymbols d colours symbols c →
    ReadsSymbols (headerSymbols s.cfg (some (w, h)) code colours ++ (2, s.cfg.nodeFill) :: symbols) (rdInit s.arg0.toNat s) u →
    ∃ t, exec .ftDecode s = .next t ∧ Completed s t ∧ t.status.pad = u.status.pad ∧ t.rd = u.rd ∧ t.cp = bank ∧
      t.ft = ⟨.rendered, 1, 1, BitVec.ofNat 64 h⟩ ∧
      (∀ x y, x < w → y < h →
        t.pixByte (4 * (y * w + x)) = c.r ∧ t.pixByte (4 * (y * w + x) + 1) = c.g ∧
        t.pixByte (4 * (y * w + x) + 2) = c.b ∧ t.pixByte (4 * (y * w + x) + 3) = c.a) ∧
      (∀ i, 4 * w * h ≤ i → t.pixByte i = s.pixByte i) ∧
      t.res0.toNat = w ∧ t.res1.toNat = h ∧ t.res2 = 1 ∧ t.res3 = u.rd.pad ∧
      KeepsAllBut [.status, .res0, .res1, .res2, .res3, .rd, .cp, .dr, .ft, .mem .pal, .mem .node, .mem .span, .mem .pix] s t) ∧
  (∀ s : State, s.status.fault = false →
    (s.cfg.inCap < s.arg0.toNat ∨ 2 ≤ s.arg1.toNat → TrapsCleanly (exec .ftDecode s) 3 5 0x63 s) ∧
    (s.arg0.toNat ≤ s.cfg.inCap → s.arg1 = 1 → s.dimsValid = false → TrapsCleanly (exec .ftDecode s) 3 4 0x63 s))

/-! ### Invariants -/

/-- 10_state.md R27 to R30, R34: the block's invariants, with the tree's and the quantizer's, hold at reset. -/
def Obligations.ResetMeetsInvariants : Prop :=
  State.reset.Inv ∧ State.reset.TreeShape ∧ State.reset.DistanceInv

/-- 10_state.md R27 to R30, R34, 40_range_decoder.md R146: every step keeps the block's invariants. -/
def Obligations.StepKeepsInvariants : Prop :=
  ∀ s t : State, s.Inv → step s = .next t → t.Inv

/-- 10_state.md R35 (how the model holds a memory: 'indices strictly rising' is its own canonical form): every step keeps every
memory in canonical form. -/
def Obligations.StepKeepsCanonicalMemories : Prop :=
  ∀ s t : State, s.memoriesWf = true → step s = .next t → t.memoriesWf = true

/-- 47_fragment_tree.md R303, R304, 10_state.md R36: every step keeps the shape of the tree under construction (in particular
its leaves tile the image) and the quantizer's registers those of a measurement. -/
def Obligations.StepKeepsTreeTiling : Prop :=
  ∀ s t : State, s.Inv → s.TreeShape → s.DistanceInv → step s = .next t → t.TreeShape ∧ t.DistanceInv

/-- 20_memory.md R76: no step writes an element at or above a memory's capacity. -/
def Obligations.StepStaysInBounds : Prop :=
  ∀ s t : State, s.Inv → s.TreeShape → s.memoriesBounded = true → step s = .next t → t.memoriesBounded = true
end

