-- ==== Sys2Proof/Laws/State.lean ====
section
/-! SUPPORT. The small lemmas of the named updates of the state: one for each field under each update, and one for each
element read under each update that leaves its memory alone. -/

namespace Sys2Proof.Machine

/-! ### `withStatus` -/

@[simp] theorem withStatus_status (s : State) (v : Status) : (s.withStatus v).status = v := rfl
@[simp] theorem withStatus_faultCode (s : State) (v : Status) : (s.withStatus v).faultCode = s.faultCode := rfl
@[simp] theorem withStatus_faultSub (s : State) (v : Status) : (s.withStatus v).faultSub = s.faultSub := rfl
@[simp] theorem withStatus_faultCmd (s : State) (v : Status) : (s.withStatus v).faultCmd = s.faultCmd := rfl
@[simp] theorem withStatus_cmdSeq (s : State) (v : Status) : (s.withStatus v).cmdSeq = s.cmdSeq := rfl
@[simp] theorem withStatus_arg0 (s : State) (v : Status) : (s.withStatus v).arg0 = s.arg0 := rfl
@[simp] theorem withStatus_arg1 (s : State) (v : Status) : (s.withStatus v).arg1 = s.arg1 := rfl
@[simp] theorem withStatus_arg2 (s : State) (v : Status) : (s.withStatus v).arg2 = s.arg2 := rfl
@[simp] theorem withStatus_res0 (s : State) (v : Status) : (s.withStatus v).res0 = s.res0 := rfl
@[simp] theorem withStatus_res1 (s : State) (v : Status) : (s.withStatus v).res1 = s.res1 := rfl
@[simp] theorem withStatus_res2 (s : State) (v : Status) : (s.withStatus v).res2 = s.res2 := rfl
@[simp] theorem withStatus_res3 (s : State) (v : Status) : (s.withStatus v).res3 = s.res3 := rfl
@[simp] theorem withStatus_rd (s : State) (v : Status) : (s.withStatus v).rd = s.rd := rfl
@[simp] theorem withStatus_re (s : State) (v : Status) : (s.withStatus v).re = s.re := rfl
@[simp] theorem withStatus_rp (s : State) (v : Status) : (s.withStatus v).rp = s.rp := rfl
@[simp] theorem withStatus_cp (s : State) (v : Status) : (s.withStatus v).cp = s.cp := rfl
@[simp] theorem withStatus_dr (s : State) (v : Status) : (s.withStatus v).dr = s.dr := rfl
@[simp] theorem withStatus_ft (s : State) (v : Status) : (s.withStatus v).ft = s.ft := rfl
@[simp] theorem withStatus_inMem (s : State) (v : Status) : (s.withStatus v).inMem = s.inMem := rfl
@[simp] theorem withStatus_outMem (s : State) (v : Status) : (s.withStatus v).outMem = s.outMem := rfl
@[simp] theorem withStatus_logMem (s : State) (v : Status) : (s.withStatus v).logMem = s.logMem := rfl
@[simp] theorem withStatus_palMem (s : State) (v : Status) : (s.withStatus v).palMem = s.palMem := rfl
@[simp] theorem withStatus_nodeMem (s : State) (v : Status) : (s.withStatus v).nodeMem = s.nodeMem := rfl
@[simp] theorem withStatus_spanMem (s : State) (v : Status) : (s.withStatus v).spanMem = s.spanMem := rfl
@[simp] theorem withStatus_pixMem (s : State) (v : Status) : (s.withStatus v).pixMem = s.pixMem := rfl
@[simp] theorem withStatus_cfg (s : State) (v : Status) : (s.withStatus v).cfg = s.cfg := rfl
@[simp] theorem withStatus_pending (s : State) (v : Status) : (s.withStatus v).pending = s.pending := rfl
@[simp] theorem withStatus_bus (s : State) (v : Status) : (s.withStatus v).bus = s.bus := rfl
@[simp] theorem withStatus_freeCount (s : State) (v : Status) : (s.withStatus v).freeCount = s.freeCount := rfl
@[simp] theorem withStatus_inByte (s : State) (v : Status) (k : Nat) : (s.withStatus v).inByte k = s.inByte k := rfl
@[simp] theorem withStatus_outByte (s : State) (v : Status) (k : Nat) : (s.withStatus v).outByte k = s.outByte k := rfl
@[simp] theorem withStatus_logEntry (s : State) (v : Status) (k : Nat) : (s.withStatus v).logEntry k = s.logEntry k := rfl
@[simp] theorem withStatus_palEntry (s : State) (v : Status) (k : Nat) : (s.withStatus v).palEntry k = s.palEntry k := rfl
@[simp] theorem withStatus_nodeRec (s : State) (v : Status) (k : Nat) : (s.withStatus v).nodeRec k = s.nodeRec k := rfl
@[simp] theorem withStatus_spanRec (s : State) (v : Status) (k : Nat) : (s.withStatus v).spanRec k = s.spanRec k := rfl
@[simp] theorem withStatus_pixByte (s : State) (v : Status) (k : Nat) : (s.withStatus v).pixByte k = s.pixByte k := rfl

/-! ### `withRes0` -/

@[simp] theorem withRes0_status (s : State) (v : Word) : (s.withRes0 v).status = s.status := rfl
@[simp] theorem withRes0_faultCode (s : State) (v : Word) : (s.withRes0 v).faultCode = s.faultCode := rfl
@[simp] theorem withRes0_faultSub (s : State) (v : Word) : (s.withRes0 v).faultSub = s.faultSub := rfl
@[simp] theorem withRes0_faultCmd (s : State) (v : Word) : (s.withRes0 v).faultCmd = s.faultCmd := rfl
@[simp] theorem withRes0_cmdSeq (s : State) (v : Word) : (s.withRes0 v).cmdSeq = s.cmdSeq := rfl
@[simp] theorem withRes0_arg0 (s : State) (v : Word) : (s.withRes0 v).arg0 = s.arg0 := rfl
@[simp] theorem withRes0_arg1 (s : State) (v : Word) : (s.withRes0 v).arg1 = s.arg1 := rfl
@[simp] theorem withRes0_arg2 (s : State) (v : Word) : (s.withRes0 v).arg2 = s.arg2 := rfl
@[simp] theorem withRes0_res0 (s : State) (v : Word) : (s.withRes0 v).res0 = v := rfl
@[simp] theorem withRes0_res1 (s : State) (v : Word) : (s.withRes0 v).res1 = s.res1 := rfl
@[simp] theorem withRes0_res2 (s : State) (v : Word) : (s.withRes0 v).res2 = s.res2 := rfl
@[simp] theorem withRes0_res3 (s : State) (v : Word) : (s.withRes0 v).res3 = s.res3 := rfl
@[simp] theorem withRes0_rd (s : State) (v : Word) : (s.withRes0 v).rd = s.rd := rfl
@[simp] theorem withRes0_re (s : State) (v : Word) : (s.withRes0 v).re = s.re := rfl
@[simp] theorem withRes0_rp (s : State) (v : Word) : (s.withRes0 v).rp = s.rp := rfl
@[simp] theorem withRes0_cp (s : State) (v : Word) : (s.withRes0 v).cp = s.cp := rfl
@[simp] theorem withRes0_dr (s : State) (v : Word) : (s.withRes0 v).dr = s.dr := rfl
@[simp] theorem withRes0_ft (s : State) (v : Word) : (s.withRes0 v).ft = s.ft := rfl
@[simp] theorem withRes0_inMem (s : State) (v : Word) : (s.withRes0 v).inMem = s.inMem := rfl
@[simp] theorem withRes0_outMem (s : State) (v : Word) : (s.withRes0 v).outMem = s.outMem := rfl
@[simp] theorem withRes0_logMem (s : State) (v : Word) : (s.withRes0 v).logMem = s.logMem := rfl
@[simp] theorem withRes0_palMem (s : State) (v : Word) : (s.withRes0 v).palMem = s.palMem := rfl
@[simp] theorem withRes0_nodeMem (s : State) (v : Word) : (s.withRes0 v).nodeMem = s.nodeMem := rfl
@[simp] theorem withRes0_spanMem (s : State) (v : Word) : (s.withRes0 v).spanMem = s.spanMem := rfl
@[simp] theorem withRes0_pixMem (s : State) (v : Word) : (s.withRes0 v).pixMem = s.pixMem := rfl
@[simp] theorem withRes0_cfg (s : State) (v : Word) : (s.withRes0 v).cfg = s.cfg := rfl
@[simp] theorem withRes0_pending (s : State) (v : Word) : (s.withRes0 v).pending = s.pending := rfl
@[simp] theorem withRes0_bus (s : State) (v : Word) : (s.withRes0 v).bus = s.bus := rfl
@[simp] theorem withRes0_freeCount (s : State) (v : Word) : (s.withRes0 v).freeCount = s.freeCount := rfl
@[simp] theorem withRes0_inByte (s : State) (v : Word) (k : Nat) : (s.withRes0 v).inByte k = s.inByte k := rfl
@[simp] theorem withRes0_outByte (s : State) (v : Word) (k : Nat) : (s.withRes0 v).outByte k = s.outByte k := rfl
@[simp] theorem withRes0_logEntry (s : State) (v : Word) (k : Nat) : (s.withRes0 v).logEntry k = s.logEntry k := rfl
@[simp] theorem withRes0_palEntry (s : State) (v : Word) (k : Nat) : (s.withRes0 v).palEntry k = s.palEntry k := rfl
@[simp] theorem withRes0_nodeRec (s : State) (v : Word) (k : Nat) : (s.withRes0 v).nodeRec k = s.nodeRec k := rfl
@[simp] theorem withRes0_spanRec (s : State) (v : Word) (k : Nat) : (s.withRes0 v).spanRec k = s.spanRec k := rfl
@[simp] theorem withRes0_pixByte (s : State) (v : Word) (k : Nat) : (s.withRes0 v).pixByte k = s.pixByte k := rfl

/-! ### `withRes1` -/

@[simp] theorem withRes1_status (s : State) (v : Word) : (s.withRes1 v).status = s.status := rfl
@[simp] theorem withRes1_faultCode (s : State) (v : Word) : (s.withRes1 v).faultCode = s.faultCode := rfl
@[simp] theorem withRes1_faultSub (s : State) (v : Word) : (s.withRes1 v).faultSub = s.faultSub := rfl
@[simp] theorem withRes1_faultCmd (s : State) (v : Word) : (s.withRes1 v).faultCmd = s.faultCmd := rfl
@[simp] theorem withRes1_cmdSeq (s : State) (v : Word) : (s.withRes1 v).cmdSeq = s.cmdSeq := rfl
@[simp] theorem withRes1_arg0 (s : State) (v : Word) : (s.withRes1 v).arg0 = s.arg0 := rfl
@[simp] theorem withRes1_arg1 (s : State) (v : Word) : (s.withRes1 v).arg1 = s.arg1 := rfl
@[simp] theorem withRes1_arg2 (s : State) (v : Word) : (s.withRes1 v).arg2 = s.arg2 := rfl
@[simp] theorem withRes1_res0 (s : State) (v : Word) : (s.withRes1 v).res0 = s.res0 := rfl
@[simp] theorem withRes1_res1 (s : State) (v : Word) : (s.withRes1 v).res1 = v := rfl
@[simp] theorem withRes1_res2 (s : State) (v : Word) : (s.withRes1 v).res2 = s.res2 := rfl
@[simp] theorem withRes1_res3 (s : State) (v : Word) : (s.withRes1 v).res3 = s.res3 := rfl
@[simp] theorem withRes1_rd (s : State) (v : Word) : (s.withRes1 v).rd = s.rd := rfl
@[simp] theorem withRes1_re (s : State) (v : Word) : (s.withRes1 v).re = s.re := rfl
@[simp] theorem withRes1_rp (s : State) (v : Word) : (s.withRes1 v).rp = s.rp := rfl
@[simp] theorem withRes1_cp (s : State) (v : Word) : (s.withRes1 v).cp = s.cp := rfl
@[simp] theorem withRes1_dr (s : State) (v : Word) : (s.withRes1 v).dr = s.dr := rfl
@[simp] theorem withRes1_ft (s : State) (v : Word) : (s.withRes1 v).ft = s.ft := rfl
@[simp] theorem withRes1_inMem (s : State) (v : Word) : (s.withRes1 v).inMem = s.inMem := rfl
@[simp] theorem withRes1_outMem (s : State) (v : Word) : (s.withRes1 v).outMem = s.outMem := rfl
@[simp] theorem withRes1_logMem (s : State) (v : Word) : (s.withRes1 v).logMem = s.logMem := rfl
@[simp] theorem withRes1_palMem (s : State) (v : Word) : (s.withRes1 v).palMem = s.palMem := rfl
@[simp] theorem withRes1_nodeMem (s : State) (v : Word) : (s.withRes1 v).nodeMem = s.nodeMem := rfl
@[simp] theorem withRes1_spanMem (s : State) (v : Word) : (s.withRes1 v).spanMem = s.spanMem := rfl
@[simp] theorem withRes1_pixMem (s : State) (v : Word) : (s.withRes1 v).pixMem = s.pixMem := rfl
@[simp] theorem withRes1_cfg (s : State) (v : Word) : (s.withRes1 v).cfg = s.cfg := rfl
@[simp] theorem withRes1_pending (s : State) (v : Word) : (s.withRes1 v).pending = s.pending := rfl
@[simp] theorem withRes1_bus (s : State) (v : Word) : (s.withRes1 v).bus = s.bus := rfl
@[simp] theorem withRes1_freeCount (s : State) (v : Word) : (s.withRes1 v).freeCount = s.freeCount := rfl
@[simp] theorem withRes1_inByte (s : State) (v : Word) (k : Nat) : (s.withRes1 v).inByte k = s.inByte k := rfl
@[simp] theorem withRes1_outByte (s : State) (v : Word) (k : Nat) : (s.withRes1 v).outByte k = s.outByte k := rfl
@[simp] theorem withRes1_logEntry (s : State) (v : Word) (k : Nat) : (s.withRes1 v).logEntry k = s.logEntry k := rfl
@[simp] theorem withRes1_palEntry (s : State) (v : Word) (k : Nat) : (s.withRes1 v).palEntry k = s.palEntry k := rfl
@[simp] theorem withRes1_nodeRec (s : State) (v : Word) (k : Nat) : (s.withRes1 v).nodeRec k = s.nodeRec k := rfl
@[simp] theorem withRes1_spanRec (s : State) (v : Word) (k : Nat) : (s.withRes1 v).spanRec k = s.spanRec k := rfl
@[simp] theorem withRes1_pixByte (s : State) (v : Word) (k : Nat) : (s.withRes1 v).pixByte k = s.pixByte k := rfl

/-! ### `withRes2` -/

@[simp] theorem withRes2_status (s : State) (v : Word) : (s.withRes2 v).status = s.status := rfl
@[simp] theorem withRes2_faultCode (s : State) (v : Word) : (s.withRes2 v).faultCode = s.faultCode := rfl
@[simp] theorem withRes2_faultSub (s : State) (v : Word) : (s.withRes2 v).faultSub = s.faultSub := rfl
@[simp] theorem withRes2_faultCmd (s : State) (v : Word) : (s.withRes2 v).faultCmd = s.faultCmd := rfl
@[simp] theorem withRes2_cmdSeq (s : State) (v : Word) : (s.withRes2 v).cmdSeq = s.cmdSeq := rfl
@[simp] theorem withRes2_arg0 (s : State) (v : Word) : (s.withRes2 v).arg0 = s.arg0 := rfl
@[simp] theorem withRes2_arg1 (s : State) (v : Word) : (s.withRes2 v).arg1 = s.arg1 := rfl
@[simp] theorem withRes2_arg2 (s : State) (v : Word) : (s.withRes2 v).arg2 = s.arg2 := rfl
@[simp] theorem withRes2_res0 (s : State) (v : Word) : (s.withRes2 v).res0 = s.res0 := rfl
@[simp] theorem withRes2_res1 (s : State) (v : Word) : (s.withRes2 v).res1 = s.res1 := rfl
@[simp] theorem withRes2_res2 (s : State) (v : Word) : (s.withRes2 v).res2 = v := rfl
@[simp] theorem withRes2_res3 (s : State) (v : Word) : (s.withRes2 v).res3 = s.res3 := rfl
@[simp] theorem withRes2_rd (s : State) (v : Word) : (s.withRes2 v).rd = s.rd := rfl
@[simp] theorem withRes2_re (s : State) (v : Word) : (s.withRes2 v).re = s.re := rfl
@[simp] theorem withRes2_rp (s : State) (v : Word) : (s.withRes2 v).rp = s.rp := rfl
@[simp] theorem withRes2_cp (s : State) (v : Word) : (s.withRes2 v).cp = s.cp := rfl
@[simp] theorem withRes2_dr (s : State) (v : Word) : (s.withRes2 v).dr = s.dr := rfl
@[simp] theorem withRes2_ft (s : State) (v : Word) : (s.withRes2 v).ft = s.ft := rfl
@[simp] theorem withRes2_inMem (s : State) (v : Word) : (s.withRes2 v).inMem = s.inMem := rfl
@[simp] theorem withRes2_outMem (s : State) (v : Word) : (s.withRes2 v).outMem = s.outMem := rfl
@[simp] theorem withRes2_logMem (s : State) (v : Word) : (s.withRes2 v).logMem = s.logMem := rfl
@[simp] theorem withRes2_palMem (s : State) (v : Word) : (s.withRes2 v).palMem = s.palMem := rfl
@[simp] theorem withRes2_nodeMem (s : State) (v : Word) : (s.withRes2 v).nodeMem = s.nodeMem := rfl
@[simp] theorem withRes2_spanMem (s : State) (v : Word) : (s.withRes2 v).spanMem = s.spanMem := rfl
@[simp] theorem withRes2_pixMem (s : State) (v : Word) : (s.withRes2 v).pixMem = s.pixMem := rfl
@[simp] theorem withRes2_cfg (s : State) (v : Word) : (s.withRes2 v).cfg = s.cfg := rfl
@[simp] theorem withRes2_pending (s : State) (v : Word) : (s.withRes2 v).pending = s.pending := rfl
@[simp] theorem withRes2_bus (s : State) (v : Word) : (s.withRes2 v).bus = s.bus := rfl
@[simp] theorem withRes2_freeCount (s : State) (v : Word) : (s.withRes2 v).freeCount = s.freeCount := rfl
@[simp] theorem withRes2_inByte (s : State) (v : Word) (k : Nat) : (s.withRes2 v).inByte k = s.inByte k := rfl
@[simp] theorem withRes2_outByte (s : State) (v : Word) (k : Nat) : (s.withRes2 v).outByte k = s.outByte k := rfl
@[simp] theorem withRes2_logEntry (s : State) (v : Word) (k : Nat) : (s.withRes2 v).logEntry k = s.logEntry k := rfl
@[simp] theorem withRes2_palEntry (s : State) (v : Word) (k : Nat) : (s.withRes2 v).palEntry k = s.palEntry k := rfl
@[simp] theorem withRes2_nodeRec (s : State) (v : Word) (k : Nat) : (s.withRes2 v).nodeRec k = s.nodeRec k := rfl
@[simp] theorem withRes2_spanRec (s : State) (v : Word) (k : Nat) : (s.withRes2 v).spanRec k = s.spanRec k := rfl
@[simp] theorem withRes2_pixByte (s : State) (v : Word) (k : Nat) : (s.withRes2 v).pixByte k = s.pixByte k := rfl

/-! ### `withRes3` -/

@[simp] theorem withRes3_status (s : State) (v : Word) : (s.withRes3 v).status = s.status := rfl
@[simp] theorem withRes3_faultCode (s : State) (v : Word) : (s.withRes3 v).faultCode = s.faultCode := rfl
@[simp] theorem withRes3_faultSub (s : State) (v : Word) : (s.withRes3 v).faultSub = s.faultSub := rfl
@[simp] theorem withRes3_faultCmd (s : State) (v : Word) : (s.withRes3 v).faultCmd = s.faultCmd := rfl
@[simp] theorem withRes3_cmdSeq (s : State) (v : Word) : (s.withRes3 v).cmdSeq = s.cmdSeq := rfl
@[simp] theorem withRes3_arg0 (s : State) (v : Word) : (s.withRes3 v).arg0 = s.arg0 := rfl
@[simp] theorem withRes3_arg1 (s : State) (v : Word) : (s.withRes3 v).arg1 = s.arg1 := rfl
@[simp] theorem withRes3_arg2 (s : State) (v : Word) : (s.withRes3 v).arg2 = s.arg2 := rfl
@[simp] theorem withRes3_res0 (s : State) (v : Word) : (s.withRes3 v).res0 = s.res0 := rfl
@[simp] theorem withRes3_res1 (s : State) (v : Word) : (s.withRes3 v).res1 = s.res1 := rfl
@[simp] theorem withRes3_res2 (s : State) (v : Word) : (s.withRes3 v).res2 = s.res2 := rfl
@[simp] theorem withRes3_res3 (s : State) (v : Word) : (s.withRes3 v).res3 = v := rfl
@[simp] theorem withRes3_rd (s : State) (v : Word) : (s.withRes3 v).rd = s.rd := rfl
@[simp] theorem withRes3_re (s : State) (v : Word) : (s.withRes3 v).re = s.re := rfl
@[simp] theorem withRes3_rp (s : State) (v : Word) : (s.withRes3 v).rp = s.rp := rfl
@[simp] theorem withRes3_cp (s : State) (v : Word) : (s.withRes3 v).cp = s.cp := rfl
@[simp] theorem withRes3_dr (s : State) (v : Word) : (s.withRes3 v).dr = s.dr := rfl
@[simp] theorem withRes3_ft (s : State) (v : Word) : (s.withRes3 v).ft = s.ft := rfl
@[simp] theorem withRes3_inMem (s : State) (v : Word) : (s.withRes3 v).inMem = s.inMem := rfl
@[simp] theorem withRes3_outMem (s : State) (v : Word) : (s.withRes3 v).outMem = s.outMem := rfl
@[simp] theorem withRes3_logMem (s : State) (v : Word) : (s.withRes3 v).logMem = s.logMem := rfl
@[simp] theorem withRes3_palMem (s : State) (v : Word) : (s.withRes3 v).palMem = s.palMem := rfl
@[simp] theorem withRes3_nodeMem (s : State) (v : Word) : (s.withRes3 v).nodeMem = s.nodeMem := rfl
@[simp] theorem withRes3_spanMem (s : State) (v : Word) : (s.withRes3 v).spanMem = s.spanMem := rfl
@[simp] theorem withRes3_pixMem (s : State) (v : Word) : (s.withRes3 v).pixMem = s.pixMem := rfl
@[simp] theorem withRes3_cfg (s : State) (v : Word) : (s.withRes3 v).cfg = s.cfg := rfl
@[simp] theorem withRes3_pending (s : State) (v : Word) : (s.withRes3 v).pending = s.pending := rfl
@[simp] theorem withRes3_bus (s : State) (v : Word) : (s.withRes3 v).bus = s.bus := rfl
@[simp] theorem withRes3_freeCount (s : State) (v : Word) : (s.withRes3 v).freeCount = s.freeCount := rfl
@[simp] theorem withRes3_inByte (s : State) (v : Word) (k : Nat) : (s.withRes3 v).inByte k = s.inByte k := rfl
@[simp] theorem withRes3_outByte (s : State) (v : Word) (k : Nat) : (s.withRes3 v).outByte k = s.outByte k := rfl
@[simp] theorem withRes3_logEntry (s : State) (v : Word) (k : Nat) : (s.withRes3 v).logEntry k = s.logEntry k := rfl
@[simp] theorem withRes3_palEntry (s : State) (v : Word) (k : Nat) : (s.withRes3 v).palEntry k = s.palEntry k := rfl
@[simp] theorem withRes3_nodeRec (s : State) (v : Word) (k : Nat) : (s.withRes3 v).nodeRec k = s.nodeRec k := rfl
@[simp] theorem withRes3_spanRec (s : State) (v : Word) (k : Nat) : (s.withRes3 v).spanRec k = s.spanRec k := rfl
@[simp] theorem withRes3_pixByte (s : State) (v : Word) (k : Nat) : (s.withRes3 v).pixByte k = s.pixByte k := rfl

/-! ### `withRd` -/

@[simp] theorem withRd_status (s : State) (v : RdRegs) : (s.withRd v).status = s.status := rfl
@[simp] theorem withRd_faultCode (s : State) (v : RdRegs) : (s.withRd v).faultCode = s.faultCode := rfl
@[simp] theorem withRd_faultSub (s : State) (v : RdRegs) : (s.withRd v).faultSub = s.faultSub := rfl
@[simp] theorem withRd_faultCmd (s : State) (v : RdRegs) : (s.withRd v).faultCmd = s.faultCmd := rfl
@[simp] theorem withRd_cmdSeq (s : State) (v : RdRegs) : (s.withRd v).cmdSeq = s.cmdSeq := rfl
@[simp] theorem withRd_arg0 (s : State) (v : RdRegs) : (s.withRd v).arg0 = s.arg0 := rfl
@[simp] theorem withRd_arg1 (s : State) (v : RdRegs) : (s.withRd v).arg1 = s.arg1 := rfl
@[simp] theorem withRd_arg2 (s : State) (v : RdRegs) : (s.withRd v).arg2 = s.arg2 := rfl
@[simp] theorem withRd_res0 (s : State) (v : RdRegs) : (s.withRd v).res0 = s.res0 := rfl
@[simp] theorem withRd_res1 (s : State) (v : RdRegs) : (s.withRd v).res1 = s.res1 := rfl
@[simp] theorem withRd_res2 (s : State) (v : RdRegs) : (s.withRd v).res2 = s.res2 := rfl
@[simp] theorem withRd_res3 (s : State) (v : RdRegs) : (s.withRd v).res3 = s.res3 := rfl
@[simp] theorem withRd_rd (s : State) (v : RdRegs) : (s.withRd v).rd = v := rfl
@[simp] theorem withRd_re (s : State) (v : RdRegs) : (s.withRd v).re = s.re := rfl
@[simp] theorem withRd_rp (s : State) (v : RdRegs) : (s.withRd v).rp = s.rp := rfl
@[simp] theorem withRd_cp (s : State) (v : RdRegs) : (s.withRd v).cp = s.cp := rfl
@[simp] theorem withRd_dr (s : State) (v : RdRegs) : (s.withRd v).dr = s.dr := rfl
@[simp] theorem withRd_ft (s : State) (v : RdRegs) : (s.withRd v).ft = s.ft := rfl
@[simp] theorem withRd_inMem (s : State) (v : RdRegs) : (s.withRd v).inMem = s.inMem := rfl
@[simp] theorem withRd_outMem (s : State) (v : RdRegs) : (s.withRd v).outMem = s.outMem := rfl
@[simp] theorem withRd_logMem (s : State) (v : RdRegs) : (s.withRd v).logMem = s.logMem := rfl
@[simp] theorem withRd_palMem (s : State) (v : RdRegs) : (s.withRd v).palMem = s.palMem := rfl
@[simp] theorem withRd_nodeMem (s : State) (v : RdRegs) : (s.withRd v).nodeMem = s.nodeMem := rfl
@[simp] theorem withRd_spanMem (s : State) (v : RdRegs) : (s.withRd v).spanMem = s.spanMem := rfl
@[simp] theorem withRd_pixMem (s : State) (v : RdRegs) : (s.withRd v).pixMem = s.pixMem := rfl
@[simp] theorem withRd_cfg (s : State) (v : RdRegs) : (s.withRd v).cfg = s.cfg := rfl
@[simp] theorem withRd_pending (s : State) (v : RdRegs) : (s.withRd v).pending = s.pending := rfl
@[simp] theorem withRd_bus (s : State) (v : RdRegs) : (s.withRd v).bus = s.bus := rfl
@[simp] theorem withRd_freeCount (s : State) (v : RdRegs) : (s.withRd v).freeCount = s.freeCount := rfl
@[simp] theorem withRd_inByte (s : State) (v : RdRegs) (k : Nat) : (s.withRd v).inByte k = s.inByte k := rfl
@[simp] theorem withRd_outByte (s : State) (v : RdRegs) (k : Nat) : (s.withRd v).outByte k = s.outByte k := rfl
@[simp] theorem withRd_logEntry (s : State) (v : RdRegs) (k : Nat) : (s.withRd v).logEntry k = s.logEntry k := rfl
@[simp] theorem withRd_palEntry (s : State) (v : RdRegs) (k : Nat) : (s.withRd v).palEntry k = s.palEntry k := rfl
@[simp] theorem withRd_nodeRec (s : State) (v : RdRegs) (k : Nat) : (s.withRd v).nodeRec k = s.nodeRec k := rfl
@[simp] theorem withRd_spanRec (s : State) (v : RdRegs) (k : Nat) : (s.withRd v).spanRec k = s.spanRec k := rfl
@[simp] theorem withRd_pixByte (s : State) (v : RdRegs) (k : Nat) : (s.withRd v).pixByte k = s.pixByte k := rfl

/-! ### `withRe` -/

@[simp] theorem withRe_status (s : State) (v : ReRegs) : (s.withRe v).status = s.status := rfl
@[simp] theorem withRe_faultCode (s : State) (v : ReRegs) : (s.withRe v).faultCode = s.faultCode := rfl
@[simp] theorem withRe_faultSub (s : State) (v : ReRegs) : (s.withRe v).faultSub = s.faultSub := rfl
@[simp] theorem withRe_faultCmd (s : State) (v : ReRegs) : (s.withRe v).faultCmd = s.faultCmd := rfl
@[simp] theorem withRe_cmdSeq (s : State) (v : ReRegs) : (s.withRe v).cmdSeq = s.cmdSeq := rfl
@[simp] theorem withRe_arg0 (s : State) (v : ReRegs) : (s.withRe v).arg0 = s.arg0 := rfl
@[simp] theorem withRe_arg1 (s : State) (v : ReRegs) : (s.withRe v).arg1 = s.arg1 := rfl
@[simp] theorem withRe_arg2 (s : State) (v : ReRegs) : (s.withRe v).arg2 = s.arg2 := rfl
@[simp] theorem withRe_res0 (s : State) (v : ReRegs) : (s.withRe v).res0 = s.res0 := rfl
@[simp] theorem withRe_res1 (s : State) (v : ReRegs) : (s.withRe v).res1 = s.res1 := rfl
@[simp] theorem withRe_res2 (s : State) (v : ReRegs) : (s.withRe v).res2 = s.res2 := rfl
@[simp] theorem withRe_res3 (s : State) (v : ReRegs) : (s.withRe v).res3 = s.res3 := rfl
@[simp] theorem withRe_rd (s : State) (v : ReRegs) : (s.withRe v).rd = s.rd := rfl
@[simp] theorem withRe_re (s : State) (v : ReRegs) : (s.withRe v).re = v := rfl
@[simp] theorem withRe_rp (s : State) (v : ReRegs) : (s.withRe v).rp = s.rp := rfl
@[simp] theorem withRe_cp (s : State) (v : ReRegs) : (s.withRe v).cp = s.cp := rfl
@[simp] theorem withRe_dr (s : State) (v : ReRegs) : (s.withRe v).dr = s.dr := rfl
@[simp] theorem withRe_ft (s : State) (v : ReRegs) : (s.withRe v).ft = s.ft := rfl
@[simp] theorem withRe_inMem (s : State) (v : ReRegs) : (s.withRe v).inMem = s.inMem := rfl
@[simp] theorem withRe_outMem (s : State) (v : ReRegs) : (s.withRe v).outMem = s.outMem := rfl
@[simp] theorem withRe_logMem (s : State) (v : ReRegs) : (s.withRe v).logMem = s.logMem := rfl
@[simp] theorem withRe_palMem (s : State) (v : ReRegs) : (s.withRe v).palMem = s.palMem := rfl
@[simp] theorem withRe_nodeMem (s : State) (v : ReRegs) : (s.withRe v).nodeMem = s.nodeMem := rfl
@[simp] theorem withRe_spanMem (s : State) (v : ReRegs) : (s.withRe v).spanMem = s.spanMem := rfl
@[simp] theorem withRe_pixMem (s : State) (v : ReRegs) : (s.withRe v).pixMem = s.pixMem := rfl
@[simp] theorem withRe_cfg (s : State) (v : ReRegs) : (s.withRe v).cfg = s.cfg := rfl
@[simp] theorem withRe_pending (s : State) (v : ReRegs) : (s.withRe v).pending = s.pending := rfl
@[simp] theorem withRe_bus (s : State) (v : ReRegs) : (s.withRe v).bus = s.bus := rfl
@[simp] theorem withRe_freeCount (s : State) (v : ReRegs) : (s.withRe v).freeCount = s.freeCount := rfl
@[simp] theorem withRe_inByte (s : State) (v : ReRegs) (k : Nat) : (s.withRe v).inByte k = s.inByte k := rfl
@[simp] theorem withRe_outByte (s : State) (v : ReRegs) (k : Nat) : (s.withRe v).outByte k = s.outByte k := rfl
@[simp] theorem withRe_logEntry (s : State) (v : ReRegs) (k : Nat) : (s.withRe v).logEntry k = s.logEntry k := rfl
@[simp] theorem withRe_palEntry (s : State) (v : ReRegs) (k : Nat) : (s.withRe v).palEntry k = s.palEntry k := rfl
@[simp] theorem withRe_nodeRec (s : State) (v : ReRegs) (k : Nat) : (s.withRe v).nodeRec k = s.nodeRec k := rfl
@[simp] theorem withRe_spanRec (s : State) (v : ReRegs) (k : Nat) : (s.withRe v).spanRec k = s.spanRec k := rfl
@[simp] theorem withRe_pixByte (s : State) (v : ReRegs) (k : Nat) : (s.withRe v).pixByte k = s.pixByte k := rfl

/-! ### `withRp` -/

@[simp] theorem withRp_status (s : State) (v : RpRegs) : (s.withRp v).status = s.status := rfl
@[simp] theorem withRp_faultCode (s : State) (v : RpRegs) : (s.withRp v).faultCode = s.faultCode := rfl
@[simp] theorem withRp_faultSub (s : State) (v : RpRegs) : (s.withRp v).faultSub = s.faultSub := rfl
@[simp] theorem withRp_faultCmd (s : State) (v : RpRegs) : (s.withRp v).faultCmd = s.faultCmd := rfl
@[simp] theorem withRp_cmdSeq (s : State) (v : RpRegs) : (s.withRp v).cmdSeq = s.cmdSeq := rfl
@[simp] theorem withRp_arg0 (s : State) (v : RpRegs) : (s.withRp v).arg0 = s.arg0 := rfl
@[simp] theorem withRp_arg1 (s : State) (v : RpRegs) : (s.withRp v).arg1 = s.arg1 := rfl
@[simp] theorem withRp_arg2 (s : State) (v : RpRegs) : (s.withRp v).arg2 = s.arg2 := rfl
@[simp] theorem withRp_res0 (s : State) (v : RpRegs) : (s.withRp v).res0 = s.res0 := rfl
@[simp] theorem withRp_res1 (s : State) (v : RpRegs) : (s.withRp v).res1 = s.res1 := rfl
@[simp] theorem withRp_res2 (s : State) (v : RpRegs) : (s.withRp v).res2 = s.res2 := rfl
@[simp] theorem withRp_res3 (s : State) (v : RpRegs) : (s.withRp v).res3 = s.res3 := rfl
@[simp] theorem withRp_rd (s : State) (v : RpRegs) : (s.withRp v).rd = s.rd := rfl
@[simp] theorem withRp_re (s : State) (v : RpRegs) : (s.withRp v).re = s.re := rfl
@[simp] theorem withRp_rp (s : State) (v : RpRegs) : (s.withRp v).rp = v := rfl
@[simp] theorem withRp_cp (s : State) (v : RpRegs) : (s.withRp v).cp = s.cp := rfl
@[simp] theorem withRp_dr (s : State) (v : RpRegs) : (s.withRp v).dr = s.dr := rfl
@[simp] theorem withRp_ft (s : State) (v : RpRegs) : (s.withRp v).ft = s.ft := rfl
@[simp] theorem withRp_inMem (s : State) (v : RpRegs) : (s.withRp v).inMem = s.inMem := rfl
@[simp] theorem withRp_outMem (s : State) (v : RpRegs) : (s.withRp v).outMem = s.outMem := rfl
@[simp] theorem withRp_logMem (s : State) (v : RpRegs) : (s.withRp v).logMem = s.logMem := rfl
@[simp] theorem withRp_palMem (s : State) (v : RpRegs) : (s.withRp v).palMem = s.palMem := rfl
@[simp] theorem withRp_nodeMem (s : State) (v : RpRegs) : (s.withRp v).nodeMem = s.nodeMem := rfl
@[simp] theorem withRp_spanMem (s : State) (v : RpRegs) : (s.withRp v).spanMem = s.spanMem := rfl
@[simp] theorem withRp_pixMem (s : State) (v : RpRegs) : (s.withRp v).pixMem = s.pixMem := rfl
@[simp] theorem withRp_cfg (s : State) (v : RpRegs) : (s.withRp v).cfg = s.cfg := rfl
@[simp] theorem withRp_pending (s : State) (v : RpRegs) : (s.withRp v).pending = s.pending := rfl
@[simp] theorem withRp_bus (s : State) (v : RpRegs) : (s.withRp v).bus = s.bus := rfl
@[simp] theorem withRp_freeCount (s : State) (v : RpRegs) : (s.withRp v).freeCount = s.freeCount := rfl
@[simp] theorem withRp_inByte (s : State) (v : RpRegs) (k : Nat) : (s.withRp v).inByte k = s.inByte k := rfl
@[simp] theorem withRp_outByte (s : State) (v : RpRegs) (k : Nat) : (s.withRp v).outByte k = s.outByte k := rfl
@[simp] theorem withRp_logEntry (s : State) (v : RpRegs) (k : Nat) : (s.withRp v).logEntry k = s.logEntry k := rfl
@[simp] theorem withRp_palEntry (s : State) (v : RpRegs) (k : Nat) : (s.withRp v).palEntry k = s.palEntry k := rfl
@[simp] theorem withRp_nodeRec (s : State) (v : RpRegs) (k : Nat) : (s.withRp v).nodeRec k = s.nodeRec k := rfl
@[simp] theorem withRp_spanRec (s : State) (v : RpRegs) (k : Nat) : (s.withRp v).spanRec k = s.spanRec k := rfl
@[simp] theorem withRp_pixByte (s : State) (v : RpRegs) (k : Nat) : (s.withRp v).pixByte k = s.pixByte k := rfl

/-! ### `withCp` -/

@[simp] theorem withCp_status (s : State) (v : CpRegs) : (s.withCp v).status = s.status := rfl
@[simp] theorem withCp_faultCode (s : State) (v : CpRegs) : (s.withCp v).faultCode = s.faultCode := rfl
@[simp] theorem withCp_faultSub (s : State) (v : CpRegs) : (s.withCp v).faultSub = s.faultSub := rfl
@[simp] theorem withCp_faultCmd (s : State) (v : CpRegs) : (s.withCp v).faultCmd = s.faultCmd := rfl
@[simp] theorem withCp_cmdSeq (s : State) (v : CpRegs) : (s.withCp v).cmdSeq = s.cmdSeq := rfl
@[simp] theorem withCp_arg0 (s : State) (v : CpRegs) : (s.withCp v).arg0 = s.arg0 := rfl
@[simp] theorem withCp_arg1 (s : State) (v : CpRegs) : (s.withCp v).arg1 = s.arg1 := rfl
@[simp] theorem withCp_arg2 (s : State) (v : CpRegs) : (s.withCp v).arg2 = s.arg2 := rfl
@[simp] theorem withCp_res0 (s : State) (v : CpRegs) : (s.withCp v).res0 = s.res0 := rfl
@[simp] theorem withCp_res1 (s : State) (v : CpRegs) : (s.withCp v).res1 = s.res1 := rfl
@[simp] theorem withCp_res2 (s : State) (v : CpRegs) : (s.withCp v).res2 = s.res2 := rfl
@[simp] theorem withCp_res3 (s : State) (v : CpRegs) : (s.withCp v).res3 = s.res3 := rfl
@[simp] theorem withCp_rd (s : State) (v : CpRegs) : (s.withCp v).rd = s.rd := rfl
@[simp] theorem withCp_re (s : State) (v : CpRegs) : (s.withCp v).re = s.re := rfl
@[simp] theorem withCp_rp (s : State) (v : CpRegs) : (s.withCp v).rp = s.rp := rfl
@[simp] theorem withCp_cp (s : State) (v : CpRegs) : (s.withCp v).cp = v := rfl
@[simp] theorem withCp_dr (s : State) (v : CpRegs) : (s.withCp v).dr = s.dr := rfl
@[simp] theorem withCp_ft (s : State) (v : CpRegs) : (s.withCp v).ft = s.ft := rfl
@[simp] theorem withCp_inMem (s : State) (v : CpRegs) : (s.withCp v).inMem = s.inMem := rfl
@[simp] theorem withCp_outMem (s : State) (v : CpRegs) : (s.withCp v).outMem = s.outMem := rfl
@[simp] theorem withCp_logMem (s : State) (v : CpRegs) : (s.withCp v).logMem = s.logMem := rfl
@[simp] theorem withCp_palMem (s : State) (v : CpRegs) : (s.withCp v).palMem = s.palMem := rfl
@[simp] theorem withCp_nodeMem (s : State) (v : CpRegs) : (s.withCp v).nodeMem = s.nodeMem := rfl
@[simp] theorem withCp_spanMem (s : State) (v : CpRegs) : (s.withCp v).spanMem = s.spanMem := rfl
@[simp] theorem withCp_pixMem (s : State) (v : CpRegs) : (s.withCp v).pixMem = s.pixMem := rfl
@[simp] theorem withCp_cfg (s : State) (v : CpRegs) : (s.withCp v).cfg = s.cfg := rfl
@[simp] theorem withCp_pending (s : State) (v : CpRegs) : (s.withCp v).pending = s.pending := rfl
@[simp] theorem withCp_bus (s : State) (v : CpRegs) : (s.withCp v).bus = s.bus := rfl
@[simp] theorem withCp_freeCount (s : State) (v : CpRegs) : (s.withCp v).freeCount = s.freeCount := rfl
@[simp] theorem withCp_inByte (s : State) (v : CpRegs) (k : Nat) : (s.withCp v).inByte k = s.inByte k := rfl
@[simp] theorem withCp_outByte (s : State) (v : CpRegs) (k : Nat) : (s.withCp v).outByte k = s.outByte k := rfl
@[simp] theorem withCp_logEntry (s : State) (v : CpRegs) (k : Nat) : (s.withCp v).logEntry k = s.logEntry k := rfl
@[simp] theorem withCp_palEntry (s : State) (v : CpRegs) (k : Nat) : (s.withCp v).palEntry k = s.palEntry k := rfl
@[simp] theorem withCp_nodeRec (s : State) (v : CpRegs) (k : Nat) : (s.withCp v).nodeRec k = s.nodeRec k := rfl
@[simp] theorem withCp_spanRec (s : State) (v : CpRegs) (k : Nat) : (s.withCp v).spanRec k = s.spanRec k := rfl
@[simp] theorem withCp_pixByte (s : State) (v : CpRegs) (k : Nat) : (s.withCp v).pixByte k = s.pixByte k := rfl

/-! ### `withDr` -/

@[simp] theorem withDr_status (s : State) (v : DrRegs) : (s.withDr v).status = s.status := rfl
@[simp] theorem withDr_faultCode (s : State) (v : DrRegs) : (s.withDr v).faultCode = s.faultCode := rfl
@[simp] theorem withDr_faultSub (s : State) (v : DrRegs) : (s.withDr v).faultSub = s.faultSub := rfl
@[simp] theorem withDr_faultCmd (s : State) (v : DrRegs) : (s.withDr v).faultCmd = s.faultCmd := rfl
@[simp] theorem withDr_cmdSeq (s : State) (v : DrRegs) : (s.withDr v).cmdSeq = s.cmdSeq := rfl
@[simp] theorem withDr_arg0 (s : State) (v : DrRegs) : (s.withDr v).arg0 = s.arg0 := rfl
@[simp] theorem withDr_arg1 (s : State) (v : DrRegs) : (s.withDr v).arg1 = s.arg1 := rfl
@[simp] theorem withDr_arg2 (s : State) (v : DrRegs) : (s.withDr v).arg2 = s.arg2 := rfl
@[simp] theorem withDr_res0 (s : State) (v : DrRegs) : (s.withDr v).res0 = s.res0 := rfl
@[simp] theorem withDr_res1 (s : State) (v : DrRegs) : (s.withDr v).res1 = s.res1 := rfl
@[simp] theorem withDr_res2 (s : State) (v : DrRegs) : (s.withDr v).res2 = s.res2 := rfl
@[simp] theorem withDr_res3 (s : State) (v : DrRegs) : (s.withDr v).res3 = s.res3 := rfl
@[simp] theorem withDr_rd (s : State) (v : DrRegs) : (s.withDr v).rd = s.rd := rfl
@[simp] theorem withDr_re (s : State) (v : DrRegs) : (s.withDr v).re = s.re := rfl
@[simp] theorem withDr_rp (s : State) (v : DrRegs) : (s.withDr v).rp = s.rp := rfl
@[simp] theorem withDr_cp (s : State) (v : DrRegs) : (s.withDr v).cp = s.cp := rfl
@[simp] theorem withDr_dr (s : State) (v : DrRegs) : (s.withDr v).dr = v := rfl
@[simp] theorem withDr_ft (s : State) (v : DrRegs) : (s.withDr v).ft = s.ft := rfl
@[simp] theorem withDr_inMem (s : State) (v : DrRegs) : (s.withDr v).inMem = s.inMem := rfl
@[simp] theorem withDr_outMem (s : State) (v : DrRegs) : (s.withDr v).outMem = s.outMem := rfl
@[simp] theorem withDr_logMem (s : State) (v : DrRegs) : (s.withDr v).logMem = s.logMem := rfl
@[simp] theorem withDr_palMem (s : State) (v : DrRegs) : (s.withDr v).palMem = s.palMem := rfl
@[simp] theorem withDr_nodeMem (s : State) (v : DrRegs) : (s.withDr v).nodeMem = s.nodeMem := rfl
@[simp] theorem withDr_spanMem (s : State) (v : DrRegs) : (s.withDr v).spanMem = s.spanMem := rfl
@[simp] theorem withDr_pixMem (s : State) (v : DrRegs) : (s.withDr v).pixMem = s.pixMem := rfl
@[simp] theorem withDr_cfg (s : State) (v : DrRegs) : (s.withDr v).cfg = s.cfg := rfl
@[simp] theorem withDr_pending (s : State) (v : DrRegs) : (s.withDr v).pending = s.pending := rfl
@[simp] theorem withDr_bus (s : State) (v : DrRegs) : (s.withDr v).bus = s.bus := rfl
@[simp] theorem withDr_freeCount (s : State) (v : DrRegs) : (s.withDr v).freeCount = s.freeCount := rfl
@[simp] theorem withDr_inByte (s : State) (v : DrRegs) (k : Nat) : (s.withDr v).inByte k = s.inByte k := rfl
@[simp] theorem withDr_outByte (s : State) (v : DrRegs) (k : Nat) : (s.withDr v).outByte k = s.outByte k := rfl
@[simp] theorem withDr_logEntry (s : State) (v : DrRegs) (k : Nat) : (s.withDr v).logEntry k = s.logEntry k := rfl
@[simp] theorem withDr_palEntry (s : State) (v : DrRegs) (k : Nat) : (s.withDr v).palEntry k = s.palEntry k := rfl
@[simp] theorem withDr_nodeRec (s : State) (v : DrRegs) (k : Nat) : (s.withDr v).nodeRec k = s.nodeRec k := rfl
@[simp] theorem withDr_spanRec (s : State) (v : DrRegs) (k : Nat) : (s.withDr v).spanRec k = s.spanRec k := rfl
@[simp] theorem withDr_pixByte (s : State) (v : DrRegs) (k : Nat) : (s.withDr v).pixByte k = s.pixByte k := rfl

/-! ### `withFt` -/

@[simp] theorem withFt_status (s : State) (v : FtRegs) : (s.withFt v).status = s.status := rfl
@[simp] theorem withFt_faultCode (s : State) (v : FtRegs) : (s.withFt v).faultCode = s.faultCode := rfl
@[simp] theorem withFt_faultSub (s : State) (v : FtRegs) : (s.withFt v).faultSub = s.faultSub := rfl
@[simp] theorem withFt_faultCmd (s : State) (v : FtRegs) : (s.withFt v).faultCmd = s.faultCmd := rfl
@[simp] theorem withFt_cmdSeq (s : State) (v : FtRegs) : (s.withFt v).cmdSeq = s.cmdSeq := rfl
@[simp] theorem withFt_arg0 (s : State) (v : FtRegs) : (s.withFt v).arg0 = s.arg0 := rfl
@[simp] theorem withFt_arg1 (s : State) (v : FtRegs) : (s.withFt v).arg1 = s.arg1 := rfl
@[simp] theorem withFt_arg2 (s : State) (v : FtRegs) : (s.withFt v).arg2 = s.arg2 := rfl
@[simp] theorem withFt_res0 (s : State) (v : FtRegs) : (s.withFt v).res0 = s.res0 := rfl
@[simp] theorem withFt_res1 (s : State) (v : FtRegs) : (s.withFt v).res1 = s.res1 := rfl
@[simp] theorem withFt_res2 (s : State) (v : FtRegs) : (s.withFt v).res2 = s.res2 := rfl
@[simp] theorem withFt_res3 (s : State) (v : FtRegs) : (s.withFt v).res3 = s.res3 := rfl
@[simp] theorem withFt_rd (s : State) (v : FtRegs) : (s.withFt v).rd = s.rd := rfl
@[simp] theorem withFt_re (s : State) (v : FtRegs) : (s.withFt v).re = s.re := rfl
@[simp] theorem withFt_rp (s : State) (v : FtRegs) : (s.withFt v).rp = s.rp := rfl
@[simp] theorem withFt_cp (s : State) (v : FtRegs) : (s.withFt v).cp = s.cp := rfl
@[simp] theorem withFt_dr (s : State) (v : FtRegs) : (s.withFt v).dr = s.dr := rfl
@[simp] theorem withFt_ft (s : State) (v : FtRegs) : (s.withFt v).ft = v := rfl
@[simp] theorem withFt_inMem (s : State) (v : FtRegs) : (s.withFt v).inMem = s.inMem := rfl
@[simp] theorem withFt_outMem (s : State) (v : FtRegs) : (s.withFt v).outMem = s.outMem := rfl
@[simp] theorem withFt_logMem (s : State) (v : FtRegs) : (s.withFt v).logMem = s.logMem := rfl
@[simp] theorem withFt_palMem (s : State) (v : FtRegs) : (s.withFt v).palMem = s.palMem := rfl
@[simp] theorem withFt_nodeMem (s : State) (v : FtRegs) : (s.withFt v).nodeMem = s.nodeMem := rfl
@[simp] theorem withFt_spanMem (s : State) (v : FtRegs) : (s.withFt v).spanMem = s.spanMem := rfl
@[simp] theorem withFt_pixMem (s : State) (v : FtRegs) : (s.withFt v).pixMem = s.pixMem := rfl
@[simp] theorem withFt_cfg (s : State) (v : FtRegs) : (s.withFt v).cfg = s.cfg := rfl
@[simp] theorem withFt_pending (s : State) (v : FtRegs) : (s.withFt v).pending = s.pending := rfl
@[simp] theorem withFt_bus (s : State) (v : FtRegs) : (s.withFt v).bus = s.bus := rfl
@[simp] theorem withFt_freeCount (s : State) (v : FtRegs) : (s.withFt v).freeCount = s.freeCount := rfl
@[simp] theorem withFt_inByte (s : State) (v : FtRegs) (k : Nat) : (s.withFt v).inByte k = s.inByte k := rfl
@[simp] theorem withFt_outByte (s : State) (v : FtRegs) (k : Nat) : (s.withFt v).outByte k = s.outByte k := rfl
@[simp] theorem withFt_logEntry (s : State) (v : FtRegs) (k : Nat) : (s.withFt v).logEntry k = s.logEntry k := rfl
@[simp] theorem withFt_palEntry (s : State) (v : FtRegs) (k : Nat) : (s.withFt v).palEntry k = s.palEntry k := rfl
@[simp] theorem withFt_nodeRec (s : State) (v : FtRegs) (k : Nat) : (s.withFt v).nodeRec k = s.nodeRec k := rfl
@[simp] theorem withFt_spanRec (s : State) (v : FtRegs) (k : Nat) : (s.withFt v).spanRec k = s.spanRec k := rfl
@[simp] theorem withFt_pixByte (s : State) (v : FtRegs) (k : Nat) : (s.withFt v).pixByte k = s.pixByte k := rfl

/-! ### `withOutMem` -/

@[simp] theorem withOutMem_status (s : State) (v : List Host.Cell) : (s.withOutMem v).status = s.status := rfl
@[simp] theorem withOutMem_faultCode (s : State) (v : List Host.Cell) : (s.withOutMem v).faultCode = s.faultCode := rfl
@[simp] theorem withOutMem_faultSub (s : State) (v : List Host.Cell) : (s.withOutMem v).faultSub = s.faultSub := rfl
@[simp] theorem withOutMem_faultCmd (s : State) (v : List Host.Cell) : (s.withOutMem v).faultCmd = s.faultCmd := rfl
@[simp] theorem withOutMem_cmdSeq (s : State) (v : List Host.Cell) : (s.withOutMem v).cmdSeq = s.cmdSeq := rfl
@[simp] theorem withOutMem_arg0 (s : State) (v : List Host.Cell) : (s.withOutMem v).arg0 = s.arg0 := rfl
@[simp] theorem withOutMem_arg1 (s : State) (v : List Host.Cell) : (s.withOutMem v).arg1 = s.arg1 := rfl
@[simp] theorem withOutMem_arg2 (s : State) (v : List Host.Cell) : (s.withOutMem v).arg2 = s.arg2 := rfl
@[simp] theorem withOutMem_res0 (s : State) (v : List Host.Cell) : (s.withOutMem v).res0 = s.res0 := rfl
@[simp] theorem withOutMem_res1 (s : State) (v : List Host.Cell) : (s.withOutMem v).res1 = s.res1 := rfl
@[simp] theorem withOutMem_res2 (s : State) (v : List Host.Cell) : (s.withOutMem v).res2 = s.res2 := rfl
@[simp] theorem withOutMem_res3 (s : State) (v : List Host.Cell) : (s.withOutMem v).res3 = s.res3 := rfl
@[simp] theorem withOutMem_rd (s : State) (v : List Host.Cell) : (s.withOutMem v).rd = s.rd := rfl
@[simp] theorem withOutMem_re (s : State) (v : List Host.Cell) : (s.withOutMem v).re = s.re := rfl
@[simp] theorem withOutMem_rp (s : State) (v : List Host.Cell) : (s.withOutMem v).rp = s.rp := rfl
@[simp] theorem withOutMem_cp (s : State) (v : List Host.Cell) : (s.withOutMem v).cp = s.cp := rfl
@[simp] theorem withOutMem_dr (s : State) (v : List Host.Cell) : (s.withOutMem v).dr = s.dr := rfl
@[simp] theorem withOutMem_ft (s : State) (v : List Host.Cell) : (s.withOutMem v).ft = s.ft := rfl
@[simp] theorem withOutMem_inMem (s : State) (v : List Host.Cell) : (s.withOutMem v).inMem = s.inMem := rfl
@[simp] theorem withOutMem_outMem (s : State) (v : List Host.Cell) : (s.withOutMem v).outMem = v := rfl
@[simp] theorem withOutMem_logMem (s : State) (v : List Host.Cell) : (s.withOutMem v).logMem = s.logMem := rfl
@[simp] theorem withOutMem_palMem (s : State) (v : List Host.Cell) : (s.withOutMem v).palMem = s.palMem := rfl
@[simp] theorem withOutMem_nodeMem (s : State) (v : List Host.Cell) : (s.withOutMem v).nodeMem = s.nodeMem := rfl
@[simp] theorem withOutMem_spanMem (s : State) (v : List Host.Cell) : (s.withOutMem v).spanMem = s.spanMem := rfl
@[simp] theorem withOutMem_pixMem (s : State) (v : List Host.Cell) : (s.withOutMem v).pixMem = s.pixMem := rfl
@[simp] theorem withOutMem_cfg (s : State) (v : List Host.Cell) : (s.withOutMem v).cfg = s.cfg := rfl
@[simp] theorem withOutMem_pending (s : State) (v : List Host.Cell) : (s.withOutMem v).pending = s.pending := rfl
@[simp] theorem withOutMem_bus (s : State) (v : List Host.Cell) : (s.withOutMem v).bus = s.bus := rfl
@[simp] theorem withOutMem_freeCount (s : State) (v : List Host.Cell) : (s.withOutMem v).freeCount = s.freeCount := rfl
@[simp] theorem withOutMem_inByte (s : State) (v : List Host.Cell) (k : Nat) : (s.withOutMem v).inByte k = s.inByte k := rfl
@[simp] theorem withOutMem_logEntry (s : State) (v : List Host.Cell) (k : Nat) : (s.withOutMem v).logEntry k = s.logEntry k := rfl
@[simp] theorem withOutMem_palEntry (s : State) (v : List Host.Cell) (k : Nat) : (s.withOutMem v).palEntry k = s.palEntry k := rfl
@[simp] theorem withOutMem_nodeRec (s : State) (v : List Host.Cell) (k : Nat) : (s.withOutMem v).nodeRec k = s.nodeRec k := rfl
@[simp] theorem withOutMem_spanRec (s : State) (v : List Host.Cell) (k : Nat) : (s.withOutMem v).spanRec k = s.spanRec k := rfl
@[simp] theorem withOutMem_pixByte (s : State) (v : List Host.Cell) (k : Nat) : (s.withOutMem v).pixByte k = s.pixByte k := rfl

/-! ### `withSpanMem` -/

@[simp] theorem withSpanMem_status (s : State) (v : Memory SpanRec) : (s.withSpanMem v).status = s.status := rfl
@[simp] theorem withSpanMem_faultCode (s : State) (v : Memory SpanRec) : (s.withSpanMem v).faultCode = s.faultCode := rfl
@[simp] theorem withSpanMem_faultSub (s : State) (v : Memory SpanRec) : (s.withSpanMem v).faultSub = s.faultSub := rfl
@[simp] theorem withSpanMem_faultCmd (s : State) (v : Memory SpanRec) : (s.withSpanMem v).faultCmd = s.faultCmd := rfl
@[simp] theorem withSpanMem_cmdSeq (s : State) (v : Memory SpanRec) : (s.withSpanMem v).cmdSeq = s.cmdSeq := rfl
@[simp] theorem withSpanMem_arg0 (s : State) (v : Memory SpanRec) : (s.withSpanMem v).arg0 = s.arg0 := rfl
@[simp] theorem withSpanMem_arg1 (s : State) (v : Memory SpanRec) : (s.withSpanMem v).arg1 = s.arg1 := rfl
@[simp] theorem withSpanMem_arg2 (s : State) (v : Memory SpanRec) : (s.withSpanMem v).arg2 = s.arg2 := rfl
@[simp] theorem withSpanMem_res0 (s : State) (v : Memory SpanRec) : (s.withSpanMem v).res0 = s.res0 := rfl
@[simp] theorem withSpanMem_res1 (s : State) (v : Memory SpanRec) : (s.withSpanMem v).res1 = s.res1 := rfl
@[simp] theorem withSpanMem_res2 (s : State) (v : Memory SpanRec) : (s.withSpanMem v).res2 = s.res2 := rfl
@[simp] theorem withSpanMem_res3 (s : State) (v : Memory SpanRec) : (s.withSpanMem v).res3 = s.res3 := rfl
@[simp] theorem withSpanMem_rd (s : State) (v : Memory SpanRec) : (s.withSpanMem v).rd = s.rd := rfl
@[simp] theorem withSpanMem_re (s : State) (v : Memory SpanRec) : (s.withSpanMem v).re = s.re := rfl
@[simp] theorem withSpanMem_rp (s : State) (v : Memory SpanRec) : (s.withSpanMem v).rp = s.rp := rfl
@[simp] theorem withSpanMem_cp (s : State) (v : Memory SpanRec) : (s.withSpanMem v).cp = s.cp := rfl
@[simp] theorem withSpanMem_dr (s : State) (v : Memory SpanRec) : (s.withSpanMem v).dr = s.dr := rfl
@[simp] theorem withSpanMem_ft (s : State) (v : Memory SpanRec) : (s.withSpanMem v).ft = s.ft := rfl
@[simp] theorem withSpanMem_inMem (s : State) (v : Memory SpanRec) : (s.withSpanMem v).inMem = s.inMem := rfl
@[simp] theorem withSpanMem_outMem (s : State) (v : Memory SpanRec) : (s.withSpanMem v).outMem = s.outMem := rfl
@[simp] theorem withSpanMem_logMem (s : State) (v : Memory SpanRec) : (s.withSpanMem v).logMem = s.logMem := rfl
@[simp] theorem withSpanMem_palMem (s : State) (v : Memory SpanRec) : (s.withSpanMem v).palMem = s.palMem := rfl
@[simp] theorem withSpanMem_nodeMem (s : State) (v : Memory SpanRec) : (s.withSpanMem v).nodeMem = s.nodeMem := rfl
@[simp] theorem withSpanMem_spanMem (s : State) (v : Memory SpanRec) : (s.withSpanMem v).spanMem = v := rfl
@[simp] theorem withSpanMem_pixMem (s : State) (v : Memory SpanRec) : (s.withSpanMem v).pixMem = s.pixMem := rfl
@[simp] theorem withSpanMem_cfg (s : State) (v : Memory SpanRec) : (s.withSpanMem v).cfg = s.cfg := rfl
@[simp] theorem withSpanMem_pending (s : State) (v : Memory SpanRec) : (s.withSpanMem v).pending = s.pending := rfl
@[simp] theorem withSpanMem_bus (s : State) (v : Memory SpanRec) : (s.withSpanMem v).bus = s.bus := rfl
@[simp] theorem withSpanMem_freeCount (s : State) (v : Memory SpanRec) : (s.withSpanMem v).freeCount = s.freeCount := rfl
@[simp] theorem withSpanMem_inByte (s : State) (v : Memory SpanRec) (k : Nat) : (s.withSpanMem v).inByte k = s.inByte k := rfl
@[simp] theorem withSpanMem_outByte (s : State) (v : Memory SpanRec) (k : Nat) : (s.withSpanMem v).outByte k = s.outByte k := rfl
@[simp] theorem withSpanMem_logEntry (s : State) (v : Memory SpanRec) (k : Nat) : (s.withSpanMem v).logEntry k = s.logEntry k := rfl
@[simp] theorem withSpanMem_palEntry (s : State) (v : Memory SpanRec) (k : Nat) : (s.withSpanMem v).palEntry k = s.palEntry k := rfl
@[simp] theorem withSpanMem_nodeRec (s : State) (v : Memory SpanRec) (k : Nat) : (s.withSpanMem v).nodeRec k = s.nodeRec k := rfl
@[simp] theorem withSpanMem_pixByte (s : State) (v : Memory SpanRec) (k : Nat) : (s.withSpanMem v).pixByte k = s.pixByte k := rfl

/-! ### `withBus` -/

@[simp] theorem withBus_status (s : State) (v : BusData) : (s.withBus v).status = s.status := rfl
@[simp] theorem withBus_faultCode (s : State) (v : BusData) : (s.withBus v).faultCode = s.faultCode := rfl
@[simp] theorem withBus_faultSub (s : State) (v : BusData) : (s.withBus v).faultSub = s.faultSub := rfl
@[simp] theorem withBus_faultCmd (s : State) (v : BusData) : (s.withBus v).faultCmd = s.faultCmd := rfl
@[simp] theorem withBus_cmdSeq (s : State) (v : BusData) : (s.withBus v).cmdSeq = s.cmdSeq := rfl
@[simp] theorem withBus_arg0 (s : State) (v : BusData) : (s.withBus v).arg0 = s.arg0 := rfl
@[simp] theorem withBus_arg1 (s : State) (v : BusData) : (s.withBus v).arg1 = s.arg1 := rfl
@[simp] theorem withBus_arg2 (s : State) (v : BusData) : (s.withBus v).arg2 = s.arg2 := rfl
@[simp] theorem withBus_res0 (s : State) (v : BusData) : (s.withBus v).res0 = s.res0 := rfl
@[simp] theorem withBus_res1 (s : State) (v : BusData) : (s.withBus v).res1 = s.res1 := rfl
@[simp] theorem withBus_res2 (s : State) (v : BusData) : (s.withBus v).res2 = s.res2 := rfl
@[simp] theorem withBus_res3 (s : State) (v : BusData) : (s.withBus v).res3 = s.res3 := rfl
@[simp] theorem withBus_rd (s : State) (v : BusData) : (s.withBus v).rd = s.rd := rfl
@[simp] theorem withBus_re (s : State) (v : BusData) : (s.withBus v).re = s.re := rfl
@[simp] theorem withBus_rp (s : State) (v : BusData) : (s.withBus v).rp = s.rp := rfl
@[simp] theorem withBus_cp (s : State) (v : BusData) : (s.withBus v).cp = s.cp := rfl
@[simp] theorem withBus_dr (s : State) (v : BusData) : (s.withBus v).dr = s.dr := rfl
@[simp] theorem withBus_ft (s : State) (v : BusData) : (s.withBus v).ft = s.ft := rfl
@[simp] theorem withBus_inMem (s : State) (v : BusData) : (s.withBus v).inMem = s.inMem := rfl
@[simp] theorem withBus_outMem (s : State) (v : BusData) : (s.withBus v).outMem = s.outMem := rfl
@[simp] theorem withBus_logMem (s : State) (v : BusData) : (s.withBus v).logMem = s.logMem := rfl
@[simp] theorem withBus_palMem (s : State) (v : BusData) : (s.withBus v).palMem = s.palMem := rfl
@[simp] theorem withBus_nodeMem (s : State) (v : BusData) : (s.withBus v).nodeMem = s.nodeMem := rfl
@[simp] theorem withBus_spanMem (s : State) (v : BusData) : (s.withBus v).spanMem = s.spanMem := rfl
@[simp] theorem withBus_pixMem (s : State) (v : BusData) : (s.withBus v).pixMem = s.pixMem := rfl
@[simp] theorem withBus_cfg (s : State) (v : BusData) : (s.withBus v).cfg = s.cfg := rfl
@[simp] theorem withBus_pending (s : State) (v : BusData) : (s.withBus v).pending = s.pending := rfl
@[simp] theorem withBus_bus (s : State) (v : BusData) : (s.withBus v).bus = v := rfl
@[simp] theorem withBus_freeCount (s : State) (v : BusData) : (s.withBus v).freeCount = s.freeCount := rfl
@[simp] theorem withBus_inByte (s : State) (v : BusData) (k : Nat) : (s.withBus v).inByte k = s.inByte k := rfl
@[simp] theorem withBus_outByte (s : State) (v : BusData) (k : Nat) : (s.withBus v).outByte k = s.outByte k := rfl
@[simp] theorem withBus_logEntry (s : State) (v : BusData) (k : Nat) : (s.withBus v).logEntry k = s.logEntry k := rfl
@[simp] theorem withBus_palEntry (s : State) (v : BusData) (k : Nat) : (s.withBus v).palEntry k = s.palEntry k := rfl
@[simp] theorem withBus_nodeRec (s : State) (v : BusData) (k : Nat) : (s.withBus v).nodeRec k = s.nodeRec k := rfl
@[simp] theorem withBus_spanRec (s : State) (v : BusData) (k : Nat) : (s.withBus v).spanRec k = s.spanRec k := rfl
@[simp] theorem withBus_pixByte (s : State) (v : BusData) (k : Nat) : (s.withBus v).pixByte k = s.pixByte k := rfl

/-! ### `countFree` -/

@[simp] theorem countFree_status (s : State) : (s.countFree).status = s.status := rfl
@[simp] theorem countFree_faultCode (s : State) : (s.countFree).faultCode = s.faultCode := rfl
@[simp] theorem countFree_faultSub (s : State) : (s.countFree).faultSub = s.faultSub := rfl
@[simp] theorem countFree_faultCmd (s : State) : (s.countFree).faultCmd = s.faultCmd := rfl
@[simp] theorem countFree_cmdSeq (s : State) : (s.countFree).cmdSeq = s.cmdSeq := rfl
@[simp] theorem countFree_arg0 (s : State) : (s.countFree).arg0 = s.arg0 := rfl
@[simp] theorem countFree_arg1 (s : State) : (s.countFree).arg1 = s.arg1 := rfl
@[simp] theorem countFree_arg2 (s : State) : (s.countFree).arg2 = s.arg2 := rfl
@[simp] theorem countFree_res0 (s : State) : (s.countFree).res0 = s.res0 := rfl
@[simp] theorem countFree_res1 (s : State) : (s.countFree).res1 = s.res1 := rfl
@[simp] theorem countFree_res2 (s : State) : (s.countFree).res2 = s.res2 := rfl
@[simp] theorem countFree_res3 (s : State) : (s.countFree).res3 = s.res3 := rfl
@[simp] theorem countFree_rd (s : State) : (s.countFree).rd = s.rd := rfl
@[simp] theorem countFree_re (s : State) : (s.countFree).re = s.re := rfl
@[simp] theorem countFree_rp (s : State) : (s.countFree).rp = s.rp := rfl
@[simp] theorem countFree_cp (s : State) : (s.countFree).cp = s.cp := rfl
@[simp] theorem countFree_dr (s : State) : (s.countFree).dr = s.dr := rfl
@[simp] theorem countFree_ft (s : State) : (s.countFree).ft = s.ft := rfl
@[simp] theorem countFree_inMem (s : State) : (s.countFree).inMem = s.inMem := rfl
@[simp] theorem countFree_outMem (s : State) : (s.countFree).outMem = s.outMem := rfl
@[simp] theorem countFree_logMem (s : State) : (s.countFree).logMem = s.logMem := rfl
@[simp] theorem countFree_palMem (s : State) : (s.countFree).palMem = s.palMem := rfl
@[simp] theorem countFree_nodeMem (s : State) : (s.countFree).nodeMem = s.nodeMem := rfl
@[simp] theorem countFree_spanMem (s : State) : (s.countFree).spanMem = s.spanMem := rfl
@[simp] theorem countFree_pixMem (s : State) : (s.countFree).pixMem = s.pixMem := rfl
@[simp] theorem countFree_cfg (s : State) : (s.countFree).cfg = s.cfg := rfl
@[simp] theorem countFree_pending (s : State) : (s.countFree).pending = s.pending := rfl
@[simp] theorem countFree_bus (s : State) : (s.countFree).bus = s.bus := rfl
@[simp] theorem countFree_freeCount (s : State) : (s.countFree).freeCount = s.freeCount + 1 := rfl
@[simp] theorem countFree_inByte (s : State) (k : Nat) : (s.countFree).inByte k = s.inByte k := rfl
@[simp] theorem countFree_outByte (s : State) (k : Nat) : (s.countFree).outByte k = s.outByte k := rfl
@[simp] theorem countFree_logEntry (s : State) (k : Nat) : (s.countFree).logEntry k = s.logEntry k := rfl
@[simp] theorem countFree_palEntry (s : State) (k : Nat) : (s.countFree).palEntry k = s.palEntry k := rfl
@[simp] theorem countFree_nodeRec (s : State) (k : Nat) : (s.countFree).nodeRec k = s.nodeRec k := rfl
@[simp] theorem countFree_spanRec (s : State) (k : Nat) : (s.countFree).spanRec k = s.spanRec k := rfl
@[simp] theorem countFree_pixByte (s : State) (k : Nat) : (s.countFree).pixByte k = s.pixByte k := rfl

/-! ### `putIn` -/

@[simp] theorem putIn_status (s : State) (i : Nat) (v : Byte) : (s.putIn i v).status = s.status := rfl
@[simp] theorem putIn_faultCode (s : State) (i : Nat) (v : Byte) : (s.putIn i v).faultCode = s.faultCode := rfl
@[simp] theorem putIn_faultSub (s : State) (i : Nat) (v : Byte) : (s.putIn i v).faultSub = s.faultSub := rfl
@[simp] theorem putIn_faultCmd (s : State) (i : Nat) (v : Byte) : (s.putIn i v).faultCmd = s.faultCmd := rfl
@[simp] theorem putIn_cmdSeq (s : State) (i : Nat) (v : Byte) : (s.putIn i v).cmdSeq = s.cmdSeq := rfl
@[simp] theorem putIn_arg0 (s : State) (i : Nat) (v : Byte) : (s.putIn i v).arg0 = s.arg0 := rfl
@[simp] theorem putIn_arg1 (s : State) (i : Nat) (v : Byte) : (s.putIn i v).arg1 = s.arg1 := rfl
@[simp] theorem putIn_arg2 (s : State) (i : Nat) (v : Byte) : (s.putIn i v).arg2 = s.arg2 := rfl
@[simp] theorem putIn_res0 (s : State) (i : Nat) (v : Byte) : (s.putIn i v).res0 = s.res0 := rfl
@[simp] theorem putIn_res1 (s : State) (i : Nat) (v : Byte) : (s.putIn i v).res1 = s.res1 := rfl
@[simp] theorem putIn_res2 (s : State) (i : Nat) (v : Byte) : (s.putIn i v).res2 = s.res2 := rfl
@[simp] theorem putIn_res3 (s : State) (i : Nat) (v : Byte) : (s.putIn i v).res3 = s.res3 := rfl
@[simp] theorem putIn_rd (s : State) (i : Nat) (v : Byte) : (s.putIn i v).rd = s.rd := rfl
@[simp] theorem putIn_re (s : State) (i : Nat) (v : Byte) : (s.putIn i v).re = s.re := rfl
@[simp] theorem putIn_rp (s : State) (i : Nat) (v : Byte) : (s.putIn i v).rp = s.rp := rfl
@[simp] theorem putIn_cp (s : State) (i : Nat) (v : Byte) : (s.putIn i v).cp = s.cp := rfl
@[simp] theorem putIn_dr (s : State) (i : Nat) (v : Byte) : (s.putIn i v).dr = s.dr := rfl
@[simp] theorem putIn_ft (s : State) (i : Nat) (v : Byte) : (s.putIn i v).ft = s.ft := rfl
@[simp] theorem putIn_inMem (s : State) (i : Nat) (v : Byte) : (s.putIn i v).inMem = Memory.write s.inMem i v := rfl
@[simp] theorem putIn_outMem (s : State) (i : Nat) (v : Byte) : (s.putIn i v).outMem = s.outMem := rfl
@[simp] theorem putIn_logMem (s : State) (i : Nat) (v : Byte) : (s.putIn i v).logMem = s.logMem := rfl
@[simp] theorem putIn_palMem (s : State) (i : Nat) (v : Byte) : (s.putIn i v).palMem = s.palMem := rfl
@[simp] theorem putIn_nodeMem (s : State) (i : Nat) (v : Byte) : (s.putIn i v).nodeMem = s.nodeMem := rfl
@[simp] theorem putIn_spanMem (s : State) (i : Nat) (v : Byte) : (s.putIn i v).spanMem = s.spanMem := rfl
@[simp] theorem putIn_pixMem (s : State) (i : Nat) (v : Byte) : (s.putIn i v).pixMem = s.pixMem := rfl
@[simp] theorem putIn_cfg (s : State) (i : Nat) (v : Byte) : (s.putIn i v).cfg = s.cfg := rfl
@[simp] theorem putIn_pending (s : State) (i : Nat) (v : Byte) : (s.putIn i v).pending = s.pending := rfl
@[simp] theorem putIn_bus (s : State) (i : Nat) (v : Byte) : (s.putIn i v).bus = s.bus := rfl
@[simp] theorem putIn_freeCount (s : State) (i : Nat) (v : Byte) : (s.putIn i v).freeCount = s.freeCount := rfl
@[simp] theorem putIn_outByte (s : State) (i : Nat) (v : Byte) (k : Nat) : (s.putIn i v).outByte k = s.outByte k := rfl
@[simp] theorem putIn_logEntry (s : State) (i : Nat) (v : Byte) (k : Nat) : (s.putIn i v).logEntry k = s.logEntry k := rfl
@[simp] theorem putIn_palEntry (s : State) (i : Nat) (v : Byte) (k : Nat) : (s.putIn i v).palEntry k = s.palEntry k := rfl
@[simp] theorem putIn_nodeRec (s : State) (i : Nat) (v : Byte) (k : Nat) : (s.putIn i v).nodeRec k = s.nodeRec k := rfl
@[simp] theorem putIn_spanRec (s : State) (i : Nat) (v : Byte) (k : Nat) : (s.putIn i v).spanRec k = s.spanRec k := rfl
@[simp] theorem putIn_pixByte (s : State) (i : Nat) (v : Byte) (k : Nat) : (s.putIn i v).pixByte k = s.pixByte k := rfl

/-! ### `putOut` -/

@[simp] theorem putOut_status (s : State) (i : Nat) (v : Byte) : (s.putOut i v).status = s.status := rfl
@[simp] theorem putOut_faultCode (s : State) (i : Nat) (v : Byte) : (s.putOut i v).faultCode = s.faultCode := rfl
@[simp] theorem putOut_faultSub (s : State) (i : Nat) (v : Byte) : (s.putOut i v).faultSub = s.faultSub := rfl
@[simp] theorem putOut_faultCmd (s : State) (i : Nat) (v : Byte) : (s.putOut i v).faultCmd = s.faultCmd := rfl
@[simp] theorem putOut_cmdSeq (s : State) (i : Nat) (v : Byte) : (s.putOut i v).cmdSeq = s.cmdSeq := rfl
@[simp] theorem putOut_arg0 (s : State) (i : Nat) (v : Byte) : (s.putOut i v).arg0 = s.arg0 := rfl
@[simp] theorem putOut_arg1 (s : State) (i : Nat) (v : Byte) : (s.putOut i v).arg1 = s.arg1 := rfl
@[simp] theorem putOut_arg2 (s : State) (i : Nat) (v : Byte) : (s.putOut i v).arg2 = s.arg2 := rfl
@[simp] theorem putOut_res0 (s : State) (i : Nat) (v : Byte) : (s.putOut i v).res0 = s.res0 := rfl
@[simp] theorem putOut_res1 (s : State) (i : Nat) (v : Byte) : (s.putOut i v).res1 = s.res1 := rfl
@[simp] theorem putOut_res2 (s : State) (i : Nat) (v : Byte) : (s.putOut i v).res2 = s.res2 := rfl
@[simp] theorem putOut_res3 (s : State) (i : Nat) (v : Byte) : (s.putOut i v).res3 = s.res3 := rfl
@[simp] theorem putOut_rd (s : State) (i : Nat) (v : Byte) : (s.putOut i v).rd = s.rd := rfl
@[simp] theorem putOut_re (s : State) (i : Nat) (v : Byte) : (s.putOut i v).re = s.re := rfl
@[simp] theorem putOut_rp (s : State) (i : Nat) (v : Byte) : (s.putOut i v).rp = s.rp := rfl
@[simp] theorem putOut_cp (s : State) (i : Nat) (v : Byte) : (s.putOut i v).cp = s.cp := rfl
@[simp] theorem putOut_dr (s : State) (i : Nat) (v : Byte) : (s.putOut i v).dr = s.dr := rfl
@[simp] theorem putOut_ft (s : State) (i : Nat) (v : Byte) : (s.putOut i v).ft = s.ft := rfl
@[simp] theorem putOut_inMem (s : State) (i : Nat) (v : Byte) : (s.putOut i v).inMem = s.inMem := rfl
@[simp] theorem putOut_outMem (s : State) (i : Nat) (v : Byte) : (s.putOut i v).outMem = Memory.write s.outMem i v := rfl
@[simp] theorem putOut_logMem (s : State) (i : Nat) (v : Byte) : (s.putOut i v).logMem = s.logMem := rfl
@[simp] theorem putOut_palMem (s : State) (i : Nat) (v : Byte) : (s.putOut i v).palMem = s.palMem := rfl
@[simp] theorem putOut_nodeMem (s : State) (i : Nat) (v : Byte) : (s.putOut i v).nodeMem = s.nodeMem := rfl
@[simp] theorem putOut_spanMem (s : State) (i : Nat) (v : Byte) : (s.putOut i v).spanMem = s.spanMem := rfl
@[simp] theorem putOut_pixMem (s : State) (i : Nat) (v : Byte) : (s.putOut i v).pixMem = s.pixMem := rfl
@[simp] theorem putOut_cfg (s : State) (i : Nat) (v : Byte) : (s.putOut i v).cfg = s.cfg := rfl
@[simp] theorem putOut_pending (s : State) (i : Nat) (v : Byte) : (s.putOut i v).pending = s.pending := rfl
@[simp] theorem putOut_bus (s : State) (i : Nat) (v : Byte) : (s.putOut i v).bus = s.bus := rfl
@[simp] theorem putOut_freeCount (s : State) (i : Nat) (v : Byte) : (s.putOut i v).freeCount = s.freeCount := rfl
@[simp] theorem putOut_inByte (s : State) (i : Nat) (v : Byte) (k : Nat) : (s.putOut i v).inByte k = s.inByte k := rfl
@[simp] theorem putOut_logEntry (s : State) (i : Nat) (v : Byte) (k : Nat) : (s.putOut i v).logEntry k = s.logEntry k := rfl
@[simp] theorem putOut_palEntry (s : State) (i : Nat) (v : Byte) (k : Nat) : (s.putOut i v).palEntry k = s.palEntry k := rfl
@[simp] theorem putOut_nodeRec (s : State) (i : Nat) (v : Byte) (k : Nat) : (s.putOut i v).nodeRec k = s.nodeRec k := rfl
@[simp] theorem putOut_spanRec (s : State) (i : Nat) (v : Byte) (k : Nat) : (s.putOut i v).spanRec k = s.spanRec k := rfl
@[simp] theorem putOut_pixByte (s : State) (i : Nat) (v : Byte) (k : Nat) : (s.putOut i v).pixByte k = s.pixByte k := rfl

/-! ### `putLog` -/

@[simp] theorem putLog_status (s : State) (i : Nat) (v : Triplet) : (s.putLog i v).status = s.status := rfl
@[simp] theorem putLog_faultCode (s : State) (i : Nat) (v : Triplet) : (s.putLog i v).faultCode = s.faultCode := rfl
@[simp] theorem putLog_faultSub (s : State) (i : Nat) (v : Triplet) : (s.putLog i v).faultSub = s.faultSub := rfl
@[simp] theorem putLog_faultCmd (s : State) (i : Nat) (v : Triplet) : (s.putLog i v).faultCmd = s.faultCmd := rfl
@[simp] theorem putLog_cmdSeq (s : State) (i : Nat) (v : Triplet) : (s.putLog i v).cmdSeq = s.cmdSeq := rfl
@[simp] theorem putLog_arg0 (s : State) (i : Nat) (v : Triplet) : (s.putLog i v).arg0 = s.arg0 := rfl
@[simp] theorem putLog_arg1 (s : State) (i : Nat) (v : Triplet) : (s.putLog i v).arg1 = s.arg1 := rfl
@[simp] theorem putLog_arg2 (s : State) (i : Nat) (v : Triplet) : (s.putLog i v).arg2 = s.arg2 := rfl
@[simp] theorem putLog_res0 (s : State) (i : Nat) (v : Triplet) : (s.putLog i v).res0 = s.res0 := rfl
@[simp] theorem putLog_res1 (s : State) (i : Nat) (v : Triplet) : (s.putLog i v).res1 = s.res1 := rfl
@[simp] theorem putLog_res2 (s : State) (i : Nat) (v : Triplet) : (s.putLog i v).res2 = s.res2 := rfl
@[simp] theorem putLog_res3 (s : State) (i : Nat) (v : Triplet) : (s.putLog i v).res3 = s.res3 := rfl
@[simp] theorem putLog_rd (s : State) (i : Nat) (v : Triplet) : (s.putLog i v).rd = s.rd := rfl
@[simp] theorem putLog_re (s : State) (i : Nat) (v : Triplet) : (s.putLog i v).re = s.re := rfl
@[simp] theorem putLog_rp (s : State) (i : Nat) (v : Triplet) : (s.putLog i v).rp = s.rp := rfl
@[simp] theorem putLog_cp (s : State) (i : Nat) (v : Triplet) : (s.putLog i v).cp = s.cp := rfl
@[simp] theorem putLog_dr (s : State) (i : Nat) (v : Triplet) : (s.putLog i v).dr = s.dr := rfl
@[simp] theorem putLog_ft (s : State) (i : Nat) (v : Triplet) : (s.putLog i v).ft = s.ft := rfl
@[simp] theorem putLog_inMem (s : State) (i : Nat) (v : Triplet) : (s.putLog i v).inMem = s.inMem := rfl
@[simp] theorem putLog_outMem (s : State) (i : Nat) (v : Triplet) : (s.putLog i v).outMem = s.outMem := rfl
@[simp] theorem putLog_logMem (s : State) (i : Nat) (v : Triplet) : (s.putLog i v).logMem = Memory.write s.logMem i v := rfl
@[simp] theorem putLog_palMem (s : State) (i : Nat) (v : Triplet) : (s.putLog i v).palMem = s.palMem := rfl
@[simp] theorem putLog_nodeMem (s : State) (i : Nat) (v : Triplet) : (s.putLog i v).nodeMem = s.nodeMem := rfl
@[simp] theorem putLog_spanMem (s : State) (i : Nat) (v : Triplet) : (s.putLog i v).spanMem = s.spanMem := rfl
@[simp] theorem putLog_pixMem (s : State) (i : Nat) (v : Triplet) : (s.putLog i v).pixMem = s.pixMem := rfl
@[simp] theorem putLog_cfg (s : State) (i : Nat) (v : Triplet) : (s.putLog i v).cfg = s.cfg := rfl
@[simp] theorem putLog_pending (s : State) (i : Nat) (v : Triplet) : (s.putLog i v).pending = s.pending := rfl
@[simp] theorem putLog_bus (s : State) (i : Nat) (v : Triplet) : (s.putLog i v).bus = s.bus := rfl
@[simp] theorem putLog_freeCount (s : State) (i : Nat) (v : Triplet) : (s.putLog i v).freeCount = s.freeCount := rfl
@[simp] theorem putLog_inByte (s : State) (i : Nat) (v : Triplet) (k : Nat) : (s.putLog i v).inByte k = s.inByte k := rfl
@[simp] theorem putLog_outByte (s : State) (i : Nat) (v : Triplet) (k : Nat) : (s.putLog i v).outByte k = s.outByte k := rfl
@[simp] theorem putLog_palEntry (s : State) (i : Nat) (v : Triplet) (k : Nat) : (s.putLog i v).palEntry k = s.palEntry k := rfl
@[simp] theorem putLog_nodeRec (s : State) (i : Nat) (v : Triplet) (k : Nat) : (s.putLog i v).nodeRec k = s.nodeRec k := rfl
@[simp] theorem putLog_spanRec (s : State) (i : Nat) (v : Triplet) (k : Nat) : (s.putLog i v).spanRec k = s.spanRec k := rfl
@[simp] theorem putLog_pixByte (s : State) (i : Nat) (v : Triplet) (k : Nat) : (s.putLog i v).pixByte k = s.pixByte k := rfl

/-! ### `putPal` -/

@[simp] theorem putPal_status (s : State) (i : Nat) (v : Colour) : (s.putPal i v).status = s.status := rfl
@[simp] theorem putPal_faultCode (s : State) (i : Nat) (v : Colour) : (s.putPal i v).faultCode = s.faultCode := rfl
@[simp] theorem putPal_faultSub (s : State) (i : Nat) (v : Colour) : (s.putPal i v).faultSub = s.faultSub := rfl
@[simp] theorem putPal_faultCmd (s : State) (i : Nat) (v : Colour) : (s.putPal i v).faultCmd = s.faultCmd := rfl
@[simp] theorem putPal_cmdSeq (s : State) (i : Nat) (v : Colour) : (s.putPal i v).cmdSeq = s.cmdSeq := rfl
@[simp] theorem putPal_arg0 (s : State) (i : Nat) (v : Colour) : (s.putPal i v).arg0 = s.arg0 := rfl
@[simp] theorem putPal_arg1 (s : State) (i : Nat) (v : Colour) : (s.putPal i v).arg1 = s.arg1 := rfl
@[simp] theorem putPal_arg2 (s : State) (i : Nat) (v : Colour) : (s.putPal i v).arg2 = s.arg2 := rfl
@[simp] theorem putPal_res0 (s : State) (i : Nat) (v : Colour) : (s.putPal i v).res0 = s.res0 := rfl
@[simp] theorem putPal_res1 (s : State) (i : Nat) (v : Colour) : (s.putPal i v).res1 = s.res1 := rfl
@[simp] theorem putPal_res2 (s : State) (i : Nat) (v : Colour) : (s.putPal i v).res2 = s.res2 := rfl
@[simp] theorem putPal_res3 (s : State) (i : Nat) (v : Colour) : (s.putPal i v).res3 = s.res3 := rfl
@[simp] theorem putPal_rd (s : State) (i : Nat) (v : Colour) : (s.putPal i v).rd = s.rd := rfl
@[simp] theorem putPal_re (s : State) (i : Nat) (v : Colour) : (s.putPal i v).re = s.re := rfl
@[simp] theorem putPal_rp (s : State) (i : Nat) (v : Colour) : (s.putPal i v).rp = s.rp := rfl
@[simp] theorem putPal_cp (s : State) (i : Nat) (v : Colour) : (s.putPal i v).cp = s.cp := rfl
@[simp] theorem putPal_dr (s : State) (i : Nat) (v : Colour) : (s.putPal i v).dr = s.dr := rfl
@[simp] theorem putPal_ft (s : State) (i : Nat) (v : Colour) : (s.putPal i v).ft = s.ft := rfl
@[simp] theorem putPal_inMem (s : State) (i : Nat) (v : Colour) : (s.putPal i v).inMem = s.inMem := rfl
@[simp] theorem putPal_outMem (s : State) (i : Nat) (v : Colour) : (s.putPal i v).outMem = s.outMem := rfl
@[simp] theorem putPal_logMem (s : State) (i : Nat) (v : Colour) : (s.putPal i v).logMem = s.logMem := rfl
@[simp] theorem putPal_palMem (s : State) (i : Nat) (v : Colour) : (s.putPal i v).palMem = Memory.write s.palMem i v := rfl
@[simp] theorem putPal_nodeMem (s : State) (i : Nat) (v : Colour) : (s.putPal i v).nodeMem = s.nodeMem := rfl
@[simp] theorem putPal_spanMem (s : State) (i : Nat) (v : Colour) : (s.putPal i v).spanMem = s.spanMem := rfl
@[simp] theorem putPal_pixMem (s : State) (i : Nat) (v : Colour) : (s.putPal i v).pixMem = s.pixMem := rfl
@[simp] theorem putPal_cfg (s : State) (i : Nat) (v : Colour) : (s.putPal i v).cfg = s.cfg := rfl
@[simp] theorem putPal_pending (s : State) (i : Nat) (v : Colour) : (s.putPal i v).pending = s.pending := rfl
@[simp] theorem putPal_bus (s : State) (i : Nat) (v : Colour) : (s.putPal i v).bus = s.bus := rfl
@[simp] theorem putPal_freeCount (s : State) (i : Nat) (v : Colour) : (s.putPal i v).freeCount = s.freeCount := rfl
@[simp] theorem putPal_inByte (s : State) (i : Nat) (v : Colour) (k : Nat) : (s.putPal i v).inByte k = s.inByte k := rfl
@[simp] theorem putPal_outByte (s : State) (i : Nat) (v : Colour) (k : Nat) : (s.putPal i v).outByte k = s.outByte k := rfl
@[simp] theorem putPal_logEntry (s : State) (i : Nat) (v : Colour) (k : Nat) : (s.putPal i v).logEntry k = s.logEntry k := rfl
@[simp] theorem putPal_nodeRec (s : State) (i : Nat) (v : Colour) (k : Nat) : (s.putPal i v).nodeRec k = s.nodeRec k := rfl
@[simp] theorem putPal_spanRec (s : State) (i : Nat) (v : Colour) (k : Nat) : (s.putPal i v).spanRec k = s.spanRec k := rfl
@[simp] theorem putPal_pixByte (s : State) (i : Nat) (v : Colour) (k : Nat) : (s.putPal i v).pixByte k = s.pixByte k := rfl

/-! ### `putNode` -/

@[simp] theorem putNode_status (s : State) (i : Nat) (v : NodeRec) : (s.putNode i v).status = s.status := rfl
@[simp] theorem putNode_faultCode (s : State) (i : Nat) (v : NodeRec) : (s.putNode i v).faultCode = s.faultCode := rfl
@[simp] theorem putNode_faultSub (s : State) (i : Nat) (v : NodeRec) : (s.putNode i v).faultSub = s.faultSub := rfl
@[simp] theorem putNode_faultCmd (s : State) (i : Nat) (v : NodeRec) : (s.putNode i v).faultCmd = s.faultCmd := rfl
@[simp] theorem putNode_cmdSeq (s : State) (i : Nat) (v : NodeRec) : (s.putNode i v).cmdSeq = s.cmdSeq := rfl
@[simp] theorem putNode_arg0 (s : State) (i : Nat) (v : NodeRec) : (s.putNode i v).arg0 = s.arg0 := rfl
@[simp] theorem putNode_arg1 (s : State) (i : Nat) (v : NodeRec) : (s.putNode i v).arg1 = s.arg1 := rfl
@[simp] theorem putNode_arg2 (s : State) (i : Nat) (v : NodeRec) : (s.putNode i v).arg2 = s.arg2 := rfl
@[simp] theorem putNode_res0 (s : State) (i : Nat) (v : NodeRec) : (s.putNode i v).res0 = s.res0 := rfl
@[simp] theorem putNode_res1 (s : State) (i : Nat) (v : NodeRec) : (s.putNode i v).res1 = s.res1 := rfl
@[simp] theorem putNode_res2 (s : State) (i : Nat) (v : NodeRec) : (s.putNode i v).res2 = s.res2 := rfl
@[simp] theorem putNode_res3 (s : State) (i : Nat) (v : NodeRec) : (s.putNode i v).res3 = s.res3 := rfl
@[simp] theorem putNode_rd (s : State) (i : Nat) (v : NodeRec) : (s.putNode i v).rd = s.rd := rfl
@[simp] theorem putNode_re (s : State) (i : Nat) (v : NodeRec) : (s.putNode i v).re = s.re := rfl
@[simp] theorem putNode_rp (s : State) (i : Nat) (v : NodeRec) : (s.putNode i v).rp = s.rp := rfl
@[simp] theorem putNode_cp (s : State) (i : Nat) (v : NodeRec) : (s.putNode i v).cp = s.cp := rfl
@[simp] theorem putNode_dr (s : State) (i : Nat) (v : NodeRec) : (s.putNode i v).dr = s.dr := rfl
@[simp] theorem putNode_ft (s : State) (i : Nat) (v : NodeRec) : (s.putNode i v).ft = s.ft := rfl
@[simp] theorem putNode_inMem (s : State) (i : Nat) (v : NodeRec) : (s.putNode i v).inMem = s.inMem := rfl
@[simp] theorem putNode_outMem (s : State) (i : Nat) (v : NodeRec) : (s.putNode i v).outMem = s.outMem := rfl
@[simp] theorem putNode_logMem (s : State) (i : Nat) (v : NodeRec) : (s.putNode i v).logMem = s.logMem := rfl
@[simp] theorem putNode_palMem (s : State) (i : Nat) (v : NodeRec) : (s.putNode i v).palMem = s.palMem := rfl
@[simp] theorem putNode_nodeMem (s : State) (i : Nat) (v : NodeRec) : (s.putNode i v).nodeMem = Memory.write s.nodeMem i v := rfl
@[simp] theorem putNode_spanMem (s : State) (i : Nat) (v : NodeRec) : (s.putNode i v).spanMem = s.spanMem := rfl
@[simp] theorem putNode_pixMem (s : State) (i : Nat) (v : NodeRec) : (s.putNode i v).pixMem = s.pixMem := rfl
@[simp] theorem putNode_cfg (s : State) (i : Nat) (v : NodeRec) : (s.putNode i v).cfg = s.cfg := rfl
@[simp] theorem putNode_pending (s : State) (i : Nat) (v : NodeRec) : (s.putNode i v).pending = s.pending := rfl
@[simp] theorem putNode_bus (s : State) (i : Nat) (v : NodeRec) : (s.putNode i v).bus = s.bus := rfl
@[simp] theorem putNode_freeCount (s : State) (i : Nat) (v : NodeRec) : (s.putNode i v).freeCount = s.freeCount := rfl
@[simp] theorem putNode_inByte (s : State) (i : Nat) (v : NodeRec) (k : Nat) : (s.putNode i v).inByte k = s.inByte k := rfl
@[simp] theorem putNode_outByte (s : State) (i : Nat) (v : NodeRec) (k : Nat) : (s.putNode i v).outByte k = s.outByte k := rfl
@[simp] theorem putNode_logEntry (s : State) (i : Nat) (v : NodeRec) (k : Nat) : (s.putNode i v).logEntry k = s.logEntry k := rfl
@[simp] theorem putNode_palEntry (s : State) (i : Nat) (v : NodeRec) (k : Nat) : (s.putNode i v).palEntry k = s.palEntry k := rfl
@[simp] theorem putNode_spanRec (s : State) (i : Nat) (v : NodeRec) (k : Nat) : (s.putNode i v).spanRec k = s.spanRec k := rfl
@[simp] theorem putNode_pixByte (s : State) (i : Nat) (v : NodeRec) (k : Nat) : (s.putNode i v).pixByte k = s.pixByte k := rfl

/-! ### `putSpan` -/

@[simp] theorem putSpan_status (s : State) (i : Nat) (v : SpanRec) : (s.putSpan i v).status = s.status := rfl
@[simp] theorem putSpan_faultCode (s : State) (i : Nat) (v : SpanRec) : (s.putSpan i v).faultCode = s.faultCode := rfl
@[simp] theorem putSpan_faultSub (s : State) (i : Nat) (v : SpanRec) : (s.putSpan i v).faultSub = s.faultSub := rfl
@[simp] theorem putSpan_faultCmd (s : State) (i : Nat) (v : SpanRec) : (s.putSpan i v).faultCmd = s.faultCmd := rfl
@[simp] theorem putSpan_cmdSeq (s : State) (i : Nat) (v : SpanRec) : (s.putSpan i v).cmdSeq = s.cmdSeq := rfl
@[simp] theorem putSpan_arg0 (s : State) (i : Nat) (v : SpanRec) : (s.putSpan i v).arg0 = s.arg0 := rfl
@[simp] theorem putSpan_arg1 (s : State) (i : Nat) (v : SpanRec) : (s.putSpan i v).arg1 = s.arg1 := rfl
@[simp] theorem putSpan_arg2 (s : State) (i : Nat) (v : SpanRec) : (s.putSpan i v).arg2 = s.arg2 := rfl
@[simp] theorem putSpan_res0 (s : State) (i : Nat) (v : SpanRec) : (s.putSpan i v).res0 = s.res0 := rfl
@[simp] theorem putSpan_res1 (s : State) (i : Nat) (v : SpanRec) : (s.putSpan i v).res1 = s.res1 := rfl
@[simp] theorem putSpan_res2 (s : State) (i : Nat) (v : SpanRec) : (s.putSpan i v).res2 = s.res2 := rfl
@[simp] theorem putSpan_res3 (s : State) (i : Nat) (v : SpanRec) : (s.putSpan i v).res3 = s.res3 := rfl
@[simp] theorem putSpan_rd (s : State) (i : Nat) (v : SpanRec) : (s.putSpan i v).rd = s.rd := rfl
@[simp] theorem putSpan_re (s : State) (i : Nat) (v : SpanRec) : (s.putSpan i v).re = s.re := rfl
@[simp] theorem putSpan_rp (s : State) (i : Nat) (v : SpanRec) : (s.putSpan i v).rp = s.rp := rfl
@[simp] theorem putSpan_cp (s : State) (i : Nat) (v : SpanRec) : (s.putSpan i v).cp = s.cp := rfl
@[simp] theorem putSpan_dr (s : State) (i : Nat) (v : SpanRec) : (s.putSpan i v).dr = s.dr := rfl
@[simp] theorem putSpan_ft (s : State) (i : Nat) (v : SpanRec) : (s.putSpan i v).ft = s.ft := rfl
@[simp] theorem putSpan_inMem (s : State) (i : Nat) (v : SpanRec) : (s.putSpan i v).inMem = s.inMem := rfl
@[simp] theorem putSpan_outMem (s : State) (i : Nat) (v : SpanRec) : (s.putSpan i v).outMem = s.outMem := rfl
@[simp] theorem putSpan_logMem (s : State) (i : Nat) (v : SpanRec) : (s.putSpan i v).logMem = s.logMem := rfl
@[simp] theorem putSpan_palMem (s : State) (i : Nat) (v : SpanRec) : (s.putSpan i v).palMem = s.palMem := rfl
@[simp] theorem putSpan_nodeMem (s : State) (i : Nat) (v : SpanRec) : (s.putSpan i v).nodeMem = s.nodeMem := rfl
@[simp] theorem putSpan_spanMem (s : State) (i : Nat) (v : SpanRec) : (s.putSpan i v).spanMem = Memory.write s.spanMem i v := rfl
@[simp] theorem putSpan_pixMem (s : State) (i : Nat) (v : SpanRec) : (s.putSpan i v).pixMem = s.pixMem := rfl
@[simp] theorem putSpan_cfg (s : State) (i : Nat) (v : SpanRec) : (s.putSpan i v).cfg = s.cfg := rfl
@[simp] theorem putSpan_pending (s : State) (i : Nat) (v : SpanRec) : (s.putSpan i v).pending = s.pending := rfl
@[simp] theorem putSpan_bus (s : State) (i : Nat) (v : SpanRec) : (s.putSpan i v).bus = s.bus := rfl
@[simp] theorem putSpan_freeCount (s : State) (i : Nat) (v : SpanRec) : (s.putSpan i v).freeCount = s.freeCount := rfl
@[simp] theorem putSpan_inByte (s : State) (i : Nat) (v : SpanRec) (k : Nat) : (s.putSpan i v).inByte k = s.inByte k := rfl
@[simp] theorem putSpan_outByte (s : State) (i : Nat) (v : SpanRec) (k : Nat) : (s.putSpan i v).outByte k = s.outByte k := rfl
@[simp] theorem putSpan_logEntry (s : State) (i : Nat) (v : SpanRec) (k : Nat) : (s.putSpan i v).logEntry k = s.logEntry k := rfl
@[simp] theorem putSpan_palEntry (s : State) (i : Nat) (v : SpanRec) (k : Nat) : (s.putSpan i v).palEntry k = s.palEntry k := rfl
@[simp] theorem putSpan_nodeRec (s : State) (i : Nat) (v : SpanRec) (k : Nat) : (s.putSpan i v).nodeRec k = s.nodeRec k := rfl
@[simp] theorem putSpan_pixByte (s : State) (i : Nat) (v : SpanRec) (k : Nat) : (s.putSpan i v).pixByte k = s.pixByte k := rfl

/-! ### `putPix` -/

@[simp] theorem putPix_status (s : State) (i : Nat) (v : Byte) : (s.putPix i v).status = s.status := rfl
@[simp] theorem putPix_faultCode (s : State) (i : Nat) (v : Byte) : (s.putPix i v).faultCode = s.faultCode := rfl
@[simp] theorem putPix_faultSub (s : State) (i : Nat) (v : Byte) : (s.putPix i v).faultSub = s.faultSub := rfl
@[simp] theorem putPix_faultCmd (s : State) (i : Nat) (v : Byte) : (s.putPix i v).faultCmd = s.faultCmd := rfl
@[simp] theorem putPix_cmdSeq (s : State) (i : Nat) (v : Byte) : (s.putPix i v).cmdSeq = s.cmdSeq := rfl
@[simp] theorem putPix_arg0 (s : State) (i : Nat) (v : Byte) : (s.putPix i v).arg0 = s.arg0 := rfl
@[simp] theorem putPix_arg1 (s : State) (i : Nat) (v : Byte) : (s.putPix i v).arg1 = s.arg1 := rfl
@[simp] theorem putPix_arg2 (s : State) (i : Nat) (v : Byte) : (s.putPix i v).arg2 = s.arg2 := rfl
@[simp] theorem putPix_res0 (s : State) (i : Nat) (v : Byte) : (s.putPix i v).res0 = s.res0 := rfl
@[simp] theorem putPix_res1 (s : State) (i : Nat) (v : Byte) : (s.putPix i v).res1 = s.res1 := rfl
@[simp] theorem putPix_res2 (s : State) (i : Nat) (v : Byte) : (s.putPix i v).res2 = s.res2 := rfl
@[simp] theorem putPix_res3 (s : State) (i : Nat) (v : Byte) : (s.putPix i v).res3 = s.res3 := rfl
@[simp] theorem putPix_rd (s : State) (i : Nat) (v : Byte) : (s.putPix i v).rd = s.rd := rfl
@[simp] theorem putPix_re (s : State) (i : Nat) (v : Byte) : (s.putPix i v).re = s.re := rfl
@[simp] theorem putPix_rp (s : State) (i : Nat) (v : Byte) : (s.putPix i v).rp = s.rp := rfl
@[simp] theorem putPix_cp (s : State) (i : Nat) (v : Byte) : (s.putPix i v).cp = s.cp := rfl
@[simp] theorem putPix_dr (s : State) (i : Nat) (v : Byte) : (s.putPix i v).dr = s.dr := rfl
@[simp] theorem putPix_ft (s : State) (i : Nat) (v : Byte) : (s.putPix i v).ft = s.ft := rfl
@[simp] theorem putPix_inMem (s : State) (i : Nat) (v : Byte) : (s.putPix i v).inMem = s.inMem := rfl
@[simp] theorem putPix_outMem (s : State) (i : Nat) (v : Byte) : (s.putPix i v).outMem = s.outMem := rfl
@[simp] theorem putPix_logMem (s : State) (i : Nat) (v : Byte) : (s.putPix i v).logMem = s.logMem := rfl
@[simp] theorem putPix_palMem (s : State) (i : Nat) (v : Byte) : (s.putPix i v).palMem = s.palMem := rfl
@[simp] theorem putPix_nodeMem (s : State) (i : Nat) (v : Byte) : (s.putPix i v).nodeMem = s.nodeMem := rfl
@[simp] theorem putPix_spanMem (s : State) (i : Nat) (v : Byte) : (s.putPix i v).spanMem = s.spanMem := rfl
@[simp] theorem putPix_pixMem (s : State) (i : Nat) (v : Byte) : (s.putPix i v).pixMem = Memory.write s.pixMem i v := rfl
@[simp] theorem putPix_cfg (s : State) (i : Nat) (v : Byte) : (s.putPix i v).cfg = s.cfg := rfl
@[simp] theorem putPix_pending (s : State) (i : Nat) (v : Byte) : (s.putPix i v).pending = s.pending := rfl
@[simp] theorem putPix_bus (s : State) (i : Nat) (v : Byte) : (s.putPix i v).bus = s.bus := rfl
@[simp] theorem putPix_freeCount (s : State) (i : Nat) (v : Byte) : (s.putPix i v).freeCount = s.freeCount := rfl
@[simp] theorem putPix_inByte (s : State) (i : Nat) (v : Byte) (k : Nat) : (s.putPix i v).inByte k = s.inByte k := rfl
@[simp] theorem putPix_outByte (s : State) (i : Nat) (v : Byte) (k : Nat) : (s.putPix i v).outByte k = s.outByte k := rfl
@[simp] theorem putPix_logEntry (s : State) (i : Nat) (v : Byte) (k : Nat) : (s.putPix i v).logEntry k = s.logEntry k := rfl
@[simp] theorem putPix_palEntry (s : State) (i : Nat) (v : Byte) (k : Nat) : (s.putPix i v).palEntry k = s.palEntry k := rfl
@[simp] theorem putPix_nodeRec (s : State) (i : Nat) (v : Byte) (k : Nat) : (s.putPix i v).nodeRec k = s.nodeRec k := rfl
@[simp] theorem putPix_spanRec (s : State) (i : Nat) (v : Byte) (k : Nat) : (s.putPix i v).spanRec k = s.spanRec k := rfl

end Sys2Proof.Machine
end

