-- ==== Sys2Proof/Laws/Run.lean ====
section
/-! SUPPORT. How a command's run goes from piece to piece: what sequencing, `require`, `raise` and `update` answer, a rule for
each that carries a pre- and postcondition through a run, and what taking a fault and ending a command do. -/

namespace Sys2Proof.Machine

/-! ### Sequencing -/

theorem bind_of_ok {α β : Type} {x : Cmd α} {f : α → Cmd β} {s t : State} {a : α} (h : x s = .ok a t) :
    (x >>= f) s = f a t := by
  show EStateM.bind x f s = _
  rw [EStateM.bind, h]

theorem bind_of_error {α β : Type} {x : Cmd α} {f : α → Cmd β} {s t : State} {c : Cause} (h : x s = .error c t) :
    (x >>= f) s = .error c t := by
  show EStateM.bind x f s = _
  rw [EStateM.bind, h]

/-- A sequence ends without fault exactly when its first part does and the rest does from there. -/
theorem bind_eq_ok {α β : Type} {x : Cmd α} {f : α → Cmd β} {s t : State} {b : β} :
    (x >>= f) s = .ok b t ↔ ∃ a u, x s = .ok a u ∧ f a u = .ok b t := by
  cases h : x s with
  | ok a u => rw [bind_of_ok h]; exact ⟨fun hf => ⟨a, u, rfl, hf⟩, fun ⟨_, _, he, hf⟩ => by cases he; exact hf⟩
  | error c u => rw [bind_of_error h]; simp

/-- A sequence faults exactly when its first part does, or its first part ends and the rest faults from there. -/
theorem bind_eq_error {α β : Type} {x : Cmd α} {f : α → Cmd β} {s t : State} {c : Cause} :
    (x >>= f) s = .error c t ↔ x s = .error c t ∨ ∃ a u, x s = .ok a u ∧ f a u = .error c t := by
  cases h : x s with
  | ok a u => rw [bind_of_ok h]; simp
  | error c u => rw [bind_of_error h]; simp

@[simp] theorem pure_apply {α : Type} (a : α) (s : State) : (pure a : Cmd α) s = .ok a s := rfl

@[simp] theorem get_apply (s : State) : (get : Cmd State) s = .ok s s := rfl

@[simp] theorem raise_apply {α : Type} (c : Cause) (s : State) : (raise c : Cmd α) s = .error c s := rfl

@[simp] theorem update_apply (f : State → State) (s : State) : update f s = .ok () (f s) := rfl

theorem require_apply (p : Prop) [Decidable p] (c : Cause) (s : State) :
    require p c s = if p then .ok () s else .error c s := rfl

@[simp] theorem require_of_true {p : Prop} [Decidable p] (c : Cause) (s : State) (h : p) :
    require p c s = .ok () s := if_pos h

@[simp] theorem require_of_false {p : Prop} [Decidable p] (c : Cause) (s : State) (h : ¬ p) :
    require p c s = .error c s := if_neg h

/-- Reading the state and going on. -/
@[simp] theorem get_bind {β : Type} (f : State → Cmd β) (s : State) : (get >>= f) s = f s s := rfl

@[simp] theorem pure_bind_apply {α β : Type} (a : α) (f : α → Cmd β) (s : State) :
    ((pure a : Cmd α) >>= f) s = f a s := rfl

@[simp] theorem raise_bind {α β : Type} (c : Cause) (f : α → Cmd β) (s : State) :
    ((raise c : Cmd α) >>= f) s = .error c s := rfl

@[simp] theorem update_bind {β : Type} (g : State → State) (f : Unit → Cmd β) (s : State) :
    (update g >>= f) s = f () (g s) := rfl

theorem require_bind_of_true {β : Type} {p : Prop} [Decidable p] (c : Cause) (f : Unit → Cmd β) (s : State) (h : p) :
    (require p c >>= f) s = f () s := bind_of_ok (require_of_true c s h)

theorem require_bind_of_false {β : Type} {p : Prop} [Decidable p] (c : Cause) (f : Unit → Cmd β) (s : State) (h : ¬ p) :
    (require p c >>= f) s = .error c s := bind_of_error (require_of_false c s h)

/-- `require` and the rest: either the condition holds and the rest runs, or the cause is raised with nothing changed. -/
theorem require_bind_apply {β : Type} (p : Prop) [Decidable p] (c : Cause) (f : Unit → Cmd β) (s : State) :
    (require p c >>= f) s = if p then f () s else .error c s := by
  by_cases h : p
  · rw [if_pos h, require_bind_of_true c f s h]
  · rw [if_neg h, require_bind_of_false c f s h]

/-! ### Pre- and postconditions -/

/-- From a state with `P`, the run ends with `Q` or faults with `E`. -/
def Cmd.Triple {α : Type} (P : State → Prop) (x : Cmd α) (Q : α → State → Prop) (E : Cause → State → Prop) : Prop :=
  ∀ s, P s → match x s with
    | .ok a t => Q a t
    | .error c t => E c t

section Triple

variable {α β : Type} {P P' : State → Prop} {E E' : Cause → State → Prop}

theorem Cmd.Triple.ok {x : Cmd α} {Q : α → State → Prop} (h : Cmd.Triple P x Q E) {s t : State} {a : α} (hs : P s)
    (hx : x s = .ok a t) : Q a t := by
  have := h s hs; rw [hx] at this; exact this

theorem Cmd.Triple.error {x : Cmd α} {Q : α → State → Prop} (h : Cmd.Triple P x Q E) {s t : State} {c : Cause} (hs : P s)
    (hx : x s = .error c t) : E c t := by
  have := h s hs; rw [hx] at this; exact this

theorem Cmd.Triple.weaken {x : Cmd α} {Q Q' : α → State → Prop} (h : Cmd.Triple P x Q E) (hp : ∀ s, P' s → P s)
    (hq : ∀ a t, Q a t → Q' a t) (he : ∀ c t, E c t → E' c t) : Cmd.Triple P' x Q' E' := by
  intro s hs
  have := h s (hp s hs)
  cases hx : x s with
  | ok a t => rw [hx] at this; exact hq a t this
  | error c t => rw [hx] at this; exact he c t this

theorem Cmd.Triple.pure {a : α} {Q : α → State → Prop} (h : ∀ s, P s → Q a s) : Cmd.Triple P (Pure.pure a) Q E := h

theorem Cmd.Triple.bind {x : Cmd α} {f : α → Cmd β} {R : α → State → Prop} {Q : β → State → Prop}
    (hx : Cmd.Triple P x R E) (hf : ∀ a, Cmd.Triple (R a) (f a) Q E) : Cmd.Triple P (x >>= f) Q E := by
  intro s hs
  cases h : x s with
  | ok a t => rw [bind_of_ok h]; exact hf a t (hx.ok hs h)
  | error c t => rw [bind_of_error h]; exact hx.error hs h

theorem Cmd.Triple.get {f : State → Cmd β} {Q : β → State → Prop}
    (h : ∀ u, Cmd.Triple (fun s => s = u ∧ P s) (f u) Q E) : Cmd.Triple P (get >>= f) Q E :=
  fun s hs => h s s ⟨rfl, hs⟩

theorem Cmd.Triple.update {g : State → State} {Q : Unit → State → Prop} (h : ∀ s, P s → Q () (g s)) :
    Cmd.Triple P (update g) Q E := h

theorem Cmd.Triple.raise {c : Cause} {Q : α → State → Prop} (h : ∀ s, P s → E c s) : Cmd.Triple P (raise c) Q E := h

theorem Cmd.Triple.require {p : Prop} [Decidable p] {c : Cause} (h : ∀ s, P s → ¬ p → E c s) :
    Cmd.Triple P (require p c) (fun _ s => P s ∧ p) E := by
  intro s hs
  by_cases hp : p
  · rw [require_of_true c s hp]; exact ⟨hs, hp⟩
  · rw [require_of_false c s hp]; exact h s hs hp

theorem Cmd.Triple.ite {p : Prop} [Decidable p] {x y : Cmd α} {Q : α → State → Prop}
    (hx : p → Cmd.Triple P x Q E) (hy : ¬ p → Cmd.Triple P y Q E) : Cmd.Triple P (if p then x else y) Q E := by
  split
  · exact hx ‹_›
  · exact hy ‹_›

end Triple

/-! ### Taking a fault -/

@[simp] theorem recordFault_status (c : Cause) (cmd : Word) (s : State) : (recordFault c cmd s).status = s.status := by
  unfold recordFault; split <;> rfl

/-- All that `raiseFault` can do: `STATUS`, the fault registers (by the first fault only), the results, the free-value
counter. -/
theorem raiseFault_eq (c : Cause) (cmd : Word) (s : State) :
    raiseFault c cmd s =
      { s with
        status := { s.status with fault := true, busy := false, done := false }
        faultCode := if s.status.fault then s.faultCode else BitVec.ofNat 64 c.code
        faultSub := if s.status.fault then s.faultSub else BitVec.ofNat 64 c.sub
        faultCmd := if s.status.fault then s.faultCmd else cmd
        res0 := Config.freeResult s.freeCount 0
        res1 := Config.freeResult s.freeCount 1
        res2 := Config.freeResult s.freeCount 2
        res3 := Config.freeResult s.freeCount 3
        freeCount := s.freeCount + 1 } := by
  unfold raiseFault recordFault
  cases s.status.fault <;> rfl

/-! ### The end of a command -/

/-- All that the end of a command does. -/
theorem endCommand_eq (s : State) : endCommand s = { s with status := { s.status with busy := false, done := true } } := rfl

/-- A command answers exactly one next state: the end of its run, or the fault entry from the point of its fault. -/
theorem runCommand_cases (i : Instr) (body : Cmd Unit) (s : State) :
    (∃ t, body s = .ok () t ∧ runCommand i body s = .next (endCommand t)) ∨
    (∃ c t, body s = .error c t ∧ runCommand i body s = .next (raiseFault c ((opcode i).setWidth 64) t)) := by
  cases h : body s with
  | ok a t => exact .inl ⟨t, rfl, by rw [runCommand, h]; rfl⟩
  | error c t => exact .inr ⟨c, t, rfl, by rw [runCommand, h]; rfl⟩

theorem runCommand_of_ok {i : Instr} {body : Cmd Unit} {s t : State} (h : body s = .ok () t) :
    runCommand i body s = .next (endCommand t) := by rw [runCommand, h]; rfl

theorem runCommand_of_error {i : Instr} {body : Cmd Unit} {s t : State} {c : Cause} (h : body s = .error c t) :
    runCommand i body s = .next (raiseFault c ((opcode i).setWidth 64) t) := by rw [runCommand, h]; rfl

end Sys2Proof.Machine
end

