-- ==== Sys2Proof/Laws/Host.lean ====
section
/-! SUPPORT. Everything that a step can do: one lemma for each kind of host action. -/

namespace Sys2Proof.Machine

/-- With no action waiting nothing changes. -/
theorem step_idle {s : State} (h : s.pending = []) : step s = .next s := by
  unfold step nextAction; rw [h]

/-- An action is taken from the front of the list. -/
theorem step_action {s : State} {a : HostAction} {rest : List HostAction} (h : s.pending = a :: rest) :
    step s = hostAction a { s with pending := rest } := by
  unfold step nextAction; rw [h]

/-- Outside a command, an action is the idle block's. -/
theorem step_of_not_busy {s : State} {a : HostAction} {rest : List HostAction} (h : s.pending = a :: rest)
    (hb : s.status.busy = false) : step s = idleAction a { s with pending := rest } := by
  rw [step_action h]
  unfold hostAction
  rw [if_neg (by rw [hb]; exact Bool.false_ne_true)]

/-- A write of `CMD` while no command executes (30_encoding.md R101, 60_exceptions.md R342). -/
theorem step_writeCmd {s : State} {w : Word} {rest : List HostAction} (h : s.pending = .writeReg 0x00 w :: rest)
    (hb : s.status.busy = false) :
    step s =
      if s.status.fault = true ∧ w ≠ 0x01 then .next { s with pending := rest }
      else
        match decode w with
        | .command i => exec i (beginCommand { s with pending := rest })
        | .reservedBits =>
          .next (raiseFault .illegalReserved ((opcodeField w).setWidth 64) (beginCommand { s with pending := rest }))
        | .unlistedOpcode =>
          .next (raiseFault .illegalOpcode ((opcodeField w).setWidth 64) (beginCommand { s with pending := rest })) := by
  rw [step_of_not_busy h hb]
  show issueCommand w { s with pending := rest } = _
  unfold issueCommand runWord
  by_cases hr : s.status.fault = true ∧ w ≠ 0x01
  · rw [if_pos hr, if_pos hr]
  · rw [if_neg hr, if_neg hr]
    cases decode w <;> rfl

/-- A write of another register while no command executes. -/
theorem step_writeReg {s : State} {n : Nat} {v : Word} {rest : List HostAction} (h : s.pending = .writeReg n v :: rest)
    (hb : s.status.busy = false) (hn : n ≠ 0x00) :
    step s = .next (writeDataReg n v { s with pending := rest }) := by
  rw [step_of_not_busy h hb]
  exact if_neg hn

/-- A read of a register while no command executes. -/
theorem step_readReg {s : State} {n : Nat} {rest : List HostAction} (h : s.pending = .readReg n :: rest)
    (hb : s.status.busy = false) :
    step s = .next { s with pending := rest, bus := .word (s.readReg n) } := by
  rw [step_of_not_busy h hb]
  rfl

/-- Everything that a write of a register other than `CMD` can do: an operand register, the bank (or its lock), or nothing. -/
theorem writeDataReg_cases (n : Nat) (v : Word) (s : State) :
    (n = 0x08 ∧ writeDataReg n v s = { s with arg0 := v }) ∨ (n = 0x09 ∧ writeDataReg n v s = { s with arg1 := v }) ∨
    (n = 0x0A ∧ writeDataReg n v s = { s with arg2 := v }) ∨
    (n ≠ 0x08 ∧ n ≠ 0x09 ∧ n ≠ 0x0A ∧ ∃ b, s.cp.write? n v = some b ∧ writeDataReg n v s = writeBank b s) ∨
    (n ≠ 0x08 ∧ n ≠ 0x09 ∧ n ≠ 0x0A ∧ s.cp.write? n v = none ∧ writeDataReg n v s = s) := by
  unfold writeDataReg
  by_cases h8 : n = 0x08
  · exact .inl ⟨h8, if_pos h8⟩
  · by_cases h9 : n = 0x09
    · exact .inr (.inl ⟨h9, by rw [if_neg h8, if_pos h9]⟩)
    · by_cases ha : n = 0x0A
      · exact .inr (.inr (.inl ⟨ha, by rw [if_neg h8, if_neg h9, if_pos ha]⟩))
      · rw [if_neg h8, if_neg h9, if_neg ha]
        cases hw : s.cp.write? n v with
        | none => exact .inr (.inr (.inr (.inr ⟨h8, h9, ha, rfl, rfl⟩)))
        | some b => exact .inr (.inr (.inr (.inl ⟨h8, h9, ha, b, rfl, rfl⟩)))

/-- Everything that a write of the bank can do (10_state.md R32, 60_exceptions.md R341). -/
theorem writeBank_cases (b : CpRegs) (s : State) :
    (s.ft.phase ≠ .build ∧ writeBank b s = s.withCp b) ∨
    (s.ft.phase = .build ∧ s.status.fault = true ∧ writeBank b s = s) ∨
    (s.ft.phase = .build ∧ s.status.fault = false ∧ writeBank b s = raiseFault .protocolLock 0 s) := by
  unfold writeBank
  by_cases h : s.ft.phase = .build
  · cases hf : s.status.fault with
    | true => exact .inr (.inl ⟨h, rfl, by rw [if_pos h]; rfl⟩)
    | false => exact .inr (.inr ⟨h, rfl, by rw [if_pos h]; rfl⟩)
  · exact .inl ⟨h, if_neg h⟩

end Sys2Proof.Machine
end

