-- ==== Sys2Proof/Laws/Memory.lean ====
section
/-! SUPPORT. The laws of a memory: what a read gives after each write operation, and that every operation keeps the
canonical form and the bounds. -/

namespace Sys2Proof.Machine

variable {α : Type}

/-! ### Reads after writes -/

@[simp] theorem Memory.read?_nil (i : Nat) : Memory.read? ([] : Memory α) i = none := rfl

theorem Memory.read?_cons (c : Nat × α) (m : Memory α) (i : Nat) :
    Memory.read? (c :: m) i = if c.1 = i then some c.2 else Memory.read? m i := rfl

theorem Memory.write_cons (c : Nat × α) (m : Memory α) (i : Nat) (v : α) :
    Memory.write (c :: m) i v =
      if i < c.1 then (i, v) :: c :: m else if i = c.1 then (i, v) :: m else c :: Memory.write m i v := rfl

/-- A read after a write: the written value at the written index, the old value elsewhere. -/
theorem Memory.read?_write (m : Memory α) (i j : Nat) (v : α) :
    Memory.read? (Memory.write m i v) j = if j = i then some v else Memory.read? m j := by
  induction m with
  | nil => simp only [Memory.write, Memory.read?, eq_comm]
  | cons c m ih =>
    rw [Memory.write_cons]
    by_cases h1 : i < c.1
    · simp only [h1, if_true, Memory.read?_cons, eq_comm (a := i)]
    · by_cases h2 : i = c.1
      · rw [if_neg h1, if_pos h2, Memory.read?_cons, Memory.read?_cons]
        by_cases h3 : j = i
        · subst h3; simp
        · rw [if_neg h3, if_neg (Ne.symm h3), if_neg (by omega)]
      · rw [if_neg h1, if_neg h2, Memory.read?_cons, Memory.read?_cons, ih]
        by_cases h3 : j = i
        · subst h3; rw [if_neg (by omega)]
          simp
        · simp [h3]

@[simp] theorem Memory.read?_write_same (m : Memory α) (i : Nat) (v : α) :
    Memory.read? (Memory.write m i v) i = some v := by
  simp [Memory.read?_write]

theorem Memory.read?_write_other (m : Memory α) {i j : Nat} (v : α) (h : j ≠ i) :
    Memory.read? (Memory.write m i v) j = Memory.read? m j := by
  simp [Memory.read?_write, h]

/-- A read after `fill`: the filled value in the interval, the old value elsewhere. -/
theorem Memory.read?_fill (f : Nat → α) (n : Nat) :
    ∀ (i : Nat) (m : Memory α) (j : Nat), Memory.read? (Memory.fill f n i m) j =
      if i ≤ j ∧ j < i + n then some (f j) else Memory.read? m j := by
  induction n with
  | zero => intro i m j; rw [if_neg (by omega)]; rfl
  | succ n ih =>
    intro i m j
    rw [Memory.fill, ih, Memory.read?_write]
    by_cases h : j = i
    · subst h; rw [if_neg (by omega), if_pos rfl, if_pos (by omega)]
    · rw [if_neg h]
      by_cases h' : i ≤ j ∧ j < i + (n + 1)
      · rw [if_pos (by omega), if_pos h']
      · rw [if_neg (by omega), if_neg h']

/-- A read after `writeList`: the list's element in the interval, the old value elsewhere. -/
theorem Memory.read?_writeList (l : List α) :
    ∀ (i : Nat) (m : Memory α) (j : Nat), Memory.read? (Memory.writeList l i m) j =
      if i ≤ j ∧ j < i + l.length then l[j - i]? else Memory.read? m j := by
  induction l with
  | nil => intro i m j; rw [if_neg (by simp only [List.length_nil]; omega)]; rfl
  | cons v vs ih =>
    intro i m j
    rw [Memory.writeList, ih, Memory.read?_write, List.length_cons]
    by_cases h : j = i
    · subst h; rw [if_neg (by omega), if_pos rfl, if_pos (by omega)]; simp
    · rw [if_neg h]
      by_cases h' : i ≤ j ∧ j < i + (vs.length + 1)
      · rw [if_pos (by omega), if_pos h', show j - i = (j - (i + 1)) + 1 from by omega, List.getElem?_cons_succ]
      · rw [if_neg (by omega), if_neg h']

/-- A read after `replaceFrom`: below the bound the old value, from it on the new one where an element was written. -/
theorem Memory.read?_replaceFrom (lo : Nat) (f : Nat → α) (m : Memory α) (j : Nat) :
    Memory.read? (Memory.replaceFrom lo f m) j =
      if lo ≤ j then (Memory.read? m j).map (fun _ => f j) else Memory.read? m j := by
  induction m with
  | nil => simp [Memory.replaceFrom]
  | cons c m ih =>
    have hc : Memory.replaceFrom lo f (c :: m) =
        (if lo ≤ c.1 then (c.1, f c.1) else c) :: Memory.replaceFrom lo f m := rfl
    rw [hc, Memory.read?_cons, Memory.read?_cons, ih]
    by_cases h1 : c.1 = j
    · subst h1; by_cases h2 : lo ≤ c.1 <;> simp [h2]
    · by_cases h2 : lo ≤ c.1 <;> simp [h2, h1]

/-! ### The canonical form -/

/-- The canonical form as a property of the indices. -/
theorem Memory.wf_iff_pairwise (m : Memory α) : Memory.wf m = true ↔ m.Pairwise (fun a b => a.1 < b.1) := by
  induction m with
  | nil => simp [Memory.wf]
  | cons a m ih =>
    cases m with
    | nil => simp [Memory.wf]
    | cons b m =>
      rw [Memory.wf, Bool.and_eq_true, ih, decide_eq_true_iff, List.pairwise_cons (a := a)]
      constructor
      · rintro ⟨hab, hp⟩
        refine ⟨?_, hp⟩
        intro c hc
        rcases List.mem_cons.mp hc with rfl | hc
        · exact hab
        · exact Nat.lt_trans hab ((List.pairwise_cons.mp hp).1 c hc)
      · rintro ⟨h, hp⟩
        exact ⟨h b (by simp), hp⟩

theorem Memory.mem_write {m : Memory α} {i : Nat} {v : α} {c : Nat × α} (h : c ∈ Memory.write m i v) :
    c = (i, v) ∨ c ∈ m := by
  induction m with
  | nil => simpa [Memory.write] using h
  | cons a m ih =>
    rw [Memory.write_cons] at h
    split at h
    · simpa using h
    · split at h
      · rcases List.mem_cons.mp h with h | h
        · exact .inl h
        · exact .inr (List.mem_cons_of_mem _ h)
      · rcases List.mem_cons.mp h with h | h
        · exact .inr (h ▸ List.mem_cons_self ..)
        · exact (ih h).imp_right (List.mem_cons_of_mem _)

theorem Memory.wf_write {m : Memory α} (i : Nat) (v : α) (h : Memory.wf m = true) :
    Memory.wf (Memory.write m i v) = true := by
  rw [Memory.wf_iff_pairwise] at h ⊢
  induction m with
  | nil => simp [Memory.write]
  | cons a m ih =>
    rw [List.pairwise_cons] at h
    rw [Memory.write_cons]
    split
    · rename_i hi
      refine List.pairwise_cons.mpr ⟨?_, List.pairwise_cons.mpr h⟩
      intro c hc
      rcases List.mem_cons.mp hc with rfl | hc
      · exact hi
      · exact Nat.lt_trans hi (h.1 c hc)
    · split
      · rename_i _ hi
        exact List.pairwise_cons.mpr ⟨fun c hc => hi ▸ h.1 c hc, h.2⟩
      · refine List.pairwise_cons.mpr ⟨?_, ih h.2⟩
        intro c hc
        rcases Memory.mem_write hc with rfl | hc
        · simp only; omega
        · exact h.1 c hc

theorem Memory.wf_fill (f : Nat → α) (n : Nat) :
    ∀ (i : Nat) {m : Memory α}, Memory.wf m = true → Memory.wf (Memory.fill f n i m) = true := by
  induction n with
  | zero => intro i m h; exact h
  | succ n ih => intro i m h; exact ih (i + 1) (Memory.wf_write i (f i) h)

theorem Memory.wf_writeList (l : List α) :
    ∀ (i : Nat) {m : Memory α}, Memory.wf m = true → Memory.wf (Memory.writeList l i m) = true := by
  induction l with
  | nil => intro i m h; exact h
  | cons v vs ih => intro i m h; exact ih (i + 1) (Memory.wf_write i v h)

theorem Memory.wf_replaceFrom (lo : Nat) (f : Nat → α) {m : Memory α} (h : Memory.wf m = true) :
    Memory.wf (Memory.replaceFrom lo f m) = true := by
  rw [Memory.wf_iff_pairwise] at h ⊢
  rw [Memory.replaceFrom, List.pairwise_map]
  refine h.imp ?_
  intro a b hab
  split <;> split <;> exact hab

/-! ### Bounds -/

/-- Where every index of a memory and of the written interval is below a bound, so is every index after the write. -/
theorem Memory.all_write {m : Memory α} {cap i : Nat} (v : α) (h : ∀ c ∈ m, c.1 < cap) (hi : i < cap) :
    ∀ c ∈ Memory.write m i v, c.1 < cap := by
  intro c hc
  rcases Memory.mem_write hc with rfl | hc
  · exact hi
  · exact h c hc

theorem Memory.all_fill (f : Nat → α) (n : Nat) : ∀ (i : Nat) {m : Memory α} {cap : Nat},
    (∀ c ∈ m, c.1 < cap) → i + n ≤ cap → ∀ c ∈ Memory.fill f n i m, c.1 < cap := by
  induction n with
  | zero => intro i m cap h _; exact h
  | succ n ih => intro i m cap h hi; exact ih (i + 1) (Memory.all_write (f i) h (by omega)) (by omega)

theorem Memory.all_writeList (l : List α) : ∀ (i : Nat) {m : Memory α} {cap : Nat},
    (∀ c ∈ m, c.1 < cap) → i + l.length ≤ cap → ∀ c ∈ Memory.writeList l i m, c.1 < cap := by
  induction l with
  | nil => intro i m cap h _; exact h
  | cons v vs ih =>
    intro i m cap h hi
    rw [List.length_cons] at hi
    exact ih (i + 1) (Memory.all_write v h (by omega)) (by omega)

theorem Memory.all_replaceFrom (lo : Nat) (f : Nat → α) {m : Memory α} {cap : Nat} (h : ∀ c ∈ m, c.1 < cap) :
    ∀ c ∈ Memory.replaceFrom lo f m, c.1 < cap := by
  intro c hc
  obtain ⟨a, ha, rfl⟩ := List.mem_map.mp hc
  split <;> exact h a ha

end Sys2Proof.Machine
end

