-- ==== Sys2Proof/Laws/RangeCoder.lean ====
section
/-! SUPPORT. What the shared operations of the range coder do: one lemma for each of `rdByte`, `rdNormalize`, `rdCount`,
`readNumber`, `reEmit`, `reNormalize`, `rePut`, `reLog`. -/

namespace Sys2Proof.Machine

theorem word_one_toNat : (1 : Word).toNat = 1 := rfl

/-! ### The window and the input stream -/

/-- One byte enters the window (40_range_decoder.md R145). -/
theorem shiftCode_toNat (code : Window) (b : Byte) :
    (shiftCode code b).toNat = (code.toNat * 256 + b.toNat) % 2 ^ 48 := by
  have hb := b.isLt
  rw [shiftCode, BitVec.toNat_ofNat, headUnit]
  omega

/-- Absorbing `k + 1` bytes is absorbing the first and then `k` more. -/
theorem absorb_succ (bytes : Nat → Byte) (k code : Nat) :
    absorb bytes (k + 1) code = absorb (fun j => bytes (j + 1)) k ((code * 256 + (bytes 0).toNat) % 2 ^ 48) := by
  induction k generalizing code with
  | zero => rfl
  | succ k ih => rw [absorb, ih]; rfl

/-- The state after the decoder has taken the given things: only its registers and `STATUS.PAD` differ from `s`. -/
def OnlyDecoderMoved (s t : State) : Prop :=
  t = (s.withRd t.rd).withStatus { s.status with pad := t.status.pad }

theorem onlyDecoderMoved_refl (s : State) : OnlyDecoderMoved s s := rfl

theorem OnlyDecoderMoved.trans {s t u : State} (h₁ : OnlyDecoderMoved s t) (h₂ : OnlyDecoderMoved t u) :
    OnlyDecoderMoved s u := by
  unfold OnlyDecoderMoved at *
  have hs : { t.status with pad := u.status.pad } = { s.status with pad := u.status.pad } := by rw [h₁]; rfl
  calc u = (t.withRd u.rd).withStatus { t.status with pad := u.status.pad } := h₂
    _ = (t.withRd u.rd).withStatus { s.status with pad := u.status.pad } := by rw [hs]
    _ = (s.withRd u.rd).withStatus { s.status with pad := u.status.pad } := by rw [h₁]; rfl

/-- Everything that `rdByte` can do (40_range_decoder.md R142): it answers the next byte of the stream, counts it as an input
byte or as a pad byte, and touches nothing but the decoder's position, its pad counter and `STATUS.PAD`. -/
theorem rdByte_spec (s : State) :
    (rdByte s).1 = s.streamByte 0 ∧ OnlyDecoderMoved s (rdByte s).2 ∧
    (rdByte s).2.rd =
      { s.rd with
        pos := s.rd.pos + BitVec.ofNat 64 (s.inputAmong 1)
        pad := s.rd.pad + BitVec.ofNat 64 (1 - s.inputAmong 1) } ∧
    (rdByte s).2.status.pad = (s.status.pad || decide (s.inputAmong 1 < 1)) := by
  unfold rdByte State.streamByte State.inputAmong
  by_cases h : s.rd.pos.toNat < s.rd.len.toNat
  · have h1 : min 1 (s.rd.len.toNat - s.rd.pos.toNat) = 1 := by omega
    simp only [h, if_true, h1, Nat.add_zero, OnlyDecoderMoved]
    refine ⟨trivial, rfl, ?_, ?_⟩
    · simp
    · simp
  · have h1 : min 1 (s.rd.len.toNat - s.rd.pos.toNat) = 0 := by omega
    simp only [h, if_false, h1, Nat.add_zero, OnlyDecoderMoved]
    refine ⟨trivial, rfl, ?_, ?_⟩
    · simp
    · simp [Status.padded]

/-- The decoder takes one byte and then `k` more (40_range_decoder.md R142, R145). -/
theorem TookBytes.cons {k : Nat} {s u t : State} {code : Window}
    (hin : u.inMem = s.inMem) (hlen : u.rd.len = s.rd.len)
    (hpos : u.rd.pos = s.rd.pos + BitVec.ofNat 64 (s.inputAmong 1))
    (hpad : u.rd.pad = s.rd.pad + BitVec.ofNat 64 (1 - s.inputAmong 1))
    (hcode : u.rd.code = shiftCode code (s.streamByte 0)) (hc : code = s.rd.code)
    (hst : u.status.pad = (s.status.pad || decide (s.inputAmong 1 < 1))) (h : TookBytes k u t) :
    TookBytes (k + 1) s t := by
  obtain ⟨h1, h2, h3, h4, h5⟩ := h
  subst hc
  have hlt := s.rd.pos.isLt
  have hll := s.rd.len.isLt
  have hposN : u.rd.pos.toNat = s.rd.pos.toNat + s.inputAmong 1 := by
    rw [hpos, BitVec.toNat_add, BitVec.toNat_ofNat]
    unfold State.inputAmong
    omega
  have hin1 : s.inputAmong 1 + u.inputAmong k = s.inputAmong (k + 1) := by
    unfold State.inputAmong at *
    rw [hlen, hposN]
    omega
  have hle : u.inputAmong k ≤ k := Nat.min_le_left _ _
  have hle1 : s.inputAmong 1 ≤ 1 := Nat.min_le_left _ _
  have hstream : (fun j => s.streamByte (j + 1)) = u.streamByte ∨ s.inputAmong 1 = 0 := by
    by_cases hz : s.inputAmong 1 = 0
    · exact .inr hz
    · left
      funext j
      unfold State.streamByte State.inByte
      rw [hposN, hlen, hin]
      have : s.inputAmong 1 = 1 := by omega
      rw [this, show s.rd.pos.toNat + (j + 1) = s.rd.pos.toNat + 1 + j from by omega]
  have hstream' : (fun j => s.streamByte (j + 1)) = u.streamByte := by
    rcases hstream with h | hz
    · exact h
    · funext j
      unfold State.inputAmong at hz
      unfold State.streamByte
      rw [hposN, hlen, if_neg (by omega), if_neg (by omega)]
  refine ⟨?_, ?_, ?_, ?_, ?_⟩
  · rw [h1, hpos, ← hin1]
    apply BitVec.eq_of_toNat_eq
    simp only [BitVec.toNat_add, BitVec.toNat_ofNat]
    omega
  · rw [h2, hpad, ← hin1]
    apply BitVec.eq_of_toNat_eq
    simp only [BitVec.toNat_add, BitVec.toNat_ofNat]
    omega
  · rw [h3, hlen]
  · rw [h4, hcode, absorb_succ, hstream', shiftCode_toNat]
  · rw [h5, hst, ← hin1]
    have h6 : decide (s.inputAmong 1 + u.inputAmong k < k + 1) =
        (decide (s.inputAmong 1 < 1) || decide (u.inputAmong k < k)) := by
      rw [← Bool.decide_or]
      apply decide_eq_decide.mpr
      omega
    rw [h6, Bool.or_assoc]

theorem tookBytes_zero (s : State) : TookBytes 0 s s := by
  unfold TookBytes State.inputAmong
  simp [absorb]

/-! ### The decoder's renormalization -/

theorem rdShift_rd (c : Coder) (s : State) :
    (rdShift c s).rd = { (rdByte s).2.rd with code := shiftCode (rdByte s).2.rd.code (rdByte s).1, coder := c.shift } := rfl

theorem rdShift_status (c : Coder) (s : State) : (rdShift c s).status = (rdByte s).2.status := rfl

theorem onlyDecoderMoved_rdShift (c : Coder) (s : State) : OnlyDecoderMoved s (rdShift c s) := by
  obtain ⟨_, h, _, hp⟩ := rdByte_spec s
  unfold OnlyDecoderMoved at *
  show ((rdByte s).2.withRd (rdShift c s).rd) = _
  conv_lhs => rw [h]
  rfl

/-- Everything that `rdNormalize` can do (40_range_decoder.md R145, R147, 41_range_encoder.md R181): the `(low, range)` of
`Coder.normalize`, one byte taken a shift; a collapse where there is none. -/
theorem rdNormalize_spec (n : Nat) (s : State) :
    (∃ c k t, Coder.normalize n s.rd.coder = some (c, k) ∧ rdNormalize n s = .ok () t ∧ t.rd.coder = c ∧ TookBytes k s t ∧
      t.rd.state = s.rd.state ∧ t.rd.total = s.rd.total ∧ t.rd.count = s.rd.count ∧ OnlyDecoderMoved s t) ∨
    (∃ t, Coder.normalize n s.rd.coder = none ∧ rdNormalize n s = .error .collapseDecoder t ∧
      t.rd.state = s.rd.state ∧ t.rd.total = s.rd.total ∧ t.rd.count = s.rd.count ∧ OnlyDecoderMoved s t) := by
  induction n generalizing s with
  | zero =>
    exact .inl ⟨_, _, s, rfl, rfl, rfl, tookBytes_zero s, rfl, rfl, rfl, onlyDecoderMoved_refl s⟩
  | succ n ih =>
    unfold Coder.normalize rdNormalize
    cases hts : s.rd.coder.toShift with
    | none =>
      exact .inl ⟨_, _, s, rfl, rfl, rfl, tookBytes_zero s, rfl, rfl, rfl, onlyDecoderMoved_refl s⟩
    | some c =>
      simp only
      by_cases hcol : c.collapsed = true
      · rw [if_pos hcol, if_pos hcol]
        exact .inr ⟨_, rfl, rfl, rfl, rfl, rfl, rfl⟩
      · rw [if_neg hcol, if_neg hcol]
        obtain ⟨hb, hmv, hrd, hpd⟩ := rdByte_spec s
        have hmv' := onlyDecoderMoved_rdShift c s
        have hcoder : (rdShift c s).rd.coder = c.shift := rfl
        have hin : (rdShift c s).inMem = s.inMem := by rw [hmv']; rfl
        have cons : ∀ {k t}, TookBytes k (rdShift c s) t → TookBytes (k + 1) s t := by
          intro k t h
          refine TookBytes.cons (code := s.rd.code) hin ?_ ?_ ?_ ?_ rfl ?_ h
          · rw [rdShift_rd, hrd]
          · rw [rdShift_rd, hrd]
          · rw [rdShift_rd, hrd]
          · rw [rdShift_rd, hrd, hb]
          · rw [rdShift_status, hpd]
        have hst : (rdShift c s).rd.state = s.rd.state := by rw [rdShift_rd, hrd]
        have htot : (rdShift c s).rd.total = s.rd.total := by rw [rdShift_rd, hrd]
        have hcnt : (rdShift c s).rd.count = s.rd.count := by rw [rdShift_rd, hrd]
        rcases ih (rdShift c s) with ⟨c', k, t, h1, h2, h3, h4, h5, h6, h7, h8⟩ | ⟨t, h1, h2, h5, h6, h7, h8⟩
        · rw [hcoder] at h1
          refine .inl ⟨c', k + 1, t, ?_, h2, h3, cons h4, h5.trans hst, h6.trans htot, h7.trans hcnt, hmv'.trans h8⟩
          rw [h1]; rfl
        · rw [hcoder] at h1
          refine .inr ⟨t, ?_, h2, h5.trans hst, h6.trans htot, h7.trans hcnt, hmv'.trans h8⟩
          rw [h1]; rfl

/-! ### Counting, removing and reading a symbol -/

/-- Everything that `rdCount` does (40_range_decoder.md R143). -/
theorem rdCount_apply (total : Nat) (s : State) :
    rdCount total s = .ok ((s.rd.coder.divide total).countOf s.rd.code)
      (s.withRd { s.rd with
        coder := s.rd.coder.divide total
        total := BitVec.ofNat 33 total
        count := BitVec.ofNat 48 ((s.rd.coder.divide total).countOf s.rd.code)
        state := .peeked }) := rfl

/-- Everything that `rdRemove` can do (40_range_decoder.md R144). -/
theorem rdRemove_spec (bottom top : Nat) (s : State) :
    (∃ c k t, Coder.normalize normalizeRounds (s.rd.coder.narrow bottom top) = some (c, k) ∧
      rdRemove bottom top s = .ok () t ∧ t.rd.coder = c ∧ TookBytes k s t ∧ t.rd.state = .ready ∧
      t.rd.total = s.rd.total ∧ t.rd.count = s.rd.count ∧ OnlyDecoderMoved s t) ∨
    (∃ t, Coder.normalize normalizeRounds (s.rd.coder.narrow bottom top) = none ∧
      rdRemove bottom top s = .error .collapseDecoder t ∧ OnlyDecoderMoved s t) := by
  have hn := rdNormalize_spec normalizeRounds (s.withRd { s.rd with coder := s.rd.coder.narrow bottom top })
  unfold rdRemove
  simp only [update_bind]
  rcases hn with ⟨c, k, t, h1, h2, h3, h4, h5, h6, h7, h8⟩ | ⟨t, h1, h2, h5, h6, h7, h8⟩
  · refine .inl ⟨c, k, t.withRd { t.rd with state := .ready }, h1, ?_, h3, ?_, rfl, h6, h7, ?_⟩
    · rw [bind_of_ok h2]; rfl
    · exact h4
    · unfold OnlyDecoderMoved at *
      conv_lhs => rw [h8]
      rfl
  · refine .inr ⟨t, h1, ?_, ?_⟩
    · rw [bind_of_error h2]
    · unfold OnlyDecoderMoved at *
      conv_lhs => rw [h8]
      rfl

/-- Everything that `readNumber` can do (40_range_decoder.md R149): the symbol is read, or its count is at or above the bound,
or the renormalization collapses. -/
theorem readNumber_spec (max : Nat) (s : State) :
    (∃ v u, ReadsSymbol max v s u ∧ readNumber max s = .ok v u) ∨
    (2 ≤ max ∧ max ≤ (s.rd.coder.divide max).countOf s.rd.code ∧
      ∃ t, readNumber max s = .error .corruptSymbol t ∧ rdCount max s = .ok ((s.rd.coder.divide max).countOf s.rd.code) t) ∨
    (2 ≤ max ∧ (s.rd.coder.divide max).countOf s.rd.code < max ∧
      Coder.normalize normalizeRounds ((s.rd.coder.divide max).narrow ((s.rd.coder.divide max).countOf s.rd.code)
        ((s.rd.coder.divide max).countOf s.rd.code + 1)) = none ∧
      ∃ t, readNumber max s = .error .collapseDecoder t ∧ OnlyDecoderMoved s t) := by
  unfold readNumber
  by_cases hm : max < 2
  · exact .inl ⟨0, s, by rw [ReadsSymbol, if_pos hm]; exact ⟨rfl, rfl⟩, by rw [if_pos hm]; rfl⟩
  · simp only [if_neg hm]
    rw [bind_of_ok (rdCount_apply max s), require_bind_apply]
    generalize hv : (s.rd.coder.divide max).countOf s.rd.code = v
    by_cases hlt : v < max
    · rw [if_pos hlt]
      rcases rdRemove_spec v (v + 1) (s.withRd { s.rd with
          coder := s.rd.coder.divide max
          total := BitVec.ofNat 33 max
          count := BitVec.ofNat 48 v
          state := .peeked }) with ⟨c, k, t, h1, h2, h3, h4, h5, h6, h7, h8⟩ | ⟨t, h1, h2, h8⟩
      · refine .inl ⟨v, t, ?_, ?_⟩
        · rw [ReadsSymbol, if_neg hm]
          refine ⟨hlt, hv, c, k, h1, h4, h3, h5, h6, h7, ?_⟩
          unfold OnlyDecoderMoved at h8
          conv_lhs => rw [h8]
          rfl
        · rw [bind_of_ok h2]; rfl
      · refine .inr (.inr ⟨by omega, hlt, h1, t, ?_, ?_⟩)
        · rw [bind_of_error h2]
        · unfold OnlyDecoderMoved at *
          conv_lhs => rw [h8]
          rfl
    · rw [if_neg hlt]
      refine .inr (.inl ⟨by omega, by omega, _, rfl, ?_⟩)
      rw [rdCount_apply, hv]

/-- Two readings of a symbol end in the same state. -/
theorem ReadsSymbol.unique {max v : Nat} {s u u' : State} (h : ReadsSymbol max v s u) (h' : ReadsSymbol max v s u') :
    u = u' := by
  unfold ReadsSymbol at h h'
  split at h
  · rename_i hm
    rw [if_pos hm] at h'
    rw [h.2, h'.2]
  · rename_i hm
    rw [if_neg hm] at h'
    obtain ⟨_, _, c, k, hc, ht, h1, h2, h3, h4, h5⟩ := h
    obtain ⟨_, _, c', k', hc', ht', h1', h2', h3', h4', h5'⟩ := h'
    rw [hc] at hc'
    obtain ⟨rfl, rfl⟩ : c = c' ∧ k = k' := by simpa using hc'
    obtain ⟨t1, t2, t3, t4, t5⟩ := ht
    obtain ⟨t1', t2', t3', t4', t5'⟩ := ht'
    have hrd : u.rd = u'.rd := by
      have e1 : u.rd.code = u'.rd.code := BitVec.eq_of_toNat_eq (t4.trans t4'.symm)
      have e : ∀ r : RdRegs, r = ⟨r.state, r.coder, r.code, r.len, r.pos, r.pad, r.total, r.count⟩ := fun _ => rfl
      rw [e u.rd, e u'.rd, h2, h1, e1, t3, t1, t2, h3, h4, h2', h1', t3', t1', t2', h3', h4']
    rw [h5, h5', hrd, t5, t5']

/-- `readNumber` answers `v` and leaves `u` exactly where the symbol `(max, v)` is read. -/
theorem readNumber_eq_ok {max v : Nat} {s u : State} : readNumber max s = .ok v u ↔ ReadsSymbol max v s u := by
  constructor
  · intro h
    rcases readNumber_spec max s with ⟨v', u', hr, he⟩ | ⟨_, _, t, he, _⟩ | ⟨_, _, _, t, he, _⟩
    · rw [he] at h; cases h; exact hr
    · rw [he] at h; cases h
    · rw [he] at h; cases h
  · intro h
    rcases readNumber_spec max s with ⟨v', u', hr, he⟩ | ⟨hm, hge, t, he, _⟩ | ⟨hm, _, hnone, t, he, _⟩
    · have hv : v' = v := by
        unfold ReadsSymbol at h hr
        split at h
        · rename_i hlt; rw [if_pos hlt] at hr; rw [h.1, hr.1]
        · rename_i hlt; rw [if_neg hlt] at hr; rw [← h.2.1, ← hr.2.1]
      subst hv
      rw [he, hr.unique h]
    · unfold ReadsSymbol at h
      rw [if_neg (by omega)] at h
      omega
    · unfold ReadsSymbol at h
      rw [if_neg (by omega)] at h
      obtain ⟨_, hv, c, k, hs, _⟩ := h
      rw [hv, hs] at hnone
      cases hnone

/-- A symbol that is read changes nothing but the decoder and `STATUS.PAD`. -/
theorem ReadsSymbol.onlyDecoderMoved {max v : Nat} {s u : State} (h : ReadsSymbol max v s u) : OnlyDecoderMoved s u := by
  unfold ReadsSymbol at h
  split at h
  · rw [h.2]; exact onlyDecoderMoved_refl s
  · obtain ⟨_, _, c, k, _, _, _, _, _, _, h5⟩ := h
    exact h5

/-- Where a symbol is read from `READY`, the decoder is `READY` after it. -/
theorem ReadsSymbol.ready {max v : Nat} {s u : State} (h : ReadsSymbol max v s u) (hs : s.rd.state = .ready) :
    u.rd.state = .ready := by
  unfold ReadsSymbol at h
  split at h
  · rw [h.2]; exact hs
  · obtain ⟨_, _, c, k, _, _, _, h2, _⟩ := h
    exact h2

/-- Read a list of symbols and compare their values: the state after them, none where one differs or faults. -/
def readSymbols? : List (Nat × Nat) → State → Option State
  | [], s => some s
  | q :: rest, s =>
    match readNumber q.1 s with
    | .ok v u => if v = q.2 then readSymbols? rest u else none
    | .error _ _ => none

/-- `readSymbols?` decides `ReadsSymbols`. -/
theorem readSymbols?_eq_some {l : List (Nat × Nat)} {s t : State} :
    readSymbols? l s = some t ↔ ReadsSymbols l s t := by
  induction l generalizing s with
  | nil => simp only [readSymbols?, ReadsSymbols, Option.some.injEq, eq_comm]
  | cons q rest ih =>
    unfold readSymbols? ReadsSymbols
    constructor
    · intro h
      split at h
      · rename_i v u he
        split at h
        · rename_i hv
          exact ⟨u, hv ▸ readNumber_eq_ok.mp he, ih.mp h⟩
        · cases h
      · cases h
    · rintro ⟨u, hu, hr⟩
      rw [readNumber_eq_ok.mpr hu]
      simp only [if_true]
      exact ih.mpr hr

theorem readsSymbols_append {l₁ l₂ : List (Nat × Nat)} {s t : State} :
    ReadsSymbols (l₁ ++ l₂) s t ↔ ∃ u, ReadsSymbols l₁ s u ∧ ReadsSymbols l₂ u t := by
  induction l₁ generalizing s with
  | nil => simp [ReadsSymbols]
  | cons q rest ih =>
    simp only [List.cons_append, ReadsSymbols, ih]
    constructor
    · rintro ⟨u, h1, v, h2, h3⟩; exact ⟨v, ⟨u, h1, h2⟩, h3⟩
    · rintro ⟨v, ⟨u, h1, h2⟩, h3⟩; exact ⟨u, h1, v, h2, h3⟩

theorem ReadsSymbols.onlyDecoderMoved {l : List (Nat × Nat)} {s t : State} (h : ReadsSymbols l s t) :
    OnlyDecoderMoved s t := by
  induction l generalizing s with
  | nil => rw [show t = s from h]; exact onlyDecoderMoved_refl s
  | cons q rest ih =>
    obtain ⟨u, h1, h2⟩ := h
    exact h1.onlyDecoderMoved.trans (ih h2)

/-! ### The encoder -/

/-- Everything that `reEmit` can do (41_range_encoder.md R171). -/
theorem reEmit_apply (v : Byte) (s : State) :
    reEmit v s =
      if s.re.outLen.toNat < s.cfg.outCap then
        .ok () ((s.putOut s.re.outLen.toNat v).withRe { s.re with outLen := s.re.outLen + 1 })
      else .error .capacityOut s := rfl

/-- Everything that `reLog` can do (41_range_encoder.md R173). -/
theorem reLog_spec (bottom top total : Nat) (s : State) :
    (s.re.logLen.toNat < s.cfg.logCap ∧ ∃ t, reLog bottom top total s = .ok () t ∧ LogsTriplet bottom top total s t ∧
      t = (s.withRe t.re).putLog s.re.logLen.toNat ⟨BitVec.ofNat 33 bottom, BitVec.ofNat 33 top, BitVec.ofNat 33 total⟩ ∧
      t.re = { s.re with logLen := s.re.logLen + 1 }) ∨
    (s.cfg.logCap ≤ s.re.logLen.toNat ∧ reLog bottom top total s = .error .capacityLog s) := by
  unfold reLog
  by_cases h : s.re.logLen.toNat < s.cfg.logCap
  · refine .inl ⟨h, _, if_pos h, ⟨rfl, ?_⟩, rfl, rfl⟩
    intro i
    show (Memory.read? (Memory.write s.logMem _ _) i).getD _ = _
    rw [Memory.read?_write]
    split <;> rfl
  · exact .inr ⟨by omega, if_neg h⟩

theorem appendsBytes_nil (s : State) : AppendsBytes [] s s := by
  refine ⟨by simp, fun i => ?_⟩
  rw [if_neg (by simp only [List.length_nil]; omega)]

/-- One byte appended, and then the others. -/
theorem AppendsBytes.cons {b : Byte} {bytes : List Byte} {s u t : State}
    (hroom : s.re.outLen.toNat + 1 < 2 ^ 64)
    (hlen : u.re.outLen = s.re.outLen + 1)
    (hout : ∀ i, u.outByte i = if i = s.re.outLen.toNat then b else s.outByte i)
    (h : AppendsBytes bytes u t) : AppendsBytes (b :: bytes) s t := by
  obtain ⟨h1, h2⟩ := h
  have hN : u.re.outLen.toNat = s.re.outLen.toNat + 1 := by
    rw [hlen, BitVec.toNat_add, word_one_toNat]
    omega
  refine ⟨?_, ?_⟩
  · rw [h1, hlen, List.length_cons]
    apply BitVec.eq_of_toNat_eq
    simp only [BitVec.toNat_add, BitVec.toNat_ofNat, word_one_toNat]
    omega
  · intro i
    rw [h2, hout, hN, List.length_cons]
    by_cases hi : i = s.re.outLen.toNat
    · subst hi
      rw [if_neg (by omega), if_pos rfl, if_pos (by omega), Nat.sub_self]
      rfl
    · rw [if_neg hi]
      by_cases hr : s.re.outLen.toNat ≤ i ∧ i < s.re.outLen.toNat + (bytes.length + 1)
      · rw [if_pos (by omega), if_pos hr, show i - s.re.outLen.toNat = (i - (s.re.outLen.toNat + 1)) + 1 from by omega]
        rfl
      · rw [if_neg (by omega), if_neg hr]

/-- Only the encoder's registers and `OUT` differ from `s`, and of the registers neither the state nor the log length. -/
def OnlyOutputGrew (s t : State) : Prop :=
  t = (s.withRe t.re).withOutMem t.outMem ∧ t.re.state = s.re.state ∧ t.re.logLen = s.re.logLen

theorem onlyOutputGrew_refl (s : State) : OnlyOutputGrew s s := ⟨rfl, rfl, rfl⟩

theorem OnlyOutputGrew.trans {s t u : State} (h₁ : OnlyOutputGrew s t) (h₂ : OnlyOutputGrew t u) : OnlyOutputGrew s u := by
  refine ⟨?_, h₂.2.1.trans h₁.2.1, h₂.2.2.trans h₁.2.2⟩
  calc u = (t.withRe u.re).withOutMem u.outMem := h₂.1
    _ = (s.withRe u.re).withOutMem u.outMem := by rw [h₁.1]; rfl

/-- Everything that `reNormalize` can do (41_range_encoder.md R172): the bytes of `Coder.emitted` are appended as far as they
fit; then the loop ends with the `(low, range)` of `Coder.normalize`, collapses, or finds `OUT` full. -/
theorem reNormalize_spec (n : Nat) (s : State) (hcap : s.cfg.outCap < 2 ^ 64) :
    (∃ c k t, Coder.normalize n s.re.coder = some (c, k) ∧
      s.re.outLen.toNat + (Coder.emitted n s.re.coder).length ≤ max s.re.outLen.toNat s.cfg.outCap ∧
      reNormalize n s = .ok () t ∧ t.re.coder = c ∧ AppendsBytes (Coder.emitted n s.re.coder) s t ∧ OnlyOutputGrew s t) ∨
    (∃ t, Coder.normalize n s.re.coder = none ∧
      s.re.outLen.toNat + (Coder.emitted n s.re.coder).length ≤ max s.re.outLen.toNat s.cfg.outCap ∧
      reNormalize n s = .error .collapseEncoder t ∧ AppendsBytes (Coder.emitted n s.re.coder) s t ∧ OnlyOutputGrew s t) ∨
    (∃ t, max s.re.outLen.toNat s.cfg.outCap < s.re.outLen.toNat + (Coder.emitted n s.re.coder).length ∧
      reNormalize n s = .error .capacityOut t ∧
      AppendsBytes ((Coder.emitted n s.re.coder).take (s.cfg.outCap - s.re.outLen.toNat)) s t ∧ OnlyOutputGrew s t) := by
  induction n generalizing s with
  | zero =>
    exact .inl ⟨_, _, s, rfl, by simp [Coder.emitted], rfl, rfl, appendsBytes_nil s, onlyOutputGrew_refl s⟩
  | succ n ih =>
    unfold Coder.normalize Coder.emitted reNormalize
    cases hts : s.re.coder.toShift with
    | none =>
      exact .inl ⟨_, _, s, rfl, by simp, rfl, rfl, appendsBytes_nil s, onlyOutputGrew_refl s⟩
    | some c =>
      simp only
      by_cases hcol : c.collapsed = true
      · rw [if_pos hcol, if_pos hcol, if_pos hcol]
        exact .inr (.inl ⟨_, rfl, by simp, rfl, appendsBytes_nil _, rfl, rfl, rfl⟩)
      · rw [if_neg hcol, if_neg hcol, if_neg hcol, reEmit_apply]
        simp only [withRe_re, withRe_cfg]
        by_cases hroom : s.re.outLen.toNat < s.cfg.outCap
        · simp only [hroom, if_true]
          generalize hu : (((s.withRe { s.re with coder := c }).putOut s.re.outLen.toNat c.topByte).withRe
              { s.re with coder := c, outLen := s.re.outLen + 1 }) = u
          generalize hw : u.withRe { u.re with coder := c.shift } = w
          have hwre : w.re = { s.re with coder := c.shift, outLen := s.re.outLen + 1 } := by rw [← hw, ← hu]; rfl
          have hwcfg : w.cfg = s.cfg := by rw [← hw, ← hu]; rfl
          have hwout : w.outMem = Memory.write s.outMem s.re.outLen.toNat c.topByte := by rw [← hw, ← hu]; rfl
          have hgrew : OnlyOutputGrew s w := by
            refine ⟨?_, by rw [hwre], by rw [hwre]⟩
            rw [← hw, ← hu]; rfl
          have hN : w.re.outLen.toNat = s.re.outLen.toNat + 1 := by
            rw [hwre, BitVec.toNat_add, word_one_toNat]
            omega
          have hcons : ∀ {bytes t}, AppendsBytes bytes w t → AppendsBytes (c.topByte :: bytes) s t := by
            intro bytes t h
            refine AppendsBytes.cons (by omega) (by rw [hwre]) ?_ h
            intro i
            unfold State.outByte outByteOf
            rw [hwout, Memory.read?_write]
            split <;> rfl
          have hcoder : w.re.coder = c.shift := by rw [hwre]
          rcases ih w (by rw [hwcfg]; exact hcap) with ⟨c', k, t, h1, h2, h3, h4, h5, h6⟩ | ⟨t, h1, h2, h3, h5, h6⟩ |
              ⟨t, h2, h3, h5, h6⟩
          · rw [hcoder] at h1 h2 h5
            refine .inl ⟨c', k + 1, t, by rw [h1]; rfl, ?_, h3, h4, hcons h5, hgrew.trans h6⟩
            rw [hN, hwcfg] at h2
            simp only [List.length_cons]; omega
          · rw [hcoder] at h1 h2 h5
            refine .inr (.inl ⟨t, by rw [h1]; rfl, ?_, h3, hcons h5, hgrew.trans h6⟩)
            rw [hN, hwcfg] at h2
            simp only [List.length_cons]; omega
          · rw [hcoder] at h2 h5
            refine .inr (.inr ⟨t, ?_, h3, ?_, hgrew.trans h6⟩)
            · rw [hN, hwcfg] at h2
              simp only [List.length_cons]; omega
            · rw [hN, hwcfg] at h5
              rw [show s.cfg.outCap - s.re.outLen.toNat = (s.cfg.outCap - (s.re.outLen.toNat + 1)) + 1 from by omega]
              exact hcons h5
        · simp only [hroom, if_false]
          refine .inr (.inr ⟨_, ?_, rfl, ?_, rfl, rfl, rfl⟩)
          · simp only [List.length_cons]; omega
          · rw [show s.cfg.outCap - s.re.outLen.toNat = 0 from by omega]
            exact appendsBytes_nil _

/-- Everything that `rePut` can do (41_range_encoder.md R172). -/
theorem rePut_apply (bottom top total : Nat) (s : State) :
    rePut bottom top total s =
      reNormalize normalizeRounds (s.withRe { s.re with coder := s.putCoder bottom top total }) := rfl

/-- A narrowing that the replay accepts leaves the coder's invariant, so `top8` applies (00_scope.md R9; log 26). -/
theorem Coder.narrow_inv_of_fits {c : Coder} {bottom top : Nat} (hr : 0 < c.range.toNat) (hb : bottom < top)
    (h : c.narrowFits bottom top = true) : (c.narrow bottom top).Inv := by
  simp only [Coder.narrowFits, Bool.and_eq_true, decide_eq_true_eq] at h
  have hp : 0 < c.range.toNat * (top - bottom) := Nat.mul_pos hr (by omega)
  simp only [Coder.Inv, Coder.narrow, BitVec.toNat_ofNat]
  rw [Nat.mod_eq_of_lt h.1, Nat.mod_eq_of_lt (by omega)]
  exact ⟨hp, h.2⟩

end Sys2Proof.Machine
end

