-- ==== Sys2Proof/Laws/Regions.lean ====
section
/-! SUPPORT. What the shared operations on regions and on the tree do: reading a region, storing one, splitting into two,
allocating children, making the root, painting. -/

namespace Sys2Proof.Machine

/-! ### Reading elements after writes -/

theorem putNode_nodeRec (s : State) (i : Nat) (v : NodeRec) (k : Nat) :
    (s.putNode i v).nodeRec k = if k = i then v else s.nodeRec k := by
  show (Memory.read? (Memory.write s.nodeMem i v) k).getD _ = _
  rw [Memory.read?_write]; split <;> rfl

theorem putPal_palEntry (s : State) (i : Nat) (v : Colour) (k : Nat) :
    (s.putPal i v).palEntry k = if k = i then v else s.palEntry k := by
  show (Memory.read? (Memory.write s.palMem i v) k).getD _ = _
  rw [Memory.read?_write]; split <;> rfl

theorem putPix_pixByte (s : State) (i : Nat) (v : Byte) (k : Nat) :
    (s.putPix i v).pixByte k = if k = i then v else s.pixByte k := by
  show (Memory.read? (Memory.write s.pixMem i v) k).getD _ = _
  rw [Memory.read?_write]; split <;> rfl

/-! ### Reading a region -/

theorem spansFrom_length (s : State) (k i : Nat) : (s.spansFrom k i).length = k := by
  induction k generalizing i with
  | zero => rfl
  | succ k ih => rw [State.spansFrom, List.length_cons, ih]

theorem regionOf_length (s : State) (n : Nat) : (s.regionOf n).length = (s.nodeRec n).count := spansFrom_length ..

/-- The spans of an interval depend only on the elements in it. -/
theorem spansFrom_congr {s t : State} (k i : Nat) (h : ∀ j, i ≤ j → j < i + k → t.spanRec j = s.spanRec j) :
    t.spansFrom k i = s.spansFrom k i := by
  induction k generalizing i with
  | zero => rfl
  | succ k ih =>
    rw [State.spansFrom, State.spansFrom, h i (by omega) (by omega), ih (i + 1) (fun j h1 h2 => h j (by omega) (by omega))]

/-- A region depends only on its record and on the elements that the record names. -/
theorem regionOf_congr {s t : State} {n : Nat} (hb : (t.nodeRec n).base = (s.nodeRec n).base)
    (hc : (t.nodeRec n).count = (s.nodeRec n).count)
    (h : ∀ j, (s.nodeRec n).base ≤ j → j < (s.nodeRec n).base + (s.nodeRec n).count → t.spanRec j = s.spanRec j) :
    t.regionOf n = s.regionOf n := by
  unfold State.regionOf
  rw [hb, hc]
  exact spansFrom_congr _ _ h

/-- The interval that holds a list of spans reads as that list. -/
theorem spansFrom_eq_of_reads {s : State} (l : List SpanRec) (i : Nat)
    (h : ∀ j (hj : j < l.length), s.spanRec (i + j) = l[j]) : s.spansFrom l.length i = l := by
  induction l generalizing i with
  | nil => rfl
  | cons p l ih =>
    rw [List.length_cons, State.spansFrom]
    have h0 := h 0 (by simp)
    rw [Nat.add_zero] at h0
    rw [h0, List.getElem_cons_zero, ih (i + 1)]
    intro j hj
    have := h (j + 1) (by rw [List.length_cons]; omega)
    rw [List.getElem_cons_succ] at this
    rw [← this, show i + 1 + j = i + (j + 1) from by omega]

/-! ### Storing a region -/

/-- Everything that `storeRegion` does (46_region_split.md R267): the list stands from the node's base on, the entries of the
reservation above it hold free values, no other element and no other field of a record changes. -/
theorem storeRegion_spec (n : Nat) (l : List SpanRec) (s : State) :
    (∀ i, (storeRegion n l s).spanRec i =
      if (s.nodeRec n).base ≤ i ∧ i < (s.nodeRec n).base + l.length then l.getD (i - (s.nodeRec n).base) ⟨0, 0, 0⟩
      else if (s.nodeRec n).base + l.length ≤ i ∧ i < (s.nodeRec n).base + l.length + ((s.nodeRec n).cap - l.length) then
        Config.freeSpan s.freeCount i
      else s.spanRec i) ∧
    (∀ k, (storeRegion n l s).nodeRec k = if k = n then { s.nodeRec n with count := l.length } else s.nodeRec k) ∧
    storeRegion n l s =
      { s with
        spanMem := (storeRegion n l s).spanMem
        nodeMem := (storeRegion n l s).nodeMem
        freeCount := s.freeCount + 1 } := by
  refine ⟨?_, ?_, rfl⟩
  · intro i
    show (Memory.read? (Memory.fill _ _ _ (Memory.writeList l _ s.spanMem)) i).getD _ = _
    rw [Memory.read?_fill, Memory.read?_writeList]
    by_cases h1 : (s.nodeRec n).base ≤ i ∧ i < (s.nodeRec n).base + l.length
    · rw [if_neg (by omega), if_pos h1, if_pos h1]
      rw [List.getD_eq_getElem?_getD, List.getElem?_eq_getElem (show i - (s.nodeRec n).base < l.length by omega)]
      rfl
    · rw [if_neg h1, if_neg h1]
      split <;> rfl
  · intro k
    show ((s.withSpanMem _).putNode n _).nodeRec k = _
    rw [putNode_nodeRec, withSpanMem_nodeRec]

/-- The stored region reads back as the list. -/
theorem storeRegion_regionOf (n : Nat) (l : List SpanRec) (s : State) : (storeRegion n l s).regionOf n = l := by
  obtain ⟨h1, h2, _⟩ := storeRegion_spec n l s
  unfold State.regionOf
  rw [h2, if_pos rfl]
  apply spansFrom_eq_of_reads
  intro j hj
  rw [h1, if_pos (by constructor <;> simp only <;> omega)]
  rw [Nat.add_sub_cancel_left, List.getD_eq_getElem?_getD, List.getElem?_eq_getElem hj]
  rfl

/-- Storing one region keeps another whose spans lie outside the reservation. -/
theorem storeRegion_regionOf_other {n m : Nat} (l : List SpanRec) (s : State) (hm : m ≠ n) (hl : l.length ≤ (s.nodeRec n).cap)
    (h : (s.nodeRec m).base + (s.nodeRec m).count ≤ (s.nodeRec n).base ∨
      (s.nodeRec n).base + (s.nodeRec n).cap ≤ (s.nodeRec m).base) :
    (storeRegion n l s).regionOf m = s.regionOf m := by
  obtain ⟨h1, h2, _⟩ := storeRegion_spec n l s
  refine regionOf_congr (by rw [h2, if_neg hm]) (by rw [h2, if_neg hm]) ?_
  intro j hj1 hj2
  rw [h1, if_neg (by omega), if_neg (by omega)]

/-- Everything that `splitInto` does, as two stores. -/
theorem splitInto_eq (n a : Nat) (d : Int) (l r : Nat) (s : State) :
    splitInto n a d l r s =
      storeRegion r (rightSpans s.cfg a d (s.regionOf n)) (storeRegion l (leftSpans s.cfg a d (s.regionOf n)) s) := rfl

theorem leftPart_length_le (c : Config) (a : Nat) (d : Int) (p : SpanRec) : (leftPart c a d p).length ≤ 1 := by
  unfold leftPart; split <;> split <;> simp

theorem rightPart_length_le (c : Config) (a : Nat) (d : Int) (p : SpanRec) : (rightPart c a d p).length ≤ 1 := by
  unfold rightPart; split <;> split <;> simp

/-! ### Children and the root -/

/-- Everything that `allocChildren` can do (47_fragment_tree.md R281). -/
theorem allocChildren_spec (n : Nat) (s : State) :
    (s.ft.tail.toNat + 2 ≤ s.cfg.nodeCap ∧ s.ft.spanTop.toNat + 2 * (s.nodeRec n).count ≤ s.cfg.spanCap ∧
      allocChildren n s = .ok (s.ft.tail.toNat, s.ft.tail.toNat + 1)
        (((s.putNode s.ft.tail.toNat (NodeRec.fresh s.ft.spanTop.toNat 0 (s.nodeRec n).count)).putNode (s.ft.tail.toNat + 1)
          (NodeRec.fresh (s.ft.spanTop.toNat + (s.nodeRec n).count) 0 (s.nodeRec n).count)).withFt
            { s.ft with
              tail := zext64 (s.ft.tail.toNat + 2)
              spanTop := zext64 (s.ft.spanTop.toNat + 2 * (s.nodeRec n).count) })) ∨
    (s.cfg.nodeCap < s.ft.tail.toNat + 2 ∧ allocChildren n s = .error .capacityNode s) ∨
    (s.ft.tail.toNat + 2 ≤ s.cfg.nodeCap ∧ s.cfg.spanCap < s.ft.spanTop.toNat + 2 * (s.nodeRec n).count ∧
      allocChildren n s = .error .capacitySpan s) := by
  unfold allocChildren
  simp only [get_bind]
  by_cases h1 : s.ft.tail.toNat + 2 ≤ s.cfg.nodeCap
  · rw [require_bind_of_true _ _ _ h1]
    by_cases h2 : s.ft.spanTop.toNat + 2 * (s.nodeRec n).count ≤ s.cfg.spanCap
    · rw [require_bind_of_true _ _ _ h2]
      exact .inl ⟨h1, h2, rfl⟩
    · rw [require_bind_of_false _ _ _ h2]
      exact .inr (.inr ⟨h1, by omega, rfl⟩)
  · rw [require_bind_of_false _ _ _ h1]
    exact .inr (.inl ⟨by omega, rfl⟩)

/-- Everything that `makeRoot` can do (47_fragment_tree.md R283). -/
theorem makeRoot_spec (s : State) :
    (1 ≤ s.cfg.nodeCap ∧ s.cp.height.toNat ≤ s.cfg.spanCap ∧ makeRoot s = .ok () (rootState s)) ∨
    (s.cfg.nodeCap = 0 ∧ makeRoot s = .error .capacityNode s) ∨
    (1 ≤ s.cfg.nodeCap ∧ s.cfg.spanCap < s.cp.height.toNat ∧ makeRoot s = .error .capacitySpan s) := by
  unfold makeRoot
  simp only [get_bind]
  by_cases h1 : 1 ≤ s.cfg.nodeCap
  · rw [require_bind_of_true _ _ _ h1]
    by_cases h2 : s.cp.height.toNat ≤ s.cfg.spanCap
    · rw [require_bind_of_true _ _ _ h2]
      exact .inl ⟨h1, h2, rfl⟩
    · rw [require_bind_of_false _ _ _ h2]
      exact .inr (.inr ⟨h1, by omega, rfl⟩)
  · rw [require_bind_of_false _ _ _ h1]
    exact .inr (.inl ⟨by omega, rfl⟩)

theorem rootSpans_length (w k y : Nat) : (rootSpans w k y).length = k := by
  induction k generalizing y with
  | zero => rfl
  | succ k ih => rw [rootSpans, List.length_cons, ih]

theorem rootSpans_getElem? (w k y j : Nat) : (rootSpans w k y)[j]? = if j < k then some ⟨y + j, 0, w⟩ else none := by
  induction k generalizing y j with
  | zero => simp [rootSpans]
  | succ k ih =>
    cases j with
    | zero => simp [rootSpans]
    | succ j =>
      rw [rootSpans, List.getElem?_cons_succ, ih, show y + 1 + j = y + (j + 1) from by omega]
      by_cases h : j < k
      · rw [if_pos h, if_pos (by omega)]
      · rw [if_neg h, if_neg (by omega)]

/-- The records and spans of the root (47_fragment_tree.md R283). -/
theorem rootState_spec (s : State) :
    (∀ i, (rootState s).spanRec i = if i < s.cp.height.toNat then ⟨i, 0, s.cp.width.toNat⟩ else s.spanRec i) ∧
    (∀ k, (rootState s).nodeRec k =
      if k = 0 then NodeRec.fresh 0 s.cp.height.toNat s.cp.height.toNat else s.nodeRec k) := by
  refine ⟨?_, ?_⟩
  · intro i
    show (Memory.read? (Memory.writeList (rootSpans s.cp.width.toNat s.cp.height.toNat 0) 0 s.spanMem) i).getD _ = _
    rw [Memory.read?_writeList, rootSpans_length, Nat.sub_zero, rootSpans_getElem?]
    by_cases h : i < s.cp.height.toNat
    · rw [if_pos (by omega), if_pos h, if_pos h, Nat.zero_add]; rfl
    · rw [if_neg (by omega), if_neg h]; rfl
  · intro k
    show ((s.withSpanMem _).putNode 0 _).nodeRec k = _
    rw [putNode_nodeRec, withSpanMem_nodeRec]

/-! ### Painting -/

/-- Only `PIX` differs from `s`. -/
def OnlyPixels (s t : State) : Prop := t = { s with pixMem := t.pixMem }

theorem onlyPixels_refl (s : State) : OnlyPixels s s := rfl

theorem OnlyPixels.trans {s t u : State} (h₁ : OnlyPixels s t) (h₂ : OnlyPixels t u) : OnlyPixels s u := by
  unfold OnlyPixels at *
  rw [h₂, h₁]

theorem onlyPixels_putPixel (c : Colour) (p : Nat) (s : State) : OnlyPixels s (putPixel c p s) := rfl

/-- The four bytes of a painted pixel (20_memory.md R72). -/
theorem putPixel_pixByte (c : Colour) (p : Nat) (s : State) (i : Nat) :
    (putPixel c p s).pixByte i =
      if i = p then c.r else if i = p + 1 then c.g else if i = p + 2 then c.b else if i = p + 3 then c.a
      else s.pixByte i := by
  unfold putPixel
  simp only [putPix_pixByte]
  by_cases h0 : i = p
  · rw [if_neg (by omega), if_neg (by omega), if_neg (by omega), if_pos h0, if_pos h0]
  · by_cases h1 : i = p + 1
    · rw [if_neg (by omega), if_neg (by omega), if_pos h1, if_neg h0, if_pos h1]
    · by_cases h2 : i = p + 2
      · rw [if_neg (by omega), if_pos h2, if_neg h0, if_neg h1, if_pos h2]
      · by_cases h3 : i = p + 3
        · rw [if_pos h3, if_neg h0, if_neg h1, if_neg h2, if_pos h3]
        · rw [if_neg h3, if_neg h2, if_neg h1, if_neg h0, if_neg h0, if_neg h1, if_neg h2, if_neg h3]

theorem onlyPixels_paintRun (c : Colour) (y : Nat) (k x : Nat) (s : State) : OnlyPixels s (paintRun c y k x s) := by
  induction k generalizing x s with
  | zero => exact onlyPixels_refl s
  | succ k ih => exact (onlyPixels_putPixel _ _ _).trans (ih (x + 1) _)

theorem onlyPixels_paintSpans (c : Colour) (l : List SpanRec) (s : State) : OnlyPixels s (paintSpans c l s) := by
  induction l generalizing s with
  | nil => exact onlyPixels_refl s
  | cons p l ih => exact (onlyPixels_paintRun _ _ _ _ _).trans (ih _)

theorem onlyPixels_renderNode (n : Nat) (s : State) : OnlyPixels s (renderNode n s) := by
  unfold renderNode
  split
  · exact onlyPixels_paintSpans _ _ _
  · exact onlyPixels_refl s
  · exact onlyPixels_refl s

theorem onlyPixels_renderFrom (k n : Nat) (s : State) : OnlyPixels s (renderFrom k n s) := by
  induction k generalizing n s with
  | zero => exact onlyPixels_refl s
  | succ k ih => exact (onlyPixels_renderNode _ _).trans (ih (n + 1) _)

/-- Everything that `render` can do (47_fragment_tree.md R300). -/
theorem render_spec (s : State) :
    (4 * s.cp.width.toNat * s.cp.height.toNat ≤ s.cfg.pixCap ∧
      render s = .ok () (renderFrom s.ft.tail.toNat 0 s)) ∨
    (s.cfg.pixCap < 4 * s.cp.width.toNat * s.cp.height.toNat ∧ render s = .error .capacityPix s) := by
  unfold render
  simp only [get_bind]
  by_cases h : 4 * s.cp.width.toNat * s.cp.height.toNat ≤ s.cfg.pixCap
  · rw [require_bind_of_true _ _ _ h]; exact .inl ⟨h, rfl⟩
  · rw [require_bind_of_false _ _ _ h]; exact .inr ⟨by omega, rfl⟩

end Sys2Proof.Machine
end

