-- ==== Sys2Proof/Laws/Frames.lean ====
section
/-! SUPPORT. Frames: how `KeepsAllBut` composes, and the frame of each shared operation. -/

namespace Sys2Proof.Machine

/-! ### Composition -/

theorem Part.kept_refl (p : Part) (s : State) : p.kept s s := by
  cases p <;> simp [Part.kept]

theorem Part.kept_trans {p : Part} {s t u : State} (h₁ : p.kept s t) (h₂ : p.kept t u) : p.kept s u := by
  cases p with
  | mem sp => exact fun i => (h₂ i).trans (h₁ i)
  | faultRegs => exact ⟨h₂.1.trans h₁.1, h₂.2.1.trans h₁.2.1, h₂.2.2.trans h₁.2.2⟩
  | args => exact ⟨h₂.1.trans h₁.1, h₂.2.1.trans h₁.2.1, h₂.2.2.trans h₁.2.2⟩
  | hostSide => exact ⟨h₂.1.trans h₁.1, h₂.2.1.trans h₁.2.1, h₂.2.2.trans h₁.2.2⟩
  | _ => exact Eq.trans h₂ h₁

theorem KeepsAllBut.refl (l : List Part) (s : State) : KeepsAllBut l s s := fun p _ => p.kept_refl s

theorem KeepsAllBut.trans {l : List Part} {s t u : State} (h₁ : KeepsAllBut l s t) (h₂ : KeepsAllBut l t u) :
    KeepsAllBut l s u := fun p hp => Part.kept_trans (h₁ p hp) (h₂ p hp)

theorem KeepsAllBut.mono {l m : List Part} {s t : State} (h : KeepsAllBut l s t) (hs : ∀ p ∈ l, p ∈ m) :
    KeepsAllBut m s t := fun p hp => h p (fun hl => hp (hs p hl))

/-- A frame, part by part: a part is in the list or it is kept. -/
theorem keepsAllBut_iff {l : List Part} {s t : State} :
    KeepsAllBut l s t ↔
      (.status ∈ l ∨ Part.status.kept s t) ∧ (.faultRegs ∈ l ∨ Part.faultRegs.kept s t) ∧
      (.cmdSeq ∈ l ∨ Part.cmdSeq.kept s t) ∧ (.args ∈ l ∨ Part.args.kept s t) ∧
      (.res0 ∈ l ∨ Part.res0.kept s t) ∧ (.res1 ∈ l ∨ Part.res1.kept s t) ∧
      (.res2 ∈ l ∨ Part.res2.kept s t) ∧ (.res3 ∈ l ∨ Part.res3.kept s t) ∧
      (.rd ∈ l ∨ Part.rd.kept s t) ∧ (.re ∈ l ∨ Part.re.kept s t) ∧ (.rp ∈ l ∨ Part.rp.kept s t) ∧
      (.cp ∈ l ∨ Part.cp.kept s t) ∧ (.dr ∈ l ∨ Part.dr.kept s t) ∧ (.ft ∈ l ∨ Part.ft.kept s t) ∧
      (∀ sp, .mem sp ∈ l ∨ (Part.mem sp).kept s t) ∧
      (.hostSide ∈ l ∨ Part.hostSide.kept s t) ∧ (.freeCount ∈ l ∨ Part.freeCount.kept s t) := by
  constructor
  · intro h
    have hp : ∀ p : Part, p ∈ l ∨ p.kept s t := fun p => Classical.or_iff_not_imp_left.mpr (h p)
    exact ⟨hp _, hp _, hp _, hp _, hp _, hp _, hp _, hp _, hp _, hp _, hp _, hp _, hp _, hp _, fun _ => hp _, hp _, hp _⟩
  · rintro ⟨h1, h2, h3, h4, h5, h6, h7, h8, h9, h10, h11, h12, h13, h14, h15, h16, h17⟩ p hp
    cases p with
    | status => exact h1.resolve_left hp
    | faultRegs => exact h2.resolve_left hp
    | cmdSeq => exact h3.resolve_left hp
    | args => exact h4.resolve_left hp
    | res0 => exact h5.resolve_left hp
    | res1 => exact h6.resolve_left hp
    | res2 => exact h7.resolve_left hp
    | res3 => exact h8.resolve_left hp
    | rd => exact h9.resolve_left hp
    | re => exact h10.resolve_left hp
    | rp => exact h11.resolve_left hp
    | cp => exact h12.resolve_left hp
    | dr => exact h13.resolve_left hp
    | ft => exact h14.resolve_left hp
    | mem sp => exact (h15 sp).resolve_left hp
    | hostSide => exact h16.resolve_left hp
    | freeCount => exact h17.resolve_left hp

/-! ### Memories, through the lists that hold them -/

/-- Where the list that holds a memory is the same, every element reads the same. -/
theorem mem_kept_of_lists {s t : State} (h1 : t.inMem = s.inMem) (h2 : t.outMem = s.outMem) (h3 : t.logMem = s.logMem)
    (h4 : t.palMem = s.palMem) (h5 : t.nodeMem = s.nodeMem) (h6 : t.spanMem = s.spanMem) (h7 : t.pixMem = s.pixMem) :
    ∀ sp, (Part.mem sp).kept s t := by
  intro sp i
  cases sp with
  | inp => show BusData.byte _ = BusData.byte _; unfold State.inByte; rw [h1]
  | out => show BusData.byte _ = BusData.byte _; unfold State.outByte; rw [h2]
  | log => show BusData.triplet _ = BusData.triplet _; unfold State.logEntry; rw [h3]
  | pal => show BusData.colour _ = BusData.colour _; unfold State.palEntry; rw [h4]
  | node => show BusData.node _ = BusData.node _; unfold State.nodeRec; rw [h5]
  | span => show BusData.span _ = BusData.span _; unfold State.spanRec; rw [h6]
  | pix => show BusData.byte _ = BusData.byte _; unfold State.pixByte; rw [h7]

/-! ### The shared operations -/

theorem keepsAllBut_raiseFault (c : Cause) (cmd : Word) (s : State) : KeepsAllBut faultParts s (raiseFault c cmd s) := by
  rw [raiseFault_eq, keepsAllBut_iff]
  simp only [faultParts, List.mem_cons, List.not_mem_nil, reduceCtorEq, false_or, or_false, true_or, or_true, true_and]
  refine ⟨rfl, ⟨rfl, rfl, rfl⟩, rfl, rfl, rfl, rfl, rfl, rfl, ?_, ⟨rfl, rfl, rfl⟩, trivial⟩
  exact mem_kept_of_lists rfl rfl rfl rfl rfl rfl rfl

theorem keepsAllBut_endCommand (s : State) : KeepsAllBut [.status] s (endCommand s) := by
  rw [endCommand_eq, keepsAllBut_iff]
  simp only [List.mem_cons, List.not_mem_nil, reduceCtorEq, false_or, or_false, true_or, true_and]
  exact ⟨⟨rfl, rfl, rfl⟩, rfl, ⟨rfl, rfl, rfl⟩, rfl, rfl, rfl, rfl, rfl, rfl, rfl, rfl, rfl, rfl,
    mem_kept_of_lists rfl rfl rfl rfl rfl rfl rfl, ⟨rfl, rfl, rfl⟩, rfl⟩

theorem OnlyDecoderMoved.keepsAllBut {s t : State} (h : OnlyDecoderMoved s t) : KeepsAllBut [.status, .rd] s t := by
  rw [h, keepsAllBut_iff]
  simp only [List.mem_cons, List.not_mem_nil, reduceCtorEq, false_or, or_false, true_or, or_true, true_and]
  exact ⟨⟨rfl, rfl, rfl⟩, rfl, ⟨rfl, rfl, rfl⟩, rfl, rfl, rfl, rfl, rfl, rfl, rfl, rfl, rfl,
    mem_kept_of_lists rfl rfl rfl rfl rfl rfl rfl, ⟨rfl, rfl, rfl⟩, rfl⟩

theorem OnlyPixels.keepsAllBut {s t : State} (h : OnlyPixels s t) : KeepsAllBut [.mem .pix] s t := by
  rw [h, keepsAllBut_iff]
  simp only [List.mem_cons, List.not_mem_nil, reduceCtorEq, false_or, or_false]
  refine ⟨rfl, ⟨rfl, rfl, rfl⟩, rfl, ⟨rfl, rfl, rfl⟩, rfl, rfl, rfl, rfl, rfl, rfl, rfl, rfl, rfl, rfl, ?_, ⟨rfl, rfl, rfl⟩, rfl⟩
  intro sp
  cases sp with
  | pix => exact .inl rfl
  | _ => exact .inr (fun _ => rfl)

/-- A command that faults answers with all that its run changed and the fault entry. -/
theorem runCommand_error_frame {i : Instr} {body : Cmd Unit} {s t : State} {c : Cause} {l : List Part}
    (h : body s = .error c t) (hl : KeepsAllBut l s t) :
    ∃ u, runCommand i body s = .next u ∧ KeepsAllBut (faultParts ++ l) s u := by
  refine ⟨_, runCommand_of_error h, (hl.mono ?_).trans ((keepsAllBut_raiseFault _ _ _).mono ?_)⟩
  · intro p hp; exact List.mem_append_right _ hp
  · intro p hp; exact List.mem_append_left _ hp

/-- A command whose checks fail before any effect traps cleanly. -/
theorem trapsCleanly_of_error {i : Instr} {body : Cmd Unit} {s : State} {c : Cause} (hf : s.status.fault = false)
    (h : body s = .error c s) : TrapsCleanly (runCommand i body s) c.code c.sub (opcode i) s := by
  refine ⟨_, runCommand_of_error h, ?_, ?_, keepsAllBut_raiseFault _ _ _⟩
  · rw [raiseFault_eq, hf]
    exact ⟨rfl, rfl, rfl, rfl, rfl, rfl⟩
  · rw [raiseFault_eq]

end Sys2Proof.Machine
end

