-- ==== Sys2Proof/Laws/Codec.lean ====
section
/-! SUPPORT. What the shared operations of the parameter bank, the distance quantizer and the byte minimizer do. -/

namespace Sys2Proof.Machine

/-! ### The bank -/

/-- Everything that `setCode` does (44_codec_params.md R225). -/
theorem setCode_eq (code : Nat) (s : State) :
    setCode code s =
      { s with cp :=
        { s.cp with
          levelScale := (deriveFor s.cfg.derive code s.cp.width.toNat s.cp.height.toNat).levelScale
          angleBits := (deriveFor s.cfg.derive code s.cp.width.toNat s.cp.height.toNat).angleBits
          lineLimit := (deriveFor s.cfg.derive code s.cp.width.toNat s.cp.height.toNat).lineLimit
          lineQuant := (deriveFor s.cfg.derive code s.cp.width.toNat s.cp.height.toNat).lineQuant
          qr := (deriveFor s.cfg.derive code s.cp.width.toNat s.cp.height.toNat).qr
          qg := (deriveFor s.cfg.derive code s.cp.width.toNat s.cp.height.toNat).qg
          qb := (deriveFor s.cfg.derive code s.cp.width.toNat s.cp.height.toNat).qb
          code := zext64 code } } := rfl

/-- The level that the bank gives a squared diagonal (44_codec_params.md R228). -/
theorem levelFor_spec (b : CpRegs) (d : Nat) : IsLevel b d (b.levelFor d) := by
  have h7 : ∀ j : Fin 7, j = 0 ∨ j = 1 ∨ j = 2 ∨ j = 3 ∨ j = 4 ∨ j = 5 ∨ j = 6 := by decide
  unfold CpRegs.levelFor IsLevel
  split
  · exact ⟨.inl ‹_›, fun j hj => absurd hj (by omega)⟩
  split
  · refine ⟨.inl ‹_›, fun j hj => ?_⟩
    rcases h7 j with rfl | rfl | rfl | rfl | rfl | rfl | rfl <;> first | exact Nat.lt_of_not_le ‹_› | exact absurd hj (by decide)
  split
  · refine ⟨.inl ‹_›, fun j hj => ?_⟩
    rcases h7 j with rfl | rfl | rfl | rfl | rfl | rfl | rfl <;> first | exact absurd hj (by decide) | exact Nat.lt_of_not_le ‹_›
  split
  · refine ⟨.inl ‹_›, fun j hj => ?_⟩
    rcases h7 j with rfl | rfl | rfl | rfl | rfl | rfl | rfl <;> first | exact absurd hj (by decide) | exact Nat.lt_of_not_le ‹_›
  split
  · refine ⟨.inl ‹_›, fun j hj => ?_⟩
    rcases h7 j with rfl | rfl | rfl | rfl | rfl | rfl | rfl <;> first | exact absurd hj (by decide) | exact Nat.lt_of_not_le ‹_›
  split
  · refine ⟨.inl ‹_›, fun j hj => ?_⟩
    rcases h7 j with rfl | rfl | rfl | rfl | rfl | rfl | rfl <;> first | exact absurd hj (by decide) | exact Nat.lt_of_not_le ‹_›
  · refine ⟨.inr rfl, fun j hj => ?_⟩
    rcases h7 j with rfl | rfl | rfl | rfl | rfl | rfl | rfl <;> first | exact absurd hj (by decide) | exact Nat.lt_of_not_le ‹_›

/-- A squared diagonal has one level. -/
theorem IsLevel.unique {b : CpRegs} {d : Nat} {i j : Fin 7} (hi : IsLevel b d i) (hj : IsLevel b d j) : i = j := by
  rcases lt_trichotomy i j with h | h | h
  · have := hj.2 i h
    rcases hi.1 with h1 | h1
    · omega
    · subst h1; omega
  · exact h
  · have := hi.2 j h
    rcases hj.1 with h1 | h1
    · omega
    · subst h1; omega

/-! ### Extremes -/

theorem leastOf_le (start : Int) (l : List Int) : leastOf start l ≤ start ∧ ∀ z ∈ l, leastOf start l ≤ z := by
  unfold leastOf
  induction l generalizing start with
  | nil => exact ⟨le_refl _, by simp⟩
  | cons a l ih =>
    obtain ⟨h1, h2⟩ := ih (min start a)
    refine ⟨le_trans h1 (min_le_left _ _), fun z hz => ?_⟩
    rcases List.mem_cons.mp hz with rfl | hz
    · exact le_trans h1 (min_le_right _ _)
    · exact h2 z hz

theorem leastOf_mem (start : Int) (l : List Int) : leastOf start l = start ∨ leastOf start l ∈ l := by
  unfold leastOf
  induction l generalizing start with
  | nil => exact .inl rfl
  | cons a l ih =>
    rcases ih (min start a) with h | h
    · rcases min_choice start a with hm | hm
      · exact .inl (h.trans hm)
      · exact .inr (by rw [List.foldl_cons, h, hm]; exact List.mem_cons_self ..)
    · exact .inr (List.mem_cons_of_mem _ h)

theorem le_greatestOf (start : Int) (l : List Int) : start ≤ greatestOf start l ∧ ∀ z ∈ l, z ≤ greatestOf start l := by
  unfold greatestOf
  induction l generalizing start with
  | nil => exact ⟨le_refl _, by simp⟩
  | cons a l ih =>
    obtain ⟨h1, h2⟩ := ih (max start a)
    refine ⟨le_trans (le_max_left _ _) h1, fun z hz => ?_⟩
    rcases List.mem_cons.mp hz with rfl | hz
    · exact le_trans (le_max_right _ _) h1
    · exact h2 z hz

theorem greatestOf_mem (start : Int) (l : List Int) : greatestOf start l = start ∨ greatestOf start l ∈ l := by
  unfold greatestOf
  induction l generalizing start with
  | nil => exact .inl rfl
  | cons a l ih =>
    rcases ih (max start a) with h | h
    · rcases max_choice start a with hm | hm
      · exact .inl (h.trans hm)
      · exact .inr (by rw [List.foldl_cons, h, hm]; exact List.mem_cons_self ..)
    · exact .inr (List.mem_cons_of_mem _ h)

/-! ### The growth of the quantum -/

theorem grownQuantum_succ (q k : Nat) : grownQuantum q (k + 1) = grownQuantum (q + q / 16) k := by
  induction k with
  | zero => rfl
  | succ k ih => rw [grownQuantum, ih]; rfl

/-- The growth loop stops at the first quantum of the sequence that gives at most `limit` lines, given rounds enough
(45_distance_quantizer.md R253). -/
theorem growQuantum_spec (extent limit : Nat) (n q : Nat) (hq : 16 ≤ q) (hn : extent < q + n) :
    IsQuantum extent limit q (growQuantum extent limit n q) := by
  induction n generalizing q with
  | zero =>
    refine ⟨0, rfl, ?_, fun j hj => absurd hj (by omega)⟩
    rw [growQuantum, Nat.div_eq_of_lt (by omega)]
    exact Nat.zero_le _
  | succ n ih =>
    rw [growQuantum]
    by_cases h : extent / q > limit
    · rw [if_pos h]
      have hstep : 1 ≤ q / 16 := by omega
      obtain ⟨k, h1, h2, h3⟩ := ih (q + q / 16) (by omega) (by omega)
      refine ⟨k + 1, by rw [grownQuantum_succ]; exact h1, h2, ?_⟩
      intro j hj
      cases j with
      | zero => exact h
      | succ j => rw [grownQuantum_succ]; exact h3 j (by omega)
    · rw [if_neg h]
      exact ⟨0, rfl, by omega, fun j hj => absurd hj (by omega)⟩

/-- The growth sequence has one first such quantum. -/
theorem IsQuantum.unique {extent limit q₀ q q' : Nat} (h : IsQuantum extent limit q₀ q) (h' : IsQuantum extent limit q₀ q') :
    q = q' := by
  obtain ⟨k, rfl, h1, h2⟩ := h
  obtain ⟨k', rfl, h1', h2'⟩ := h'
  rcases lt_trichotomy k k' with hk | rfl | hk
  · have := h2' k hk; omega
  · rfl
  · have := h2 k' hk; omega

/-- Everything that `drUpdate` can do: nothing on an empty region, and otherwise only the `DR_*` registers are written. -/
theorem drUpdate_eq (n a : Nat) (s : State) : drUpdate n a s = s.withDr (drUpdate n a s).dr := by
  unfold drUpdate
  cases s.regionOf n <;> rfl

/-! ### The byte minimizer -/

theorem minimizeLoop_length_le (log : Nat → Triplet) (logLen n : Nat) (out : List Host.Cell) :
    (minimizeLoop log logLen n out).1 ≤ n := by
  induction n generalizing out with
  | zero => exact Nat.le_refl 0
  | succ n ih =>
    rw [minimizeLoop]
    split
    · exact Nat.le_succ_of_le (ih _)
    split
    · exact Nat.le_succ_of_le (ih _)
    split
    · exact Nat.le_refl _
    split
    · exact Nat.le_succ_of_le (ih _)
    · exact Nat.le_refl _

/-- Where the search stops with a byte left, one byte less does not validate (42_byte_minimizer.md R198). -/
theorem minimizeLoop_stops (log : Nat → Triplet) (logLen n : Nat) (out : List Host.Cell)
    (h : 0 < (minimizeLoop log logLen n out).1) :
    check log logLen (minimizeLoop log logLen n out).2 ((minimizeLoop log logLen n out).1 - 1) = false := by
  induction n generalizing out with
  | zero => exact absurd h (Nat.lt_irrefl 0)
  | succ n ih =>
    revert h
    rw [minimizeLoop]
    split
    · exact ih _
    split
    · exact ih _
    rename_i _ hc
    split
    · intro _; simpa using hc
    split
    · exact ih _
    · intro _; simpa using hc

/-! ### The placeholder derivation -/

theorem testLevelScale_le {w h dim : Nat} (hw : w ≤ dim) (hh : h ≤ dim) (hd : dim < 2 ^ 31) (i : Nat) :
    (testLevelScale w h i).toNat ≤ 2 ^ 63 - 1 := by
  have h1 : w * w ≤ (2 ^ 31 - 1) * (2 ^ 31 - 1) := Nat.mul_le_mul (by omega) (by omega)
  have h2 : h * h ≤ (2 ^ 31 - 1) * (2 ^ 31 - 1) := Nat.mul_le_mul (by omega) (by omega)
  have h3 : (w * w + h * h) / 4 ^ i ≤ w * w + h * h := Nat.div_le_self ..
  rw [testLevelScale, zext64, BitVec.toNat_ofNat]
  exact Nat.le_trans (Nat.mod_le ..) (by omega)

theorem testAngleBits_le {code bits : Nat} (h : code + 1 ≤ bits) (i : Nat) : (testAngleBits code i).toNat ≤ bits := by
  rw [testAngleBits, zext64, BitVec.toNat_ofNat]
  exact Nat.le_trans (Nat.mod_le ..) (by omega)

/-- The placeholder derivation keeps the contract of 44_codec_params.md R224 where every code it is asked for is below
`ANGLE_BITS_MAX` (95_test_vectors.md section 2; log 3). -/
theorem testConfig_deriveOk {c : Config} (hd : c.derive = .testConfig) (hc : c.maxCode ≤ c.angleBitsMax)
    (hm : c.dimMax < 2 ^ 31) : c.DeriveOk := by
  intro b code hcode hw hh hp
  have h1 : b.width.toNat ≤ c.dimMax := by simpa [dimOk] using (Bool.and_eq_true_iff.mp hw).2
  have h2 : b.height.toNat ≤ c.dimMax := by simpa [dimOk] using (Bool.and_eq_true_iff.mp hh).2
  have hl (i : Nat) := testLevelScale_le h1 h2 hm i
  have ha (i : Nat) := testAngleBits_le (Nat.le_trans (Nat.succ_le_of_lt hcode) hc) i
  have key (i : Fin 7) : (b.loadDerived code (deriveFor c.derive code b.width.toNat b.height.toNat)).levelOk c.angleBitsMax i =
      true := by
    rw [hd]
    have h7 : i = 0 ∨ i = 1 ∨ i = 2 ∨ i = 3 ∨ i = 4 ∨ i = 5 ∨ i = 6 := by revert i; decide
    unfold CpRegs.levelOk
    rcases h7 with rfl | rfl | rfl | rfl | rfl | rfl | rfl <;>
      exact Bool.and_eq_true_iff.mpr ⟨decide_eq_true (ha _), decide_eq_true (hl _)⟩
  unfold CpRegs.valid
  simp only [key, Bool.and_true]
  rw [hd]
  simp only [CpRegs.loadDerived, hw, hh, Bool.true_and]
  exact Bool.and_eq_true_iff.mpr ⟨rfl, decide_eq_true hp⟩

/-- The parameters at `State.reset` are ones that the spec allows. -/
theorem resetConfig_ok : resetConfig.Ok :=
  ⟨by decide +kernel, by decide +kernel, testConfig_deriveOk rfl (by decide) (by decide)⟩

end Sys2Proof.Machine
end

