-- ==== Sys2Proof/Laws/PerInstr.lean ====
section
/-! SUPPORT. Facts about every instruction as syntax, one lemma a constructor: its word is well formed and decodes to it. -/

/-- The word of `i` fits the format of 30_encoding.md R100, is a word of the opcode map (R102, R104), and decodes to `i`; an
opcode's bits stand in bits 7:0. -/
def Sys2Proof.Laws.EncodingRoundTrip.Statement (i : Sys2Proof.Instr) : Prop :=
  i.wellFormed = true ∧ Sys2Proof.wordWellFormed (Sys2Proof.encode i) = true ∧
  Sys2Proof.opcodeField (Sys2Proof.encode i) = Sys2Proof.opcode i ∧
  Sys2Proof.decode (Sys2Proof.encode i) = .command i

theorem Sys2Proof.Laws.EncodingRoundTrip.sysReset : Sys2Proof.Laws.EncodingRoundTrip.Statement .sysReset :=
  ⟨rfl, rfl, rfl, rfl⟩

theorem Sys2Proof.Laws.EncodingRoundTrip.rdInit : Sys2Proof.Laws.EncodingRoundTrip.Statement .rdInit :=
  ⟨rfl, rfl, rfl, rfl⟩

theorem Sys2Proof.Laws.EncodingRoundTrip.rdCount : Sys2Proof.Laws.EncodingRoundTrip.Statement .rdCount :=
  ⟨rfl, rfl, rfl, rfl⟩

theorem Sys2Proof.Laws.EncodingRoundTrip.rdRemove : Sys2Proof.Laws.EncodingRoundTrip.Statement .rdRemove :=
  ⟨rfl, rfl, rfl, rfl⟩

theorem Sys2Proof.Laws.EncodingRoundTrip.rdNum : Sys2Proof.Laws.EncodingRoundTrip.Statement .rdNum :=
  ⟨rfl, rfl, rfl, rfl⟩

theorem Sys2Proof.Laws.EncodingRoundTrip.reInit : Sys2Proof.Laws.EncodingRoundTrip.Statement .reInit :=
  ⟨rfl, rfl, rfl, rfl⟩

theorem Sys2Proof.Laws.EncodingRoundTrip.rePut : Sys2Proof.Laws.EncodingRoundTrip.Statement .rePut :=
  ⟨rfl, rfl, rfl, rfl⟩

theorem Sys2Proof.Laws.EncodingRoundTrip.reNum : Sys2Proof.Laws.EncodingRoundTrip.Statement .reNum :=
  ⟨rfl, rfl, rfl, rfl⟩

theorem Sys2Proof.Laws.EncodingRoundTrip.reFinish : Sys2Proof.Laws.EncodingRoundTrip.Statement .reFinish :=
  ⟨rfl, rfl, rfl, rfl⟩

theorem Sys2Proof.Laws.EncodingRoundTrip.reOptfin : Sys2Proof.Laws.EncodingRoundTrip.Statement .reOptfin :=
  ⟨rfl, rfl, rfl, rfl⟩

theorem Sys2Proof.Laws.EncodingRoundTrip.tgLookup : Sys2Proof.Laws.EncodingRoundTrip.Statement .tgLookup :=
  ⟨rfl, rfl, rfl, rfl⟩

theorem Sys2Proof.Laws.EncodingRoundTrip.cpSetcode : Sys2Proof.Laws.EncodingRoundTrip.Statement .cpSetcode :=
  ⟨rfl, rfl, rfl, rfl⟩

theorem Sys2Proof.Laws.EncodingRoundTrip.cpRead : Sys2Proof.Laws.EncodingRoundTrip.Statement .cpRead :=
  ⟨rfl, rfl, rfl, rfl⟩

theorem Sys2Proof.Laws.EncodingRoundTrip.cpSize : Sys2Proof.Laws.EncodingRoundTrip.Statement .cpSize :=
  ⟨rfl, rfl, rfl, rfl⟩

theorem Sys2Proof.Laws.EncodingRoundTrip.cpLevel : Sys2Proof.Laws.EncodingRoundTrip.Statement .cpLevel :=
  ⟨rfl, rfl, rfl, rfl⟩

theorem Sys2Proof.Laws.EncodingRoundTrip.cpDeq : Sys2Proof.Laws.EncodingRoundTrip.Statement .cpDeq :=
  ⟨rfl, rfl, rfl, rfl⟩

theorem Sys2Proof.Laws.EncodingRoundTrip.drUpdate : Sys2Proof.Laws.EncodingRoundTrip.Statement .drUpdate :=
  ⟨rfl, rfl, rfl, rfl⟩

theorem Sys2Proof.Laws.EncodingRoundTrip.drDist : Sys2Proof.Laws.EncodingRoundTrip.Statement .drDist :=
  ⟨rfl, rfl, rfl, rfl⟩

theorem Sys2Proof.Laws.EncodingRoundTrip.rgSplit : Sys2Proof.Laws.EncodingRoundTrip.Statement .rgSplit :=
  ⟨rfl, rfl, rfl, rfl⟩

theorem Sys2Proof.Laws.EncodingRoundTrip.ftRoot : Sys2Proof.Laws.EncodingRoundTrip.Statement .ftRoot :=
  ⟨rfl, rfl, rfl, rfl⟩

theorem Sys2Proof.Laws.EncodingRoundTrip.ftParse : Sys2Proof.Laws.EncodingRoundTrip.Statement .ftParse :=
  ⟨rfl, rfl, rfl, rfl⟩

theorem Sys2Proof.Laws.EncodingRoundTrip.ftRender : Sys2Proof.Laws.EncodingRoundTrip.Statement .ftRender :=
  ⟨rfl, rfl, rfl, rfl⟩

theorem Sys2Proof.Laws.EncodingRoundTrip.ftDecode : Sys2Proof.Laws.EncodingRoundTrip.Statement .ftDecode :=
  ⟨rfl, rfl, rfl, rfl⟩
end

