-- ==== Sys2Proof/Tests/Slice0.lean ====
section
/-! SUPPORT. The model's own tests: what is refused as a command word, command words written out from the opcode map, one or
two small tests of each command with values from 95_test_vectors.md, and for each obligation with hypotheses a theorem
that shows a state meeting them. -/

namespace Sys2Proof.Tests

open Sys2Proof.Machine

-- One theorem at a time: a thread for each of them would ask for more stack than the check allows.
set_option Elab.async false

/-! ### Ill-formed command words (30_encoding.md R104) -/

theorem test_reserved_bits_refused : reservedClear 0x101 = false ∧ reservedClear 0x8000000000000001 = false := by decide

theorem test_unlisted_opcode_refused : opcodeListed 0x02 = false ∧ opcodeListed 0xFF = false := by decide

theorem test_ill_formed_word_refused : wordWellFormed 0x00 = false ∧ wordWellFormed 0x110 = false := by decide

theorem test_reserved_bits_decode : decode 0x100 = .reservedBits ∧ decode 0x100000030 = .reservedBits := by decide

theorem test_unlisted_opcode_decode : decode 0x00 = .unlistedOpcode ∧ decode 0x14 = .unlistedOpcode := by decide

/-! ### Command words of 30_encoding.md R102, bits 7:0 written out -/

theorem test_decode_sysReset : decode 0b00000001 = .command .sysReset := by decide
theorem test_decode_rdInit : decode 0b00010000 = .command .rdInit := by decide
theorem test_decode_rdCount : decode 0b00010001 = .command .rdCount := by decide
theorem test_decode_rdRemove : decode 0b00010010 = .command .rdRemove := by decide
theorem test_decode_rdNum : decode 0b00010011 = .command .rdNum := by decide
theorem test_decode_reInit : decode 0b00100000 = .command .reInit := by decide
theorem test_decode_rePut : decode 0b00100001 = .command .rePut := by decide
theorem test_decode_reNum : decode 0b00100010 = .command .reNum := by decide
theorem test_decode_reFinish : decode 0b00100011 = .command .reFinish := by decide
theorem test_decode_reOptfin : decode 0b00100100 = .command .reOptfin := by decide
theorem test_decode_tgLookup : decode 0b00110000 = .command .tgLookup := by decide
theorem test_decode_cpSetcode : decode 0b01000000 = .command .cpSetcode := by decide
theorem test_decode_cpRead : decode 0b01000001 = .command .cpRead := by decide
theorem test_decode_cpSize : decode 0b01000010 = .command .cpSize := by decide
theorem test_decode_cpLevel : decode 0b01000011 = .command .cpLevel := by decide
theorem test_decode_cpDeq : decode 0b01000100 = .command .cpDeq := by decide
theorem test_decode_drUpdate : decode 0b01010000 = .command .drUpdate := by decide
theorem test_decode_drDist : decode 0b01010001 = .command .drDist := by decide
theorem test_decode_rgSplit : decode 0b01011000 = .command .rgSplit := by decide
theorem test_decode_ftRoot : decode 0b01100000 = .command .ftRoot := by decide
theorem test_decode_ftParse : decode 0b01100001 = .command .ftParse := by decide
theorem test_decode_ftRender : decode 0b01100010 = .command .ftRender := by decide
theorem test_decode_ftDecode : decode 0b01100011 = .command .ftDecode := by decide

/-! ### Small states -/

/-- The state after a step that is one host action; an action that stops leaves the state as it was. -/
def perform (s : State) (a : HostAction) : State :=
  match step { s with pending := [a] } with
  | .next t => t
  | .fault _ => s
  | .refused _ => s

/-- The state after the host's actions, one step each. -/
def drive (l : List HostAction) (s : State) : State := l.foldl perform s

/-- The host writes bytes of `IN` from element 0 on. -/
def poke (bytes : List Byte) : List HostAction := (bytes.zipIdx).map (fun p => .writeIn p.2 p.1)

/-- The state after a command; a command that stops leaves the state as it was. -/
def after (i : Instr) (s : State) : State :=
  match exec i s with
  | .next t => t
  | .fault _ => s
  | .refused _ => s

/-- The command answers a next state outside the fault state. -/
def completes (i : Instr) (s : State) : Bool :=
  match exec i s with
  | .next t => !t.status.fault
  | .fault _ => false
  | .refused _ => false

/-- The command answers a next state in the fault state, with this cause. -/
def faults (i : Instr) (s : State) (code sub : Nat) : Bool :=
  match exec i s with
  | .next t => t.status.fault && t.faultCode == BitVec.ofNat 64 code && t.faultSub == BitVec.ofNat 64 sub &&
      t.faultCmd == (opcode i).setWidth 64
  | .fault _ => false
  | .refused _ => false

theorem runs_after {i : Instr} {s : State} (h : completes i s = true) : Runs i s (after i s) := by
  unfold completes at h
  unfold Runs after
  split at h
  · rename_i t he
    rw [he]
    exact ⟨rfl, by simpa using h⟩
  · cases h
  · cases h

/-- The host writes the operand registers. -/
def args (a b c : Nat) (s : State) : State := s.withArgs (BitVec.ofNat 64 a) (BitVec.ofNat 64 b) (BitVec.ofNat 64 c)

/-- The decoder started on these bytes of `IN`. -/
def reader (bytes : List Byte) : State :=
  after .rdInit (args bytes.length 0 0 (drive (poke bytes) State.reset))

/-- The encoder opened. -/
def writer : State := after .reInit State.reset

/-- The encoder after a triplet. -/
def put (s : State) (q : Nat × Nat × Nat) : State := after .rePut (args q.1 q.2.1 q.2.2 s)

/-- The first `OUT_LEN` bytes of `OUT`. -/
def output (s : State) : List Byte := (List.range s.re.outLen.toNat).map s.outByte

/-- The bank of 95_test_vectors.md section 8 with the placeholder derivation of section 2, written by the host. -/
def bank (s : State) : State :=
  s.withCp
    { width := 8, height := 8, code := 0, lineLimit := 63, lineQuant := 262144, qr := 4, qg := 4, qb := 4, palSize := 2,
      levelScale := #v[128, 32, 8, 2, 0, 0, 0], angleBits := #v[3, 2, 1, 0, 0, 0, 0] }

/-- Node 0 with these spans, and two empty nodes with room for as many. -/
def region (l : List SpanRec) (s : State) : State :=
  drive
    ((l.zipIdx).map (fun p => HostAction.writeSpan p.2 p.1) ++
     [.writeNode 0 ⟨.unread, ⟨0, 0, 0, 0⟩, 1, 2, 0, l.length, l.length⟩,
      .writeNode 1 ⟨.unread, ⟨0, 0, 0, 0⟩, 0, 0, 100, 0, l.length⟩,
      .writeNode 2 ⟨.unread, ⟨0, 0, 0, 0⟩, 0, 0, 200, 0, l.length⟩]) s

/-- The rows 0 to 7, columns 0 to 7. -/
def square : List SpanRec := (List.range 8).map (fun y => ⟨y, 0, 8⟩)

/-- The spans of 95_test_vectors.md V34. -/
def scattered : List SpanRec := [⟨0, 2, 5⟩, ⟨0, 7, 9⟩, ⟨2, 1, 4⟩]

/-- The stream of 95_test_vectors.md V42. -/
def image : List Byte := [0x00, 0x02, 0x99, 0x66, 0x66, 0x66, 0x5B, 0x01, 0x1B]

/-- The tree of 95_test_vectors.md V40 with its root queued, on the stream `87`. -/
def building : State :=
  after .ftRoot (drive [.writePal 0 ⟨255, 0, 0, 255⟩, .writePal 1 ⟨0, 0, 255, 255⟩] (bank (reader [0x87])))

/-! ### The commands, with the values of 95_test_vectors.md -/

/-- V51: the registers are reset, the memory stays. -/
theorem test_sysReset : (after .sysReset (reader [255, 255, 255, 255, 255])).rd.state = .closed ∧
    (after .sysReset (reader [255, 255, 255, 255, 255])).inMem.length = 5 := by decide +kernel

/-- V1. -/
theorem test_rdInit_short : (reader [0xFF, 0xFF, 0xFF, 0xFF, 0xFF]).rd.code = 0xFFFFFFFFFF00 ∧
    (reader [0xFF, 0xFF, 0xFF, 0xFF, 0xFF]).rd.pad = 1 := by decide +kernel

/-- V1. -/
theorem test_rdInit_order : (reader [1, 2, 3, 4, 5, 6, 7]).rd.code = 0x010203040506 ∧
    (reader [1, 2, 3, 4, 5, 6, 7]).rd.pos = 6 := by decide +kernel

/-- V6. -/
def peeked : State := after .rdCount (args 16 0 0 (reader [255, 255, 255, 255, 255]))

theorem test_rdCount : peeked.res0 = 15 ∧ peeked.rd.coder.range = 0x0FFFFFFFFFFF := by decide +kernel

/-- V6. -/
theorem test_rdRemove : (after .rdRemove (args 15 16 0 peeked)).rd.coder = ⟨0xEFFFFFFFFFF1, 0x0FFFFFFFFFFF⟩ := by
  decide +kernel

/-- V6. -/
theorem test_rdRemove_outside : faults .rdRemove (args 0 15 0 peeked) 3 3 = true := by decide +kernel

/-- V7. -/
theorem test_rdNum : (after .rdNum (args 65536 0 0 (reader [0x63]))).res0 = 25344 ∧
    (after .rdNum (args 65536 0 0 (reader [0x63]))).rd.pad = 9 := by decide +kernel

/-- V4. -/
theorem test_rdNum_corrupt : faults .rdNum (args 256 0 0 (reader [255, 255, 255, 255, 255, 255])) 4 2 = true := by
  decide +kernel

/-- R175. -/
theorem test_reInit : writer.re.state = .opened ∧ writer.re.coder = ⟨0, 0xFFFFFFFFFFFF⟩ := by decide +kernel

/-- V7. -/
theorem test_rePut : (put writer (25344, 25345, 65536)).re.coder = ⟨0x9D0000000000, 0x630000000000⟩ ∧
    output (put writer (25344, 25345, 65536)) = [0x62, 255, 255, 255] := by decide +kernel

/-- V5: a range of 2^20 collapses. -/
theorem test_rePut_collapse : faults .rePut (args 0 1048576 268435455 writer) 5 2 = true := by decide +kernel

/-- V2, first row. -/
theorem test_reNum : (after .reNum (args 16 15 0 writer)).re.coder = ⟨0xEFFFFFFFFFF1, 0x0FFFFFFFFFFF⟩ := by decide +kernel

/-- V52. -/
theorem test_reNum_value : faults .reNum (args 4 4 0 writer) 3 5 = true := by decide +kernel

/-- V7. -/
theorem test_reFinish : output (after .reFinish (put writer (25344, 25345, 65536))) =
    [0x62, 255, 255, 255, 0x9D, 0, 0, 0, 0, 0] := by decide +kernel

/-- V7. -/
theorem test_reOptfin : output (after .reOptfin (put writer (25344, 25345, 65536))) = [0x63] := by decide +kernel

/-- V9: from `FINISHED`, with a carry. -/
theorem test_reOptfin_carry : output (after .reOptfin (after .reFinish (put writer (1, 2, 3)))) = [0x56] := by decide +kernel

/-- R9: a range past 2^48 leaves `top8` undefined, though `low` and `range` fit; its end at 2^48 does not. -/
theorem test_narrowFits : Coder.narrowFits ⟨0xFF0000000000, 0x010000000000⟩ 0 2 = false ∧
    Coder.narrowFits ⟨0xFF0000000000, 0x010000000000⟩ 0 1 = true := by decide

/-- V10. -/
theorem test_tgLookup_diagonal : (after .tgLookup (args 128 0 0 State.reset)).res0 = 185364 ∧
    (after .tgLookup (args 128 0 0 State.reset)).res1 = 185364 := by decide +kernel

/-- V10. -/
theorem test_tgLookup_last : (after .tgLookup (args 511 0 0 State.reset)).res0.toInt = 1608 ∧
    (after .tgLookup (args 511 0 0 State.reset)).res1.toInt = -262139 := by decide +kernel

/-- V20. -/
theorem test_cpSetcode : (after .cpSetcode (args 2 0 0 (bank State.reset))).cp.levelScale = #v[128, 32, 8, 2, 0, 0, 0] ∧
    (after .cpSetcode (args 2 0 0 (bank State.reset))).cp.code = 2 := by decide +kernel

/-- V20. -/
theorem test_cpSetcode_dims : faults .cpSetcode State.reset 3 4 = true := by decide +kernel

/-- V21. -/
theorem test_cpRead : (after .cpRead (args 0 0 0 (reader image))).res3 = 2 ∧
    (after .cpRead (args 0 0 0 (reader image))).palEntry 1 = ⟨0, 0, 255, 255⟩ := by decide +kernel

/-- V22. -/
theorem test_cpSize : (after .cpSize (reader [0x30, 0x36, 0x40])).res0 = 20 := by decide +kernel

/-- V22. -/
theorem test_cpSize_large : faults .cpSize (reader [0xDB, 0xBE]) 4 3 = true := by decide +kernel

/-- V25. -/
theorem test_cpLevel : (after .cpLevel (region (square.take 4) (bank State.reset))).res0 = 1 ∧
    (after .cpLevel (region (square.take 4) (bank State.reset))).res1 = 80 := by decide +kernel

/-- V26. -/
theorem test_cpDeq : (after .cpDeq (args 1 3 0 State.reset)).res0 = 128 ∧
    (after .cpDeq (args 3 17 0 State.reset)).res0 = 48 := by decide +kernel

/-- V27, with `CP_LINELIMIT = 4`. -/
def measured : State :=
  after .drUpdate (args 0 0 0 (region square ((bank State.reset).withCp { (bank State.reset).cp with lineLimit := 4 })))

theorem test_drUpdate_grows : measured.dr.quant = 377149 ∧ measured.dr.numLines = 4 := by decide +kernel

/-- V27: an empty region. -/
theorem test_drUpdate_empty : faults .drUpdate (args 0 0 0 (region [] (bank State.reset))) 4 1 = true := by decide +kernel

/-- V27. -/
theorem test_drDist : (after .drDist (args 1 0 0 measured)).res0 = 728929 := by decide +kernel

/-- V27: the middle of one line is rounded toward zero. -/
def lineless : State := after .drUpdate (args 0 511 0 (region [⟨0, 0, 1⟩, ⟨1, 0, 1⟩] (bank State.reset)))

theorem test_drDist_middle : (after .drDist (args 0 0 0 lineless)).res0.toInt = -131069 := by decide +kernel

/-- V34. -/
def cut : State := after .rgSplit (args 0 256 786432 (region scattered State.reset))

theorem test_rgSplit_left : cut.regionOf 1 = [⟨0, 3, 5⟩, ⟨0, 7, 9⟩, ⟨2, 3, 4⟩] := by decide +kernel

theorem test_rgSplit_right : cut.regionOf 2 = [⟨0, 2, 3⟩, ⟨2, 1, 3⟩] := by decide +kernel

/-- R290. -/
theorem test_ftRoot : building.ft = ⟨.build, 0, 1, 8⟩ ∧ building.regionOf 0 = square := by decide +kernel

/-- V40, the first parse. -/
theorem test_ftParse_split : (after .ftParse building).res1 = 2 ∧
    (after .ftParse building).regionOf 1 = square.drop 4 := by decide +kernel

/-- V40, the second parse: a Fill leaf. -/
theorem test_ftParse_fill : (after .ftParse (after .ftParse building)).nodeRec 1 =
    ⟨.fill, ⟨255, 0, 0, 255⟩, 0, 0, 8, 4, 8⟩ := by decide +kernel

/-- V40. -/
def built : State := after .ftParse (after .ftParse (after .ftParse building))

theorem test_ftRender : (after .ftRender built).pixByte (4 * 31) = 0 ∧ (after .ftRender built).pixByte (4 * 32) = 255 := by
  decide +kernel

/-- V42. -/
theorem test_ftDecode : (after .ftDecode (args 9 0 0 (drive (poke image) State.reset))).res2 = 3 ∧
    (after .ftDecode (args 9 0 0 (drive (poke image) State.reset))).res3 = 5 := by decide +kernel

/-- V43. -/
theorem test_ftDecode_corrupt :
    faults .ftDecode (args 8 0 0 (drive (poke (List.replicate 8 255)) State.reset)) 4 2 = true := by decide +kernel

/-! ### Witnesses: states that meet the hypotheses of the obligations -/

/-- The command answers a next state. -/
def answers (i : Instr) (s : State) : Bool :=
  match exec i s with
  | .next _ => true
  | .fault _ => false
  | .refused _ => false

theorem exec_after {i : Instr} {s : State} (h : answers i s = true) : exec i s = .next (after i s) := by
  unfold answers at h
  unfold after
  split at h
  · rename_i t he
    rw [he]
  · cases h
  · cases h

/-- The host's next action, and nothing after it. -/
def asking (a : HostAction) (s : State) : State := { s with pending := [a] }

/-- The step answers a next state. -/
def steps (s : State) : Bool :=
  match step s with
  | .next _ => true
  | .fault _ => false
  | .refused _ => false

/-- The state after the step; a step that stops leaves the state as it was. -/
def next (s : State) : State :=
  match step s with
  | .next t => t
  | .fault _ => s
  | .refused _ => s

theorem step_next {s : State} (h : steps s = true) : step s = .next (next s) := by
  unfold steps at h
  unfold next
  split at h
  · rename_i t he
    rw [he]
  · cases h
  · cases h

/-- The stream holds the symbols. -/
def holds (l : List (Nat × Nat)) (s : State) : Bool := (readSymbols? l s).isSome

theorem exists_reads {l : List (Nat × Nat)} {s : State} (h : holds l s = true) : ∃ u, ReadsSymbols l s u := by
  obtain ⟨u, hu⟩ := Option.isSome_iff_exists.mp h
  exact ⟨u, readSymbols?_eq_some.mp hu⟩

theorem exists_read {q : Nat × Nat} {s : State} (h : holds [q] s = true) : ∃ u, ReadsSymbol q.1 q.2 s u := by
  obtain ⟨u, v, hv, _⟩ := exists_reads h
  exact ⟨v, hv⟩

/-- The fault state, outside a build and in one. -/
def faulted : State := after .tgLookup (args 512 0 0 State.reset)
def faultedBuilding : State := after .rdCount (args 0 0 0 building)

theorem witness_DecodeEncodeAgree :
    (∃ i : Instr, i.wellFormed = true ∧ decode 0x63 = .command i ∧ encode i = 0x63) ∧
    wordWellFormed 0x63 = true ∧ (0x100 : Word).toNat / 256 ≠ 0 := ⟨⟨.ftDecode, by decide⟩, by decide⟩

theorem witness_StepRunsDecodedCommand :
    (∃ (s : State) (w : Word) (i : Instr), s.pending = .writeReg 0x00 w :: [] ∧ s.status.busy = false ∧ s.status.fault = false ∧
      decode w = .command i) ∧
    (∃ (s : State) (i : Instr), s.pending = .writeReg 0x00 0x01 :: [] ∧ s.status.busy = false ∧ s.status.fault = true ∧
      decode 0x01 = .command i) :=
  ⟨⟨asking (.writeReg 0x00 0x63) State.reset, 0x63, .ftDecode, by decide +kernel⟩,
   ⟨asking (.writeReg 0x00 0x01) faulted, .sysReset, by decide +kernel⟩⟩

theorem witness_IllegalWordsFault :
    (∃ (s : State) (w : Word), s.pending = .writeReg 0x00 w :: [] ∧ s.status.busy = false ∧ s.status.fault = false ∧
      w.toNat / 256 ≠ 0) ∧
    (∃ (s : State) (w : Word), s.pending = .writeReg 0x00 w :: [] ∧ s.status.busy = false ∧ s.status.fault = false ∧
      w.toNat / 256 = 0 ∧ isIllegalOpcode (w.toNat % 256) = true) ∧
    (∀ op ∈ [0x00, 0x02, 0x0F, 0x14, 0x1F, 0x25, 0x2F, 0x31, 0x3F, 0x45, 0x4F, 0x52, 0x57, 0x59, 0x5F, 0x64, 0xFF],
      isIllegalOpcode op = true) :=
  ⟨⟨asking (.writeReg 0x00 0x100) State.reset, 0x100, by decide⟩,
   ⟨asking (.writeReg 0x00 0xFF) State.reset, 0xFF, by decide⟩, by decide⟩

theorem witness_FaultStateRefusesCommands : ∀ a : HostAction, ∃ s : State,
    s.pending = a :: [] ∧ s.status.busy = false ∧ s.status.fault = true ∧ s.ft.phase ≠ .build ∧
    63 < s.cfg.capacity .inp ∧ 3 < s.cfg.capacity .pal := by
  intro a
  refine ⟨asking a faulted, rfl, ?_⟩
  show faulted.status.busy = false ∧ faulted.status.fault = true ∧ faulted.ft.phase ≠ .build ∧
    63 < faulted.cfg.capacity .inp ∧ 3 < faulted.cfg.capacity .pal
  decide +kernel

theorem witness_FaultStateRefusesCommands_actions :
    (0x00 : Word) ≠ 0x01 ∧ isArgNumber 0x0A = true ∧ isBankNumber 0x5E = true ∧
    (HostAction.writeIn 63 7).stores = some (.inp, 63, .byte 7) := by decide

theorem witness_LockedBankWriteFaults :
    (∃ (s : State) (n : Nat) (v : Word), s.pending = .writeReg n v :: [] ∧ s.status.busy = false ∧ isBankNumber n = true ∧ s.ft.phase = .build ∧
      s.status.fault = false) ∧
    (∃ (s : State) (n : Nat) (v : Word), s.pending = .writeReg n v :: [] ∧ s.status.busy = false ∧ isBankNumber n = true ∧ s.ft.phase = .build ∧
      s.status.fault = true) :=
  ⟨⟨asking (.writeReg 0x40 9) building, 0x40, 9, by decide +kernel⟩,
   ⟨asking (.writeReg 0x5E 9) faultedBuilding, 0x5E, 9, by decide +kernel⟩⟩

theorem witness_RegisterAccessRights :
    (∃ s : State, s.pending = .writeReg 0x5E 9 :: [] ∧ s.status.busy = false ∧ (0x5E : Nat) ≠ 0x00 ∧
      (isBankNumber 0x5E = true → s.ft.phase ≠ .build)) ∧
    (∃ s : State, s.pending = .writeReg 0x01 9 :: [] ∧ s.status.busy = false ∧ (0x01 : Nat) ≠ 0x00 ∧
      (isBankNumber 0x01 = true → s.ft.phase ≠ .build)) ∧
    (∃ s : State, s.pending = .readReg 0x05 :: [] ∧ s.status.busy = false) ∧
    (isArgNumber 0x00 || isBankNumber 0x00 || isReadOnlyNumber 0x00) = false :=
  ⟨⟨asking (.writeReg 0x5E 9) State.reset, by decide⟩, ⟨asking (.writeReg 0x01 9) building, by decide +kernel⟩,
   ⟨asking (.readReg 0x05) State.reset, by decide⟩, by decide⟩

theorem witness_ElementAccess :
    (∃ s : State, s.pending = .writeIn 63 7 :: [] ∧ s.status.busy = false ∧ s.owned .inp = false ∧
      63 < s.cfg.capacity .inp) ∧
    (∃ s : State, s.pending = .writeIn 64 7 :: [] ∧ s.status.busy = false ∧ s.owned .inp = false ∧
      s.cfg.capacity .inp ≤ 64) ∧
    (∃ s : State, s.pending = .writeOut 0 7 :: [] ∧ s.status.busy = false ∧ s.owned .out = false ∧
      s.re.state = .opened ∧ 0 < s.cfg.capacity .out) ∧
    (∃ (s : State) (p : SpanRec), s.pending = .writeSpan 0 p :: [] ∧ s.status.busy = false ∧ s.owned .span = true) ∧
    (∃ s : State, s.pending = .readMem .pix 4095 :: [] ∧ s.status.busy = false ∧ 4095 < s.cfg.capacity .pix) :=
  ⟨⟨asking (.writeIn 63 7) State.reset, by decide⟩, ⟨asking (.writeIn 64 7) State.reset, by decide⟩,
   ⟨asking (.writeOut 0 7) writer, by decide +kernel⟩, ⟨asking (.writeSpan 0 ⟨0, 0, 1⟩) building, _, rfl, by decide +kernel⟩,
   ⟨asking (.readMem .pix 4095) State.reset, by decide⟩⟩

theorem witness_CommandsAreCounted :
    (∃ s t : State, s.pending = .writeReg 0x00 0x01 :: [] ∧ step s = .next t) ∧
    (∃ s t : State, s.pending = .writeReg 0x00 0x30 :: [] ∧ step s = .next t ∧ s.status.fault = true) ∧
    (∃ s t : State, s.pending = .writeReg 0x00 0x00 :: [] ∧ step s = .next t ∧ s.status.fault = false) ∧
    (∃ s t : State, s.pending = .writeReg 0x08 5 :: [] ∧ step s = .next t) :=
  ⟨⟨asking (.writeReg 0x00 0x01) State.reset, _, rfl, step_next (by decide +kernel)⟩,
   ⟨asking (.writeReg 0x00 0x30) faulted, _, rfl, step_next (by decide +kernel), by decide +kernel⟩,
   ⟨asking (.writeReg 0x00 0x00) State.reset, _, rfl, step_next (by decide +kernel), rfl⟩,
   ⟨asking (.writeReg 0x08 5) State.reset, _, rfl, step_next (by decide +kernel)⟩⟩

theorem witness_OnlyResetLeavesFaultState :
    (∃ s t : State, s.status.fault = true ∧ step s = .next t ∧ t.status.fault = false) ∧
    (∃ s : State, s.pending = .writeReg 0x00 0x01 :: [] ∧ s.status.busy = false ∧ s.status.fault = true) :=
  ⟨⟨asking (.writeReg 0x00 0x01) faulted, _, by decide +kernel, step_next (by decide +kernel), by decide +kernel⟩,
   ⟨asking (.writeReg 0x00 0x01) faulted, by decide +kernel⟩⟩

theorem witness_FaultEntryWrites : (∃ s : State, s.status.fault = false) ∧ ∃ s : State, s.status.fault = true :=
  ⟨⟨State.reset, rfl⟩, ⟨faulted, by decide +kernel⟩⟩

theorem witness_FaultCausesAreListed :
    ∃ (i : Instr) (s t : State), s.status.fault = false ∧ exec i s = .next t ∧ t.status.fault = true :=
  ⟨.rdCount, State.reset, _, rfl, exec_after (by decide +kernel), by decide +kernel⟩

theorem witness_PreconditionFaultsChangeNothing :
    (∃ s t : State, s.status.fault = false ∧ exec .rdCount s = .next t ∧ t.status.fault = true ∧ t.faultCode = 2) ∧
    (∃ s t : State, s.status.fault = false ∧ exec .tgLookup s = .next t ∧ t.status.fault = true ∧ t.faultCode = 3) ∧
    (∃ s t : State, s.status.fault = false ∧ exec .drUpdate s = .next t ∧ t.status.fault = true ∧ t.faultCode = 4) ∧
    (∃ s t : State, s.status.fault = false ∧ exec .ftDecode s = .next t ∧ t.status.fault = true ∧ t.faultCode = 3 ∧
      t.faultSub ≠ 4) ∧
    (∃ s t : State, s.status.fault = false ∧ exec .ftDecode s = .next t ∧ t.status.fault = true ∧ t.faultCode = 3 ∧
      s.cfg.Bounds ∧ s.cfg.DeriveOk ∧ t.faultSub = 4) :=
  ⟨⟨State.reset, _, rfl, exec_after (by decide +kernel), by decide +kernel⟩,
   ⟨args 512 0 0 State.reset, _, rfl, exec_after (by decide +kernel), by decide +kernel⟩,
   ⟨args 0 0 0 (region [] (bank State.reset)), _, by decide +kernel, exec_after (by decide +kernel), by decide +kernel⟩,
   ⟨args 65 0 0 State.reset, _, rfl, exec_after (by decide +kernel), by decide +kernel⟩,
   ⟨args 0 1 0 State.reset, _, rfl, exec_after (by decide +kernel), by decide +kernel, by decide +kernel,
    resetConfig_ok.1, resetConfig_ok.2.2, by decide +kernel⟩⟩

theorem witness_EveryCommandEnds : ∃ (i : Instr) (s : State), i ≠ .sysReset ∧ s.status.fault = false :=
  ⟨.ftParse, State.reset, by decide⟩

theorem witness_CommandsWriteOnlyTheirParts :
    (∃ t, exec .ftDecode (args 9 0 0 (drive (poke image) State.reset)) = .next t) ∧ ∃ t, exec .ftParse State.reset = .next t :=
  ⟨⟨_, exec_after (by decide +kernel)⟩, ⟨_, exec_after (by decide +kernel)⟩⟩

theorem witness_CoderStaysInWidth :
    (∃ (c : Coder) (bottom top total : Nat), c.Normal ∧ 1 ≤ total ∧ total ≤ 2 ^ 32 ∧ bottom < top ∧ top ≤ total) ∧
    (∃ c c' : Coder, c.Inv ∧ c.toShift = some c' ∧ c'.range.toNat ≠ 2 ^ 40) :=
  ⟨⟨⟨0, rangeInit⟩, 2 ^ 32 - 1, 2 ^ 32, 2 ^ 32, by decide⟩,
   ⟨⟨0x00FFFFFFFF00, 0x000000000200⟩, ⟨0x00FFFFFFFF00, 0x000000000100⟩, by decide +kernel⟩⟩

theorem witness_NormalizationEnds :
    ∃ c c' : Coder, ∃ k, c.Inv ∧ normalizeRounds ≤ 17 ∧ Coder.normalize normalizeRounds c = some (c', k) :=
  ⟨⟨0x62FFFFFF9D00, 0x000000006300⟩, ⟨0x9D0000000000, 0x630000000000⟩, 4, by decide +kernel⟩

theorem witness_CollapseExactly :
    (∃ c : Coder, c.Inv ∧ c.settled = false ∧ c.range.toNat ≤ 2 ^ 32 ∧ c.shrink.range.toNat = 2 ^ 8) ∧
    (∃ c : Coder, c.Inv ∧ c.settled = false ∧ c.range.toNat ≤ 2 ^ 32 ∧ c.shrink.range.toNat ∉ [1, 2 ^ 8, 2 ^ 16, 2 ^ 24]) :=
  ⟨⟨⟨0x00FFFFFFFF00, 0x000000000200⟩, by decide +kernel⟩, ⟨⟨0x00FFFFFFFF01, 0x000000000200⟩, by decide +kernel⟩⟩

theorem witness_RdInitResult :
    (∃ s : State, s.arg0.toNat ≤ s.cfg.inCap ∧ s.arg0.toNat = 64) ∧ (∃ s : State, s.arg0.toNat ≤ s.cfg.inCap ∧ s.arg0.toNat = 0) ∧
    (∃ s : State, s.cfg.inCap < s.arg0.toNat ∧ s.status.fault = false) :=
  ⟨⟨args 64 0 0 State.reset, by decide⟩, ⟨State.reset, by decide⟩, ⟨args 65 0 0 State.reset, by decide⟩⟩

theorem witness_RdCountResult :
    (∃ s : State, s.rd.state = .ready ∧ s.rd.coder.Normal ∧ 1 ≤ s.arg0.toNat ∧ s.arg0.toNat ≤ 2 ^ 32) ∧
    (∃ s : State, s.status.fault = false ∧ s.rd.state ≠ .ready) ∧
    (∃ s : State, s.status.fault = false ∧ s.rd.state = .ready ∧ s.arg0.toNat = 0) ∧
    (∃ s : State, s.status.fault = false ∧ s.rd.state = .ready ∧ 2 ^ 32 < s.arg0.toNat) :=
  ⟨⟨args (2 ^ 32) 0 0 (reader [0x63]), by decide +kernel⟩, ⟨State.reset, by decide⟩,
   ⟨args 0 0 0 (reader [0x63]), by decide +kernel⟩, ⟨args (2 ^ 32 + 1) 0 0 (reader [0x63]), by decide +kernel⟩⟩

/-- A decoder whose pending interval collapses: V5. -/
def collapsing : State := after .rdCount (args 268435455 0 0 (reader [0, 0, 0, 0, 0, 0]))

theorem witness_RdRemoveResult :
    (∃ s : State, s.rd.state = .peeked ∧ s.arg0.toNat < s.arg1.toNat ∧ s.arg1.toNat ≤ s.rd.total.toNat ∧
      s.arg0.toNat ≤ s.rd.count.toNat ∧ s.rd.count.toNat < s.arg1.toNat ∧
      Coder.normalize normalizeRounds (s.rd.coder.narrow s.arg0.toNat s.arg1.toNat) =
        some (⟨0xEFFFFFFFFFF1, 0x0FFFFFFFFFFF⟩, 0)) ∧
    (∃ s : State, s.rd.state = .peeked ∧ s.arg0.toNat < s.arg1.toNat ∧ s.arg1.toNat ≤ s.rd.total.toNat ∧
      s.arg0.toNat ≤ s.rd.count.toNat ∧ s.rd.count.toNat < s.arg1.toNat ∧
      Coder.normalize normalizeRounds (s.rd.coder.narrow s.arg0.toNat s.arg1.toNat) = none ∧ s.status.fault = false) ∧
    (∃ s : State, s.status.fault = false ∧ s.rd.state ≠ .peeked) ∧
    (∃ s : State, s.status.fault = false ∧ s.rd.state = .peeked ∧
      ¬ (s.arg0.toNat < s.arg1.toNat ∧ s.arg1.toNat ≤ s.rd.total.toNat)) ∧
    (∃ s : State, s.status.fault = false ∧ s.rd.state = .peeked ∧ s.arg0.toNat < s.arg1.toNat ∧
      s.arg1.toNat ≤ s.rd.total.toNat ∧ ¬ (s.arg0.toNat ≤ s.rd.count.toNat ∧ s.rd.count.toNat < s.arg1.toNat)) :=
  ⟨⟨args 15 16 0 peeked, by decide +kernel⟩, ⟨args 0 1048576 0 collapsing, by decide +kernel⟩, ⟨State.reset, by decide⟩,
   ⟨args 15 17 0 peeked, by decide +kernel⟩, ⟨args 0 15 0 peeked, by decide +kernel⟩⟩

/-- A decoder whose next symbol of 2^28 - 1 outcomes collapses. -/
def narrow : State := { reader [0] with rd := { (reader [0]).rd with coder := ⟨0x00FFFFFFFFFF, 0x000100000001⟩,
                                                                     code := 0x00FFFFFFFFFF } }

theorem witness_RdNumResult :
    (∃ (s : State) (v : Nat) (u : State), s.rd.state = .ready ∧ s.arg0.toNat ≤ 2 ^ 32 ∧ ReadsSymbol s.arg0.toNat v s u) ∧
    (∃ (s : State) (v : Nat) (u : State), s.rd.state = .ready ∧ s.arg0.toNat = 1 ∧ ReadsSymbol s.arg0.toNat v s u) ∧
    (∃ s : State, s.rd.state = .ready ∧ 2 ≤ s.arg0.toNat ∧ s.arg0.toNat ≤ 2 ^ 32 ∧ s.status.fault = false ∧
      s.arg0.toNat ≤ (s.rd.coder.divide s.arg0.toNat).countOf s.rd.code) ∧
    (∃ (s : State) (v : Nat), s.rd.state = .ready ∧ 2 ≤ s.arg0.toNat ∧ s.arg0.toNat ≤ 2 ^ 32 ∧ s.status.fault = false ∧
      v < s.arg0.toNat ∧ (s.rd.coder.divide s.arg0.toNat).countOf s.rd.code = v ∧
      Coder.normalize normalizeRounds ((s.rd.coder.divide s.arg0.toNat).narrow v (v + 1)) = none) ∧
    (∃ s : State, s.status.fault = false ∧ s.rd.state ≠ .ready) ∧
    (∃ s : State, s.status.fault = false ∧ s.rd.state = .ready ∧ 2 ^ 32 < s.arg0.toNat) := by
  refine ⟨?_, ?_, ⟨args (2 ^ 32) 0 0 (reader [255, 255, 255, 255, 255, 255]), by decide +kernel⟩,
    ⟨args (2 ^ 32) 0 0 narrow, 0, by decide +kernel⟩, ⟨State.reset, by decide⟩,
    ⟨args (2 ^ 32 + 1) 0 0 (reader [0x63]), by decide +kernel⟩⟩
  · obtain ⟨u, hu⟩ := exists_read (q := (65536, 25344)) (s := args 65536 0 0 (reader [0x63])) (by decide +kernel)
    exact ⟨args 65536 0 0 (reader [0x63]), 25344, u, by decide +kernel, by decide +kernel, hu⟩
  · obtain ⟨u, hu⟩ := exists_read (q := (1, 0)) (s := args 1 0 0 (reader [0x63])) (by decide +kernel)
    exact ⟨args 1 0 0 (reader [0x63]), 0, u, by decide +kernel, by decide +kernel, hu⟩

/-- The encoder with room for this much output and this many triplets. -/
def confined (outCap logCap : Nat) : State := { writer with cfg := { writer.cfg with outCap := outCap, logCap := logCap } }

theorem witness_RePutResult :
    (∃ s : State, s.cfg.Bounds ∧ s.re.state = .opened ∧ 1 ≤ s.arg2.toNat ∧ s.arg2.toNat ≤ 2 ^ 32 ∧ s.arg0.toNat < s.arg1.toNat ∧
      s.arg1.toNat ≤ s.arg2.toNat ∧ s.canCode s.arg0.toNat s.arg1.toNat s.arg2.toNat) ∧
    (∃ s : State, s.status.fault = false ∧ s.re.state ≠ .opened) ∧
    (∃ s : State, s.status.fault = false ∧ s.re.state = .opened ∧ s.arg2.toNat = 0) ∧
    (∃ s : State, s.status.fault = false ∧ s.re.state = .opened ∧ 2 ^ 32 < s.arg2.toNat) ∧
    (∃ s : State, s.status.fault = false ∧ s.re.state = .opened ∧ 1 ≤ s.arg2.toNat ∧ s.arg2.toNat ≤ 2 ^ 32 ∧
      ¬ (s.arg0.toNat < s.arg1.toNat ∧ s.arg1.toNat ≤ s.arg2.toNat)) :=
  ⟨⟨args 4294967295 4294967296 4294967296 writer, by unfold State.canCode; decide +kernel⟩, ⟨State.reset, by decide⟩,
   ⟨args 0 1 0 writer, by decide +kernel⟩, ⟨args 0 1 4294967297 writer, by decide +kernel⟩,
   ⟨args 2 2 4 writer, by decide +kernel⟩⟩

theorem witness_ReNumResult :
    (∃ s : State, s.re.state = .opened ∧ s.arg0.toNat < 2 ∧ s.arg1 = 0 ∧ s.arg0 = 1) ∧
    (∃ s : State, s.cfg.Bounds ∧ s.re.state = .opened ∧ 2 ≤ s.arg0.toNat ∧ s.arg0.toNat ≤ 2 ^ 32 ∧ s.arg1.toNat < s.arg0.toNat ∧
      s.canCode s.arg1.toNat (s.arg1.toNat + 1) s.arg0.toNat) ∧
    (∃ s : State, s.status.fault = false ∧ s.re.state ≠ .opened) ∧
    (∃ s : State, s.status.fault = false ∧ s.re.state = .opened ∧ 2 ^ 32 < s.arg0.toNat) ∧
    (∃ s : State, s.status.fault = false ∧ s.re.state = .opened ∧ s.arg0.toNat ≤ 2 ^ 32 ∧ s.arg0.toNat < 2 ∧ s.arg1 ≠ 0) ∧
    (∃ s : State, s.status.fault = false ∧ s.re.state = .opened ∧ s.arg0.toNat ≤ 2 ^ 32 ∧ 2 ≤ s.arg0.toNat ∧
      s.arg0.toNat ≤ s.arg1.toNat) :=
  ⟨⟨args 1 0 0 writer, by decide +kernel⟩, ⟨args 4294967296 0 0 writer, by unfold State.canCode; decide +kernel⟩,
   ⟨State.reset, by decide⟩, ⟨args 4294967297 0 0 writer, by decide +kernel⟩, ⟨args 1 1 0 writer, by decide +kernel⟩,
   ⟨args 4 4 0 writer, by decide +kernel⟩⟩

theorem witness_ReFinishResult :
    (∃ s : State, s.cfg.Bounds ∧ s.re.state = .opened ∧ s.re.outLen.toNat + 6 ≤ s.cfg.outCap ∧ s.cfg.outCap = 6) ∧
    (∃ s : State, s.status.fault = false ∧ s.re.state ≠ .opened) ∧
    (∃ s : State, s.cfg.Bounds ∧ s.status.fault = false ∧ s.re.state = .opened ∧ s.re.outLen.toNat ≤ s.cfg.outCap ∧
      s.cfg.outCap < s.re.outLen.toNat + 6) :=
  ⟨⟨confined 6 0, by decide +kernel⟩, ⟨State.reset, by decide⟩, ⟨confined 5 0, by decide +kernel⟩⟩

theorem witness_EncoderRunFaults :
    (∃ s : State, s.cfg.Bounds ∧ s.status.fault = false ∧ s.re.state = .opened ∧ 1 ≤ s.arg2.toNat ∧ s.arg2.toNat ≤ 2 ^ 32 ∧
      s.arg0.toNat < s.arg1.toNat ∧ s.arg1.toNat ≤ s.arg2.toNat ∧ s.re.outLen.toNat ≤ s.cfg.outCap ∧
      s.cfg.logCap ≤ s.re.logLen.toNat) ∧
    (∃ s : State, s.cfg.Bounds ∧ s.status.fault = false ∧ s.re.state = .opened ∧ 1 ≤ s.arg2.toNat ∧ s.arg2.toNat ≤ 2 ^ 32 ∧
      s.arg0.toNat < s.arg1.toNat ∧ s.arg1.toNat ≤ s.arg2.toNat ∧ s.re.outLen.toNat ≤ s.cfg.outCap ∧
      s.re.logLen.toNat < s.cfg.logCap ∧ s.cfg.outCap < s.re.outLen.toNat +
        (Coder.emitted normalizeRounds (s.putCoder s.arg0.toNat s.arg1.toNat s.arg2.toNat)).length) ∧
    (∃ s : State, s.cfg.Bounds ∧ s.status.fault = false ∧ s.re.state = .opened ∧ 1 ≤ s.arg2.toNat ∧ s.arg2.toNat ≤ 2 ^ 32 ∧
      s.arg0.toNat < s.arg1.toNat ∧ s.arg1.toNat ≤ s.arg2.toNat ∧ s.re.outLen.toNat ≤ s.cfg.outCap ∧
      s.re.logLen.toNat < s.cfg.logCap ∧ s.re.outLen.toNat +
        (Coder.emitted normalizeRounds (s.putCoder s.arg0.toNat s.arg1.toNat s.arg2.toNat)).length ≤ s.cfg.outCap ∧
      Coder.normalize normalizeRounds (s.putCoder s.arg0.toNat s.arg1.toNat s.arg2.toNat) = none) :=
  ⟨⟨args 0 1 2 (confined 6 0), by decide +kernel⟩, ⟨args 25344 25345 65536 (confined 3 1), by decide +kernel⟩,
   ⟨args 0 1048576 268435455 writer, by decide +kernel⟩⟩

theorem witness_EncoderOnlyAppends :
    ∃ s t : State, Instr.rePut ∈ [Instr.rePut, .reNum, .reFinish] ∧ s.cfg.Bounds ∧ exec .rePut s = .next t ∧
      0 < s.re.outLen.toNat ∧ 0 < s.re.logLen.toNat :=
  ⟨args 0 1 2 (put writer (25344, 25345, 65536)), _, by decide, by decide +kernel, exec_after (by decide +kernel),
   by decide +kernel⟩

theorem witness_CodersMoveTogether :
    ∃ (e e' d u d' : State) (bottom top total : Word), e.re.coder = d.rd.coder ∧ Runs .rePut (e.withArgs bottom top total) e' ∧
      Runs .rdCount (d.withArgs total 0 0) u ∧ Runs .rdRemove (u.withArgs bottom top 0) d' :=
  ⟨writer, _, reader [255, 255, 255, 255, 255], peeked, _, 15, 16, 16, by decide +kernel, runs_after (by decide +kernel),
   runs_after (by decide +kernel), runs_after (by decide +kernel)⟩

/-- The triplet of V7, coded and flushed, and the bytes of the output placed in `IN`. -/
def coded (i : Instr) : State := after i (put writer (25344, 25345, 65536))
def replayed (i : Instr) : State := drive (poke (output (coded i))) State.reset

theorem witness_TripletsRoundTrip : ∀ i ∈ [Instr.reFinish, .reOptfin],
    ∃ (triplets : List Triplet) (s s₀ s₁ t d : State), triplets ≠ [] ∧ s.cfg.Bounds ∧
      Runs .reInit s s₀ ∧ EncodesTriplets triplets s₀ s₁ ∧ Runs i s₁ t ∧ d.status.fault = false ∧
      t.re.outLen.toNat ≤ d.cfg.inCap ∧ (∀ j < t.re.outLen.toNat, d.inByte j = t.outByte j) := by
  have h (i : Instr) (h1 : completes i (put writer (25344, 25345, 65536)) = true)
      (h2 : (replayed i).status.fault = false ∧ (coded i).re.outLen.toNat ≤ (replayed i).cfg.inCap ∧
        (∀ j < (coded i).re.outLen.toNat, (replayed i).inByte j = (coded i).outByte j)) :
      ∃ (triplets : List Triplet) (s s₀ s₁ t d : State), triplets ≠ [] ∧ s.cfg.Bounds ∧
        Runs .reInit s s₀ ∧ EncodesTriplets triplets s₀ s₁ ∧ Runs i s₁ t ∧ d.status.fault = false ∧
        t.re.outLen.toNat ≤ d.cfg.inCap ∧ (∀ j < t.re.outLen.toNat, d.inByte j = t.outByte j) :=
    ⟨[⟨25344, 25345, 65536⟩], State.reset, writer, put writer (25344, 25345, 65536), coded i, replayed i, by decide, by decide,
      runs_after (by decide +kernel), ⟨_, runs_after (by decide +kernel), rfl⟩, runs_after h1, h2⟩
  intro i hi
  rcases List.mem_cons.mp hi with rfl | hi
  · exact h .reFinish (by decide +kernel) (by decide +kernel)
  · rcases List.mem_singleton.mp hi with rfl
    exact h .reOptfin (by decide +kernel) (by decide +kernel)

theorem witness_OptfinShortens :
    (∃ s u : State, s.re.state = .finished ∧ u = s ∧ u.outputValidates = true) ∧
    (∃ s u : State, s.re.state = .opened ∧ Runs .reFinish s u ∧ 0 < (after .reOptfin s).re.outLen.toNat) ∧
    (∃ s : State, s.status.fault = false ∧ s.re.state = .closed) ∧
    (∃ s : State, s.status.fault = false ∧ s.re.state = .minimized) :=
  ⟨⟨coded .reFinish, _, by decide +kernel, rfl, by decide +kernel⟩,
   ⟨put writer (25344, 25345, 65536), _, by decide +kernel, runs_after (by decide +kernel), by decide +kernel⟩,
   ⟨State.reset, by decide⟩, ⟨coded .reOptfin, by decide +kernel⟩⟩

theorem witness_MinimizedIsShortest :
    ∃ (triplets : List Triplet) (s s₀ s₁ t u t' : State), triplets ≠ [] ∧ s.cfg.Bounds ∧ Runs .reInit s s₀ ∧
      EncodesTriplets triplets s₀ s₁ ∧ Runs .reOptfin s₁ t ∧ Runs .reFinish s₁ u ∧ Runs .reOptfin u t' ∧
      ([] : List Byte).length < t.re.outLen.toNat :=
  ⟨[⟨25344, 25345, 65536⟩], State.reset, writer, put writer (25344, 25345, 65536), _, coded .reFinish, _, by decide,
    by decide +kernel, runs_after (by decide +kernel), ⟨_, runs_after (by decide +kernel), rfl⟩,
    runs_after (by decide +kernel), runs_after (by decide +kernel), runs_after (by decide +kernel), by decide +kernel⟩

theorem witness_TgLookupResult :
    (∃ s : State, s.cfg.Bounds ∧ s.cfg.RomOk ∧ s.arg0.toNat < s.cfg.nAngles ∧ s.arg0.toNat = 511) ∧
    (∃ s : State, s.status.fault = false ∧ s.cfg.nAngles ≤ s.arg0.toNat) :=
  ⟨⟨args 511 0 0 State.reset, resetConfig_ok.1, resetConfig_ok.2.1, by decide⟩, ⟨args 512 0 0 State.reset, by decide⟩⟩

theorem witness_TrigTableProperties :
    (∃ a : Nat, a < 512 ∧ a ≠ 0) ∧
    (∃ (c : Config) (a x y : Nat), c.Bounds ∧ c.RomOk ∧ a < c.nAngles ∧ x ≤ c.dimMax ∧ y ≤ c.dimMax ∧ x = 32767) :=
  ⟨⟨511, by decide⟩, ⟨resetConfig, 511, 32767, 32767, resetConfig_ok.1, resetConfig_ok.2.1, by decide⟩⟩

theorem witness_CpSetcodeResult :
    (∃ s : State, s.ft.phase ≠ .build ∧ s.arg0.toNat < s.cfg.maxCode ∧ s.dimsValid = true ∧
      s.cp.palSize.toNat ≤ s.cfg.paletteMax ∧ s.cfg.DeriveOk) ∧
    (∃ s : State, s.status.fault = false ∧ s.ft.phase = .build) ∧
    (∃ s : State, s.status.fault = false ∧ s.ft.phase ≠ .build ∧ s.cfg.maxCode ≤ s.arg0.toNat) ∧
    (∃ s : State, s.status.fault = false ∧ s.ft.phase ≠ .build ∧ s.arg0.toNat < s.cfg.maxCode ∧ s.dimsValid = false) :=
  ⟨⟨args 3 0 0 (bank State.reset), by decide +kernel, by decide +kernel, by decide +kernel, by decide +kernel,
    resetConfig_ok.2.2⟩, ⟨building, by decide +kernel⟩,
   ⟨args 4 0 0 (bank State.reset), by decide +kernel⟩, ⟨State.reset, by decide +kernel⟩⟩

theorem witness_CpReadResult :
    (∃ (s u : State) (dims : Option (Nat × Nat)) (w h code : Nat) (colours : List (Nat × Nat × Nat)),
      s.cfg.Bounds ∧ s.cfg.DeriveOk ∧ s.rd.state = .ready ∧ s.ft.phase ≠ .build ∧
      (s.arg0 = 0 ∧ dims = some (w, h) ∧ 8 ≤ w ∧ w ≤ s.cfg.dimMax ∧ 8 ≤ h ∧ h ≤ s.cfg.dimMax) ∧
      ReadsSymbols (headerSymbols s.cfg dims code colours) s u) ∧
    (∃ (s u : State) (dims : Option (Nat × Nat)) (w h code : Nat) (colours : List (Nat × Nat × Nat)),
      s.cfg.Bounds ∧ s.cfg.DeriveOk ∧ s.rd.state = .ready ∧ s.ft.phase ≠ .build ∧
      (s.arg0 = 1 ∧ dims = none ∧ s.dimsValid = true ∧ w = s.cp.width.toNat ∧ h = s.cp.height.toNat) ∧
      ReadsSymbols (headerSymbols s.cfg dims code colours) s u) ∧
    (∃ s : State, s.status.fault = false ∧ s.rd.state ≠ .ready) ∧
    (∃ s : State, s.status.fault = false ∧ s.rd.state = .ready ∧ s.ft.phase = .build) ∧
    (∃ s : State, s.status.fault = false ∧ s.rd.state = .ready ∧ s.ft.phase ≠ .build ∧ 2 ≤ s.arg0.toNat) ∧
    (∃ s : State, s.status.fault = false ∧ s.rd.state = .ready ∧ s.ft.phase ≠ .build ∧ s.arg0 = 1 ∧ s.dimsValid = false) := by
  have ok := resetConfig_ok
  refine ⟨?_, ?_, ⟨State.reset, by decide⟩, ⟨building, by decide +kernel⟩, ⟨args 2 0 0 (reader image), by decide +kernel⟩,
    ⟨args 1 0 0 (reader image), by decide +kernel⟩⟩
  · obtain ⟨u, hu⟩ := exists_reads
      (l := headerSymbols (args 0 0 0 (reader image)).cfg (some (8, 8)) 2 [(255, 0, 0), (0, 0, 255)])
      (s := args 0 0 0 (reader image)) (by decide +kernel)
    exact ⟨args 0 0 0 (reader image), u, some (8, 8), 8, 8, 2, [(255, 0, 0), (0, 0, 255)],
      by decide +kernel, ok.2.2, by decide +kernel, by decide +kernel, by decide +kernel, hu⟩
  · obtain ⟨u, hu⟩ := exists_reads (l := headerSymbols (args 1 0 0 (bank (reader []))).cfg none 0 [])
      (s := args 1 0 0 (bank (reader []))) (by decide +kernel)
    exact ⟨args 1 0 0 (bank (reader [])), u, none, 8, 8, 0, [], by decide +kernel, ok.2.2, by decide +kernel, by decide +kernel,
      by decide +kernel, hu⟩

theorem witness_CpSizeResult :
    (∃ (n : Nat) (s u : State) (symbols : List (Nat × Nat)), s.cfg.Bounds ∧ s.rd.state = .ready ∧
      sizeSymbols s.cfg.sizeGroupTotal n = some symbols ∧ n ≤ s.cfg.dimMax ∧ ReadsSymbols symbols s u ∧ n = s.cfg.dimMax) ∧
    (∃ (s u : State) (symbols : List (Nat × Nat)), s.cfg.Bounds ∧ s.rd.state = .ready ∧
      sizeSymbols s.cfg.sizeGroupTotal 8 = some symbols ∧ ReadsSymbols symbols s u) ∧
    (∃ (s u : State) (n : Nat) (symbols : List (Nat × Nat)), s.status.fault = false ∧ s.rd.state = .ready ∧
      sizeSymbols s.cfg.sizeGroupTotal n = some symbols ∧ s.cfg.dimMax < n ∧ n ≤ 8 * s.cfg.dimMax + 15 ∧
      ReadsSymbols symbols.dropLast s u ∧ n = 32768) ∧
    (∃ s : State, s.status.fault = false ∧ s.rd.state ≠ .ready) := by
  refine ⟨?_, ?_, ?_, ⟨State.reset, by decide⟩⟩
  · obtain ⟨u, hu⟩ := exists_reads (l := (sizeSymbols 8 32767).getD []) (s := reader [0xDB, 0xBB, 0xC0]) (by decide +kernel)
    exact ⟨32767, reader [0xDB, 0xBB, 0xC0], u, _, by decide +kernel, by decide +kernel, by decide +kernel,
      by decide +kernel, hu, by decide +kernel⟩
  · obtain ⟨u, hu⟩ := exists_reads (l := (sizeSymbols 8 8).getD []) (s := reader []) (by decide +kernel)
    exact ⟨reader [], u, _, by decide +kernel, by decide +kernel, by decide +kernel, hu⟩
  · obtain ⟨u, hu⟩ := exists_reads (l := ((sizeSymbols 8 32768).getD []).dropLast) (s := reader [0xDB, 0xBE]) (by decide +kernel)
    exact ⟨reader [0xDB, 0xBE], u, 32768, _, by decide +kernel, by decide +kernel, by decide +kernel, by decide +kernel,
      by decide +kernel, hu, rfl⟩

theorem witness_SizeCodeIsBijective :
    (∃ n : Nat, n < 8 ∧ n = 7) ∧ (∃ (n : Nat) (gs : List Nat), sizeGroups n = some gs ∧ gs = [6, 6, 6, 6, 7]) ∧
    (∃ gs : List Nat, 2 ≤ gs.length ∧ (∀ g ∈ gs, g < 8) ∧ gs = [0, 0]) :=
  ⟨⟨7, by decide⟩, ⟨32767, [6, 6, 6, 6, 7], by decide⟩, ⟨[0, 0], by decide⟩⟩

/-- R111: the least size, and a value that has no encoding. -/
theorem test_reSizeLine : reSizeLine 8 ≠ none ∧ reSizeLine 7 = none := by decide

theorem witness_CpLevelResult :
    (∃ (s : State) (minX maxX minY maxY : Nat) (i : Fin 7), s.cfg.Bounds ∧ s.regionOk s.arg0.toNat = true ∧ s.paramsValid = true ∧
      BoundingBox (s.regionOf s.arg0.toNat) minX maxX minY maxY ∧ IsLevel s.cp (boxDiagonal minX maxX minY maxY) i) ∧
    (∃ s : State, s.status.fault = false ∧ s.regionOk s.arg0.toNat = false) ∧
    (∃ s : State, s.status.fault = false ∧ s.regionOk s.arg0.toNat = true ∧ s.paramsValid = false) ∧
    (∃ s : State, s.status.fault = false ∧ s.regionOk s.arg0.toNat = true ∧ s.paramsValid = true ∧
      (s.nodeRec s.arg0.toNat).count = 0) :=
  ⟨⟨args 0 0 0 (region square (bank State.reset)), 0, 8, 0, 7, 0, by unfold BoundingBox IsLevel; decide +kernel⟩,
   ⟨args 64 0 0 State.reset, by decide +kernel⟩, ⟨args 0 0 0 (region square State.reset), by decide +kernel⟩,
   ⟨args 0 0 0 (region [] (bank State.reset)), by decide +kernel⟩⟩

/-- The square and, as node 1, its lower half. -/
def halved : State :=
  after .rgSplit ((region square (bank State.reset)).withArgs 0 0 917504)

theorem witness_LevelIsMonotonic :
    ∃ (s t t' : State) (m n : Word) (minX maxX minY maxY minX' maxX' minY' maxY' : Nat),
      BoundingBox (s.regionOf m.toNat) minX maxX minY maxY ∧ BoundingBox (s.regionOf n.toNat) minX' maxX' minY' maxY' ∧
      minX ≤ minX' ∧ maxX' ≤ maxX ∧ minY ≤ minY' ∧ maxY' ≤ maxY ∧
      Runs .cpLevel (s.withArgs m 0 0) t ∧ Runs .cpLevel (s.withArgs n 0 0) t' ∧ t.res0 ≠ t'.res0 :=
  ⟨halved, _, _, 0, 1, 0, 8, 0, 7, 0, 8, 4, 7, by unfold BoundingBox; decide +kernel, by unfold BoundingBox; decide +kernel,
   by decide, by decide, by decide, by decide, runs_after (by decide +kernel), runs_after (by decide +kernel),
   by decide +kernel⟩

theorem witness_CpDeqResult :
    (∃ s : State, 2 ≤ s.arg1.toNat ∧ s.arg1.toNat ≤ 2 ^ 32 ∧ s.arg0.toNat < s.arg1.toNat) ∧
    (∃ s : State, s.status.fault = false ∧
      ¬ (2 ≤ s.arg1.toNat ∧ s.arg1.toNat ≤ 2 ^ 32 ∧ s.arg0.toNat < s.arg1.toNat)) :=
  ⟨⟨args 4294967295 4294967296 0 State.reset, by decide⟩, ⟨args 0 1 0 State.reset, by decide⟩⟩

theorem witness_DequantizerEndpoints :
    (∃ q : Word, 2 ≤ q.toNat ∧ q.toNat ≤ 2 ^ 32 ∧ q = 2) ∧ (∃ q : Word, 2 ≤ q.toNat ∧ q.toNat ≤ 2 ^ 32 ∧ q = 4294967296) :=
  ⟨⟨2, by decide⟩, ⟨4294967296, by decide⟩⟩

theorem witness_DrUpdateResult :
    (∃ s : State, s.cfg.Bounds ∧ s.cfg.RomOk ∧ s.regionOk s.arg0.toNat = true ∧ s.arg1.toNat < s.cfg.nAngles ∧ s.paramsValid = true ∧
      0 < (s.nodeRec s.arg0.toNat).count ∧ s.arg1 = 511) ∧
    (∃ s : State, s.status.fault = false ∧ s.regionOk s.arg0.toNat = false) ∧
    (∃ s : State, s.status.fault = false ∧ s.cfg.nAngles ≤ s.arg1.toNat) ∧
    (∃ s : State, s.status.fault = false ∧ s.regionOk s.arg0.toNat = true ∧ s.arg1.toNat < s.cfg.nAngles ∧ s.paramsValid = false) ∧
    (∃ s : State, s.status.fault = false ∧ s.regionOk s.arg0.toNat = true ∧ s.arg1.toNat < s.cfg.nAngles ∧ s.paramsValid = true ∧
      (s.nodeRec s.arg0.toNat).count = 0) :=
  ⟨⟨args 0 511 0 (region square (bank State.reset)), by decide +kernel, resetConfig_ok.2.1, by decide +kernel⟩, ⟨args 64 0 0 State.reset, by decide +kernel⟩,
   ⟨args 0 512 0 State.reset, by decide⟩, ⟨args 0 0 0 (region square State.reset), by decide +kernel⟩,
   ⟨args 0 0 0 (region [] (bank State.reset)), by decide +kernel⟩⟩

theorem witness_DrDistResult :
    (∃ s : State, s.DistanceInv ∧ s.dr.valid = true ∧ s.arg0.toNat < max s.dr.numLines.toNat 1 ∧ 1 < s.dr.numLines.toNat) ∧
    (∃ s : State, s.DistanceInv ∧ s.dr.valid = true ∧ s.arg0.toNat < max s.dr.numLines.toNat 1 ∧ s.dr.numLines.toNat ≤ 1) ∧
    (∃ s : State, s.status.fault = false ∧ s.dr.valid = false) ∧
    (∃ s : State, s.status.fault = false ∧ s.dr.valid = true ∧ max s.dr.numLines.toNat 1 ≤ s.arg0.toNat) :=
  ⟨⟨args 3 0 0 measured, by unfold State.DistanceInv; decide +kernel⟩,
   ⟨args 0 0 0 lineless, by unfold State.DistanceInv; decide +kernel⟩, ⟨State.reset, by decide⟩,
   ⟨args 4 0 0 measured, by decide +kernel⟩⟩

theorem witness_DistancesStayInside :
    ∃ s t : State, s.DistanceInv ∧ s.dr.valid = true ∧ s.arg0.toNat < max s.dr.numLines.toNat 1 ∧ exec .drDist s = .next t :=
  ⟨args 3 0 0 measured, _, by unfold State.DistanceInv; decide +kernel, by decide +kernel, by decide +kernel,
   exec_after (by decide +kernel)⟩

theorem witness_RgSplitResult :
    (∃ s : State, s.ft.phase ≠ .build ∧ s.regionOk s.arg0.toNat = true ∧ s.arg1.toNat < s.cfg.nAngles ∧
      -(2 ^ 40 : Int) < s.arg2.toInt ∧ s.arg2.toInt < 2 ^ 40 ∧ s.destinationsOk s.arg0.toNat = true) ∧
    (∃ s : State, s.status.fault = false ∧ s.ft.phase = .build) ∧
    (∃ s : State, s.status.fault = false ∧ s.ft.phase ≠ .build ∧
      ¬ (s.regionOk s.arg0.toNat = true ∧ s.arg1.toNat < s.cfg.nAngles ∧ -(2 ^ 40 : Int) < s.arg2.toInt ∧ s.arg2.toInt < 2 ^ 40 ∧
        s.destinationsOk s.arg0.toNat = true)) :=
  ⟨⟨(region square State.reset).withArgs 0 511 (BitVec.ofInt 64 (-1099511627775)), by decide +kernel⟩,
   ⟨building, by decide +kernel⟩, ⟨(region square State.reset).withArgs 0 511 1099511627776, by decide +kernel⟩⟩

theorem witness_SplitPartitionsRegion :
    ∃ (c : Config) (a : Nat) (l : List SpanRec), c.RomOk ∧ a < c.nAngles ∧ l.all (SpanRec.ok c.dimMax) = true ∧
      rowsSorted l = true ∧ l.Pairwise (fun p q => p.y < q.y) ∧ a = 511 :=
  ⟨resetConfig, 511, square, resetConfig_ok.2.1, by decide +kernel⟩

theorem witness_FtRootResult :
    (∃ s : State, s.paramsValid = true ∧ 1 ≤ s.cfg.nodeCap ∧ s.cp.height.toNat ≤ s.cfg.spanCap ∧ s.cfg.spanCap = 8) ∧
    (∃ s : State, s.status.fault = false ∧ s.paramsValid = false) ∧
    (∃ s : State, s.status.fault = false ∧ s.paramsValid = true ∧ s.cfg.nodeCap = 0) ∧
    (∃ s : State, s.status.fault = false ∧ s.paramsValid = true ∧ 1 ≤ s.cfg.nodeCap ∧ s.cfg.spanCap < s.cp.height.toNat) :=
  ⟨⟨{ bank State.reset with cfg := { resetConfig with spanCap := 8 } }, by decide +kernel⟩, ⟨State.reset, by decide +kernel⟩,
   ⟨{ bank State.reset with cfg := { resetConfig with nodeCap := 0 } }, by decide +kernel⟩,
   ⟨{ bank State.reset with cfg := { resetConfig with spanCap := 7 } }, by decide +kernel⟩⟩

/-- The same tree on an empty stream, and with colours in place of the palette. -/
def plain : State :=
  after .ftRoot ((reader []).withCp { (bank State.reset).cp with palSize := 0 })

theorem witness_FtParseFillResult :
    (∃ (s u : State) (symbols : List (Nat × Nat)) (c : Colour), s.ft.phase = .build ∧ s.ft.head.toNat < s.ft.tail.toNat ∧
      s.rd.state = .ready ∧ ColourSymbols s symbols c ∧ ReadsSymbols ((2, s.cfg.nodeFill) :: symbols) s u ∧ 0 < s.cp.palSize.toNat) ∧
    (∃ (s u : State) (symbols : List (Nat × Nat)) (c : Colour), s.ft.phase = .build ∧ s.ft.head.toNat < s.ft.tail.toNat ∧
      s.rd.state = .ready ∧ ColourSymbols s symbols c ∧ ReadsSymbols ((2, s.cfg.nodeFill) :: symbols) s u ∧ s.cp.palSize = 0) ∧
    (∃ s : State, s.status.fault = false ∧ s.ft.phase ≠ .build) ∧
    (∃ s : State, s.status.fault = false ∧ s.ft.phase = .build ∧ s.ft.tail.toNat ≤ s.ft.head.toNat) ∧
    (∃ s : State, s.status.fault = false ∧ s.ft.phase = .build ∧ s.ft.head.toNat < s.ft.tail.toNat ∧ s.rd.state ≠ .ready) := by
  refine ⟨?_, ?_, ⟨State.reset, by decide⟩, ⟨built, by decide +kernel⟩, ⟨after .ftRoot (bank State.reset), by decide +kernel⟩⟩
  · obtain ⟨u, hu⟩ := exists_reads (l := [(2, 0), (2, 0)]) (s := after .ftParse building) (by decide +kernel)
    have hp : (after .ftParse building).cp.palSize.toNat = 2 := by decide +kernel
    have hf : (after .ftParse building).cfg.nodeFill = 0 := by decide +kernel
    refine ⟨after .ftParse building, u, [(2, 0)], (after .ftParse building).palEntry 0, by decide +kernel, by decide +kernel,
      by decide +kernel, ?_, by rw [hf]; exact hu, by decide +kernel⟩
    rw [ColourSymbols, hp]
    exact ⟨0, rfl, rfl⟩
  · obtain ⟨u, hu⟩ := exists_reads (l := [(2, 0), (4, 0), (4, 0), (4, 0)]) (s := plain) (by decide +kernel)
    have hp : plain.cp.palSize.toNat = 0 := by decide +kernel
    have hf : plain.cfg.nodeFill = 0 := by decide +kernel
    have hr : plain.cp.qr.toNat = 4 := by decide +kernel
    have hg : plain.cp.qg.toNat = 4 := by decide +kernel
    have hb : plain.cp.qb.toNat = 4 := by decide +kernel
    refine ⟨plain, u, [(4, 0), (4, 0), (4, 0)], ⟨0, 0, 0, 255⟩, by decide +kernel, by decide +kernel, by decide +kernel, ?_,
      by rw [hf]; exact hu, by decide +kernel⟩
    rw [ColourSymbols, hp, hr, hg, hb]
    exact ⟨0, 0, 0, rfl, by decide⟩

/-- A measurement whose quantum did not have to grow, from facts that can be evaluated. -/
theorem measures_of {c : Config} {b : CpRegs} {l : List SpanRec} {a : Nat} {d : DrRegs}
    (h : d.valid = true ∧ d.angle.toNat = a ∧
      (∃ p ∈ l, d.min.toInt = c.trigCos a * p.y + c.trigSin a * p.x0 ∨ d.min.toInt = c.trigCos a * p.y + c.trigSin a * ((p.x1 : Int) - 1)) ∧
      (∃ p ∈ l, d.max.toInt = c.trigCos a * p.y + c.trigSin a * p.x0 ∨ d.max.toInt = c.trigCos a * p.y + c.trigSin a * ((p.x1 : Int) - 1)) ∧
      (∀ p ∈ l, d.min.toInt ≤ c.trigCos a * p.y + c.trigSin a * p.x0 ∧ c.trigCos a * p.y + c.trigSin a * p.x0 ≤ d.max.toInt ∧
        d.min.toInt ≤ c.trigCos a * p.y + c.trigSin a * ((p.x1 : Int) - 1) ∧
        c.trigCos a * p.y + c.trigSin a * ((p.x1 : Int) - 1) ≤ d.max.toInt) ∧
      d.quant.toNat = b.lineQuant.toNat ∧ (d.max.toInt - d.min.toInt).toNat / b.lineQuant.toNat ≤ b.lineLimit.toNat ∧
      d.numLines.toNat = (d.max.toInt - d.min.toInt).toNat / d.quant.toNat) : Measures c b l a d := by
  obtain ⟨h1, h2, hmin, hmax, hall, hq, hl, hn⟩ := h
  refine ⟨h1, h2, ⟨hmin, ?_⟩, ⟨hmax, ?_⟩, ⟨0, hq, ?_, fun j hj => absurd hj (Nat.not_lt_zero j)⟩, hn⟩
  · rintro z ⟨p, hp, rfl | rfl⟩
    · exact (hall p hp).1
    · exact (hall p hp).2.2.1
  · rintro z ⟨p, hp, rfl | rfl⟩
    · exact (hall p hp).2.1
    · exact (hall p hp).2.2.2
  · rw [hq]
    exact hl

theorem witness_FtParseSplitResult :
    ∃ (s u : State) (minX maxX minY maxY : Nat) (level : Fin 7) (idx line : Nat) (d : DrRegs),
      let n := s.ft.head.toNat
      let l := s.ft.tail.toNat
      let top := s.ft.spanTop.toNat
      let c := (s.nodeRec n).count
      let b := (s.cp.angleBits[level]).toNat
      let a := idx * 2 ^ (s.cfg.angleBitsMax - b)
      s.cfg.Bounds ∧ s.cfg.RomOk ∧ s.ft.phase = .build ∧ n < l ∧ s.rd.state = .ready ∧ s.paramsValid = true ∧ s.regionOk n = true ∧
      (s.nodeRec n).base + (s.nodeRec n).cap ≤ top ∧ l + 2 ≤ s.cfg.nodeCap ∧ top + 2 * c ≤ s.cfg.spanCap ∧
      BoundingBox (s.regionOf n) minX maxX minY maxY ∧ IsLevel s.cp (boxDiagonal minX maxX minY maxY) level ∧
      Measures s.cfg s.cp (s.regionOf n) a d ∧ ReadsSymbols [(2, s.cfg.nodeSplit), (2 ^ b, idx), (d.numLines.toNat, line)] s u ∧
      1 < d.numLines.toNat := by
  obtain ⟨u, hu⟩ := exists_reads (l := [(2, 1), (8, 0), (7, 3)]) (s := building) (by decide +kernel)
  have hb : (building.cp.angleBits[(0 : Fin 7)]).toNat = 3 := by decide +kernel
  refine ⟨building, u, 0, 8, 0, 7, 0, 0, 3, ⟨true, 0, 1835008, 262144, 7, 0⟩, by decide +kernel, resetConfig_ok.2.1, by decide +kernel,
    by decide +kernel, by decide +kernel, by decide +kernel, by decide +kernel, by decide +kernel, by decide +kernel,
    by decide +kernel, by unfold BoundingBox; decide +kernel, by unfold IsLevel; decide +kernel,
    measures_of (by decide +kernel), ?_, by decide⟩
  rw [hb]
  exact hu

theorem witness_FtRenderResult :
    (∃ s : State, s.ft.phase = .build ∧ s.ft.head = s.ft.tail ∧ 1 ≤ s.cp.width.toNat ∧
      4 * s.cp.width.toNat * s.cp.height.toNat ≤ s.cfg.pixCap ∧
      (∀ n < s.ft.tail.toNat, (s.nodeRec n).kind = .fill → ∀ p ∈ s.regionOf n, p.x1 ≤ s.cp.width.toNat)) ∧
    (∃ n x y, built.fillCovers n x y ∧ ∀ m, n < m → ¬ built.fillCovers m x y) ∧
    (∃ s : State, s.status.fault = false ∧ s.ft.phase ≠ .build) ∧
    (∃ s : State, s.status.fault = false ∧ s.ft.phase = .build ∧ s.ft.head ≠ s.ft.tail) ∧
    (∃ s : State, s.status.fault = false ∧ s.ft.phase = .build ∧ s.ft.head = s.ft.tail ∧
      s.cfg.pixCap < 4 * s.cp.width.toNat * s.cp.height.toNat) := by
  have ht : built.ft.tail.toNat = 3 := by decide +kernel
  refine ⟨⟨built, by decide +kernel⟩, ⟨2, 7, 3, ⟨by omega, by decide +kernel, ⟨3, 0, 8⟩, by decide +kernel⟩, ?_⟩,
    ⟨State.reset, by decide⟩, ⟨building, by decide +kernel⟩,
    ⟨{ built with cfg := { built.cfg with pixCap := 255 } }, by decide +kernel⟩⟩
  rintro m hm ⟨hm3, _⟩
  omega

/-- The steps of 47_fragment_tree.md R302 on the stream of V42. -/
def sequence0 : State := args 9 0 0 (drive (poke image) State.reset)
def sequence1 : State := after .rdInit (sequence0.withFt { sequence0.ft with phase := .idle })
def sequence2 : State := after .cpRead (sequence1.withArgs sequence0.arg1 0 0)
def sequence3 : State := after .ftRoot sequence2
def sequence4 : State := after .ftParse (after .ftParse (after .ftParse sequence3))

theorem witness_FtDecodeIsTheSequence :
    ∃ (s s₁ s₂ s₃ s₄ s₅ : State) (k : Nat), s.cfg.Bounds ∧ Runs .rdInit (s.withFt { s.ft with phase := .idle }) s₁ ∧
      Runs .cpRead (s₁.withArgs s.arg1 0 0) s₂ ∧ Runs .ftRoot s₂ s₃ ∧ ParsesQueue k s₃ s₄ ∧ Runs .ftRender s₄ s₅ :=
  ⟨sequence0, sequence1, sequence2, sequence3, sequence4, _, 3, by decide +kernel, runs_after (by decide +kernel),
   runs_after (by decide +kernel), runs_after (by decide +kernel),
   ⟨by decide +kernel, _, runs_after (by decide +kernel), by decide +kernel, _, runs_after (by decide +kernel),
    by decide +kernel, _, runs_after (by decide +kernel), rfl, by decide +kernel⟩,
   runs_after (by decide +kernel)⟩

/-- The bank of the test configuration for code 2 or 0 and an image of 8 by 8, with a palette of two colours or none. -/
def derived (code palSize : Nat) : CpRegs :=
  ⟨8, 8, BitVec.ofNat 64 code, (testDerive code 8 8).lineLimit, (testDerive code 8 8).lineQuant, (testDerive code 8 8).qr,
   (testDerive code 8 8).qg, (testDerive code 8 8).qb, BitVec.ofNat 64 palSize, (testDerive code 8 8).levelScale,
   (testDerive code 8 8).angleBits⟩

theorem witness_FtDecodeOneLeaf :
    (∃ (s u : State) (colours : List (Nat × Nat × Nat)) (symbols : List (Nat × Nat)) (c : Colour),
      s.cfg.Bounds ∧ s.arg0.toNat ≤ s.cfg.inCap ∧ s.arg1 = 0 ∧ s.cfg.derive = .testConfig ∧ colours.length = 2 ∧
      (derived 2 2).valid s.cfg = true ∧ 1 ≤ s.cfg.nodeCap ∧ 8 ≤ s.cfg.spanCap ∧ 4 * 8 * 8 ≤ s.cfg.pixCap ∧
      LeafSymbols (deriveFor .testConfig 2 8 8) colours symbols c ∧
      ReadsSymbols (headerSymbols s.cfg (some (8, 8)) 2 colours ++ (2, s.cfg.nodeFill) :: symbols) (rdInit s.arg0.toNat s) u) ∧
    (∃ (s u : State) (symbols : List (Nat × Nat)) (c : Colour),
      s.cfg.Bounds ∧ s.arg0.toNat ≤ s.cfg.inCap ∧ s.arg1 = 0 ∧ s.cfg.derive = .testConfig ∧
      (derived 0 0).valid s.cfg = true ∧ 1 ≤ s.cfg.nodeCap ∧ 8 ≤ s.cfg.spanCap ∧ 4 * 8 * 8 ≤ s.cfg.pixCap ∧
      LeafSymbols (deriveFor .testConfig 0 8 8) [] symbols c ∧
      ReadsSymbols (headerSymbols s.cfg (some (8, 8)) 0 [] ++ (2, s.cfg.nodeFill) :: symbols) (rdInit s.arg0.toNat s) u) ∧
    (∃ s : State, s.status.fault = false ∧ s.cfg.inCap < s.arg0.toNat) ∧
    (∃ s : State, s.status.fault = false ∧ 2 ≤ s.arg1.toNat) ∧
    (∃ s : State, s.status.fault = false ∧ s.arg0.toNat ≤ s.cfg.inCap ∧ s.arg1 = 1 ∧ s.dimsValid = false) := by
  refine ⟨?_, ?_, ⟨args 65 0 0 State.reset, by decide⟩, ⟨args 0 2 0 State.reset, by decide⟩,
    ⟨args 64 1 0 State.reset, by decide +kernel⟩⟩
  · obtain ⟨u, hu⟩ := exists_reads
      (l := headerSymbols (args 8 0 0 (drive (poke image) State.reset)).cfg (some (8, 8)) 2 [(255, 0, 0), (0, 0, 255)] ++
        [(2, 0), (2, 0)])
      (s := rdInit (args 8 0 0 (drive (poke image) State.reset)).arg0.toNat (args 8 0 0 (drive (poke image) State.reset)))
      (by decide +kernel)
    exact ⟨args 8 0 0 (drive (poke image) State.reset), u, [(255, 0, 0), (0, 0, 255)], [(2, 0)], ⟨255, 0, 0, 255⟩,
      by decide +kernel, by decide +kernel, by decide +kernel, by decide +kernel, rfl, by decide +kernel, by decide +kernel,
      by decide +kernel, by decide +kernel, ⟨0, (255, 0, 0), rfl, rfl, rfl⟩, hu⟩
  · obtain ⟨u, hu⟩ := exists_reads
      (l := headerSymbols State.reset.cfg (some (8, 8)) 0 [] ++ [(2, 0), (4, 0), (4, 0), (4, 0)])
      (s := rdInit State.reset.arg0.toNat State.reset) (by decide +kernel)
    exact ⟨State.reset, u, [(4, 0), (4, 0), (4, 0)], ⟨0, 0, 0, 255⟩, by decide, by decide, by decide, rfl, by decide +kernel,
      by decide, by decide, by decide, ⟨0, 0, 0, rfl, by decide⟩, hu⟩

/-! ### A state in a build that meets every invariant -/

/-- V40 with the root queued and `FT.PARSE` as the host's next command. -/
def parsing : State := asking (.writeReg 0x00 0x61) building

theorem parsing_inv : parsing.Inv := by
  refine ⟨resetConfig_ok, ⟨by decide +kernel, fun _ => by decide +kernel, fun h => ?_⟩,
    by unfold State.DecoderInv; decide +kernel, by unfold State.EncoderInv; decide +kernel,
    by unfold State.TreeInv; decide +kernel⟩
  exact absurd h (by decide +kernel)

theorem parsing_covers (x y : Nat) (hx : x < 8) (hy : y < 8) : covers (parsing.regionOf 0) x y := by
  have h : parsing.regionOf 0 = square := by decide +kernel
  rw [h]
  exact ⟨⟨y, 0, 8⟩, List.mem_map.mpr ⟨y, List.mem_range.mpr hy, rfl⟩, rfl, Nat.zero_le _, hx⟩

theorem parsing_treeShape : parsing.TreeShape := by
  intro _ _
  have ht : parsing.ft.tail.toNat = 1 := by decide +kernel
  have hw : parsing.cp.width.toNat = 8 := by decide +kernel
  have hh : parsing.cp.height.toNat = 8 := by decide +kernel
  have hk : (parsing.nodeRec 0).kind ≠ .split := by decide +kernel
  refine ⟨by decide +kernel, by decide +kernel, by decide +kernel, ?_, by decide +kernel⟩
  intro x hx y hy
  rw [hw] at hx
  rw [hh] at hy
  exact ⟨0, ⟨by omega, hk, parsing_covers x y hx hy⟩, fun n hn => by omega⟩

theorem witness_StepKeepsInvariants : ∃ s t : State, s.Inv ∧ step s = .next t :=
  ⟨parsing, _, parsing_inv, step_next (by decide +kernel)⟩

theorem witness_StepKeepsCanonicalMemories : ∃ s t : State, s.memoriesWf = true ∧ step s = .next t :=
  ⟨parsing, _, by decide +kernel, step_next (by decide +kernel)⟩

theorem witness_StepKeepsTreeTiling :
    ∃ s t : State, s.Inv ∧ s.TreeShape ∧ s.DistanceInv ∧ step s = .next t ∧ s.ft.phase = .build ∧ t.ft.tail = 3 :=
  ⟨parsing, _, parsing_inv, parsing_treeShape, by unfold State.DistanceInv; decide +kernel, step_next (by decide +kernel),
   by decide +kernel⟩

theorem witness_StepStaysInBounds :
    ∃ s t : State, s.Inv ∧ s.TreeShape ∧ s.memoriesBounded = true ∧ step s = .next t :=
  ⟨parsing, _, parsing_inv, parsing_treeShape, by decide +kernel, step_next (by decide +kernel)⟩

end Sys2Proof.Tests
end

section
/-! PROOFS. What a state change, a piece of a command's run and a whole command write, part by part. -/

namespace Sys2Proof.Machine

/-! ### What a run may write, part by part -/

theorem memoriesWf_iff (s : State) :
    s.memoriesWf = true ↔
      Memory.wf s.inMem = true ∧ Memory.wf s.outMem = true ∧ Memory.wf s.logMem = true ∧ Memory.wf s.palMem = true ∧
      Memory.wf s.nodeMem = true ∧ Memory.wf s.spanMem = true ∧ Memory.wf s.pixMem = true := by
  simp only [State.memoriesWf, Bool.and_eq_true, and_assoc]

/-- From `s` to `t` nothing but the listed parts changes, and the memories stay in canonical form. -/
def WritesOnly (l : List Part) (s t : State) : Prop :=
  KeepsAllBut l s t ∧ (s.memoriesWf = true → t.memoriesWf = true)

section WritesOnly

variable {l m : List Part} {s t u : State}

theorem WritesOnly.refl (l : List Part) (s : State) : WritesOnly l s s := ⟨.refl l s, id⟩

theorem WritesOnly.trans (h₁ : WritesOnly l s t) (h₂ : WritesOnly l t u) : WritesOnly l s u :=
  ⟨h₁.1.trans h₂.1, h₂.2 ∘ h₁.2⟩

theorem WritesOnly.mono (h : WritesOnly l s t) (hlm : l ⊆ m) : WritesOnly m s t := ⟨h.1.mono hlm, h.2⟩

/-! #### Registers -/

/-- The lists that hold the memories are the same. -/
def SameMemories (s t : State) : Prop :=
  t.inMem = s.inMem ∧ t.outMem = s.outMem ∧ t.logMem = s.logMem ∧ t.palMem = s.palMem ∧ t.nodeMem = s.nodeMem ∧
  t.spanMem = s.spanMem ∧ t.pixMem = s.pixMem

theorem SameMemories.readElement (h : SameMemories s t) : t.readElement = s.readElement := by
  obtain ⟨h1, h2, h3, h4, h5, h6, h7⟩ := h
  funext sp i
  exact mem_kept_of_lists h1 h2 h3 h4 h5 h6 h7 sp i

theorem SameMemories.memoriesWf (h : SameMemories s t) : t.memoriesWf = s.memoriesWf := by
  obtain ⟨h1, h2, h3, h4, h5, h6, h7⟩ := h
  simp only [State.memoriesWf, h1, h2, h3, h4, h5, h6, h7]

theorem WritesOnly.of_sameMemories (hk : KeepsAllBut l s t) (hm : SameMemories s t) : WritesOnly l s t :=
  ⟨hk, by rw [hm.memoriesWf]; exact id⟩

theorem WritesOnly.withStatus (h : .status ∈ l) (s : State) (v : Status) : WritesOnly l s (s.withStatus v) := by
  have hm : SameMemories s (s.withStatus v) := ⟨rfl, rfl, rfl, rfl, rfl, rfl, rfl⟩
  exact .of_sameMemories (keepsAllBut_iff.mpr (by simp [h, Part.kept, hm.readElement])) hm

theorem WritesOnly.withRes0 (h : .res0 ∈ l) (s : State) (v : Word) : WritesOnly l s (s.withRes0 v) := by
  have hm : SameMemories s (s.withRes0 v) := ⟨rfl, rfl, rfl, rfl, rfl, rfl, rfl⟩
  exact .of_sameMemories (keepsAllBut_iff.mpr (by simp [h, Part.kept, hm.readElement])) hm

theorem WritesOnly.withRes1 (h : .res1 ∈ l) (s : State) (v : Word) : WritesOnly l s (s.withRes1 v) := by
  have hm : SameMemories s (s.withRes1 v) := ⟨rfl, rfl, rfl, rfl, rfl, rfl, rfl⟩
  exact .of_sameMemories (keepsAllBut_iff.mpr (by simp [h, Part.kept, hm.readElement])) hm

theorem WritesOnly.withRes2 (h : .res2 ∈ l) (s : State) (v : Word) : WritesOnly l s (s.withRes2 v) := by
  have hm : SameMemories s (s.withRes2 v) := ⟨rfl, rfl, rfl, rfl, rfl, rfl, rfl⟩
  exact .of_sameMemories (keepsAllBut_iff.mpr (by simp [h, Part.kept, hm.readElement])) hm

theorem WritesOnly.withRes3 (h : .res3 ∈ l) (s : State) (v : Word) : WritesOnly l s (s.withRes3 v) := by
  have hm : SameMemories s (s.withRes3 v) := ⟨rfl, rfl, rfl, rfl, rfl, rfl, rfl⟩
  exact .of_sameMemories (keepsAllBut_iff.mpr (by simp [h, Part.kept, hm.readElement])) hm

theorem WritesOnly.withRd (h : .rd ∈ l) (s : State) (v : RdRegs) : WritesOnly l s (s.withRd v) := by
  have hm : SameMemories s (s.withRd v) := ⟨rfl, rfl, rfl, rfl, rfl, rfl, rfl⟩
  exact .of_sameMemories (keepsAllBut_iff.mpr (by simp [h, Part.kept, hm.readElement])) hm

theorem WritesOnly.withRe (h : .re ∈ l) (s : State) (v : ReRegs) : WritesOnly l s (s.withRe v) := by
  have hm : SameMemories s (s.withRe v) := ⟨rfl, rfl, rfl, rfl, rfl, rfl, rfl⟩
  exact .of_sameMemories (keepsAllBut_iff.mpr (by simp [h, Part.kept, hm.readElement])) hm

theorem WritesOnly.withRp (h : .rp ∈ l) (s : State) (v : RpRegs) : WritesOnly l s (s.withRp v) := by
  have hm : SameMemories s (s.withRp v) := ⟨rfl, rfl, rfl, rfl, rfl, rfl, rfl⟩
  exact .of_sameMemories (keepsAllBut_iff.mpr (by simp [h, Part.kept, hm.readElement])) hm

theorem WritesOnly.withCp (h : .cp ∈ l) (s : State) (v : CpRegs) : WritesOnly l s (s.withCp v) := by
  have hm : SameMemories s (s.withCp v) := ⟨rfl, rfl, rfl, rfl, rfl, rfl, rfl⟩
  exact .of_sameMemories (keepsAllBut_iff.mpr (by simp [h, Part.kept, hm.readElement])) hm

theorem WritesOnly.withDr (h : .dr ∈ l) (s : State) (v : DrRegs) : WritesOnly l s (s.withDr v) := by
  have hm : SameMemories s (s.withDr v) := ⟨rfl, rfl, rfl, rfl, rfl, rfl, rfl⟩
  exact .of_sameMemories (keepsAllBut_iff.mpr (by simp [h, Part.kept, hm.readElement])) hm

theorem WritesOnly.withFt (h : .ft ∈ l) (s : State) (v : FtRegs) : WritesOnly l s (s.withFt v) := by
  have hm : SameMemories s (s.withFt v) := ⟨rfl, rfl, rfl, rfl, rfl, rfl, rfl⟩
  exact .of_sameMemories (keepsAllBut_iff.mpr (by simp [h, Part.kept, hm.readElement])) hm

theorem WritesOnly.countFree (h : .freeCount ∈ l) (s : State) : WritesOnly l s s.countFree := by
  have hm : SameMemories s s.countFree := ⟨rfl, rfl, rfl, rfl, rfl, rfl, rfl⟩
  exact .of_sameMemories (keepsAllBut_iff.mpr (by simp [h, Part.kept, hm.readElement])) hm

theorem WritesOnly.raiseFault (c : Cause) (cmd : Word) (s : State) : WritesOnly faultParts s (raiseFault c cmd s) :=
  .of_sameMemories (keepsAllBut_raiseFault c cmd s)
    (by rw [raiseFault_eq]; exact ⟨rfl, rfl, rfl, rfl, rfl, rfl, rfl⟩)

theorem OnlyDecoderMoved.writesOnly (h : OnlyDecoderMoved s t) : WritesOnly [.status, .rd] s t :=
  .of_sameMemories h.keepsAllBut (by rw [h]; exact ⟨rfl, rfl, rfl, rfl, rfl, rfl, rfl⟩)

/-! #### Memories -/

/-- Only the memories differ. -/
def SameRegisters (s t : State) : Prop :=
  t = { s with
    inMem := t.inMem
    outMem := t.outMem
    logMem := t.logMem
    palMem := t.palMem
    nodeMem := t.nodeMem
    spanMem := t.spanMem
    pixMem := t.pixMem }

theorem SameRegisters.kept (h : SameRegisters s t) : ∀ p : Part, (∀ sp, p ≠ .mem sp) → p.kept s t := by
  rw [h]
  intro p hp
  cases p with
  | mem sp => exact absurd rfl (hp sp)
  | faultRegs => exact ⟨rfl, rfl, rfl⟩
  | args => exact ⟨rfl, rfl, rfl⟩
  | hostSide => exact ⟨rfl, rfl, rfl⟩
  | _ => rfl

/-- One memory is written: the others read as before, and each keeps the canonical form. -/
theorem WritesOnly.of_memory {sp : Space} (h : .mem sp ∈ l) (hreg : SameRegisters s t)
    (hother : ∀ sp', sp' ≠ sp → t.readElement sp' = s.readElement sp')
    (hwf : s.memoriesWf = true → t.memoriesWf = true) : WritesOnly l s t := by
  refine ⟨fun p hp => ?_, hwf⟩
  by_cases hm : ∃ sp', p = .mem sp'
  · obtain ⟨sp', rfl⟩ := hm
    exact congrFun (hother sp' fun he => hp (he ▸ h))
  · exact hreg.kept p (not_exists.mp hm)

theorem WritesOnly.putIn (h : .mem .inp ∈ l) (s : State) (i : Nat) (v : Byte) : WritesOnly l s (s.putIn i v) := by
  refine .of_memory h rfl (fun sp hsp => ?_) ?_
  · cases sp <;> trivial
  · simp only [memoriesWf_iff]
    exact fun ⟨h1, h2, h3, h4, h5, h6, h7⟩ => ⟨Memory.wf_write i v h1, h2, h3, h4, h5, h6, h7⟩

theorem WritesOnly.putOut (h : .mem .out ∈ l) (s : State) (i : Nat) (v : Byte) : WritesOnly l s (s.putOut i v) := by
  refine .of_memory h rfl (fun sp hsp => ?_) ?_
  · cases sp <;> trivial
  · simp only [memoriesWf_iff]
    exact fun ⟨h1, h2, h3, h4, h5, h6, h7⟩ => ⟨h1, Memory.wf_write i v h2, h3, h4, h5, h6, h7⟩

theorem WritesOnly.putLog (h : .mem .log ∈ l) (s : State) (i : Nat) (v : Triplet) : WritesOnly l s (s.putLog i v) := by
  refine .of_memory h rfl (fun sp hsp => ?_) ?_
  · cases sp <;> trivial
  · simp only [memoriesWf_iff]
    exact fun ⟨h1, h2, h3, h4, h5, h6, h7⟩ => ⟨h1, h2, Memory.wf_write i v h3, h4, h5, h6, h7⟩

theorem WritesOnly.putPal (h : .mem .pal ∈ l) (s : State) (i : Nat) (v : Colour) : WritesOnly l s (s.putPal i v) := by
  refine .of_memory h rfl (fun sp hsp => ?_) ?_
  · cases sp <;> trivial
  · simp only [memoriesWf_iff]
    exact fun ⟨h1, h2, h3, h4, h5, h6, h7⟩ => ⟨h1, h2, h3, Memory.wf_write i v h4, h5, h6, h7⟩

theorem WritesOnly.putNode (h : .mem .node ∈ l) (s : State) (i : Nat) (v : NodeRec) : WritesOnly l s (s.putNode i v) := by
  refine .of_memory h rfl (fun sp hsp => ?_) ?_
  · cases sp <;> trivial
  · simp only [memoriesWf_iff]
    exact fun ⟨h1, h2, h3, h4, h5, h6, h7⟩ => ⟨h1, h2, h3, h4, Memory.wf_write i v h5, h6, h7⟩

theorem WritesOnly.putSpan (h : .mem .span ∈ l) (s : State) (i : Nat) (v : SpanRec) : WritesOnly l s (s.putSpan i v) := by
  refine .of_memory h rfl (fun sp hsp => ?_) ?_
  · cases sp <;> trivial
  · simp only [memoriesWf_iff]
    exact fun ⟨h1, h2, h3, h4, h5, h6, h7⟩ => ⟨h1, h2, h3, h4, h5, Memory.wf_write i v h6, h7⟩

theorem WritesOnly.putPix (h : .mem .pix ∈ l) (s : State) (i : Nat) (v : Byte) : WritesOnly l s (s.putPix i v) := by
  refine .of_memory h rfl (fun sp hsp => ?_) ?_
  · cases sp <;> trivial
  · simp only [memoriesWf_iff]
    exact fun ⟨h1, h2, h3, h4, h5, h6, h7⟩ => ⟨h1, h2, h3, h4, h5, h6, Memory.wf_write i v h7⟩

theorem WritesOnly.withOutMem (h : .mem .out ∈ l) {s : State} {m : List Host.Cell}
    (hm : Memory.wf s.outMem = true → Memory.wf m = true) : WritesOnly l s (s.withOutMem m) := by
  refine .of_memory h rfl (fun sp hsp => ?_) ?_
  · cases sp <;> trivial
  · simp only [memoriesWf_iff]
    exact fun ⟨h1, h2, h3, h4, h5, h6, h7⟩ => ⟨h1, hm h2, h3, h4, h5, h6, h7⟩

theorem WritesOnly.withSpanMem (h : .mem .span ∈ l) {s : State} {m : Memory SpanRec}
    (hm : Memory.wf s.spanMem = true → Memory.wf m = true) : WritesOnly l s (s.withSpanMem m) := by
  refine .of_memory h rfl (fun sp hsp => ?_) ?_
  · cases sp <;> trivial
  · simp only [memoriesWf_iff]
    exact fun ⟨h1, h2, h3, h4, h5, h6, h7⟩ => ⟨h1, h2, h3, h4, h5, hm h6, h7⟩

end WritesOnly

/-! ### Runs that write only the listed parts -/

/-- From every state, the run ends or faults with nothing but the listed parts written. -/
def Cmd.Writes {α : Type} (l : List Part) (x : Cmd α) : Prop :=
  ∀ s₀, Cmd.Triple (WritesOnly l s₀) x (fun _ => WritesOnly l s₀) (fun _ => WritesOnly l s₀)

section Writes

variable {α β : Type} {l m : List Part}

theorem Cmd.Writes.of_apply {x : Cmd α}
    (h : ∀ s, match x s with | .ok _ t => WritesOnly l s t | .error _ t => WritesOnly l s t) : Cmd.Writes l x := by
  intro s₀ s hs
  have hx := h s
  cases he : x s with
  | ok a t => rw [he] at hx; exact hs.trans hx
  | error c t => rw [he] at hx; exact hs.trans hx

theorem Cmd.Writes.ok {x : Cmd α} (h : Cmd.Writes l x) {s t : State} {a : α} (hx : x s = .ok a t) : WritesOnly l s t :=
  (h s).ok (.refl l s) hx

theorem Cmd.Writes.error {x : Cmd α} (h : Cmd.Writes l x) {s t : State} {c : Cause} (hx : x s = .error c t) :
    WritesOnly l s t :=
  (h s).error (.refl l s) hx

theorem Cmd.Writes.mono {x : Cmd α} (h : Cmd.Writes l x) (hlm : l ⊆ m) : Cmd.Writes m x := by
  refine .of_apply fun s => ?_
  split
  · exact (h.ok ‹_›).mono hlm
  · exact (h.error ‹_›).mono hlm

theorem Cmd.Writes.pure (a : α) : Cmd.Writes l (Pure.pure a) := fun _ => .pure fun _ h => h

theorem Cmd.Writes.raise (c : Cause) : Cmd.Writes l (raise (α := α) c) := fun _ => .raise fun _ h => h

theorem Cmd.Writes.update {g : State → State} (h : ∀ s, WritesOnly l s (g s)) : Cmd.Writes l (update g) :=
  fun _ => .update fun s hs => hs.trans (h s)

theorem Cmd.Writes.require (p : Prop) [Decidable p] (c : Cause) : Cmd.Writes l (require p c) :=
  fun _ => (Cmd.Triple.require fun _ h _ => h).weaken (fun _ h => h) (fun _ _ h => h.1) (fun _ _ h => h)

theorem Cmd.Writes.bind {x : Cmd α} {f : α → Cmd β} (hx : Cmd.Writes l x) (hf : ∀ a, Cmd.Writes l (f a)) :
    Cmd.Writes l (x >>= f) :=
  fun s₀ => (hx s₀).bind fun a => hf a s₀

theorem Cmd.Writes.require_bind {p : Prop} [Decidable p] {c : Cause} {f : Unit → Cmd β} (hf : Cmd.Writes l (f ())) :
    Cmd.Writes l (Machine.require p c >>= f) :=
  (Cmd.Writes.require p c).bind fun _ => hf

theorem Cmd.Writes.get {f : State → Cmd β} (hf : ∀ u, Cmd.Writes l (f u)) : Cmd.Writes l (get >>= f) :=
  fun s₀ => .get fun u => (hf u s₀).weaken (fun _ h => h.2) (fun _ _ h => h) (fun _ _ h => h)

theorem Cmd.Writes.ite {p : Prop} [Decidable p] {x y : Cmd α} (hx : Cmd.Writes l x) (hy : Cmd.Writes l y) :
    Cmd.Writes l (if p then x else y) :=
  fun s₀ => .ite (fun _ => hx s₀) (fun _ => hy s₀)

end Writes

/-! #### The results and the decoder -/

theorem setRes0_writes (v : Word) : Cmd.Writes [.res0] (setRes0 v) := .update fun s => .withRes0 (by decide) s v
theorem setRes1_writes (v : Word) : Cmd.Writes [.res1] (setRes1 v) := .update fun s => .withRes1 (by decide) s v
theorem setRes2_writes (v : Word) : Cmd.Writes [.res2] (setRes2 v) := .update fun s => .withRes2 (by decide) s v

theorem rdSeed_writes (n : Nat) (c : Window) (s : State) : WritesOnly [.status, .rd] s (rdSeed n c s).2 := by
  induction n generalizing c s with
  | zero => exact .refl _ s
  | succ n ih => exact (rdByte_spec s).2.1.writesOnly.trans (ih _ _)

theorem rdInit_writes (len : Nat) (s : State) : WritesOnly [.status, .rd] s (rdInit len s) := by
  have hrestart : WritesOnly [.status, .rd] s (rdRestart len s) :=
    (WritesOnly.withRd (by decide) s _).trans (.withStatus (by decide) _ _)
  unfold rdInit
  exact (hrestart.trans (rdSeed_writes seedBytes 0 _)).trans (.withRd (by decide) _ _)

theorem rdCount_writes (total : Nat) : Cmd.Writes [.status, .rd] (rdCount total) :=
  .of_apply fun s => by rw [rdCount_apply]; exact .withRd (by decide) s _

theorem rdRemove_writes (bottom top : Nat) : Cmd.Writes [.status, .rd] (rdRemove bottom top) :=
  .of_apply fun s => by
    rcases rdRemove_spec bottom top s with ⟨_, _, t, _, he, _, _, _, _, _, hm⟩ | ⟨t, _, he, hm⟩
    · rw [he]; exact hm.writesOnly
    · rw [he]; exact hm.writesOnly

theorem readNumber_writes (max : Nat) : Cmd.Writes [.status, .rd] (readNumber max) :=
  .ite (.pure 0) <| (rdCount_writes max).bind fun c => .require_bind <| (rdRemove_writes c (c + 1)).bind fun _ => .pure c

/-! #### The parameter bank -/

theorem readSizeLoop_writes (c : Config) (n : Nat) (bits : Int) : Cmd.Writes [.status, .rd] (readSizeLoop c n bits) := by
  induction n generalizing bits with
  | zero => exact .pure _
  | succ n ih =>
    refine (readNumber_writes _).bind fun v => .require_bind <| .ite (ih _) ?_
    exact (readNumber_writes 2).bind fun f => .ite (ih _) (.pure _)

theorem readSize_writes : Cmd.Writes [.status, .rd] readSize := .get fun s => readSizeLoop_writes s.cfg _ _

theorem readDims_writes : Cmd.Writes [.status, .rd, .cp] readDims :=
  (readSize_writes.mono (by decide)).bind fun _ => (Cmd.Writes.update fun s => .withCp (by decide) s _).bind fun _ =>
    (readSize_writes.mono (by decide)).bind fun _ => .update fun s => .withCp (by decide) s _

theorem readPaletteLoop_writes (k i : Nat) : Cmd.Writes [.status, .rd, .mem .pal] (readPaletteLoop k i) := by
  induction k generalizing i with
  | zero => exact .pure _
  | succ k ih =>
    have hnum : Cmd.Writes [.status, .rd, .mem .pal] (readNumber 256) := (readNumber_writes 256).mono (by decide)
    exact hnum.bind fun r => hnum.bind fun g => hnum.bind fun b =>
      (Cmd.Writes.update fun s => .putPal (by decide) s i _).bind fun _ => ih (i + 1)

theorem readPalette_writes : Cmd.Writes [.status, .rd, .cp, .mem .pal] readPalette :=
  .get fun _ => ((readNumber_writes _).mono (by decide)).bind fun n =>
    ((readPaletteLoop_writes n 0).mono (by decide)).bind fun _ => .update fun s => .withCp (by decide) s _

theorem setCode_writes (code : Nat) (s : State) : WritesOnly [.cp] s (setCode code s) := .withCp (by decide) s _

theorem readHeader_writes (flags : Nat) : Cmd.Writes [.status, .rd, .cp, .mem .pal] (readHeader flags) := by
  have hcode : ∀ s : State, Cmd.Writes [.status, .rd, .cp, .mem .pal] (readNumber s.cfg.maxCode) :=
    fun s => (readNumber_writes _).mono (by decide)
  have hset : ∀ code, Cmd.Writes [.status, .rd, .cp, .mem .pal] (update (setCode code)) :=
    fun code => .update fun t => (setCode_writes code t).mono (by decide)
  exact .ite
    ((readDims_writes.mono (by decide)).bind fun _ => .get fun s => (hcode s).bind fun code => (hset code).bind fun _ =>
      readPalette_writes.bind fun _ => .pure code)
    (.get fun s => (hcode s).bind fun code => (hset code).bind fun _ => readPalette_writes.bind fun _ => .pure code)

/-! #### Regions and the tree -/

theorem drUpdate_writes (n a : Nat) (s : State) : WritesOnly [.dr] s (drUpdate n a s) := by
  rw [drUpdate_eq]
  exact .withDr (by decide) s _

theorem storeRegion_writes (n : Nat) (p : List SpanRec) (s : State) :
    WritesOnly [.freeCount, .mem .node, .mem .span] s (storeRegion n p s) :=
  ((WritesOnly.withSpanMem (by decide) fun h => Memory.wf_fill _ _ _ (Memory.wf_writeList p _ h)).trans
    (.putNode (by decide) _ n _)).trans (.countFree (by decide) _)

theorem splitInto_writes (n a : Nat) (d : Int) (l r : Nat) (s : State) :
    WritesOnly [.freeCount, .mem .node, .mem .span] s (splitInto n a d l r s) :=
  (storeRegion_writes l _ s).trans (storeRegion_writes r _ _)

theorem allocChildren_writes (n : Nat) : Cmd.Writes [.ft, .mem .node] (allocChildren n) :=
  .get fun _ => .require_bind <| .require_bind <| (Cmd.Writes.update fun t => .putNode (by decide) t _ _).bind fun _ =>
    (Cmd.Writes.update fun t => .putNode (by decide) t _ _).bind fun _ =>
    (Cmd.Writes.update fun t => .withFt (by decide) t _).bind fun _ => .pure _

theorem rootState_writes (s : State) : WritesOnly [.dr, .ft, .mem .node, .mem .span] s (rootState s) :=
  (((WritesOnly.withSpanMem (by decide) (Memory.wf_writeList _ _)).trans (.putNode (by decide) _ 0 _)).trans
    (.withDr (by decide) _ _)).trans (.withFt (by decide) _ _)

theorem makeRoot_writes : Cmd.Writes [.dr, .ft, .mem .node, .mem .span] makeRoot :=
  .get fun _ => .require_bind <| .require_bind <| .update rootState_writes

theorem readColor_writes : Cmd.Writes [.status, .rd] readColor :=
  .get fun _ => .ite ((readNumber_writes _).bind fun _ => .pure _)
    ((readNumber_writes _).bind fun _ => (readNumber_writes _).bind fun _ => (readNumber_writes _).bind fun _ => .pure _)

theorem readAngle_writes (level : Fin 7) : Cmd.Writes [.status, .rd] (readAngle level) :=
  .get fun _ => (readNumber_writes _).bind fun _ => .pure _

theorem parseFill_writes (n : Nat) : Cmd.Writes [.status, .rd, .mem .node] (parseFill n) :=
  (readColor_writes.mono (by decide)).bind fun _ =>
    (Cmd.Writes.update fun s => .putNode (by decide) s n _).bind fun _ => .update fun s => .putNode (by decide) s n _

/-- The parts that parsing a node writes. -/
def parseParts : List Part := [.status, .rd, .dr, .ft, .freeCount, .mem .node, .mem .span]

theorem parseSplit_writes (n : Nat) : Cmd.Writes parseParts (parseSplit n) := by
  refine .get fun s => ?_
  cases s.getLevel n with
  | none => exact .raise _
  | some level =>
    exact ((readAngle_writes level.1).mono (by decide)).bind fun ang =>
      (Cmd.Writes.update fun t => (drUpdate_writes n ang t).mono (by decide)).bind fun _ => .get fun t =>
      ((readNumber_writes _).mono (by decide)).bind fun line => ((allocChildren_writes n).mono (by decide)).bind fun kids =>
      (Cmd.Writes.update fun u => (splitInto_writes n ang _ _ _ u).mono (by decide)).bind fun _ =>
      (Cmd.Writes.update fun u => .putNode (by decide) u n _).bind fun _ => .update fun u => .putNode (by decide) u n _

theorem parseNode_writes : Cmd.Writes parseParts parseNode := by
  refine .get fun s => ((readNumber_writes 2).mono (by decide)).bind fun t => ?_
  have hhead : Cmd.Writes parseParts (update fun u => u.withFt { u.ft with head := u.ft.head + 1 }) :=
    .update fun u => .withFt (by decide) u _
  exact .ite (((parseFill_writes _).mono (by decide)).bind fun _ => hhead) ((parseSplit_writes _).bind fun _ => hhead)

theorem parseAll_writes (k : Nat) : Cmd.Writes parseParts (parseAll k) := by
  induction k with
  | zero => exact .pure _
  | succ k ih => exact .get fun s => .ite (parseNode_writes.bind fun _ => ih) (.pure _)

theorem paintRun_writes (c : Colour) (y k x : Nat) (s : State) : WritesOnly [.mem .pix] s (paintRun c y k x s) := by
  induction k generalizing x s with
  | zero => exact .refl _ s
  | succ k ih =>
    have hpixel : ∀ p, WritesOnly [.mem .pix] s (putPixel c p s) := fun p =>
      (((WritesOnly.putPix (by decide) s p _).trans (.putPix (by decide) _ _ _)).trans (.putPix (by decide) _ _ _)).trans
        (.putPix (by decide) _ _ _)
    exact (hpixel _).trans (ih (x + 1) _)

theorem paintSpans_writes (c : Colour) (p : List SpanRec) (s : State) :
    WritesOnly [.mem .pix] s (paintSpans c p s) := by
  induction p generalizing s with
  | nil => exact .refl _ s
  | cons p rest ih => exact (paintRun_writes c _ _ _ s).trans (ih _)

theorem renderNode_writes (n : Nat) (s : State) : WritesOnly [.mem .pix] s (renderNode n s) := by
  unfold renderNode
  split
  · exact paintSpans_writes _ _ s
  · exact .refl _ s
  · exact .refl _ s

theorem renderFrom_writes (k n : Nat) (s : State) : WritesOnly [.mem .pix] s (renderFrom k n s) := by
  induction k generalizing n s with
  | zero => exact .refl _ s
  | succ k ih => exact (renderNode_writes n s).trans (ih (n + 1) _)

theorem render_writes : Cmd.Writes [.mem .pix] render :=
  .get fun _ => .require_bind <| .update fun s => renderFrom_writes _ _ s

theorem setPhase_writes (p : FtPhase) : Cmd.Writes [.ft] (setPhase p) := .update fun s => .withFt (by decide) s _

theorem setImageResults_writes : Cmd.Writes [.res0, .res1, .res2] setImageResults :=
  (Cmd.Writes.update fun s => .withRes0 (by decide) s _).bind fun _ =>
    (Cmd.Writes.update fun s => .withRes1 (by decide) s _).bind fun _ => .update fun s => .withRes2 (by decide) s _

/-! #### The encoder -/

theorem reEmit_writes (v : Byte) : Cmd.Writes [.re, .mem .out] (reEmit v) :=
  .of_apply fun s => by
    rw [reEmit_apply]
    by_cases h : s.re.outLen.toNat < s.cfg.outCap
    · rw [if_pos h]; exact (WritesOnly.putOut (by decide) s _ v).trans (.withRe (by decide) _ _)
    · rw [if_neg h]; exact .refl _ s

/-- One round of the encoder's renormalization that shifts: a byte goes out, and the loop goes on from the shifted values. -/
theorem reNormalize_succ {n : Nat} {s : State} {c : Coder} (h : s.re.coder.toShift = some c) (hc : c.collapsed = false) :
    reNormalize (n + 1) s =
      (reEmit c.topByte >>= fun _ => update (fun u => u.withRe { u.re with coder := c.shift }) >>= fun _ => reNormalize n)
        (s.withRe { s.re with coder := c }) := by
  rw [reNormalize, h]
  simp only [hc, Bool.false_eq_true, if_false]
  cases he : reEmit c.topByte (s.withRe { s.re with coder := c }) with
  | ok a u => rw [bind_of_ok he]; rfl
  | error e u => rw [bind_of_error he]

theorem reNormalize_writes (n : Nat) : Cmd.Writes [.re, .mem .out] (reNormalize n) := by
  induction n with
  | zero => exact .of_apply fun s => .refl _ s
  | succ n ih =>
    intro s₀ s hs
    cases hts : s.re.coder.toShift with
    | none => rw [reNormalize, hts]; exact hs
    | some c =>
      have hcoder := hs.trans (WritesOnly.withRe (by decide) s { s.re with coder := c })
      cases hc : c.collapsed with
      | true => rw [reNormalize, hts]; simp only [hc, if_true]; exact hcoder
      | false =>
        rw [reNormalize_succ hts hc]
        exact ((reEmit_writes _).bind fun _ => (Cmd.Writes.update fun u => .withRe (by decide) u _).bind fun _ => ih)
          s₀ _ hcoder

theorem rePut_writes (bottom top total : Nat) : Cmd.Writes [.re, .mem .out] (rePut bottom top total) :=
  (Cmd.Writes.update fun s => .withRe (by decide) s _).bind fun _ => reNormalize_writes _

theorem reLog_writes (bottom top total : Nat) : Cmd.Writes [.re, .mem .log] (reLog bottom top total) :=
  .of_apply fun s => by
    rcases reLog_spec bottom top total s with ⟨_, t, he, _, ht, _⟩ | ⟨_, he⟩
    · rw [he, ht]; exact (WritesOnly.withRe (by decide) s _).trans (.putLog (by decide) _ _ _)
    · rw [he]; exact .refl _ s

theorem reFlush_writes (n : Nat) : Cmd.Writes [.re, .mem .out] (reFlush n) := by
  induction n with
  | zero => exact .pure _
  | succ n ih =>
    have hbyte : Cmd.Writes [.re, .mem .out] reFlushByte :=
      .get fun s => (reEmit_writes _).bind fun _ => .update fun t => .withRe (by decide) t _
    exact hbyte.bind fun _ => ih

theorem reFinish_writes : Cmd.Writes [.re, .mem .out] reFinish :=
  (reFlush_writes _).bind fun _ => .update fun s => .withRe (by decide) s _

theorem setRes0OutLen_writes : Cmd.Writes [.res0] setRes0OutLen := .update fun s => .withRes0 (by decide) s _

/-- The search of the minimizer keeps the canonical form: it writes `OUT` by the carry alone. -/
theorem minimizeLoop_wf (log : Nat → Triplet) (logLen n : Nat) (out : List Host.Cell) (h : Memory.wf out = true) :
    Memory.wf (minimizeLoop log logLen n out).2 = true := by
  induction n generalizing out with
  | zero => exact h
  | succ n ih =>
    rw [minimizeLoop]
    split
    · exact ih out h
    split
    · exact ih out h
    split
    · exact h
    split
    · exact ih _ (Memory.wf_fill _ _ _ (Memory.wf_write _ _ h))
    · exact h

theorem minimize_writes (s : State) : WritesOnly [.re, .rp, .freeCount, .mem .out] s (minimize s) :=
  (((WritesOnly.withOutMem (by decide) fun h => Memory.wf_replaceFrom _ _ (minimizeLoop_wf _ _ _ _ h)).trans
    (.withRe (by decide) _ _)).trans (.withRp (by decide) _ _)).trans (.countFree (by decide) _)

/-! #### The commands -/

/-- The pseudocode that a command runs between its start and its end; `SYS.RESET`, which has neither, runs none
(30_encoding.md R101, 48_system.md R320). -/
def commandBody : Instr → Cmd Unit
  | .sysReset => pure ()
  | .rdInit => rdInitBody
  | .rdCount => rdCountBody
  | .rdRemove => rdRemoveBody
  | .rdNum => rdNumBody
  | .reInit => reInitBody
  | .rePut => rePutBody
  | .reNum => reNumBody
  | .reFinish => reFinishBody
  | .reOptfin => reOptfinBody
  | .tgLookup => tgLookupBody
  | .cpSetcode => cpSetcodeBody
  | .cpRead => cpReadBody
  | .cpSize => cpSizeBody
  | .cpLevel => cpLevelBody
  | .cpDeq => cpDeqBody
  | .drUpdate => drUpdateBody
  | .drDist => drDistBody
  | .rgSplit => rgSplitBody
  | .ftRoot => ftRootBody
  | .ftParse => ftParseBody
  | .ftRender => ftRenderBody
  | .ftDecode => ftDecodeBody

theorem exec_eq_runCommand {i : Instr} (h : i ≠ .sysReset) (s : State) : exec i s = runCommand i (commandBody i) s := by
  cases i with
  | sysReset => exact absurd rfl h
  | _ => rfl

/-- The parts that the run of a command may write. -/
def runParts (i : Instr) : List Part := faultParts ++ mayWrite i

theorem rdInitBody_writes : Cmd.Writes (runParts .rdInit) rdInitBody :=
  .get fun s => .require_bind <| (Cmd.Writes.update fun t => (rdInit_writes _ t).mono (by decide)).bind fun _ =>
    .update fun t => .withRes0 (by decide) t _

theorem rdCountBody_writes : Cmd.Writes (runParts .rdCount) rdCountBody :=
  .get fun _ => .require_bind <| .require_bind <|
    ((rdCount_writes _).mono (by decide)).bind fun _ => (setRes0_writes _).mono (by decide)

theorem rdRemoveBody_writes : Cmd.Writes (runParts .rdRemove) rdRemoveBody :=
  .get fun _ => .require_bind <| .require_bind <| .require_bind <| (rdRemove_writes _ _).mono (by decide)

theorem rdNumBody_writes : Cmd.Writes (runParts .rdNum) rdNumBody :=
  .get fun _ => .require_bind <| .require_bind <|
    ((readNumber_writes _).mono (by decide)).bind fun _ => (setRes0_writes _).mono (by decide)

theorem reInitBody_writes : Cmd.Writes (runParts .reInit) reInitBody := .update fun s => .withRe (by decide) s _

theorem rePutBody_writes : Cmd.Writes (runParts .rePut) rePutBody :=
  .get fun _ => .require_bind <| .require_bind <| .require_bind <| ((reLog_writes _ _ _).mono (by decide)).bind fun _ =>
    ((rePut_writes _ _ _).mono (by decide)).bind fun _ => setRes0OutLen_writes.mono (by decide)

theorem reNumBody_writes : Cmd.Writes (runParts .reNum) reNumBody := by
  have hlen : Cmd.Writes (runParts .reNum) setRes0OutLen := setRes0OutLen_writes.mono (by decide)
  exact .get fun _ => .require_bind <| .require_bind <| .require_bind <| .ite ((Cmd.Writes.pure ()).bind fun _ => hlen)
      (((reLog_writes _ _ _).mono (by decide)).bind fun _ => ((rePut_writes _ _ _).mono (by decide)).bind fun _ => hlen)

theorem reFinishBody_writes : Cmd.Writes (runParts .reFinish) reFinishBody :=
  .get fun _ => .require_bind <| (reFinish_writes.mono (by decide)).bind fun _ =>
    setRes0OutLen_writes.mono (by decide)

theorem reOptfinBody_writes : Cmd.Writes (runParts .reOptfin) reOptfinBody := by
  have hmin : Cmd.Writes (runParts .reOptfin)
      (update (fun t => t.withRes1 t.re.outLen) >>= fun _ => update minimize >>= fun _ => setRes0OutLen) :=
    (Cmd.Writes.update fun t => .withRes1 (by decide) t _).bind fun _ =>
      (Cmd.Writes.update fun t => (minimize_writes t).mono (by decide)).bind fun _ => setRes0OutLen_writes.mono (by decide)
  exact .get fun _ => .require_bind <| .ite ((reFinish_writes.mono (by decide)).bind fun _ => hmin) hmin

theorem tgLookupBody_writes : Cmd.Writes (runParts .tgLookup) tgLookupBody :=
  .get fun _ => .require_bind <| ((setRes0_writes _).mono (by decide)).bind fun _ =>
    (setRes1_writes _).mono (by decide)

theorem cpSetcodeBody_writes : Cmd.Writes (runParts .cpSetcode) cpSetcodeBody :=
  .get fun _ => .require_bind <| .require_bind <| .require_bind <|
    (Cmd.Writes.update fun t => (setCode_writes _ t).mono (by decide)).bind fun _ => (setRes0_writes _).mono (by decide)

theorem cpReadBody_writes : Cmd.Writes (runParts .cpRead) cpReadBody :=
  .get fun _ => .require_bind <| .require_bind <| .require_bind <| .require_bind <|
    ((readHeader_writes _).mono (by decide)).bind fun _ =>
    (Cmd.Writes.update fun t => .withRes0 (by decide) t _).bind fun _ =>
    (Cmd.Writes.update fun t => .withRes1 (by decide) t _).bind fun _ =>
    ((setRes2_writes _).mono (by decide)).bind fun _ => .update fun t => .withRes3 (by decide) t _

theorem cpSizeBody_writes : Cmd.Writes (runParts .cpSize) cpSizeBody :=
  .get fun _ => .require_bind <| (readSize_writes.mono (by decide)).bind fun _ =>
    (setRes0_writes _).mono (by decide)

theorem cpLevelBody_writes : Cmd.Writes (runParts .cpLevel) cpLevelBody := by
  refine .get fun s => .require_bind <| .require_bind <| ?_
  cases s.getLevel s.operand0 with
  | none => exact .raise _
  | some level => exact ((setRes0_writes _).mono (by decide)).bind fun _ => (setRes1_writes _).mono (by decide)

theorem cpDeqBody_writes : Cmd.Writes (runParts .cpDeq) cpDeqBody :=
  .get fun _ => .require_bind <| (setRes0_writes _).mono (by decide)

theorem drUpdateBody_writes : Cmd.Writes (runParts .drUpdate) drUpdateBody :=
  .get fun _ => .require_bind <| .require_bind <| .require_bind <| .require_bind <|
    (Cmd.Writes.update fun t => (drUpdate_writes _ _ t).mono (by decide)).bind fun _ =>
    (Cmd.Writes.update fun t => .withRes0 (by decide) t _).bind fun _ =>
    (Cmd.Writes.update fun t => .withRes1 (by decide) t _).bind fun _ =>
    (Cmd.Writes.update fun t => .withRes2 (by decide) t _).bind fun _ => .update fun t => .withRes3 (by decide) t _

theorem drDistBody_writes : Cmd.Writes (runParts .drDist) drDistBody :=
  .get fun _ => .require_bind <| .require_bind <| (setRes0_writes _).mono (by decide)

theorem rgSplitBody_writes : Cmd.Writes (runParts .rgSplit) rgSplitBody :=
  .get fun _ => .require_bind <| .require_bind <| .require_bind <| .require_bind <| .require_bind <|
    (Cmd.Writes.update fun t => (splitInto_writes _ _ _ _ _ t).mono (by decide)).bind fun _ =>
    (Cmd.Writes.update fun t => .withRes0 (by decide) t _).bind fun _ => .update fun t => .withRes1 (by decide) t _

theorem ftRootBody_writes : Cmd.Writes (runParts .ftRoot) ftRootBody :=
  .get fun _ => .require_bind <| (makeRoot_writes.mono (by decide)).bind fun _ =>
    (setRes0_writes _).mono (by decide)

theorem ftParseBody_writes : Cmd.Writes (runParts .ftParse) ftParseBody :=
  .get fun _ => .require_bind <| .require_bind <| .require_bind <| (parseNode_writes.mono (by decide)).bind fun _ =>
    ((setRes0_writes _).mono (by decide)).bind fun _ =>
    (Cmd.Writes.update fun t => .withRes1 (by decide) t _).bind fun _ => .update fun t => .withRes2 (by decide) t _

theorem ftRenderBody_writes : Cmd.Writes (runParts .ftRender) ftRenderBody :=
  .get fun _ => .require_bind <| .require_bind <|
    (render_writes.mono (by decide)).bind fun _ => ((setPhase_writes _).mono (by decide)).bind fun _ =>
    setImageResults_writes.mono (by decide)

theorem ftDecodeBody_writes : Cmd.Writes (runParts .ftDecode) ftDecodeBody :=
  .get fun _ => .require_bind <| .require_bind <| .require_bind <| ((setPhase_writes _).mono (by decide)).bind fun _ =>
    (Cmd.Writes.update fun t => (rdInit_writes _ t).mono (by decide)).bind fun _ =>
    ((readHeader_writes _).mono (by decide)).bind fun _ => .get fun _ => .require_bind <|
    (makeRoot_writes.mono (by decide)).bind fun _ => ((parseAll_writes _).mono (by decide)).bind fun _ =>
    (render_writes.mono (by decide)).bind fun _ => ((setPhase_writes _).mono (by decide)).bind fun _ =>
    (setImageResults_writes.mono (by decide)).bind fun _ => .update fun u => .withRes3 (by decide) u _

/-- The run of every command writes only the parts listed for it. -/
theorem body_writes (i : Instr) : Cmd.Writes (runParts i) (commandBody i) := by
  cases i with
  | sysReset => exact .pure ()
  | rdInit => exact rdInitBody_writes
  | rdCount => exact rdCountBody_writes
  | rdRemove => exact rdRemoveBody_writes
  | rdNum => exact rdNumBody_writes
  | reInit => exact reInitBody_writes
  | rePut => exact rePutBody_writes
  | reNum => exact reNumBody_writes
  | reFinish => exact reFinishBody_writes
  | reOptfin => exact reOptfinBody_writes
  | tgLookup => exact tgLookupBody_writes
  | cpSetcode => exact cpSetcodeBody_writes
  | cpRead => exact cpReadBody_writes
  | cpSize => exact cpSizeBody_writes
  | cpLevel => exact cpLevelBody_writes
  | cpDeq => exact cpDeqBody_writes
  | drUpdate => exact drUpdateBody_writes
  | drDist => exact drDistBody_writes
  | rgSplit => exact rgSplitBody_writes
  | ftRoot => exact ftRootBody_writes
  | ftParse => exact ftParseBody_writes
  | ftRender => exact ftRenderBody_writes
  | ftDecode => exact ftDecodeBody_writes

theorem resetRegisters_writes (s : State) : WritesOnly (runParts .sysReset) s (resetRegisters s) := by
  have hm : SameMemories s (resetRegisters s) := ⟨rfl, rfl, rfl, rfl, rfl, rfl, rfl⟩
  refine .of_sameMemories (keepsAllBut_iff.mpr ?_) hm
  simp only [Part.kept, hm.readElement]
  simp [runParts, faultParts, mayWrite, resetRegisters]

/-- Whether a command completes or faults, it writes only the parts listed for it. -/
theorem exec_writes {i : Instr} {s t : State} (h : exec i s = .next t) : WritesOnly (runParts i) s t := by
  by_cases hi : i = .sysReset
  · subst hi
    cases h
    exact resetRegisters_writes s
  · rw [exec_eq_runCommand hi] at h
    rcases runCommand_cases i (commandBody i) s with ⟨u, hu, he⟩ | ⟨c, u, hu, he⟩
    · rw [he] at h
      cases h
      exact ((body_writes i).ok hu).trans (.withStatus (by simp [runParts, faultParts]) _ _)
    · rw [he] at h
      cases h
      exact ((body_writes i).error hu).trans ((WritesOnly.raiseFault c _ u).mono (List.subset_append_left _ _))

/-- Settles O17: the frame half of `exec_writes`. -/
theorem commandsWriteOnlyTheirParts : Obligations.CommandsWriteOnlyTheirParts :=
  fun _ _ _ h => (exec_writes h).1

end Sys2Proof.Machine
end

section
/-! PROOFS. Everything that a step can do, and what it writes. -/

namespace Sys2Proof.Machine

/-! ### Everything that a step can do -/

/-- The state after the element that the action writes is stored; an action that writes none changes nothing. -/
def HostAction.storeIn : HostAction → State → State
  | .writeReg _ _, s => s
  | .readReg _, s => s
  | .writeIn i v, s => s.putIn i v
  | .writeOut i v, s => s.putOut i v
  | .writeLog i v, s => s.putLog i v
  | .writePal i v, s => s.putPal i v
  | .writeNode i v, s => s.putNode i v
  | .writeSpan i v, s => s.putSpan i v
  | .writePix i v, s => s.putPix i v
  | .readMem _ _, s => s

/-- An element write by an idle block: refused if the memory is the block's own, and otherwise an access to the element. -/
theorem idleAction_of_stores {a : HostAction} {sp : Space} {i : Nat} {d : BusData} (h : a.stores = some (sp, i, d))
    (s : State) :
    idleAction a s = if s.owned sp then .refused .treeMemoryOwned else accessElement sp i s (a.storeIn s) := by
  cases a <;> cases h <;> rfl

theorem storeIn_writes {a : HostAction} {sp : Space} {i : Nat} {d : BusData} (h : a.stores = some (sp, i, d))
    (s : State) : WritesOnly [.mem sp] s (a.storeIn s) := by
  cases a with
  | writeReg n v => cases h
  | readReg n => cases h
  | writeIn i v => cases h; exact .putIn (by decide) s i v
  | writeOut i v => cases h; exact .putOut (by decide) s i v
  | writeLog i v => cases h; exact .putLog (by decide) s i v
  | writePal i v => cases h; exact .putPal (by decide) s i v
  | writeNode i v => cases h; exact .putNode (by decide) s i v
  | writeSpan i v => cases h; exact .putSpan (by decide) s i v
  | writePix i v => cases h; exact .putPix (by decide) s i v
  | readMem sp i => cases h

theorem storeIn_readElement {a : HostAction} {sp : Space} {i : Nat} {d : BusData} (h : a.stores = some (sp, i, d))
    (s : State) (j : Nat) : (a.storeIn s).readElement sp j = if j = i then d else s.readElement sp j := by
  have hread : ∀ {α : Type} (f : α → BusData) (m : Memory α) (k : Nat) (v w : α),
      f ((Memory.read? (Memory.write m k v) j).getD w) = if j = k then f v else f ((Memory.read? m j).getD w) := by
    intro α f m k v w
    rw [Memory.read?_write]
    split <;> rfl
  cases a with
  | writeReg n v => cases h
  | readReg n => cases h
  | writeIn i v => cases h; exact hread .byte s.inMem i v _
  | writeOut i v => cases h; exact hread .byte s.outMem i v _
  | writeLog i v => cases h; exact hread .triplet s.logMem i v _
  | writePal i v => cases h; exact hread .colour s.palMem i v _
  | writeNode i v => cases h; exact hread .node s.nodeMem i v _
  | writeSpan i v => cases h; exact hread .span s.spanMem i v _
  | writePix i v => cases h; exact hread .byte s.pixMem i v _
  | readMem sp i => cases h

/-- Other host actions wait. -/
def State.withPending (s : State) (l : List HostAction) : State := { s with pending := l }

theorem withPending_writes (s : State) (l : List HostAction) : WritesOnly [.hostSide] s (s.withPending l) := by
  have hm : SameMemories s (s.withPending l) := ⟨rfl, rfl, rfl, rfl, rfl, rfl, rfl⟩
  refine .of_sameMemories (keepsAllBut_iff.mpr ?_) hm
  simp only [Part.kept, hm.readElement]
  simp [State.withPending]

theorem accessElement_eq_next {sp : Space} {i : Nat} {s t u : State} (h : accessElement sp i s t = .next u) :
    i < s.cfg.capacity sp ∧ u = t := by
  unfold accessElement at h
  split at h
  · cases h; exact ⟨‹_›, rfl⟩
  · cases h

/-- An element write that answers a next state has stored its element. -/
theorem idleAction_next_of_stores {a : HostAction} {sp : Space} {i : Nat} {d : BusData} {s t : State}
    (ha : a.stores = some (sp, i, d)) (h : idleAction a s = .next t) :
    s.owned sp = false ∧ i < s.cfg.capacity sp ∧ t = a.storeIn s := by
  rw [idleAction_of_stores ha] at h
  cases ho : s.owned sp with
  | true => rw [ho, if_pos rfl] at h; cases h
  | false =>
    rw [ho, if_neg Bool.false_ne_true] at h
    exact ⟨rfl, accessElement_eq_next h⟩

/-- Everything that a host action of an idle block can do where it answers a next state: a read, an issue of a command, a
write of another register, a write of an element. -/
theorem idleAction_cases {a : HostAction} {s t : State} (h : idleAction a s = .next t) :
    ((∀ n v, a ≠ .writeReg n v) ∧ ∃ d, t = s.withBus d) ∨
    (∃ w, a = .writeReg 0x00 w ∧ issueCommand w s = .next t) ∨
    (∃ n v, a = .writeReg n v ∧ n ≠ 0x00 ∧ t = writeDataReg n v s) ∨
    (∃ sp i d, a.stores = some (sp, i, d) ∧ s.owned sp = false ∧ i < s.cfg.capacity sp ∧ t = a.storeIn s) := by
  cases hs : a.stores with
  | some q => exact .inr (.inr (.inr ⟨q.1, q.2.1, q.2.2, rfl, idleAction_next_of_stores hs h⟩))
  | none =>
    cases a with
    | writeReg n v =>
      by_cases hn : n = 0x00
      · subst hn; exact .inr (.inl ⟨v, rfl, h⟩)
      · rw [idleAction, if_neg hn] at h
        cases h
        exact .inr (.inr (.inl ⟨n, v, rfl, hn, rfl⟩))
    | readReg n => cases h; exact .inl ⟨nofun, _, rfl⟩
    | readMem sp i => exact .inl ⟨nofun, _, (accessElement_eq_next h).2⟩
    | _ => cases hs

/-- Everything that a step can do where it answers a next state. -/
theorem step_cases {s t : State} (h : step s = .next t) :
    (s.pending = [] ∧ t = s) ∨
    ∃ a rest, s.pending = a :: rest ∧
      (((∀ n v, a ≠ .writeReg n v) ∧ ∃ d, t = (s.withPending rest).withBus d) ∨
      s.status.busy = false ∧ idleAction a (s.withPending rest) = .next t) := by
  cases hp : s.pending with
  | nil => rw [step_idle hp] at h; cases h; exact .inl ⟨rfl, rfl⟩
  | cons a rest =>
    refine .inr ⟨a, rest, rfl, ?_⟩
    cases hb : s.status.busy with
    | false => exact .inr ⟨rfl, step_of_not_busy hp hb ▸ h⟩
    | true =>
      rw [step_action hp, hostAction, if_pos hb] at h
      cases a with
      | readReg n =>
        rw [busyAction] at h
        split at h
        · cases h; exact .inl ⟨nofun, _, rfl⟩
        · cases h
      | _ => cases h

/-- The only word that decodes to `SYS.RESET` is `0x01` (30_encoding.md R102). -/
theorem decode_sysReset_iff (w : Word) : decode w = .command .sysReset ↔ w = 0x01 := by
  refine ⟨fun h => ?_, fun h => by subst h; rfl⟩
  have hop : ∀ op : Byte, instrOfOpcode op = some .sysReset → op = 0x01 := by decide
  unfold decode at h
  split at h
  · cases h
  · split at h
    · rename_i hw i hi
      cases h
      have h8 := hop _ hi
      unfold opcodeField at h8
      bv_omega
    · cases h

/-- Everything that a write of `CMD` can do where it answers a next state (30_encoding.md R101, 60_exceptions.md R342): a
refusal, the reset, a command outside the fault state, or an illegal word. -/
theorem issueCommand_cases {w : Word} {s t : State} (h : issueCommand w s = .next t) :
    (w ≠ 0x01 ∧ s.status.fault = true ∧ t = s) ∨
    (w = 0x01 ∧ t = resetRegisters (beginCommand s)) ∨
    (w ≠ 0x01 ∧ s.status.fault = false ∧ ∃ i, i ≠ .sysReset ∧ exec i (beginCommand s) = .next t) ∨
    (w ≠ 0x01 ∧ s.status.fault = false ∧ ∃ c cmd, t = raiseFault c cmd (beginCommand s)) := by
  by_cases hw : w = 0x01
  · subst hw
    rw [issueCommand, if_neg (by simp)] at h
    cases h
    exact .inr (.inl ⟨rfl, rfl⟩)
  unfold issueCommand runWord at h
  cases hf : s.status.fault with
  | true =>
    rw [if_pos ⟨hf, hw⟩] at h
    cases h
    exact .inl ⟨hw, rfl, rfl⟩
  | false =>
    rw [hf, if_neg (by simp)] at h
    refine .inr (.inr ?_)
    cases hd : decode w with
    | command i =>
      rw [hd] at h
      refine .inl ⟨hw, rfl, i, ?_, h⟩
      rintro rfl
      exact hw ((decode_sysReset_iff w).mp hd)
    | reservedBits => rw [hd] at h; cases h; exact .inr ⟨hw, rfl, _, _, rfl⟩
    | unlistedOpcode => rw [hd] at h; cases h; exact .inr ⟨hw, rfl, _, _, rfl⟩

/-! ### What each of them writes -/

theorem beginCommand_writes (s : State) : WritesOnly [.status, .cmdSeq] s (beginCommand s) := by
  have hm : SameMemories s (beginCommand s) := ⟨rfl, rfl, rfl, rfl, rfl, rfl, rfl⟩
  refine .of_sameMemories (keepsAllBut_iff.mpr ?_) hm
  simp only [Part.kept, hm.readElement]
  simp [beginCommand]

theorem withArgs_writes (s : State) (a b c : Word) : WritesOnly [.args] s (s.withArgs a b c) := by
  have hm : SameMemories s (s.withArgs a b c) := ⟨rfl, rfl, rfl, rfl, rfl, rfl, rfl⟩
  refine .of_sameMemories (keepsAllBut_iff.mpr ?_) hm
  simp only [Part.kept, hm.readElement]
  simp [State.withArgs]

/-- A write of a register other than `CMD` writes the operands or the bank, or raises the lock's fault. -/
theorem writeDataReg_writes (n : Nat) (v : Word) (s : State) :
    WritesOnly (.args :: .cp :: faultParts) s (writeDataReg n v s) := by
  rcases writeDataReg_cases n v s with ⟨_, he⟩ | ⟨_, he⟩ | ⟨_, he⟩ | ⟨_, _, _, b, _, he⟩ | ⟨_, _, _, _, he⟩
  · rw [he]; exact (withArgs_writes s v s.arg1 s.arg2).mono (by decide)
  · rw [he]; exact (withArgs_writes s s.arg0 v s.arg2).mono (by decide)
  · rw [he]; exact (withArgs_writes s s.arg0 s.arg1 v).mono (by decide)
  · rw [he]
    rcases writeBank_cases b s with ⟨_, hb⟩ | ⟨_, _, hb⟩ | ⟨_, _, hb⟩
    · rw [hb]; exact .withCp (by decide) s b
    · rw [hb]; exact .refl _ s
    · rw [hb]; exact (WritesOnly.raiseFault _ _ s).mono (by decide)
  · rw [he]; exact .refl _ s

theorem issueCommand_memoriesWf {w : Word} {s t : State} (h : issueCommand w s = .next t)
    (hs : s.memoriesWf = true) : t.memoriesWf = true := by
  have hbegin := (beginCommand_writes s).2 hs
  rcases issueCommand_cases h with ⟨_, _, rfl⟩ | ⟨_, rfl⟩ | ⟨_, _, i, _, he⟩ | ⟨_, _, c, cmd, rfl⟩
  · exact hs
  · exact (resetRegisters_writes _).2 hbegin
  · exact (exec_writes he).2 hbegin
  · exact (WritesOnly.raiseFault c cmd _).2 hbegin

/-- Settles O58: whatever a step does writes through the memory operations, each of which keeps the canonical form. -/
theorem stepKeepsCanonicalMemories : Obligations.StepKeepsCanonicalMemories := by
  intro s t hs h
  rcases step_cases h with ⟨_, rfl⟩ | ⟨a, rest, _, hread | ⟨_, ha⟩⟩
  · exact hs
  · obtain ⟨_, d, rfl⟩ := hread
    exact hs
  · have hs' := (withPending_writes s rest).2 hs
    rcases idleAction_cases ha with ⟨_, d, rfl⟩ | ⟨w, _, hi⟩ | ⟨n, v, _, _, rfl⟩ | ⟨sp, i, d, hst, _, _, rfl⟩
    · exact hs'
    · exact issueCommand_memoriesWf hi hs'
    · exact (writeDataReg_writes n v _).2 hs'
    · exact (storeIn_writes hst _).2 hs'

theorem cmdSeq_notMem_runParts {i : Instr} (h : i ≠ .sysReset) : Part.cmdSeq ∉ runParts i := by
  cases i with
  | sysReset => exact absurd rfl h
  | _ => decide

theorem issueCommand_cmdSeq {w : Word} {s t : State} (h : issueCommand w s = .next t) :
    t.cmdSeq = if w = 0x01 then 0 else if s.status.fault = true then s.cmdSeq else s.cmdSeq + 1 := by
  rcases issueCommand_cases h with ⟨hw, hf, rfl⟩ | ⟨hw, rfl⟩ | ⟨hw, hf, i, hi, he⟩ | ⟨hw, hf, c, cmd, rfl⟩
  · rw [if_neg hw, if_pos hf]
  · rw [if_pos hw]; rfl
  · rw [if_neg hw, hf, if_neg Bool.false_ne_true]
    exact (exec_writes he).1 .cmdSeq (cmdSeq_notMem_runParts hi)
  · rw [if_neg hw, hf, if_neg Bool.false_ne_true]
    exact keepsAllBut_raiseFault c cmd _ .cmdSeq (by decide)

/-- Settles O9: by the kind of the host action; a write of `CMD` by `issueCommand_cmdSeq`. -/
theorem commandsAreCounted : Obligations.CommandsAreCounted := by
  intro s t a rest hp h
  rcases step_cases h with ⟨hnil, _⟩ | ⟨a', rest', hp', hcase⟩
  · rw [hp] at hnil; cases hnil
  rw [hp] at hp'
  cases hp'
  rcases hcase with ⟨hno, d, rfl⟩ | ⟨_, ha⟩
  · exact ⟨fun w hw => absurd hw (hno _ w), fun _ => rfl⟩
  rcases idleAction_cases ha with ⟨hno, d, rfl⟩ | ⟨w, rfl, hi⟩ | ⟨n, v, rfl, hn, rfl⟩ | ⟨sp, i, d, hst, _, _, rfl⟩
  · exact ⟨fun w hw => absurd hw (hno _ w), fun _ => rfl⟩
  · refine ⟨fun w' hw' => ?_, fun hno => absurd rfl (hno w)⟩
    cases hw'
    have hcount := issueCommand_cmdSeq hi
    exact hcount
  · refine ⟨fun w' hw' => absurd (by cases hw'; rfl) hn, fun _ => ?_⟩
    exact (writeDataReg_writes n v _).1 .cmdSeq (by decide)
  · refine ⟨fun w hw => by (subst hw; cases hst), fun _ => ?_⟩
    exact (storeIn_writes hst _).1 .cmdSeq (by simp)

/-- Everything that a host write of an element can do while no command executes. -/
theorem step_of_stores {s : State} {a : HostAction} {rest : List HostAction} {sp : Space} {i : Nat} {d : BusData}
    (hp : s.pending = a :: rest) (hb : s.status.busy = false) (ha : a.stores = some (sp, i, d)) :
    step s =
      if s.owned sp then .refused .treeMemoryOwned
      else if i < s.cfg.capacity sp then .next (a.storeIn (s.withPending rest)) else .fault (.noSuchElement sp) := by
  have howned : (s.withPending rest).owned sp = s.owned sp := by cases sp <;> rfl
  rw [← howned, step_of_not_busy hp hb]
  exact idleAction_of_stores ha (s.withPending rest)

/-- Settles O8: the answer by `step_of_stores`, the frame and the stored element by the lemmas of `storeIn`. -/
theorem elementAccess : Obligations.ElementAccess := by
  refine ⟨fun s a rest sp i d hp hb ha ho => ?_, fun s a rest sp i d hp hb ha ho => ?_, fun s rest sp i hp hb hi => ?_⟩
  · have hstep := step_of_stores hp hb ha
    rw [ho, if_neg Bool.false_ne_true] at hstep
    refine ⟨fun hi => ?_, fun hi => by rw [hstep, if_neg (by omega)]⟩
    rw [if_pos hi] at hstep
    have hstore := storeIn_writes ha (s.withPending rest)
    have hall : WritesOnly [.mem sp, .hostSide] s (a.storeIn (s.withPending rest)) :=
      ((withPending_writes s rest).mono (by simp)).trans (hstore.mono (by simp))
    obtain ⟨hcfg, hpending, hbus⟩ := hstore.1 .hostSide (by simp)
    refine ⟨_, hstep, hpending, by rw [storeIn_readElement ha, if_pos rfl], fun sp' j hne => ?_, hall.1, hcfg, hbus⟩
    by_cases hsp : sp' = sp
    · subst hsp
      rw [storeIn_readElement ha, if_neg fun hj => hne (by rw [hj])]
      exact (withPending_writes s rest).1 (.mem sp') (by simp) j
    · exact hall.1 (.mem sp') (by simpa using hsp) j
  · exact ⟨_, by rw [step_of_stores hp hb ha, ho, if_pos rfl]⟩
  · rw [step_of_not_busy hp hb]
    exact if_pos hi

end Sys2Proof.Machine
end

section
/-! PROOFS. The register map: what each number reads, and what a host write of it changes (10_state.md R22 to R34). -/

namespace Sys2Proof.Machine

/-! ### Registers by number (10_state.md R22) -/

theorem isBankNumber_iff (n : Nat) :
    isBankNumber n = true ↔ (0x40 ≤ n ∧ n ≤ 0x48) ∨ (0x50 ≤ n ∧ n < 0x57) ∨ (0x58 ≤ n ∧ n < 0x5F) := by
  simp only [isBankNumber, Bool.or_eq_true, decide_eq_true_eq]
  omega

theorem readReg_of_bankRange (s : State) {n : Nat} (h : 0x40 ≤ n ∧ n < 0x60) : s.readReg n = s.cp.read n := by
  unfold State.readReg
  iterate 14 rw [if_neg (by omega)]
  rw [if_pos h.2]

theorem readReg_arg0 (s : State) (v : Word) (m : Nat) :
    State.readReg { s with arg0 := v } m = if m = 0x08 then v else s.readReg m := by
  by_cases h : m = 0x08
  · subst h; rfl
  · simp only [State.readReg, h, if_false]

theorem readReg_arg1 (s : State) (v : Word) (m : Nat) :
    State.readReg { s with arg1 := v } m = if m = 0x09 then v else s.readReg m := by
  by_cases h : m = 0x09
  · subst h; rfl
  · simp only [State.readReg, h, if_false]

theorem readReg_arg2 (s : State) (v : Word) (m : Nat) :
    State.readReg { s with arg2 := v } m = if m = 0x0A then v else s.readReg m := by
  by_cases h : m = 0x0A
  · subst h; rfl
  · simp only [State.readReg, h, if_false]

/-- A write of the bank shows at the bank's numbers and nowhere else. -/
theorem readReg_withCp (s : State) (b : CpRegs) (m : Nat) :
    (s.withCp b).readReg m = if 0x40 ≤ m ∧ m < 0x60 then b.read m else s.readReg m := by
  by_cases h : 0x40 ≤ m ∧ m < 0x60
  · rw [if_pos h, readReg_of_bankRange _ h, withCp_cp]
  · rw [if_neg h]
    by_cases hm : m < 0x40
    · simp [State.readReg, hm]
    · simp [State.readReg, show ¬ m < 0x40 by omega, show ¬ m < 0x60 by omega]

/-! ### The parameter bank by number (10_state.md R31) -/

theorem CpRegs.read_levelScale (b : CpRegs) {n : Nat} (h : 0x50 ≤ n ∧ n < 0x57) :
    b.read n = b.levelScale[n - 0x50] := by
  unfold CpRegs.read
  iterate 9 rw [if_neg (by omega)]
  rw [dif_pos h]

theorem CpRegs.read_angleBits (b : CpRegs) {n : Nat} (h : 0x58 ≤ n ∧ n < 0x5F) :
    b.read n = b.angleBits[n - 0x58] := by
  unfold CpRegs.read
  iterate 9 rw [if_neg (by omega)]
  rw [dif_neg (by omega), dif_pos h]

/-- The bank `b'` reads `v` at the number `n` and otherwise as `b`. -/
def CpRegs.ReadsAs (b b' : CpRegs) (n : Nat) (v : Word) : Prop :=
  ∀ m, b'.read m = if m = n then v else b.read m

theorem CpRegs.write?_scalar (b : CpRegs) {n : Nat} (v : Word) (h : 0x40 ≤ n ∧ n ≤ 0x48) :
    ∃ b', b.write? n v = some b' ∧ b.ReadsAs b' n v := by
  obtain ⟨hlo, hhi⟩ := h
  interval_cases n
  all_goals
    refine ⟨_, rfl, fun m => ?_⟩
    split
    · subst m; rfl
    · simp only [CpRegs.read, *, if_false]

theorem CpRegs.write?_levelScale (b : CpRegs) {n : Nat} (v : Word) (h : 0x50 ≤ n ∧ n < 0x57) :
    ∃ b', b.write? n v = some b' ∧ b.ReadsAs b' n v := by
  refine ⟨{ b with levelScale := b.levelScale.set (n - 0x50) v }, ?_, fun m => ?_⟩
  · unfold CpRegs.write?
    iterate 9 rw [if_neg (by omega)]
    rw [dif_pos h]
  · by_cases hm : 0x50 ≤ m ∧ m < 0x57
    · rw [CpRegs.read_levelScale _ hm, CpRegs.read_levelScale _ hm, Vector.getElem_set]
      simp only [show n - 0x50 = m - 0x50 ↔ m = n by omega]
    · rw [if_neg (by omega)]
      simp only [CpRegs.read, hm, dite_false]

theorem CpRegs.write?_angleBits (b : CpRegs) {n : Nat} (v : Word) (h : 0x58 ≤ n ∧ n < 0x5F) :
    ∃ b', b.write? n v = some b' ∧ b.ReadsAs b' n v := by
  refine ⟨{ b with angleBits := b.angleBits.set (n - 0x58) v }, ?_, fun m => ?_⟩
  · unfold CpRegs.write?
    iterate 9 rw [if_neg (by omega)]
    rw [dif_neg (by omega), dif_pos h]
  · by_cases hm : 0x58 ≤ m ∧ m < 0x5F
    · rw [CpRegs.read_angleBits _ hm, CpRegs.read_angleBits _ hm, Vector.getElem_set]
      simp only [show n - 0x58 = m - 0x58 ↔ m = n by omega]
    · rw [if_neg (by omega)]
      simp only [CpRegs.read, hm, dite_false]

/-- A write of a bank register's number gives the bank with that register changed (10_state.md R31). -/
theorem CpRegs.write?_of_bankNumber (b : CpRegs) {n : Nat} (v : Word) (h : isBankNumber n = true) :
    ∃ b', b.write? n v = some b' ∧ b.ReadsAs b' n v := by
  rcases (isBankNumber_iff n).mp h with h | h | h
  · exact b.write?_scalar v h
  · exact b.write?_levelScale v h
  · exact b.write?_angleBits v h

theorem CpRegs.write?_of_not_bankNumber (b : CpRegs) {n : Nat} (v : Word) (h : isBankNumber n = false) :
    b.write? n v = none := by
  have hn := mt (isBankNumber_iff n).mpr (by simp [h])
  unfold CpRegs.write?
  iterate 9 rw [if_neg (by omega)]
  rw [dif_neg (by omega), dif_neg (by omega)]

/-- A host write of a register other than `CMD`, outside the lock: the register that the number names takes the value if the
host may write it, and nothing else changes. -/
theorem writeDataReg_reads (n : Nat) (v : Word) (s : State) (hlock : isBankNumber n = true → s.ft.phase ≠ .build) :
    (∀ m, (writeDataReg n v s).readReg m =
      if m = n ∧ (isArgNumber n || isBankNumber n) = true then v else s.readReg m) ∧
    WritesOnly [.args, .cp] s (writeDataReg n v s) := by
  rcases writeDataReg_cases n v s with ⟨rfl, he⟩ | ⟨rfl, he⟩ | ⟨rfl, he⟩ | ⟨h8, h9, ha, b, hb, he⟩ | ⟨h8, h9, ha, hb, he⟩
  · rw [he]
    exact ⟨fun m => by rw [readReg_arg0]; simp [isArgNumber], (withArgs_writes s v s.arg1 s.arg2).mono (by decide)⟩
  · rw [he]
    exact ⟨fun m => by rw [readReg_arg1]; simp [isArgNumber], (withArgs_writes s s.arg0 v s.arg2).mono (by decide)⟩
  · rw [he]
    exact ⟨fun m => by rw [readReg_arg2]; simp [isArgNumber], (withArgs_writes s s.arg0 s.arg1 v).mono (by decide)⟩
  · cases hn : isBankNumber n with
    | false => rw [s.cp.write?_of_not_bankNumber v hn] at hb; cases hb
    | true =>
      obtain ⟨b', hb', hreads⟩ := s.cp.write?_of_bankNumber v hn
      cases hb.symm.trans hb'
      have hrange : 0x40 ≤ n ∧ n < 0x60 := by have := (isBankNumber_iff n).mp hn; omega
      rw [he, writeBank, if_neg (hlock hn)]
      refine ⟨fun m => ?_, .withCp (by decide) s b⟩
      rw [readReg_withCp, Bool.or_true, hreads]
      by_cases hm : 0x40 ≤ m ∧ m < 0x60
      · rw [if_pos hm, readReg_of_bankRange s hm]; simp
      · rw [if_neg hm, if_neg (by omega)]
  · have hn : isBankNumber n = false := by
      by_contra hn
      obtain ⟨b, hb', _⟩ := s.cp.write?_of_bankNumber v (by simpa using hn)
      rw [hb] at hb'
      cases hb'
    have harg : isArgNumber n = false := by simp [isArgNumber]; omega
    rw [he]
    exact ⟨fun m => by simp [hn, harg], .refl _ s⟩

theorem RdRegs.read_of_unlisted (r : RdRegs) {n : Nat} (h : ¬ (0x20 ≤ n ∧ n ≤ 0x28)) : r.read n = 0 := by
  unfold RdRegs.read
  iterate 9 rw [if_neg (by omega)]

theorem ReRegs.read_of_unlisted (r : ReRegs) {n : Nat} (h : ¬ (0x30 ≤ n ∧ n ≤ 0x34)) : r.read n = 0 := by
  unfold ReRegs.read
  iterate 5 rw [if_neg (by omega)]

theorem CpRegs.read_of_unlisted (b : CpRegs) {n : Nat} (h : isBankNumber n = false) : b.read n = 0 := by
  have hn := mt (isBankNumber_iff n).mpr (by simp [h])
  unfold CpRegs.read
  iterate 9 rw [if_neg (by omega)]
  rw [dif_neg (by omega), dif_neg (by omega)]

theorem DrRegs.read_of_unlisted (d : DrRegs) {n : Nat} (h : ¬ (0x60 ≤ n ∧ n ≤ 0x65)) : d.read n = 0 := by
  unfold DrRegs.read
  iterate 6 rw [if_neg (by omega)]

theorem FtRegs.read_of_unlisted (f : FtRegs) {n : Nat} (h : ¬ (0x70 ≤ n ∧ n ≤ 0x73)) : f.read n = 0 := by
  unfold FtRegs.read
  iterate 4 rw [if_neg (by omega)]

/-- A number of no register, and the number of `CMD`, read as 0 (10_state.md R22). -/
theorem readReg_of_unlisted (s : State) {n : Nat} (h : (isArgNumber n || isBankNumber n || isReadOnlyNumber n) = false) :
    s.readReg n = 0 := by
  obtain ⟨⟨harg, hbank⟩, hro⟩ := by simpa only [Bool.or_eq_false_iff] using h
  simp only [isArgNumber, isReadOnlyNumber, Bool.or_eq_false_iff, decide_eq_false_iff_not] at harg hro
  unfold State.readReg
  iterate 12 rw [if_neg (by omega)]
  split
  · exact s.rd.read_of_unlisted (by omega)
  split
  · exact s.re.read_of_unlisted (by omega)
  split
  · exact s.cp.read_of_unlisted hbank
  split
  · exact s.dr.read_of_unlisted (by omega)
  · exact s.ft.read_of_unlisted (by omega)

theorem Status.toWord_getLsbD (f : Status) :
    f.toWord.getLsbD 0 = f.busy ∧ f.toWord.getLsbD 1 = f.fault ∧ f.toWord.getLsbD 2 = f.done ∧
    f.toWord.getLsbD 3 = f.pad ∧ ∀ k, 4 ≤ k → f.toWord.getLsbD k = false := by
  obtain ⟨b, f, d, p⟩ := f
  refine ⟨?_, ?_, ?_, ?_, fun k hk => ?_⟩
  · revert b f d p; decide
  · revert b f d p; decide
  · revert b f d p; decide
  · revert b f d p; decide
  · have hlt : b.toNat + 2 * f.toNat + 4 * d.toNat + 8 * p.toNat < 2 ^ 4 := by revert b f d p; decide
    have hbit := Nat.testBit_lt_two_pow (Nat.lt_of_lt_of_le hlt (Nat.pow_le_pow_right (by decide) hk))
    rw [Status.toWord, BitVec.getLsbD_ofNat, hbit, Bool.and_false]

/-! #### The codes of the unit states, zero-extended -/

theorem zext64_rdState (x : RdState) : zext64 x.toNat = match x with | .closed => 0 | .ready => 1 | .peeked => 2 := by
  cases x <;> rfl

theorem zext64_reState (x : ReState) :
    zext64 x.toNat = match x with | .closed => 0 | .opened => 1 | .finished => 2 | .minimized => 3 := by
  cases x <;> rfl

theorem zext64_ftPhase (x : FtPhase) : zext64 x.toNat = match x with | .idle => 0 | .build => 1 | .rendered => 2 := by
  cases x <;> rfl

theorem zext64_bool (x : Bool) : zext64 x.toNat = if x then 1 else 0 := by
  cases x <;> rfl

/-- The two arrays of the bank, at the numbers of their elements. -/
theorem readReg_levels (s : State) (i : Fin 7) :
    s.readReg (0x50 + i) = s.cp.levelScale[i] ∧ s.readReg (0x58 + i) = s.cp.angleBits[i] := by
  constructor
  · rw [readReg_of_bankRange s (by omega), CpRegs.read_levelScale _ (by omega)]; simp
  · rw [readReg_of_bankRange s (by omega), CpRegs.read_angleBits _ (by omega)]; simp

/-- Settles O7: the writes by `writeDataReg_reads`, the map by reading off each number. -/
theorem registerAccessRights : Obligations.RegisterAccessRights := by
  refine ⟨fun s n v rest hp hb hn hlock => ?_, fun s n rest hp hb => step_readReg hp hb,
    fun s n h => readReg_of_unlisted s h, fun s => ?_⟩
  · obtain ⟨hreads, hw⟩ := writeDataReg_reads n v (s.withPending rest) hlock
    obtain ⟨hcfg, hpending, hbus⟩ := hw.1 .hostSide (by decide)
    have hall : WritesOnly [.args, .cp, .hostSide] s (writeDataReg n v (s.withPending rest)) :=
      ((withPending_writes s rest).mono (by decide)).trans (hw.mono (by decide))
    exact ⟨_, step_writeReg hp hb hn, hpending, hreads, hall.1, hcfg, hbus⟩
  · have hwidth : ∀ {w : Nat} (v : BitVec w), w ≤ 64 → (v.setWidth 64).toNat = v.toNat :=
      fun _ hw => BitVec.toNat_setWidth_of_le hw
    exact ⟨s.status.toWord_getLsbD, ⟨rfl, rfl, rfl, rfl⟩, ⟨rfl, rfl, rfl⟩, ⟨rfl, rfl, rfl, rfl⟩,
      ⟨zext64_rdState _, hwidth s.rd.coder.low (by decide), hwidth s.rd.coder.range (by decide),
        hwidth s.rd.code (by decide), rfl, rfl, rfl, hwidth s.rd.total (by decide), hwidth s.rd.count (by decide)⟩,
      ⟨zext64_reState _, hwidth s.re.coder.low (by decide), hwidth s.re.coder.range (by decide), rfl, rfl⟩,
      ⟨rfl, rfl, rfl, rfl, rfl, rfl, rfl, rfl, rfl, readReg_levels s⟩, ⟨zext64_bool _, rfl, rfl, rfl, rfl, rfl⟩,
      ⟨zext64_ftPhase _, rfl, rfl, rfl⟩⟩

end Sys2Proof.Machine
end

section
/-! PROOFS. The block at reset, and where the block's invariants are not kept. -/

namespace Sys2Proof.Machine

theorem RdRegs.read_reset (n : Nat) : RdRegs.reset.read n = if n = 0x22 then 0xFFFFFFFFFFFF else 0 := by
  by_cases h : n = 0x22
  · subst h; rfl
  · simp [RdRegs.read, RdRegs.reset, RdState.toNat, Coder.reset, zext64, h]

theorem ReRegs.read_reset (n : Nat) : ReRegs.reset.read n = if n = 0x32 then 0xFFFFFFFFFFFF else 0 := by
  by_cases h : n = 0x32
  · subst h; rfl
  · simp [ReRegs.read, ReRegs.reset, ReState.toNat, Coder.reset, zext64, h]

theorem CpRegs.read_reset (n : Nat) : CpRegs.reset.read n = 0 := by
  have hlevel : ∀ k (h : k < 7), CpRegs.reset.levelScale[k] = 0 := by decide
  have hangle : ∀ k (h : k < 7), CpRegs.reset.angleBits[k] = 0 := by decide
  simp only [CpRegs.read, hlevel, hangle, dite_eq_ite, ite_self]
  simp [CpRegs.reset]

theorem DrRegs.read_reset (n : Nat) : DrRegs.reset.read n = 0 := by
  simp [DrRegs.read, DrRegs.reset, zext64]

theorem FtRegs.read_reset (n : Nat) : FtRegs.reset.read n = 0 := by
  simp [FtRegs.read, FtRegs.reset, FtPhase.toNat, zext64]

/-- Settles O10: the register map at reset, unit by unit. -/
theorem resetRegisterValues : Obligations.ResetRegisterValues := by
  refine ⟨fun n => ?_, ⟨rfl, rfl, rfl, rfl, rfl, rfl, rfl⟩, rfl, rfl⟩
  have hstatus : Status.reset.toWord = 0 := rfl
  simp only [State.readReg, State.reset, hstatus, RdRegs.read_reset, ReRegs.read_reset, CpRegs.read_reset,
    DrRegs.read_reset, FtRegs.read_reset, ite_self]
  by_cases hrd : n = 0x22
  · subst hrd; rfl
  by_cases hre : n = 0x32
  · subst hre; rfl
  simp [hrd, hre]

/-- Settles O56: the parameters by `resetConfig_ok`; every unit is idle and no fault is recorded, so what is left is arithmetic
on zeros. -/
theorem resetMeetsInvariants : Obligations.ResetMeetsInvariants := by
  refine ⟨⟨resetConfig_ok, ⟨rfl, fun _ => ⟨rfl, rfl, rfl⟩, nofun⟩, ⟨?_, ?_, fun _ => rfl, nofun, nofun⟩, ⟨?_, ?_, nofun⟩,
    ⟨?_, ?_, ?_, nofun⟩⟩, nofun, nofun⟩ <;> decide

/-! ### A pending count without room -/

/-- A state that meets the block's invariants with a count pending and `RD_TOTAL * RD_RANGE = 2^48`, the value that 48 bits
of `RD_RANGE` do not hold, and `RD.REMOVE 0, 2` issued: the interval is all of `[0, RD_TOTAL)`. `RD.COUNT` itself
leaves `RD_TOTAL * RD_RANGE` at most the 48-bit range that it divides (40_range_decoder.md R143), but the invariant does not
say so. -/
def fullPeek : State :=
  { State.reset with
    rd := { RdRegs.reset with state := .peeked, coder := ⟨0, BitVec.ofNat 48 (2 ^ 47)⟩, total := 2 }
    arg1 := 2
    pending := [.writeReg 0x00 0x12] }

theorem fullPeek_inv : fullPeek.Inv := by
  refine ⟨resetConfig_ok, ⟨rfl, fun _ => ⟨rfl, rfl, rfl⟩, nofun⟩, ⟨?_, ?_, fun _ => rfl, nofun, fun _ _ => ?_⟩,
    ⟨?_, ?_, nofun⟩, ⟨?_, ?_, ?_, nofun⟩⟩ <;> decide

/-- The narrowing leaves `RD_RANGE = 2^48 mod 2^48 = 0`, which no shift changes, and the command completes. -/
theorem fullPeek_step :
    ∃ t, step fullPeek = .next t ∧ t.status.fault = false ∧ t.rd.state = .ready ∧ t.rd.coder.range = 0 :=
  ⟨_, rfl, by decide⟩

/-- Refutes O57: the invariant of a pending count bounds `RD_LOW + RD_TOTAL * RD_RANGE` by `2^48` and allows
`RD_TOTAL * RD_RANGE = 2^48`, where `RD.REMOVE` of the whole interval leaves `RD_RANGE = 0` and the decoder `READY`. -/
theorem not_stepKeepsInvariants : ¬ Obligations.StepKeepsInvariants := by
  intro h
  obtain ⟨t, hstep, hfault, hready, hrange⟩ := fullPeek_step
  obtain ⟨_, _, ⟨_, _, _, hnormal, _⟩, _⟩ := h fullPeek t fullPeek_inv hstep
  have hlt := (hnormal hfault hready).1
  rw [hrange] at hlt
  exact absurd hlt (by decide)

end Sys2Proof.Machine
end

section
/-! PROOFS. Bounds (20_memory.md R76): a condition that a run keeps, and that the decoder, the bank, the encoder and the minimizer
write no element at or above a memory's capacity. -/

namespace Sys2Proof.Machine

/-! ### Memories within a capacity -/

theorem Memory.below_iff {α : Type} (m : Memory α) (cap : Nat) : Memory.below m cap = true ↔ ∀ c ∈ m, c.1 < cap := by
  simp [Memory.below]

section Below

variable {α : Type} {m : Memory α} {cap i : Nat}

theorem Memory.below_write (v : α) (h : Memory.below m cap = true) (hi : i < cap) :
    Memory.below (Memory.write m i v) cap = true :=
  (below_iff _ _).mpr (Memory.all_write v ((below_iff _ _).mp h) hi)

theorem Memory.below_fill (f : Nat → α) {n : Nat} (h : Memory.below m cap = true) (hi : i + n ≤ cap) :
    Memory.below (Memory.fill f n i m) cap = true :=
  (below_iff _ _).mpr (Memory.all_fill f n i ((below_iff _ _).mp h) hi)

theorem Memory.below_writeList {l : List α} (h : Memory.below m cap = true) (hi : i + l.length ≤ cap) :
    Memory.below (Memory.writeList l i m) cap = true :=
  (below_iff _ _).mpr (Memory.all_writeList l i ((below_iff _ _).mp h) hi)

theorem Memory.below_replaceFrom (lo : Nat) (f : Nat → α) (h : Memory.below m cap = true) :
    Memory.below (Memory.replaceFrom lo f m) cap = true :=
  (below_iff _ _).mpr (Memory.all_replaceFrom lo f ((below_iff _ _).mp h))

end Below

theorem memoriesBounded_iff (s : State) :
    s.memoriesBounded = true ↔
      Memory.below s.inMem s.cfg.inCap = true ∧ Memory.below s.outMem s.cfg.outCap = true ∧
      Memory.below s.logMem s.cfg.logCap = true ∧ Memory.below s.palMem s.cfg.paletteMax = true ∧
      Memory.below s.nodeMem s.cfg.nodeCap = true ∧ Memory.below s.spanMem s.cfg.spanCap = true ∧
      Memory.below s.pixMem s.cfg.pixCap = true := by
  simp only [State.memoriesBounded, Bool.and_eq_true, and_assoc]

/-- The parameters are `c`, and no element at or above a capacity is written. -/
def State.InBounds (c : Config) (s : State) : Prop := s.cfg = c ∧ s.memoriesBounded = true

section InBounds

variable {c : Config} {s : State} {i : Nat}

theorem State.InBounds.putIn (h : s.InBounds c) (hi : i < c.inCap) (v : Byte) : (s.putIn i v).InBounds c := by
  obtain ⟨rfl, h⟩ := h
  obtain ⟨h1, h2, h3, h4, h5, h6, h7⟩ := (memoriesBounded_iff s).mp h
  exact ⟨rfl, (memoriesBounded_iff _).mpr ⟨Memory.below_write v h1 hi, h2, h3, h4, h5, h6, h7⟩⟩

theorem State.InBounds.putLog (h : s.InBounds c) (hi : i < c.logCap) (v : Triplet) : (s.putLog i v).InBounds c := by
  obtain ⟨rfl, h⟩ := h
  obtain ⟨h1, h2, h3, h4, h5, h6, h7⟩ := (memoriesBounded_iff s).mp h
  exact ⟨rfl, (memoriesBounded_iff _).mpr ⟨h1, h2, Memory.below_write v h3 hi, h4, h5, h6, h7⟩⟩

theorem State.InBounds.putPal (h : s.InBounds c) (hi : i < c.paletteMax) (v : Colour) : (s.putPal i v).InBounds c := by
  obtain ⟨rfl, h⟩ := h
  obtain ⟨h1, h2, h3, h4, h5, h6, h7⟩ := (memoriesBounded_iff s).mp h
  exact ⟨rfl, (memoriesBounded_iff _).mpr ⟨h1, h2, h3, Memory.below_write v h4 hi, h5, h6, h7⟩⟩

theorem State.InBounds.putNode (h : s.InBounds c) (hi : i < c.nodeCap) (v : NodeRec) : (s.putNode i v).InBounds c := by
  obtain ⟨rfl, h⟩ := h
  obtain ⟨h1, h2, h3, h4, h5, h6, h7⟩ := (memoriesBounded_iff s).mp h
  exact ⟨rfl, (memoriesBounded_iff _).mpr ⟨h1, h2, h3, h4, Memory.below_write v h5 hi, h6, h7⟩⟩

theorem State.InBounds.putPix (h : s.InBounds c) (hi : i < c.pixCap) (v : Byte) : (s.putPix i v).InBounds c := by
  obtain ⟨rfl, h⟩ := h
  obtain ⟨h1, h2, h3, h4, h5, h6, h7⟩ := (memoriesBounded_iff s).mp h
  exact ⟨rfl, (memoriesBounded_iff _).mpr ⟨h1, h2, h3, h4, h5, h6, Memory.below_write v h7 hi⟩⟩

theorem State.InBounds.outMem_below (h : s.InBounds c) : Memory.below s.outMem c.outCap = true := by
  obtain ⟨rfl, h⟩ := h
  exact ((memoriesBounded_iff s).mp h).2.1

theorem State.InBounds.spanMem_below (h : s.InBounds c) : Memory.below s.spanMem c.spanCap = true := by
  obtain ⟨rfl, h⟩ := h
  obtain ⟨_, _, _, _, _, hspan, _⟩ := (memoriesBounded_iff s).mp h
  exact hspan

theorem State.InBounds.withOutMem (h : s.InBounds c) {m : List Host.Cell} (hm : Memory.below m c.outCap = true) :
    (s.withOutMem m).InBounds c := by
  obtain ⟨rfl, h⟩ := h
  obtain ⟨h1, _, h3, h4, h5, h6, h7⟩ := (memoriesBounded_iff s).mp h
  exact ⟨rfl, (memoriesBounded_iff _).mpr ⟨h1, hm, h3, h4, h5, h6, h7⟩⟩

theorem State.InBounds.withSpanMem (h : s.InBounds c) {m : Memory SpanRec} (hm : Memory.below m c.spanCap = true) :
    (s.withSpanMem m).InBounds c := by
  obtain ⟨rfl, h⟩ := h
  obtain ⟨h1, h2, h3, h4, h5, _, h7⟩ := (memoriesBounded_iff s).mp h
  exact ⟨rfl, (memoriesBounded_iff _).mpr ⟨h1, h2, h3, h4, h5, hm, h7⟩⟩

theorem State.InBounds.putOut (h : s.InBounds c) (hi : i < c.outCap) (v : Byte) : (s.putOut i v).InBounds c :=
  h.withOutMem (Memory.below_write v h.outMem_below hi)

theorem State.InBounds.putSpan (h : s.InBounds c) (hi : i < c.spanCap) (v : SpanRec) : (s.putSpan i v).InBounds c :=
  h.withSpanMem (Memory.below_write v h.spanMem_below hi)

theorem State.InBounds.of_sameMemories {t : State} (h : s.InBounds c) (hm : SameMemories s t) (hc : t.cfg = s.cfg) :
    t.InBounds c := by
  obtain ⟨h1, h2, h3, h4, h5, h6, h7⟩ := hm
  refine ⟨hc.trans h.1, ?_⟩
  rw [State.memoriesBounded, h1, h2, h3, h4, h5, h6, h7, hc]
  exact h.2

theorem State.InBounds.raiseFault (h : s.InBounds c) (e : Cause) (cmd : Word) : (raiseFault e cmd s).InBounds c := by
  rw [raiseFault_eq]
  exact h

theorem OnlyDecoderMoved.inBounds {t : State} (ht : OnlyDecoderMoved s t) (h : s.InBounds c) : t.InBounds c := by
  rw [ht]
  exact h

end InBounds

/-! ### Runs that keep a condition on the state -/

/-- A run that starts with `P` ends with `P`, or faults within the bounds. -/
def Cmd.Keeps {α : Type} (c : Config) (P : State → Prop) (x : Cmd α) : Prop :=
  Cmd.Triple P x (fun _ => P) (fun _ => State.InBounds c)

/-- A condition that implies the bounds and does not look at the decoder's registers or at `STATUS.PAD`. -/
structure IgnoresDecoder (c : Config) (P : State → Prop) : Prop where
  inBounds : ∀ s, P s → s.InBounds c
  moved : ∀ s t, OnlyDecoderMoved s t → P s → P t

theorem ignoresDecoder_inBounds (c : Config) : IgnoresDecoder c (State.InBounds c) :=
  ⟨fun _ h => h, fun _ _ ht h => ht.inBounds h⟩

section Keeps

variable {α β : Type} {c : Config} {P : State → Prop}

theorem Cmd.Triple.get_of {Q : β → State → Prop} {E : Cause → State → Prop} {f : State → Cmd β}
    (h : ∀ u, P u → Cmd.Triple P (f u) Q E) : Cmd.Triple P (MonadState.get >>= f) Q E :=
  fun s hs => h s hs s hs

theorem Cmd.Triple.require_bind {Q : β → State → Prop} {E : Cause → State → Prop} {p : Prop} [Decidable p] {e : Cause}
    {f : Unit → Cmd β} (he : ∀ s, P s → E e s) (hf : p → Cmd.Triple P (f ()) Q E) :
    Cmd.Triple P (Machine.require p e >>= f) Q E := by
  intro s hs
  by_cases hp : p
  · rw [require_bind_of_true _ _ _ hp]; exact hf hp s hs
  · rw [require_bind_of_false _ _ _ hp]; exact he s hs

theorem Cmd.Keeps.require_bind (hP : IgnoresDecoder c P) {p : Prop} [Decidable p] {e : Cause} {f : Unit → Cmd β}
    (hf : p → Cmd.Keeps c P (f ())) : Cmd.Keeps c P (Machine.require p e >>= f) :=
  Cmd.Triple.require_bind hP.inBounds hf

theorem Cmd.Keeps.bind {x : Cmd α} {f : α → Cmd β} (hx : Cmd.Keeps c P x) (hf : ∀ a, Cmd.Keeps c P (f a)) :
    Cmd.Keeps c P (x >>= f) :=
  Cmd.Triple.bind hx hf

theorem Cmd.Keeps.pure (a : α) : Cmd.Keeps c P (Pure.pure a) := Cmd.Triple.pure fun _ h => h

theorem Cmd.Keeps.update {g : State → State} (h : ∀ s, P s → P (g s)) : Cmd.Keeps c P (Machine.update g) :=
  Cmd.Triple.update h

theorem Cmd.Keeps.update_bind {g : State → State} {f : Unit → Cmd β} (h : ∀ s, P s → P (g s))
    (hf : Cmd.Keeps c P (f ())) :
    Cmd.Keeps c P (Machine.update g >>= f) :=
  (Cmd.Keeps.update h).bind fun _ => hf

theorem Cmd.Keeps.get {f : State → Cmd β} (hf : ∀ u, P u → Cmd.Keeps c P (f u)) :
    Cmd.Keeps c P (MonadState.get >>= f) :=
  Cmd.Triple.get_of hf

theorem Cmd.Keeps.ite {p : Prop} [Decidable p] {x y : Cmd α} (hx : Cmd.Keeps c P x) (hy : Cmd.Keeps c P y) :
    Cmd.Keeps c P (if p then x else y) :=
  Cmd.Triple.ite (fun _ => hx) fun _ => hy

theorem Cmd.Keeps.raise (hP : IgnoresDecoder c P) (e : Cause) : Cmd.Keeps c P (Machine.raise (α := α) e) :=
  Cmd.Triple.raise hP.inBounds

theorem Cmd.Keeps.of_moved (hP : IgnoresDecoder c P) {x : Cmd α}
    (h : ∀ s, (∃ a t, x s = .ok a t ∧ OnlyDecoderMoved s t) ∨ ∃ e t, x s = .error e t ∧ OnlyDecoderMoved s t) :
    Cmd.Keeps c P x := by
  intro s hs
  rcases h s with ⟨a, t, he, ht⟩ | ⟨e, t, he, ht⟩
  · rw [he]; exact hP.moved s t ht hs
  · rw [he]; exact hP.inBounds t (hP.moved s t ht hs)

end Keeps

/-! ### The decoder and the parameter bank -/

theorem onlyDecoderMoved_rdSeed (n : Nat) (w : Window) (s : State) : OnlyDecoderMoved s (rdSeed n w s).2 := by
  induction n generalizing w s with
  | zero => exact onlyDecoderMoved_refl s
  | succ n ih => exact (rdByte_spec s).2.1.trans (ih _ _)

theorem onlyDecoderMoved_rdInit (len : Nat) (s : State) : OnlyDecoderMoved s (rdInit len s) := by
  have hrestart : OnlyDecoderMoved s (rdRestart len s) := rfl
  have hseed := hrestart.trans (onlyDecoderMoved_rdSeed seedBytes 0 (rdRestart len s))
  unfold rdInit
  generalize rdSeed seedBytes 0 (rdRestart len s) = r at hseed ⊢
  exact hseed.trans rfl

section Decoder

variable {c : Config} {P : State → Prop}

theorem rdCount_keeps (hP : IgnoresDecoder c P) (total : Nat) : Cmd.Keeps c P (rdCount total) :=
  .of_moved hP fun s => .inl ⟨_, _, rdCount_apply total s, rfl⟩

theorem rdRemove_keeps (hP : IgnoresDecoder c P) (bottom top : Nat) : Cmd.Keeps c P (rdRemove bottom top) :=
  .of_moved hP fun s => by
    rcases rdRemove_spec bottom top s with ⟨_, _, t, _, he, _, _, _, _, _, ht⟩ | ⟨t, _, he, ht⟩
    · exact .inl ⟨_, t, he, ht⟩
    · exact .inr ⟨_, t, he, ht⟩

theorem readNumber_keeps (hP : IgnoresDecoder c P) (max : Nat) : Cmd.Keeps c P (readNumber max) :=
  .ite (.pure 0) <| (rdCount_keeps hP max).bind fun v => .require_bind hP fun _ =>
    (rdRemove_keeps hP v (v + 1)).bind fun _ => .pure v

theorem ReadsSymbol.le_pred {max v : Nat} {s u : State} (h : ReadsSymbol max v s u) : v ≤ max - 1 := by
  unfold ReadsSymbol at h
  split at h
  · omega
  · omega

/-- `readNumber` keeps what does not look at the decoder, and its value is below the bound (40_range_decoder.md R149). -/
theorem readNumber_bounded (hP : IgnoresDecoder c P) (max : Nat) :
    Cmd.Triple P (readNumber max) (fun v s => P s ∧ v ≤ max - 1) (fun _ => State.InBounds c) := by
  intro s hs
  cases h : readNumber max s with
  | ok v t => exact ⟨(readNumber_keeps hP max).ok hs h, (readNumber_eq_ok.mp h).le_pred⟩
  | error e t => exact (readNumber_keeps hP max).error hs h

theorem readSizeLoop_keeps (hP : IgnoresDecoder c P) (d : Config) (n : Nat) (bits : Int) :
    Cmd.Keeps c P (readSizeLoop d n bits) := by
  induction n generalizing bits with
  | zero => exact .pure _
  | succ n ih =>
    refine (readNumber_keeps hP _).bind fun v => .require_bind hP fun _ => .ite (ih _) ?_
    exact (readNumber_keeps hP 2).bind fun f => .ite (ih _) (.pure _)

theorem readSize_keeps (hP : IgnoresDecoder c P) : Cmd.Keeps c P readSize :=
  .get fun s _ => readSizeLoop_keeps hP s.cfg _ _

end Decoder

section Bank

variable {c : Config}

theorem readDims_inBounds : Cmd.Keeps c (State.InBounds c) readDims :=
  have hsize := readSize_keeps (ignoresDecoder_inBounds c)
  hsize.bind fun _ => .update_bind (fun _ h => h) <| hsize.bind fun _ => .update fun _ h => h

theorem readPaletteLoop_inBounds (k i : Nat) (hi : i + k ≤ c.paletteMax) :
    Cmd.Keeps c (State.InBounds c) (readPaletteLoop k i) := by
  induction k generalizing i with
  | zero => exact .pure _
  | succ k ih =>
    have hnum := readNumber_keeps (ignoresDecoder_inBounds c) 256
    exact hnum.bind fun r => hnum.bind fun g => hnum.bind fun b =>
      .update_bind (fun _ h => h.putPal (by omega) _) <| ih (i + 1) (by omega)

/-- The palette's count is at most `PALETTE_MAX`, the capacity of `PAL` (44_codec_params.md R227). -/
theorem readPalette_inBounds : Cmd.Keeps c (State.InBounds c) readPalette := by
  refine .get_of fun u hu => (readNumber_bounded (ignoresDecoder_inBounds c) (u.cfg.paletteMax + 1)).bind fun n s hs => ?_
  have hn : 0 + n ≤ c.paletteMax := by have := hs.2; rw [hu.1] at this; omega
  have hrest : Cmd.Keeps c (State.InBounds c)
      (readPaletteLoop n 0 >>= fun _ => update (fun t => t.withCp { t.cp with palSize := zext64 n })) :=
    (readPaletteLoop_inBounds n 0 hn).bind fun _ => .update fun _ h => h
  exact hrest s hs.1

theorem readHeader_inBounds (flags : Nat) : Cmd.Keeps c (State.InBounds c) (readHeader flags) := by
  have hcode : Cmd.Keeps c (State.InBounds c) (do
      let s ← get
      let code ← readNumber s.cfg.maxCode
      update (setCode code)
      readPalette
      pure code) :=
    .get fun s _ => (readNumber_keeps (ignoresDecoder_inBounds c) _).bind fun code =>
      .update_bind (fun _ h => h) <| readPalette_inBounds.bind fun _ => .pure code
  exact .ite (readDims_inBounds.bind fun _ => hcode) hcode

end Bank

/-! ### The encoder and the minimizer -/

/-- In bounds, and `OUT_LEN` is at most the capacity of `OUT` (10_state.md R30). -/
def State.OutputFits (c : Config) (s : State) : Prop := s.InBounds c ∧ s.re.outLen.toNat ≤ c.outCap

section Encoder

variable {c : Config}

theorem reEmit_outputFits (hc : c.outCap < 2 ^ 64) (v : Byte) : Cmd.Keeps c (State.OutputFits c) (reEmit v) := by
  intro s ⟨hs, hlen⟩
  rw [reEmit_apply, hs.1]
  by_cases h : s.re.outLen.toNat < c.outCap
  · rw [if_pos h]
    refine ⟨hs.putOut h v, ?_⟩
    rw [withRe_re, BitVec.toNat_add, word_one_toNat]
    omega
  · rw [if_neg h]; exact hs

theorem reNormalize_outputFits (hc : c.outCap < 2 ^ 64) (n : Nat) :
    Cmd.Keeps c (State.OutputFits c) (reNormalize n) := by
  induction n with
  | zero => exact .pure ()
  | succ n ih =>
    intro s hs
    cases hts : s.re.coder.toShift with
    | none => rw [reNormalize, hts]; exact hs
    | some d =>
      cases hd : d.collapsed with
      | true => rw [reNormalize, hts]; simp only [hd, if_true]; exact hs.1
      | false =>
        rw [reNormalize_succ hts hd]
        have hround : Cmd.Keeps c (State.OutputFits c) (reEmit d.topByte >>= fun _ =>
            update (fun u => u.withRe { u.re with coder := d.shift }) >>= fun _ => reNormalize n) :=
          (reEmit_outputFits hc _).bind fun _ => .update_bind (fun _ h => h) ih
        exact hround _ hs

theorem rePut_outputFits (hc : c.outCap < 2 ^ 64) (bottom top total : Nat) :
    Cmd.Keeps c (State.OutputFits c) (rePut bottom top total) :=
  .update_bind (fun _ h => h) <| reNormalize_outputFits hc _

theorem reLog_outputFits (bottom top total : Nat) : Cmd.Keeps c (State.OutputFits c) (reLog bottom top total) := by
  intro s ⟨hs, hlen⟩
  rcases reLog_spec bottom top total s with ⟨hlog, t, he, _, ht, hre⟩ | ⟨_, he⟩
  · rw [he]
    refine ⟨?_, by rw [hre]; exact hlen⟩
    rw [hs.1] at hlog
    rw [ht]
    exact State.InBounds.putLog (s := s.withRe t.re) hs hlog _
  · rw [he]; exact hs

theorem reFlush_outputFits (hc : c.outCap < 2 ^ 64) (n : Nat) : Cmd.Keeps c (State.OutputFits c) (reFlush n) := by
  induction n with
  | zero => exact .pure ()
  | succ n ih =>
    have hbyte : Cmd.Keeps c (State.OutputFits c) reFlushByte :=
      .get fun _ _ => (reEmit_outputFits hc _).bind fun _ => .update fun _ h => h
    exact hbyte.bind fun _ => ih

theorem reFinish_outputFits (hc : c.outCap < 2 ^ 64) : Cmd.Keeps c (State.OutputFits c) reFinish :=
  (reFlush_outputFits hc _).bind fun _ => .update fun _ h => h

theorem lastNotFF_lt {out : List Host.Cell} {n k : Nat} (h : lastNotFF out n = some k) : k < n := by
  induction n with
  | zero => cases h
  | succ n ih =>
    rw [lastNotFF] at h
    split at h
    · cases h; exact Nat.lt_succ_self _
    · exact Nat.lt_succ_of_lt (ih h)

/-- A carry inside the candidate writes below its length. -/
theorem carryAt_below {out : List Host.Cell} {cap k n : Nat} (h : Memory.below out cap = true) (hk : k < n) (hn : n ≤ cap) :
    Memory.below (carryAt out k n) cap = true :=
  Memory.below_fill _ (Memory.below_write _ h (by omega)) (by omega)

theorem minimizeLoop_below (log : Nat → Triplet) (logLen : Nat) {cap : Nat} (n : Nat) (out : List Host.Cell)
    (h : Memory.below out cap = true) (hn : n ≤ cap) : Memory.below (minimizeLoop log logLen n out).2 cap = true := by
  induction n generalizing out with
  | zero => exact h
  | succ n ih =>
    rw [minimizeLoop]
    split
    · exact ih out h (by omega)
    split
    · exact ih out h (by omega)
    split
    · exact h
    rename_i k hk
    split
    · exact ih _ (carryAt_below h (lastNotFF_lt hk) (by omega)) (by omega)
    · exact h

theorem minimize_inBounds {s : State} (h : s.OutputFits c) : (minimize s).InBounds c := by
  obtain ⟨hs, hlen⟩ := h
  have hloop := minimizeLoop_below s.logEntry s.re.logLen.toNat s.re.outLen.toNat s.outMem hs.outMem_below hlen
  exact (hs.withOutMem (Memory.below_replaceFrom _ (Config.freeOutByte s.freeCount) hloop)).of_sameMemories
    ⟨rfl, rfl, rfl, rfl, rfl, rfl, rfl⟩ rfl

end Encoder

end Sys2Proof.Machine
end

section
/-! PROOFS. The regions and the tree stay within `NODE` and `SPAN`, and the render within `PIX` (46_region_split.md R267, R270;
47_fragment_tree.md R281, R283, R286, R300). -/

namespace Sys2Proof.Machine

/-! ### Regions -/

theorem mem_spansFrom {s : State} {p : SpanRec} {k i : Nat} (h : p ∈ s.spansFrom k i) :
    ∃ j, i ≤ j ∧ j < i + k ∧ p = s.spanRec j := by
  induction k generalizing i with
  | zero => cases h
  | succ k ih =>
    rw [State.spansFrom] at h
    rcases List.mem_cons.mp h with rfl | h
    · exact ⟨i, Nat.le_refl i, by omega, rfl⟩
    · obtain ⟨j, hij, hjk, rfl⟩ := ih h
      exact ⟨j, by omega, by omega, rfl⟩

/-- The span ends inside an image of the given size. -/
def SpanRec.EndsInside (p : SpanRec) (width height : Nat) : Prop := p.x1 ≤ width ∧ p.y < height

theorem length_flatMap_le {α β : Type} {f : α → List β} (h : ∀ a, (f a).length ≤ 1) (l : List α) :
    (l.flatMap f).length ≤ l.length := by
  induction l with
  | nil => exact Nat.le_refl 0
  | cons a l ih =>
    rw [List.flatMap_cons, List.length_append, List.length_cons]
    have := h a
    omega

theorem leftSpans_length_le (c : Config) (a : Nat) (d : Int) (l : List SpanRec) :
    (leftSpans c a d l).length ≤ l.length :=
  length_flatMap_le (leftPart_length_le c a d) l

theorem rightSpans_length_le (c : Config) (a : Nat) (d : Int) (l : List SpanRec) :
    (rightSpans c a d l).length ≤ l.length :=
  length_flatMap_le (rightPart_length_le c a d) l

theorem leftPart_endsInside {c : Config} {a w h : Nat} {d : Int} {p q : SpanRec} (hp : p.EndsInside w h)
    (hq : q ∈ leftPart c a d p) : q.EndsInside w h := by
  unfold leftPart at hq
  split at hq <;> split at hq
  · rw [List.mem_singleton.mp hq]; exact hp
  · cases hq
  · rw [List.mem_singleton.mp hq]; exact hp
  · cases hq

theorem rightPart_endsInside {c : Config} {a w h : Nat} {d : Int} {p q : SpanRec} (hp : p.EndsInside w h)
    (hq : q ∈ rightPart c a d p) : q.EndsInside w h := by
  unfold rightPart at hq
  split at hq <;> split at hq
  · cases hq
  · rw [List.mem_singleton.mp hq]; exact hp
  · rw [List.mem_singleton.mp hq]
    have hmin : (min (crossing c a d p.y) p.x1).toNat ≤ p.x1 := by omega
    exact ⟨Nat.le_trans hmin hp.1, hp.2⟩
  · cases hq

theorem leftSpans_endsInside {c : Config} {a w h : Nat} {d : Int} {l : List SpanRec} (hl : ∀ p ∈ l, p.EndsInside w h) :
    ∀ q ∈ leftSpans c a d l, q.EndsInside w h := by
  intro q hq
  obtain ⟨p, hp, hqp⟩ := List.mem_flatMap.mp hq
  exact leftPart_endsInside (hl p hp) hqp

theorem rightSpans_endsInside {c : Config} {a w h : Nat} {d : Int} {l : List SpanRec} (hl : ∀ p ∈ l, p.EndsInside w h) :
    ∀ q ∈ rightSpans c a d l, q.EndsInside w h := by
  intro q hq
  obtain ⟨p, hp, hqp⟩ := List.mem_flatMap.mp hq
  exact rightPart_endsInside (hl p hp) hqp

section Regions

variable {c : Config} {s : State}

/-- A region that fits its node's reservation is stored in bounds (46_region_split.md R267). -/
theorem storeRegion_inBounds {n : Nat} {l : List SpanRec} (h : s.InBounds c) (hn : n < c.nodeCap)
    (hl : l.length ≤ (s.nodeRec n).cap) (hcap : (s.nodeRec n).base + (s.nodeRec n).cap ≤ c.spanCap) :
    (storeRegion n l s).InBounds c := by
  have hlist := Memory.below_writeList (l := l) (i := (s.nodeRec n).base) h.spanMem_below (by omega)
  have hspan := Memory.below_fill (Config.freeSpan s.freeCount) (n := (s.nodeRec n).cap - l.length)
    (i := (s.nodeRec n).base + l.length) hlist (by omega)
  exact ((h.withSpanMem hspan).putNode hn { s.nodeRec n with count := l.length }).of_sameMemories
    ⟨rfl, rfl, rfl, rfl, rfl, rfl, rfl⟩ rfl

/-- Two reservations inside `SPAN` that each hold the region's count take its two parts in bounds (46_region_split.md R267,
R270). -/
theorem splitInto_inBounds {n l r : Nat} (a : Nat) (d : Int) (h : s.InBounds c) (hl : l < c.nodeCap) (hr : r < c.nodeCap)
    (hlr : l ≠ r) (hcl : (s.nodeRec n).count ≤ (s.nodeRec l).cap) (hcr : (s.nodeRec n).count ≤ (s.nodeRec r).cap)
    (hbl : (s.nodeRec l).base + (s.nodeRec l).cap ≤ c.spanCap)
    (hbr : (s.nodeRec r).base + (s.nodeRec r).cap ≤ c.spanCap) : (splitInto n a d l r s).InBounds c := by
  have hleft := leftSpans_length_le s.cfg a d (s.regionOf n)
  have hright := rightSpans_length_le s.cfg a d (s.regionOf n)
  rw [regionOf_length] at hleft hright
  have hrec : (storeRegion l (leftSpans s.cfg a d (s.regionOf n)) s).nodeRec r = s.nodeRec r := by
    rw [(storeRegion_spec l _ s).2.1, if_neg hlr.symm]
  rw [splitInto_eq]
  refine storeRegion_inBounds (storeRegion_inBounds h hl (by omega) hbl) hr ?_ ?_
  · rw [hrec]; omega
  · rw [hrec]; exact hbr

end Regions

/-! ### The tree under construction -/

/-- The region of node `n` lies below `top` in `SPAN`, and its spans end inside the image. -/
def State.RegionFits (s : State) (top n : Nat) : Prop :=
  (s.nodeRec n).base + (s.nodeRec n).count ≤ top ∧
  ∀ p ∈ s.regionOf n, p.EndsInside s.cp.width.toNat s.cp.height.toNat

/-- In bounds, the tree's nodes and spans within the capacities, and every node's region below `SPAN_TOP` and inside the
image. This much of `State.TreeShape` needs no tiling, and `FT.DECODE` keeps it from its root on (47_fragment_tree.md R302). -/
structure State.TreeFits (c : Config) (s : State) : Prop where
  inBounds : s.InBounds c
  tail_le : s.ft.tail.toNat ≤ c.nodeCap
  regions : ∀ n < s.ft.tail.toNat, s.RegionFits s.ft.spanTop.toNat n

/-- The tree fits, and `n` is one of its nodes. -/
def State.TreeHas (c : Config) (n : Nat) (s : State) : Prop := s.TreeFits c ∧ n < s.ft.tail.toNat

/-- The tree's records, spans and limits, and the bank, are the same. -/
def SameTree (s t : State) : Prop :=
  t.nodeMem = s.nodeMem ∧ t.spanMem = s.spanMem ∧ t.ft.tail = s.ft.tail ∧ t.ft.spanTop = s.ft.spanTop ∧ t.cp = s.cp

section Tree

variable {c : Config} {s t : State} {n : Nat}

/-- Whether a region fits depends on its record's interval, the spans in it and the bank. -/
theorem State.RegionFits.congr {top : Nat} (h : s.RegionFits top n) (hb : (t.nodeRec n).base = (s.nodeRec n).base)
    (hc : (t.nodeRec n).count = (s.nodeRec n).count) (hspan : ∀ j < top, t.spanRec j = s.spanRec j)
    (hcp : t.cp = s.cp) : t.RegionFits top n := by
  obtain ⟨htop, hin⟩ := h
  have hregion : t.regionOf n = s.regionOf n := regionOf_congr hb hc fun j _ hj => hspan j (by omega)
  refine ⟨by rw [hb, hc]; exact htop, ?_⟩
  rw [hregion, hcp]
  exact hin

theorem State.RegionFits.mono {top top' : Nat} (h : s.RegionFits top n) (hle : top ≤ top') : s.RegionFits top' n :=
  ⟨Nat.le_trans h.1 hle, h.2⟩

theorem State.TreeFits.of_sameTree (h : s.TreeFits c) (hst : SameTree s t) (hb : t.InBounds c) : t.TreeFits c := by
  obtain ⟨hnode, hspan, htail, htop, hcp⟩ := hst
  have hrec : t.nodeRec = s.nodeRec := by funext k; rw [State.nodeRec, State.nodeRec, hnode]
  have hread : t.spanRec = s.spanRec := by funext k; rw [State.spanRec, State.spanRec, hspan]
  refine ⟨hb, by rw [htail]; exact h.tail_le, fun k hk => ?_⟩
  rw [htail] at hk
  rw [htop]
  exact (h.regions k hk).congr (by rw [hrec]) (by rw [hrec]) (fun j _ => by rw [hread]) hcp

theorem State.TreeHas.of_sameTree (h : s.TreeHas c n) (hst : SameTree s t) (hb : t.InBounds c) : t.TreeHas c n :=
  ⟨h.1.of_sameTree hst hb, by rw [hst.2.2.1]; exact h.2⟩

theorem OnlyDecoderMoved.sameTree (h : OnlyDecoderMoved s t) : SameTree s t := by
  rw [h]
  exact ⟨rfl, rfl, rfl, rfl, rfl⟩

theorem ignoresDecoder_treeHas (c : Config) (n : Nat) : IgnoresDecoder c (State.TreeHas c n) :=
  ⟨fun _ h => h.1.inBounds, fun _ _ ht h => h.of_sameTree ht.sameTree (ht.inBounds h.1.inBounds)⟩

/-- A node's record is written with its interval kept. -/
theorem State.TreeHas.putNode (h : s.TreeHas c n) (v : NodeRec) (hb : v.base = (s.nodeRec n).base)
    (hc : v.count = (s.nodeRec n).count) : (s.putNode n v).TreeHas c n := by
  obtain ⟨⟨hs, htail, hregions⟩, hn⟩ := h
  refine ⟨⟨hs.putNode (Nat.lt_of_lt_of_le hn htail) v, htail, fun k hk => ?_⟩, hn⟩
  refine (hregions k hk).congr ?_ ?_ (fun _ _ => rfl) rfl
  · rw [putNode_nodeRec]; split
    · next he => rw [hb, he]
    · rfl
  · rw [putNode_nodeRec]; split
    · next he => rw [hc, he]
    · rfl

/-! #### The root -/

theorem zext64_toNat {v : Nat} (h : v < 2 ^ 64) : (zext64 v).toNat = v := by
  rw [zext64, BitVec.toNat_ofNat, Nat.mod_eq_of_lt h]

theorem rootState_treeFits (h : s.InBounds c) (hnode : 1 ≤ c.nodeCap) (hspan : s.cp.height.toNat ≤ c.spanCap) :
    (rootState s).TreeFits c := by
  obtain ⟨hspans, hrecs⟩ := rootState_spec s
  have hrows := Memory.below_writeList (l := rootSpans s.cp.width.toNat s.cp.height.toNat 0) (i := 0) h.spanMem_below
    (by rw [rootSpans_length]; omega)
  have hb : (rootState s).InBounds c :=
    ((h.withSpanMem hrows).putNode hnode (NodeRec.fresh 0 s.cp.height.toNat s.cp.height.toNat)).of_sameMemories
      ⟨rfl, rfl, rfl, rfl, rfl, rfl, rfl⟩ rfl
  have htop : (rootState s).ft.spanTop.toNat = s.cp.height.toNat := zext64_toNat s.cp.height.isLt
  refine ⟨hb, hnode, fun k hk => ?_⟩
  obtain rfl : k = 0 := Nat.lt_one_iff.mp hk
  rw [htop]
  refine ⟨by rw [hrecs, if_pos rfl]; exact Nat.le_of_eq (Nat.zero_add _), fun p hp => ?_⟩
  rw [State.regionOf, hrecs, if_pos rfl] at hp
  obtain ⟨j, _, hj, rfl⟩ := mem_spansFrom hp
  have hj' : j < s.cp.height.toNat := by simpa [NodeRec.fresh] using hj
  rw [hspans, if_pos hj']
  exact ⟨Nat.le_refl _, hj'⟩

theorem makeRoot_treeFits : Cmd.Triple (State.InBounds c) makeRoot (fun _ => State.TreeFits c) (fun _ => State.InBounds c) := by
  intro s hs
  rcases makeRoot_spec s with ⟨hnode, hspan, he⟩ | ⟨_, he⟩ | ⟨_, _, he⟩
  · rw [he]
    rw [hs.1] at hnode hspan
    exact rootState_treeFits hs hnode hspan
  · rw [he]; exact hs
  · rw [he]; exact hs

/-! #### Parsing a node -/

theorem readColor_keeps {P : State → Prop} (hP : IgnoresDecoder c P) : Cmd.Keeps c P readColor :=
  .get fun _ _ => .ite ((readNumber_keeps hP _).bind fun _ => .pure _)
    ((readNumber_keeps hP _).bind fun _ => (readNumber_keeps hP _).bind fun _ => (readNumber_keeps hP _).bind fun _ => .pure _)

theorem readAngle_keeps {P : State → Prop} (hP : IgnoresDecoder c P) (level : Fin 7) : Cmd.Keeps c P (readAngle level) :=
  .get fun _ _ => (readNumber_keeps hP _).bind fun _ => .pure _

theorem parseFill_keeps (n : Nat) : Cmd.Keeps c (State.TreeHas c n) (parseFill n) :=
  (readColor_keeps (ignoresDecoder_treeHas c n)).bind fun _ =>
    .update_bind (fun _ h => h.putNode _ rfl rfl) <| .update fun _ h => h.putNode _ rfl rfl

/-- The children `l` and `r = l + 1` of node `n` are the tree's last nodes, with reservations for `n`'s count one after the
other above every older region (47_fragment_tree.md R281). -/
structure State.ChildrenAllocated (c : Config) (n l r : Nat) (s : State) : Prop where
  inBounds : s.InBounds c
  parent : n < l
  right : r = l + 1
  tail : s.ft.tail.toNat = r + 1
  tail_le : r + 1 ≤ c.nodeCap
  left_cap : (s.nodeRec l).cap = (s.nodeRec n).count
  right_base : (s.nodeRec r).base = (s.nodeRec l).base + (s.nodeRec n).count
  right_cap : (s.nodeRec r).cap = (s.nodeRec n).count
  top : s.ft.spanTop.toNat = (s.nodeRec r).base + (s.nodeRec n).count
  top_le : s.ft.spanTop.toNat ≤ c.spanCap
  older : ∀ k < l, s.RegionFits (s.nodeRec l).base k

theorem allocChildren_allocates (hc : c.Bounds) (n : Nat) :
    Cmd.Triple (State.TreeHas c n) (allocChildren n) (fun kids => State.ChildrenAllocated c n kids.1 kids.2)
      (fun _ => State.InBounds c) := by
  obtain ⟨_, _, _, _, _, _, hnc, hsc, _⟩ := hc
  intro s ⟨⟨hs, htail, hregions⟩, hn⟩
  rcases allocChildren_spec n s with ⟨hnode, hspan, he⟩ | ⟨_, he⟩ | ⟨_, _, he⟩
  · rw [he]
    rw [hs.1] at hnode hspan
    generalize hu : State.withFt _ _ = u
    have hleft : u.nodeRec s.ft.tail.toNat = NodeRec.fresh s.ft.spanTop.toNat 0 (s.nodeRec n).count := by
      rw [← hu, withFt_nodeRec, putNode_nodeRec, if_neg (by omega), putNode_nodeRec, if_pos rfl]
    have hright : u.nodeRec (s.ft.tail.toNat + 1) =
        NodeRec.fresh (s.ft.spanTop.toNat + (s.nodeRec n).count) 0 (s.nodeRec n).count := by
      rw [← hu, withFt_nodeRec, putNode_nodeRec, if_pos rfl]
    have holder : ∀ k < s.ft.tail.toNat, u.nodeRec k = s.nodeRec k := fun k hk => by
      rw [← hu, withFt_nodeRec, putNode_nodeRec, if_neg (by omega), putNode_nodeRec, if_neg (by omega)]
    have htop : u.ft.spanTop.toNat = s.ft.spanTop.toNat + 2 * (s.nodeRec n).count := by
      rw [← hu]; exact zext64_toNat (by omega)
    exact {
      inBounds := by rw [← hu]; exact (hs.putNode (by omega) _).putNode (by omega) _
      parent := hn
      right := rfl
      tail := by rw [← hu]; exact zext64_toNat (by omega)
      tail_le := hnode
      left_cap := by rw [hleft, holder n hn]; rfl
      right_base := by rw [hleft, hright, holder n hn]; rfl
      right_cap := by rw [hright, holder n hn]; rfl
      top := by
        rw [htop, hright, holder n hn]
        show _ = s.ft.spanTop.toNat + (s.nodeRec n).count + (s.nodeRec n).count
        omega
      top_le := by rw [htop]; exact hspan
      older := fun k hk => by
        rw [hleft]
        have hk' : k < s.ft.tail.toNat := hk
        exact (hregions k hk').congr (by rw [holder k hk']) (by rw [holder k hk']) (fun _ _ => by rw [← hu]; rfl)
          (by rw [← hu]; rfl) }
  · rw [he]; exact hs
  · rw [he]; exact hs

@[simp] theorem storeRegion_cp (n : Nat) (l : List SpanRec) (s : State) : (storeRegion n l s).cp = s.cp := rfl
@[simp] theorem storeRegion_ft (n : Nat) (l : List SpanRec) (s : State) : (storeRegion n l s).ft = s.ft := rfl

theorem storeRegion_nodeRec_other {m : Nat} (l : List SpanRec) (s : State) (h : m ≠ n) :
    (storeRegion n l s).nodeRec m = s.nodeRec m := by
  rw [(storeRegion_spec n l s).2.1, if_neg h]

theorem storeRegion_nodeRec_same (n : Nat) (l : List SpanRec) (s : State) :
    (storeRegion n l s).nodeRec n = { s.nodeRec n with count := l.length } := by
  rw [(storeRegion_spec n l s).2.1, if_pos rfl]

/-- Storing a region keeps a region below it. -/
theorem State.RegionFits.storeRegion_below {m top : Nat} {l : List SpanRec} (h : s.RegionFits top m) (hm : m ≠ n)
    (htop : top ≤ (s.nodeRec n).base) : (storeRegion n l s).RegionFits top m := by
  have hrec := storeRegion_nodeRec_other l s hm
  refine h.congr (by rw [hrec]) (by rw [hrec]) (fun j hj => ?_) (storeRegion_cp n l s)
  rw [(storeRegion_spec n l s).1, if_neg (by omega), if_neg (by omega)]

theorem storeRegion_regionFits {top : Nat} {l : List SpanRec} (htop : (s.nodeRec n).base + l.length ≤ top)
    (hl : ∀ p ∈ l, p.EndsInside s.cp.width.toNat s.cp.height.toNat) : (storeRegion n l s).RegionFits top n := by
  refine ⟨by rw [storeRegion_nodeRec_same]; exact htop, ?_⟩
  rw [storeRegion_regionOf, storeRegion_cp]
  exact hl

/-- Regions no longer than the parent's, stored for the two children, fit with every older region. -/
theorem State.ChildrenAllocated.storeRegions {l r : Nat} {L R : List SpanRec} (h : s.ChildrenAllocated c n l r)
    (hL : L.length ≤ (s.nodeRec n).count) (hR : R.length ≤ (s.nodeRec n).count)
    (hLin : ∀ p ∈ L, p.EndsInside s.cp.width.toNat s.cp.height.toNat)
    (hRin : ∀ p ∈ R, p.EndsInside s.cp.width.toNat s.cp.height.toNat) :
    ∀ k ≤ r, (storeRegion r R (storeRegion l L s)).RegionFits s.ft.spanTop.toNat k := by
  have hright := h.right
  have hbase := h.right_base
  have htop := h.top
  have hrec : (storeRegion l L s).nodeRec r = s.nodeRec r := storeRegion_nodeRec_other L s (by omega)
  intro k hk
  rcases (by omega : k < l ∨ k = l ∨ k = r) with hkl | rfl | rfl
  · have hold := (h.older k hkl).storeRegion_below (l := L) (by omega) (Nat.le_refl _)
    exact (hold.storeRegion_below (by omega) (by rw [hrec]; omega)).mono (by omega)
  · have hself : (storeRegion k L s).RegionFits ((s.nodeRec k).base + L.length) k :=
      storeRegion_regionFits (Nat.le_refl _) hLin
    exact (hself.storeRegion_below (by omega) (by rw [hrec]; omega)).mono (by omega)
  · exact storeRegion_regionFits (by rw [hrec]; omega) hRin

/-- Splitting the parent into its allocated children keeps the tree within its memories. -/
theorem State.ChildrenAllocated.splitInto {l r : Nat} (h : s.ChildrenAllocated c n l r) (a : Nat) (d : Int) :
    (splitInto n a d l r s).TreeHas c n := by
  obtain ⟨hs, hparent, hright, htail, htail_le, hlcap, hrbase, hrcap, htop, htop_le, holder⟩ := id h
  have hb : (Machine.splitInto n a d l r s).InBounds c :=
    splitInto_inBounds a d hs (by omega) (by omega) (by omega) (by omega) (by omega) (by omega) (by omega)
  have hL := leftSpans_length_le s.cfg a d (s.regionOf n)
  have hR := rightSpans_length_le s.cfg a d (s.regionOf n)
  rw [regionOf_length] at hL hR
  have hregions := h.storeRegions hL hR (leftSpans_endsInside (holder n hparent).2)
    (rightSpans_endsInside (holder n hparent).2)
  rw [splitInto_eq] at hb ⊢
  refine ⟨⟨hb, ?_, fun k hk => ?_⟩, ?_⟩
  · rw [storeRegion_ft, storeRegion_ft, htail]; exact htail_le
  · rw [storeRegion_ft, storeRegion_ft] at hk ⊢
    exact hregions k (by omega)
  · rw [storeRegion_ft, storeRegion_ft]; omega

theorem drUpdate_treeHas (m a : Nat) (h : s.TreeHas c n) : (drUpdate m a s).TreeHas c n := by
  rw [drUpdate_eq]
  exact h.of_sameTree ⟨rfl, rfl, rfl, rfl, rfl⟩ h.1.inBounds

theorem parseSplit_keeps (hc : c.Bounds) (n : Nat) : Cmd.Keeps c (State.TreeHas c n) (parseSplit n) := by
  have hP := ignoresDecoder_treeHas c n
  refine .get fun s _ => ?_
  cases s.getLevel n with
  | none => exact .raise hP _
  | some level =>
    refine (readAngle_keeps hP level.1).bind fun ang => .update_bind (fun _ h => drUpdate_treeHas n ang h) <|
      .get fun t _ => (readNumber_keeps hP _).bind fun line => (allocChildren_allocates hc n).bind fun kids => ?_
    have hstore : Cmd.Keeps c (State.TreeHas c n)
        (update (fun u => u.putNode n { u.nodeRec n with left := kids.1, right := kids.2 }) >>= fun _ =>
          update (fun u => u.putNode n { u.nodeRec n with kind := .split })) :=
      .update_bind (fun _ h => h.putNode _ rfl rfl) <| .update fun _ h => h.putNode _ rfl rfl
    exact Cmd.Triple.bind (Cmd.Triple.update fun u hu => hu.splitInto ang _) fun _ => hstore

/-- Parsing the node at the head of the queue keeps the tree within its memories (47_fragment_tree.md R286). -/
theorem parseNode_treeFits (hc : c.Bounds) :
    Cmd.Triple (fun s => s.TreeFits c ∧ s.ft.head.toNat < s.ft.tail.toNat) parseNode (fun _ => State.TreeFits c)
      (fun _ => State.InBounds c) := by
  refine .get fun u => ?_
  have hP := ignoresDecoder_treeHas c u.ft.head.toNat
  have hhead : Cmd.Keeps c (State.TreeHas c u.ft.head.toNat) (update fun v => v.withFt { v.ft with head := v.ft.head + 1 }) :=
    .update fun _ h => h.of_sameTree ⟨rfl, rfl, rfl, rfl, rfl⟩ h.1.inBounds
  refine Cmd.Triple.weaken (P := State.TreeHas c u.ft.head.toNat) (Q := fun _ => State.TreeHas c u.ft.head.toNat)
    (E := fun _ => State.InBounds c) ?_ ?_ (fun _ _ h => h.1) (fun _ _ h => h)
  · exact (readNumber_keeps hP 2).bind fun _ => .ite ((parseFill_keeps _).bind fun _ => hhead)
      ((parseSplit_keeps hc _).bind fun _ => hhead)
  · rintro s ⟨rfl, h⟩
    exact h

theorem parseAll_treeFits (hc : c.Bounds) (k : Nat) : Cmd.Keeps c (State.TreeFits c) (parseAll k) := by
  induction k with
  | zero => exact .pure ()
  | succ k ih =>
    refine Cmd.Triple.get fun u => Cmd.Triple.ite (fun hlt => ?_) fun _ => .pure fun _ h => h.2
    refine Cmd.Triple.bind ((parseNode_treeFits hc).weaken ?_ (fun _ _ h => h) fun _ _ h => h) fun _ => ih
    rintro s ⟨rfl, h⟩
    exact ⟨h, hlt⟩

/-! #### The render -/

theorem putPixel_inBounds {p : Nat} (h : s.InBounds c) (hp : p + 4 ≤ c.pixCap) (v : Colour) : (putPixel v p s).InBounds c :=
  (((h.putPix (by omega) v.r).putPix (by omega) v.g).putPix (by omega) v.b).putPix (by omega) v.a

/-- The last byte of a pixel of a `w * h` image lies below `4 * w * h` (20_memory.md R72). -/
theorem pixel_end_le {w h x y cap : Nat} (hcap : 4 * w * h ≤ cap) (hx : x < w) (hy : y < h) : 4 * (y * w + x) + 4 ≤ cap := by
  have hrow : (y + 1) * w ≤ h * w := Nat.mul_le_mul_right w hy
  have hassoc : 4 * w * h = 4 * (h * w) := by rw [Nat.mul_assoc, Nat.mul_comm w h]
  rw [Nat.succ_mul] at hrow
  omega

theorem paintRun_inBounds (v : Colour) {y : Nat} (k x : Nat) (h : s.InBounds c)
    (hcap : 4 * s.cp.width.toNat * s.cp.height.toNat ≤ c.pixCap) (hy : y < s.cp.height.toNat)
    (hx : k = 0 ∨ x + k ≤ s.cp.width.toNat) : (paintRun v y k x s).InBounds c := by
  induction k generalizing x s with
  | zero => exact h
  | succ k ih =>
    exact ih (x + 1) (putPixel_inBounds h (pixel_end_le hcap (by omega) hy) v) hcap hy
      (.inr (by show _ ≤ s.cp.width.toNat; omega))

theorem paintSpans_inBounds (v : Colour) (l : List SpanRec) (h : s.InBounds c)
    (hcap : 4 * s.cp.width.toNat * s.cp.height.toNat ≤ c.pixCap)
    (hl : ∀ p ∈ l, p.EndsInside s.cp.width.toNat s.cp.height.toNat) : (paintSpans v l s).InBounds c := by
  induction l generalizing s with
  | nil => exact h
  | cons p l ih =>
    obtain ⟨⟨hx, hy⟩, hrest⟩ := List.forall_mem_cons.mp hl
    have hcp : (paintRun v p.y (p.x1 - p.x0) p.x0 s).cp = s.cp := by rw [onlyPixels_paintRun v p.y _ _ s]
    refine ih (paintRun_inBounds v _ _ h hcap hy (by omega)) ?_ ?_
    · rw [hcp]; exact hcap
    · rw [hcp]; exact hrest

theorem renderNode_inBounds (h : s.TreeFits c) (hcap : 4 * s.cp.width.toNat * s.cp.height.toNat ≤ c.pixCap)
    (hn : n < s.ft.tail.toNat) : (renderNode n s).InBounds c := by
  unfold renderNode
  split
  · exact paintSpans_inBounds _ _ h.inBounds hcap (h.regions n hn).2
  · exact h.inBounds
  · exact h.inBounds

theorem renderFrom_inBounds (k n : Nat) (h : s.TreeFits c) (hcap : 4 * s.cp.width.toNat * s.cp.height.toNat ≤ c.pixCap)
    (hk : n + k ≤ s.ft.tail.toNat) : (renderFrom k n s).InBounds c := by
  induction k generalizing n s with
  | zero => exact h.inBounds
  | succ k ih =>
    have hpix := onlyPixels_renderNode n s
    have hnode := renderNode_inBounds h hcap (n := n) (by omega)
    rw [renderFrom]
    generalize renderNode n s = t at hpix hnode ⊢
    have hsame : SameTree s t := by rw [hpix]; exact ⟨rfl, rfl, rfl, rfl, rfl⟩
    have hcp : t.cp = s.cp := by rw [hpix]
    have hft : t.ft = s.ft := by rw [hpix]
    exact ih (n + 1) (h.of_sameTree hsame hnode) (by rw [hcp]; exact hcap) (by rw [hft]; omega)

theorem render_inBounds : Cmd.Triple (State.TreeFits c) render (fun _ => State.InBounds c) (fun _ => State.InBounds c) := by
  intro s hs
  rcases render_spec s with ⟨hcap, he⟩ | ⟨_, he⟩
  · rw [he]
    rw [hs.inBounds.1] at hcap
    exact renderFrom_inBounds _ 0 hs hcap (by omega)
  · rw [he]; exact hs.inBounds

end Tree

end Sys2Proof.Machine
end

section
/-! PROOFS. Every command, and every step, stays in bounds. -/

namespace Sys2Proof.Machine

/-! ### The commands -/

/-- What a command may start from: in bounds, `OUT_LEN` at most the capacity of `OUT`, and in a build a tree that fits. -/
structure State.CommandFits (c : Config) (s : State) : Prop where
  output : s.OutputFits c
  tree : s.ft.phase = .build → s.TreeFits c

theorem State.CommandFits.inBounds {c : Config} {s : State} (h : s.CommandFits c) : s.InBounds c := h.output.1

/-- Outside the fault state, the invariants give what a command may start from. -/
theorem commandFits_of_inv {s : State} (hinv : s.Inv) (hshape : s.TreeShape) (hb : s.memoriesBounded = true)
    (hf : s.status.fault = false) : s.CommandFits s.cfg := by
  obtain ⟨_, _, _, ⟨hout, _⟩, _, htail, _⟩ := hinv
  refine ⟨⟨⟨rfl, hb⟩, hout⟩, fun hphase => ⟨⟨rfl, hb⟩, htail, fun n hn => ?_⟩⟩
  obtain ⟨hnodes, _⟩ := hshape hf hphase
  obtain ⟨hcount, hbase, hspans, _⟩ := hnodes n hn
  refine ⟨by omega, fun p hp => ?_⟩
  obtain ⟨_, hx, hy⟩ := hspans p hp
  exact ⟨hx, hy⟩

/-- A command that runs from what it may start from ends, or faults, in bounds. -/
def Cmd.StaysInBounds (c : Config) (x : Cmd Unit) : Prop :=
  Cmd.Triple (State.CommandFits c) x (fun _ => State.InBounds c) (fun _ => State.InBounds c)

section Commands

variable {c : Config}

theorem Cmd.StaysInBounds.of_keeps_inBounds {x : Cmd Unit} (h : Cmd.Keeps c (State.InBounds c) x) :
    Cmd.StaysInBounds c x :=
  Cmd.Triple.weaken h (fun _ hs => hs.inBounds) (fun _ _ ht => ht) fun _ _ ht => ht

theorem Cmd.StaysInBounds.of_keeps_outputFits {x : Cmd Unit} (h : Cmd.Keeps c (State.OutputFits c) x) :
    Cmd.StaysInBounds c x :=
  Cmd.Triple.weaken h (fun _ hs => hs.output) (fun _ _ ht => ht.1) fun _ _ ht => ht

/-! #### The decoder, the bank, the ROM and the quantizer -/

theorem setRes0_inBounds (v : Word) : Cmd.Keeps c (State.InBounds c) (setRes0 v) := .update fun _ h => h
theorem setRes1_inBounds (v : Word) : Cmd.Keeps c (State.InBounds c) (setRes1 v) := .update fun _ h => h
theorem setRes2_inBounds (v : Word) : Cmd.Keeps c (State.InBounds c) (setRes2 v) := .update fun _ h => h

theorem rdInitBody_inBounds : Cmd.Keeps c (State.InBounds c) rdInitBody :=
  have hP := ignoresDecoder_inBounds c
  .get fun _ _ => .require_bind hP fun _ =>
    .update_bind (fun s h => (onlyDecoderMoved_rdInit _ s).inBounds h) <| .update fun _ h => h

theorem rdCountBody_inBounds : Cmd.Keeps c (State.InBounds c) rdCountBody :=
  have hP := ignoresDecoder_inBounds c
  .get fun _ _ => .require_bind hP fun _ => .require_bind hP fun _ => (rdCount_keeps hP _).bind fun _ => setRes0_inBounds _

theorem rdRemoveBody_inBounds : Cmd.Keeps c (State.InBounds c) rdRemoveBody :=
  have hP := ignoresDecoder_inBounds c
  .get fun _ _ => .require_bind hP fun _ => .require_bind hP fun _ => .require_bind hP fun _ => rdRemove_keeps hP _ _

theorem rdNumBody_inBounds : Cmd.Keeps c (State.InBounds c) rdNumBody :=
  have hP := ignoresDecoder_inBounds c
  .get fun _ _ => .require_bind hP fun _ => .require_bind hP fun _ => (readNumber_keeps hP _).bind fun _ => setRes0_inBounds _

theorem tgLookupBody_inBounds : Cmd.Keeps c (State.InBounds c) tgLookupBody :=
  .get fun _ _ => .require_bind (ignoresDecoder_inBounds c) fun _ => (setRes0_inBounds _).bind fun _ => setRes1_inBounds _

theorem cpSetcodeBody_inBounds : Cmd.Keeps c (State.InBounds c) cpSetcodeBody :=
  have hP := ignoresDecoder_inBounds c
  .get fun _ _ => .require_bind hP fun _ => .require_bind hP fun _ => .require_bind hP fun _ =>
    .update_bind (fun _ h => h) <| setRes0_inBounds _

theorem cpReadBody_inBounds : Cmd.Keeps c (State.InBounds c) cpReadBody :=
  have hP := ignoresDecoder_inBounds c
  .get fun _ _ => .require_bind hP fun _ => .require_bind hP fun _ => .require_bind hP fun _ => .require_bind hP fun _ =>
    (readHeader_inBounds _).bind fun _ => .update_bind (fun _ h => h) <| .update_bind (fun _ h => h) <|
    (setRes2_inBounds _).bind fun _ => .update fun _ h => h

theorem cpSizeBody_inBounds : Cmd.Keeps c (State.InBounds c) cpSizeBody :=
  have hP := ignoresDecoder_inBounds c
  .get fun _ _ => .require_bind hP fun _ => (readSize_keeps hP).bind fun _ => setRes0_inBounds _

theorem cpLevelBody_inBounds : Cmd.Keeps c (State.InBounds c) cpLevelBody := by
  have hP := ignoresDecoder_inBounds c
  refine .get fun s _ => .require_bind hP fun _ => .require_bind hP fun _ => ?_
  cases s.getLevel s.operand0 with
  | none => exact .raise hP _
  | some level => exact (setRes0_inBounds _).bind fun _ => setRes1_inBounds _

theorem cpDeqBody_inBounds : Cmd.Keeps c (State.InBounds c) cpDeqBody :=
  .get fun _ _ => .require_bind (ignoresDecoder_inBounds c) fun _ => setRes0_inBounds _

theorem drUpdate_inBounds {s : State} (n a : Nat) (h : s.InBounds c) : (drUpdate n a s).InBounds c := by
  rw [drUpdate_eq]
  exact h

theorem drUpdateBody_inBounds : Cmd.Keeps c (State.InBounds c) drUpdateBody :=
  have hP := ignoresDecoder_inBounds c
  .get fun _ _ => .require_bind hP fun _ => .require_bind hP fun _ => .require_bind hP fun _ => .require_bind hP fun _ =>
    .update_bind (fun _ h => drUpdate_inBounds _ _ h) <| .update_bind (fun _ h => h) <| .update_bind (fun _ h => h) <|
    .update_bind (fun _ h => h) <| .update fun _ h => h

theorem drDistBody_inBounds : Cmd.Keeps c (State.InBounds c) drDistBody :=
  have hP := ignoresDecoder_inBounds c
  .get fun _ _ => .require_bind hP fun _ => .require_bind hP fun _ => setRes0_inBounds _

/-! #### The encoder -/

theorem ignoresDecoder_outputFits (c : Config) : IgnoresDecoder c (State.OutputFits c) :=
  ⟨fun _ h => h.1, fun s t ht h => ⟨ht.inBounds h.1, by rw [ht]; exact h.2⟩⟩

theorem setRes0OutLen_outputFits : Cmd.Keeps c (State.OutputFits c) setRes0OutLen := .update fun _ h => h

theorem reInitBody_inBounds : Cmd.Keeps c (State.InBounds c) reInitBody := .update fun _ h => h

theorem rePutBody_outputFits (hc : c.outCap < 2 ^ 64) : Cmd.Keeps c (State.OutputFits c) rePutBody :=
  have hP := ignoresDecoder_outputFits c
  .get fun _ _ => .require_bind hP fun _ => .require_bind hP fun _ => .require_bind hP fun _ =>
    (reLog_outputFits _ _ _).bind fun _ => (rePut_outputFits hc _ _ _).bind fun _ => setRes0OutLen_outputFits

theorem reNumBody_outputFits (hc : c.outCap < 2 ^ 64) : Cmd.Keeps c (State.OutputFits c) reNumBody :=
  have hP := ignoresDecoder_outputFits c
  .get fun _ _ => .require_bind hP fun _ => .require_bind hP fun _ => .require_bind hP fun _ =>
    .ite ((Cmd.Keeps.pure ()).bind fun _ => setRes0OutLen_outputFits)
      ((reLog_outputFits _ _ _).bind fun _ => (rePut_outputFits hc _ _ _).bind fun _ => setRes0OutLen_outputFits)

theorem reFinishBody_outputFits (hc : c.outCap < 2 ^ 64) : Cmd.Keeps c (State.OutputFits c) reFinishBody :=
  .get fun _ _ => .require_bind (ignoresDecoder_outputFits c) fun _ =>
    (reFinish_outputFits hc).bind fun _ => setRes0OutLen_outputFits

theorem reOptfinBody_staysInBounds (hc : c.outCap < 2 ^ 64) : Cmd.StaysInBounds c reOptfinBody := by
  have hP := ignoresDecoder_outputFits c
  have hres : Cmd.Keeps c (State.OutputFits c) (update fun t => t.withRes1 t.re.outLen) := .update fun _ h => h
  have hmin : Cmd.Triple (State.OutputFits c)
      (update (fun t => t.withRes1 t.re.outLen) >>= fun _ => update minimize >>= fun _ => setRes0OutLen)
      (fun _ => State.InBounds c) (fun _ => State.InBounds c) :=
    Cmd.Triple.bind hres fun _ => .bind (.update fun _ h => minimize_inBounds h) fun _ => .update fun _ h => h
  have hbody : Cmd.Triple (State.OutputFits c) reOptfinBody (fun _ => State.InBounds c) (fun _ => State.InBounds c) :=
    .get_of fun _ _ => .require_bind hP.inBounds fun _ => .ite
      (fun _ => Cmd.Triple.bind (reFinish_outputFits hc) fun _ => hmin) fun _ => hmin
  exact hbody.weaken (fun _ h => h.output) (fun _ _ h => h) fun _ _ h => h

/-! #### Regions and the tree -/

theorem destinationsOk_iff (s : State) (n : Nat) :
    s.destinationsOk n = true ↔
      (s.nodeRec n).left < s.cfg.nodeCap ∧ (s.nodeRec n).right < s.cfg.nodeCap ∧
      (s.nodeRec n).left ≠ (s.nodeRec n).right ∧ (s.nodeRec n).left ≠ n ∧ (s.nodeRec n).right ≠ n ∧
      (s.nodeRec n).count ≤ (s.nodeRec (s.nodeRec n).left).cap ∧
      (s.nodeRec n).count ≤ (s.nodeRec (s.nodeRec n).right).cap ∧
      (s.nodeRec (s.nodeRec n).left).base + (s.nodeRec (s.nodeRec n).left).cap ≤ s.cfg.spanCap ∧
      (s.nodeRec (s.nodeRec n).right).base + (s.nodeRec (s.nodeRec n).right).cap ≤ s.cfg.spanCap ∧
      reservedDisjoint (s.nodeRec (s.nodeRec n).left) (s.nodeRec (s.nodeRec n).right) = true ∧
      reservedDisjoint (s.nodeRec n) (s.nodeRec (s.nodeRec n).left) = true ∧
      reservedDisjoint (s.nodeRec n) (s.nodeRec (s.nodeRec n).right) = true := by
  simp only [State.destinationsOk, Bool.and_eq_true, decide_eq_true_eq, and_assoc]

/-- The check of the destinations (46_region_split.md R270) is what the split needs to stay in bounds. -/
theorem splitInto_inBounds_of_destinationsOk {s : State} {n : Nat} (a : Nat) (d : Int) (h : s.InBounds c)
    (hd : s.destinationsOk n = true) : (splitInto n a d (s.nodeRec n).left (s.nodeRec n).right s).InBounds c := by
  obtain ⟨hl, hr, hlr, _, _, hcl, hcr, hbl, hbr, _⟩ := (destinationsOk_iff s n).mp hd
  rw [h.1] at hl hr hbl hbr
  exact splitInto_inBounds a d h hl hr hlr hcl hcr hbl hbr

theorem rgSplitBody_inBounds : Cmd.Keeps c (State.InBounds c) rgSplitBody := by
  refine Cmd.Triple.get fun u => ?_
  have he : ∀ s, s = u ∧ s.InBounds c → s.InBounds c := fun _ h => h.2
  refine .require_bind he fun _ => .require_bind he fun _ => .require_bind he fun _ => .require_bind he fun _ =>
    .require_bind he fun hd => ?_
  have hrest : Cmd.Keeps c (State.InBounds c)
      (update (fun t => t.withRes0 (zext64 (t.nodeRec (u.nodeRec u.operand0).left).count)) >>= fun _ =>
        update fun t => t.withRes1 (zext64 (t.nodeRec (u.nodeRec u.operand0).right).count)) :=
    .update_bind (fun _ h => h) <| .update fun _ h => h
  refine Cmd.Triple.bind (.update ?_) fun _ => hrest
  rintro s ⟨rfl, h⟩
  exact splitInto_inBounds_of_destinationsOk _ _ h hd

theorem setPhase_inBounds (p : FtPhase) : Cmd.Keeps c (State.InBounds c) (setPhase p) := .update fun _ h => h

theorem setImageResults_inBounds : Cmd.Keeps c (State.InBounds c) setImageResults :=
  .update_bind (fun _ h => h) <| .update_bind (fun _ h => h) <| .update fun _ h => h

theorem ftRootBody_staysInBounds : Cmd.StaysInBounds c ftRootBody := by
  have hroot : Cmd.Triple (State.InBounds c) (makeRoot >>= fun _ => setRes0 1) (fun _ => State.InBounds c)
      (fun _ => State.InBounds c) :=
    Cmd.Triple.bind makeRoot_treeFits fun _ => .update fun _ h => h.inBounds
  exact .get_of fun _ _ => .require_bind (fun _ h => h.inBounds) fun _ =>
    hroot.weaken (fun _ h => h.inBounds) (fun _ _ h => h) fun _ _ h => h

theorem ftParseBody_staysInBounds (hc : c.Bounds) : Cmd.StaysInBounds c ftParseBody := by
  refine Cmd.Triple.get fun u => ?_
  have he : ∀ s, s = u ∧ s.CommandFits c → s.InBounds c := fun _ h => h.2.inBounds
  refine .require_bind he fun hphase => .require_bind he fun hlt => .require_bind he fun _ => ?_
  have hrest : Cmd.Keeps c (State.InBounds c)
      (setRes0 u.ft.head >>= fun _ =>
        update (fun t => t.withRes1 (zext64 (t.nodeRec u.ft.head.toNat).kind.toNat)) >>= fun _ =>
        update fun t => t.withRes2 (t.ft.tail - t.ft.head)) :=
    (setRes0_inBounds _).bind fun _ => .update_bind (fun _ h => h) <| .update fun _ h => h
  refine Cmd.Triple.bind ((parseNode_treeFits hc).weaken ?_ (fun _ _ h => h.inBounds) fun _ _ h => h) fun _ => hrest
  rintro s ⟨rfl, h⟩
  exact ⟨h.tree hphase, hlt⟩

theorem ftRenderBody_staysInBounds : Cmd.StaysInBounds c ftRenderBody := by
  refine Cmd.Triple.get fun u => ?_
  have he : ∀ s, s = u ∧ s.CommandFits c → s.InBounds c := fun _ h => h.2.inBounds
  refine .require_bind he fun hphase => .require_bind he fun _ => ?_
  have hrest : Cmd.Keeps c (State.InBounds c) (setPhase .rendered >>= fun _ => setImageResults) :=
    (setPhase_inBounds _).bind fun _ => setImageResults_inBounds
  refine Cmd.Triple.bind (render_inBounds.weaken ?_ (fun _ _ h => h) fun _ _ h => h) fun _ => hrest
  rintro s ⟨rfl, h⟩
  exact h.tree hphase

/-- The root fits, each parse keeps the tree fitting, and the render of a tree that fits stays in `PIX`. -/
theorem ftDecodeBody_inBounds (hc : c.Bounds) : Cmd.Keeps c (State.InBounds c) ftDecodeBody := by
  have hP := ignoresDecoder_inBounds c
  have hrest : Cmd.Keeps c (State.InBounds c) (setPhase .rendered >>= fun _ => setImageResults >>= fun _ =>
      update fun u => u.withRes3 u.rd.pad) :=
    (setPhase_inBounds _).bind fun _ => setImageResults_inBounds.bind fun _ => .update fun _ h => h
  refine .get fun _ _ => .require_bind hP fun _ => .require_bind hP fun _ => .require_bind hP fun _ =>
    (setPhase_inBounds .idle).bind fun _ => .update_bind (fun s h => (onlyDecoderMoved_rdInit _ s).inBounds h) <|
    (readHeader_inBounds _).bind fun _ => .get fun _ _ => .require_bind hP fun _ => ?_
  exact Cmd.Triple.bind makeRoot_treeFits fun _ => Cmd.Triple.bind (parseAll_treeFits hc _) fun _ =>
    Cmd.Triple.bind render_inBounds fun _ => hrest

/-- The run of every command stays in bounds, whether it ends or faults. -/
theorem body_staysInBounds (hc : c.Bounds) (i : Instr) : Cmd.StaysInBounds c (commandBody i) := by
  obtain ⟨_, _, _, _, hout, _⟩ := id hc
  cases i with
  | sysReset => exact .of_keeps_inBounds (.pure ())
  | rdInit => exact .of_keeps_inBounds rdInitBody_inBounds
  | rdCount => exact .of_keeps_inBounds rdCountBody_inBounds
  | rdRemove => exact .of_keeps_inBounds rdRemoveBody_inBounds
  | rdNum => exact .of_keeps_inBounds rdNumBody_inBounds
  | reInit => exact .of_keeps_inBounds reInitBody_inBounds
  | rePut => exact .of_keeps_outputFits (rePutBody_outputFits hout)
  | reNum => exact .of_keeps_outputFits (reNumBody_outputFits hout)
  | reFinish => exact .of_keeps_outputFits (reFinishBody_outputFits hout)
  | reOptfin => exact reOptfinBody_staysInBounds hout
  | tgLookup => exact .of_keeps_inBounds tgLookupBody_inBounds
  | cpSetcode => exact .of_keeps_inBounds cpSetcodeBody_inBounds
  | cpRead => exact .of_keeps_inBounds cpReadBody_inBounds
  | cpSize => exact .of_keeps_inBounds cpSizeBody_inBounds
  | cpLevel => exact .of_keeps_inBounds cpLevelBody_inBounds
  | cpDeq => exact .of_keeps_inBounds cpDeqBody_inBounds
  | drUpdate => exact .of_keeps_inBounds drUpdateBody_inBounds
  | drDist => exact .of_keeps_inBounds drDistBody_inBounds
  | rgSplit => exact .of_keeps_inBounds rgSplitBody_inBounds
  | ftRoot => exact ftRootBody_staysInBounds
  | ftParse => exact ftParseBody_staysInBounds hc
  | ftRender => exact ftRenderBody_staysInBounds
  | ftDecode => exact .of_keeps_inBounds (ftDecodeBody_inBounds hc)

theorem exec_inBounds (hc : c.Bounds) {i : Instr} {s t : State} (hi : i ≠ .sysReset) (hs : s.CommandFits c)
    (h : exec i s = .next t) : t.InBounds c := by
  rw [exec_eq_runCommand hi] at h
  rcases runCommand_cases i (commandBody i) s with ⟨u, hu, he⟩ | ⟨e, u, hu, he⟩
  · rw [he] at h
    cases h
    have hin : u.InBounds c := (body_staysInBounds hc i).ok hs hu
    exact hin
  · rw [he] at h
    cases h
    exact ((body_staysInBounds hc i).error hs hu).raiseFault e _

/-! ### The step -/

theorem State.CommandFits.beginCommand {s : State} (h : s.CommandFits c) : (beginCommand s).CommandFits c :=
  ⟨h.output, fun hphase => (h.tree hphase).of_sameTree ⟨rfl, rfl, rfl, rfl, rfl⟩ h.inBounds⟩

theorem State.CommandFits.withPending {s : State} (h : s.CommandFits c) (l : List HostAction) :
    (s.withPending l).CommandFits c :=
  ⟨h.output, fun hphase => (h.tree hphase).of_sameTree ⟨rfl, rfl, rfl, rfl, rfl⟩ h.inBounds⟩

theorem issueCommand_inBounds (hc : c.Bounds) {w : Word} {s t : State} (hs : s.InBounds c)
    (hfits : s.status.fault = false → s.CommandFits c) (h : issueCommand w s = .next t) : t.InBounds c := by
  rcases issueCommand_cases h with ⟨_, _, rfl⟩ | ⟨_, rfl⟩ | ⟨_, hf, i, hi, he⟩ | ⟨_, _, e, cmd, rfl⟩
  · exact hs
  · exact hs.of_sameMemories ⟨rfl, rfl, rfl, rfl, rfl, rfl, rfl⟩ rfl
  · exact exec_inBounds hc hi (hfits hf).beginCommand he
  · exact State.InBounds.raiseFault (s := beginCommand s) hs e cmd

theorem writeDataReg_inBounds (n : Nat) (v : Word) {s : State} (hs : s.InBounds c) : (writeDataReg n v s).InBounds c := by
  rcases writeDataReg_cases n v s with ⟨_, he⟩ | ⟨_, he⟩ | ⟨_, he⟩ | ⟨_, _, _, b, _, he⟩ | ⟨_, _, _, _, he⟩
  · rw [he]; exact hs
  · rw [he]; exact hs
  · rw [he]; exact hs
  · rw [he]
    rcases writeBank_cases b s with ⟨_, hb⟩ | ⟨_, _, hb⟩ | ⟨_, _, hb⟩
    · rw [hb]; exact hs
    · rw [hb]; exact hs
    · rw [hb]; exact hs.raiseFault _ _
  · rw [he]; exact hs

/-- The host stores an element only below the memory's capacity (10_state.md R35). -/
theorem storeIn_inBounds {a : HostAction} {sp : Space} {i : Nat} {d : BusData} (ha : a.stores = some (sp, i, d))
    {s : State} (hs : s.InBounds c) (hi : i < s.cfg.capacity sp) : (a.storeIn s).InBounds c := by
  rw [hs.1] at hi
  cases a with
  | writeReg n v => cases ha
  | readReg n => cases ha
  | writeIn i v => cases ha; exact hs.putIn hi v
  | writeOut i v => cases ha; exact hs.putOut hi v
  | writeLog i v => cases ha; exact hs.putLog hi v
  | writePal i v => cases ha; exact hs.putPal hi v
  | writeNode i v => cases ha; exact hs.putNode hi v
  | writeSpan i v => cases ha; exact hs.putSpan hi v
  | writePix i v => cases ha; exact hs.putPix hi v
  | readMem sp i => cases ha

end Commands

/-- Settles O60: a host access by `storeIn_inBounds`, a command by `exec_inBounds`, which needs of the invariants the bounds of
the parameters, `OUT_LEN` and, in a build, the regions of the tree. -/
theorem stepStaysInBounds : Obligations.StepStaysInBounds := by
  intro s t hinv hshape hb h
  suffices ht : t.InBounds s.cfg from ht.2
  obtain ⟨⟨hc, _⟩, _⟩ := id hinv
  have hs : s.InBounds s.cfg := ⟨rfl, hb⟩
  rcases step_cases h with ⟨_, rfl⟩ | ⟨a, rest, _, hread | ⟨_, ha⟩⟩
  · exact hs
  · obtain ⟨_, d, rfl⟩ := hread
    exact hs
  · have hs' : (s.withPending rest).InBounds s.cfg := hs
    rcases idleAction_cases ha with ⟨_, d, rfl⟩ | ⟨w, _, hi⟩ | ⟨n, v, _, _, rfl⟩ | ⟨sp, i, d, hst, _, hi, rfl⟩
    · exact hs'
    · exact issueCommand_inBounds hc hs' (fun hf => (commandFits_of_inv hinv hshape hb hf).withPending rest) hi
    · exact writeDataReg_inBounds n v hs'
    · exact storeIn_inBounds hst hs' hi

end Sys2Proof.Machine
end

section
/-! PROOFS. Command words (30_encoding.md R100 to R104): what a word decodes to, case by case; the fault of an illegal word; the
run of a decoded command. -/

namespace Sys2Proof

/-! ### The opcode map -/

/-- Every command's word is well formed and decodes to it: the constructors' own lemmas, put together. -/
theorem encodingRoundTrip : ∀ i : Instr, Laws.EncodingRoundTrip.Statement i
  | .sysReset => Laws.EncodingRoundTrip.sysReset
  | .rdInit => Laws.EncodingRoundTrip.rdInit
  | .rdCount => Laws.EncodingRoundTrip.rdCount
  | .rdRemove => Laws.EncodingRoundTrip.rdRemove
  | .rdNum => Laws.EncodingRoundTrip.rdNum
  | .reInit => Laws.EncodingRoundTrip.reInit
  | .rePut => Laws.EncodingRoundTrip.rePut
  | .reNum => Laws.EncodingRoundTrip.reNum
  | .reFinish => Laws.EncodingRoundTrip.reFinish
  | .reOptfin => Laws.EncodingRoundTrip.reOptfin
  | .tgLookup => Laws.EncodingRoundTrip.tgLookup
  | .cpSetcode => Laws.EncodingRoundTrip.cpSetcode
  | .cpRead => Laws.EncodingRoundTrip.cpRead
  | .cpSize => Laws.EncodingRoundTrip.cpSize
  | .cpLevel => Laws.EncodingRoundTrip.cpLevel
  | .cpDeq => Laws.EncodingRoundTrip.cpDeq
  | .drUpdate => Laws.EncodingRoundTrip.drUpdate
  | .drDist => Laws.EncodingRoundTrip.drDist
  | .rgSplit => Laws.EncodingRoundTrip.rgSplit
  | .ftRoot => Laws.EncodingRoundTrip.ftRoot
  | .ftParse => Laws.EncodingRoundTrip.ftParse
  | .ftRender => Laws.EncodingRoundTrip.ftRender
  | .ftDecode => Laws.EncodingRoundTrip.ftDecode

theorem decode_encode (i : Instr) : decode (encode i) = .command i := by
  obtain ⟨_, _, _, hdecode⟩ := encodingRoundTrip i
  exact hdecode

/-- The map lists an opcode with a command only if it is that command's. -/
theorem opcode_of_instrOfOpcode {op : Byte} {i : Instr} (h : instrOfOpcode op = some i) : op = opcode i := by
  have hrows : ∀ row ∈ opcodeTable, row.1 = opcode row.2 := by decide
  obtain ⟨row, hfind, rfl⟩ := Option.map_eq_some_iff.mp h
  have hop : row.1 = op := beq_iff_eq.mp (List.find?_some (p := fun r : Byte × Instr => r.1 == op) hfind)
  rw [← hop, hrows row (List.mem_of_find?_eq_some hfind)]

/-- The map answers exactly for the listed opcodes. -/
theorem instrOfOpcode_isSome_iff (op : Byte) : (∃ i, instrOfOpcode op = some i) ↔ op ∈ legalOpcodes := by
  have hlisted : legalOpcodes = opcodeTable.map Prod.fst := rfl
  rw [← Option.isSome_iff_exists, instrOfOpcode, Option.isSome_map, List.find?_isSome, hlisted, List.mem_map]
  simp only [beq_iff_eq]

/-! ### The fields of a word -/

theorem opcodeField_toNat (w : Word) : (opcodeField w).toNat = w.toNat % 256 := BitVec.toNat_setWidth 8 w

theorem shiftRight_eight_eq_zero_iff (w : Word) : w >>> 8 = 0 ↔ w.toNat / 256 = 0 := by
  rw [← BitVec.toNat_inj, BitVec.toNat_ushiftRight, Nat.shiftRight_eq_div_pow]
  rfl

/-- A word with clear reserved bits is its opcode, extended with zeros. -/
theorem setWidth_opcodeField {w : Word} (h : w.toNat / 256 = 0) : (opcodeField w).setWidth 64 = w := by
  apply BitVec.eq_of_toNat_eq
  rw [BitVec.toNat_setWidth, opcodeField_toNat]
  omega

/-! ### What a word decodes to -/

theorem decode_of_reservedSet {w : Word} (h : w.toNat / 256 ≠ 0) : decode w = .reservedBits :=
  if_pos fun hw => h ((shiftRight_eight_eq_zero_iff w).mp hw)

theorem decode_of_reservedClear {w : Word} (h : w.toNat / 256 = 0) :
    decode w = (instrOfOpcode (opcodeField w)).elim .unlistedOpcode .command := by
  unfold decode
  rw [if_neg (not_not.mpr ((shiftRight_eight_eq_zero_iff w).mpr h))]
  cases instrOfOpcode (opcodeField w) <;> rfl

theorem decode_eq_reservedBits_iff (w : Word) : decode w = .reservedBits ↔ w.toNat / 256 ≠ 0 := by
  by_cases h : w.toNat / 256 = 0
  · rw [decode_of_reservedClear h]
    cases instrOfOpcode (opcodeField w) <;> simp [h]
  · simp [decode_of_reservedSet h, h]

theorem decode_eq_command_iff (w : Word) (i : Instr) :
    decode w = .command i ↔ w.toNat / 256 = 0 ∧ instrOfOpcode (opcodeField w) = some i := by
  by_cases h : w.toNat / 256 = 0
  · rw [decode_of_reservedClear h]
    cases instrOfOpcode (opcodeField w) <;> simp [h]
  · simp [decode_of_reservedSet h, h]

/-- A word that decodes to a command is that command's word. -/
theorem eq_encode_of_decode {w : Word} {i : Instr} (h : decode w = .command i) : w = encode i := by
  obtain ⟨hclear, hop⟩ := (decode_eq_command_iff w i).mp h
  rw [encode, ← opcode_of_instrOfOpcode hop, setWidth_opcodeField hclear]

theorem wordWellFormed_iff (w : Word) :
    wordWellFormed w = true ↔ w.toNat / 256 = 0 ∧ opcodeField w ∈ legalOpcodes := by
  rw [wordWellFormed, Bool.and_eq_true, reservedClear, beq_iff_eq, shiftRight_eight_eq_zero_iff, opcodeListed,
    List.contains_iff_mem, opcodeField]

theorem decode_isCommand_iff (w : Word) : (∃ i, decode w = .command i) ↔ wordWellFormed w = true := by
  simp only [decode_eq_command_iff, exists_and_left, instrOfOpcode_isSome_iff, wordWellFormed_iff]

theorem decodeTableWord_toNat {w : Word} {i : Instr} (n : Nat) (h : decode w = .command i) :
    decodeTableWord n w.toNat = some i := by
  rw [decodeTableWord, if_pos w.isLt, BitVec.ofNat_toNat, BitVec.setWidth_eq, h]

/-- None of the opcodes that R104 names is in the opcode map (30_encoding.md R102, R104). -/
theorem decode_of_isIllegalOpcode {w : Word} (hclear : w.toNat / 256 = 0)
    (h : Machine.isIllegalOpcode (w.toNat % 256) = true) : decode w = .unlistedOpcode := by
  have hlegal : ∀ op ∈ legalOpcodes, Machine.isIllegalOpcode op.toNat = false := by decide
  have hmem : opcodeField w ∉ legalOpcodes := by
    intro hm
    have hfalse := hlegal _ hm
    rw [opcodeField_toNat, h] at hfalse
    cases hfalse
  have hnone : instrOfOpcode (opcodeField w) = none := by
    rw [Option.eq_none_iff_forall_ne_some]
    exact fun i hi => hmem ((instrOfOpcode_isSome_iff _).mp ⟨i, hi⟩)
  rw [decode_of_reservedClear hclear, hnone, Option.elim_none]

/-- Settles O1: `decode_encode` one way, `eq_encode_of_decode` the other; each class of words by its own lemma. -/
theorem decodeEncodeAgree : Obligations.DecodeEncodeAgree :=
  ⟨fun i _ => ⟨decode_encode i, decodeTableWord_toNat 64 (decode_encode i)⟩, fun _ _ => eq_encode_of_decode,
    decode_isCommand_iff, decode_eq_reservedBits_iff⟩

/-- Settles O2: a listed word is its command's encoding; the other two break the two rules of R104. -/
theorem listedWordsDecode : Obligations.ListedWordsDecode :=
  ⟨decode_encode .sysReset, decode_encode .rdNum, decode_encode .rePut, decode_encode .reOptfin, decode_encode .tgLookup,
    decode_encode .cpLevel, decode_encode .drDist, decode_encode .rgSplit, decode_encode .ftDecode,
    decode_of_isIllegalOpcode (by decide) (by decide), decode_of_reservedSet (by decide)⟩

end Sys2Proof

namespace Sys2Proof.Machine

/-! ### The issue of a word -/

/-- Settles O3: a decoded word is not refused, so the step begins its command and runs it. -/
theorem stepRunsDecodedCommand : Obligations.StepRunsDecodedCommand := by
  intro s w i rest hp hb hallowed hd
  have hissued : ¬ (s.status.fault = true ∧ w ≠ 0x01) := by
    rintro ⟨hf, hw⟩
    rcases hallowed with hf' | hw'
    · rw [hf] at hf'; cases hf'
    · exact hw hw'
  rw [step_writeCmd hp hb, if_neg hissued, hd]
  rfl

/-- A fault taken before anything but `STATUS` was written is clean (60_exceptions.md R333, R340). -/
theorem trapsCleanly_raiseFault {s : State} (hf : s.status.fault = false) (c : Cause) (cmd : Byte) :
    TrapsCleanly (.next (raiseFault c (cmd.setWidth 64) (s.withStatus s.status.begin))) c.code c.sub cmd s := by
  have hframe : WritesOnly faultParts s (raiseFault c (cmd.setWidth 64) (s.withStatus s.status.begin)) :=
    (WritesOnly.withStatus (by decide) s _).trans (.raiseFault c _ _)
  have hbegin : (s.withStatus s.status.begin).status.fault = false := hf
  refine ⟨_, rfl, ?_, ?_, hframe.1⟩
  · rw [raiseFault_eq, hbegin]
    exact ⟨rfl, rfl, rfl, rfl, rfl, rfl⟩
  · rw [raiseFault_eq]
    rfl

/-- Settles O4: the word decodes to one of the two illegal cases, and the fault is the first effect after the start. -/
theorem illegalWordsFault : Obligations.IllegalWordsFault := by
  intro s w rest hp hb hf
  have hissued : ¬ (s.status.fault = true ∧ w ≠ 0x01) := by simp [hf]
  have htraps := trapsCleanly_raiseFault (s := { s with pending := rest, cmdSeq := s.cmdSeq + 1 }) hf
  rw [step_writeCmd hp hb, if_neg hissued]
  refine ⟨fun hres => ?_, fun hclear hill => ?_⟩
  · rw [decode_of_reservedSet hres]
    exact htraps .illegalReserved (opcodeField w)
  · rw [decode_of_isIllegalOpcode hclear hill]
    exact htraps .illegalOpcode (opcodeField w)

end Sys2Proof.Machine
end

section
/-! PROOFS. The end of every command (30_encoding.md R101, 60_exceptions.md R346): a run writes no bit of `STATUS` but `PAD`, so a
command that begins outside the fault state ends either with `DONE` or with `FAULT`. -/

namespace Sys2Proof.Machine

/-! ### Runs that write no bit of `STATUS` but `PAD` -/

/-- `BUSY`, `FAULT` and `DONE` are the same in `t` as in `s`. -/
def OnlyPadMoved (s t : State) : Prop := t.status = { s.status with pad := t.status.pad }

/-- From every state, the run ends or faults with no bit of `STATUS` but `PAD` written. -/
def Cmd.MovesOnlyPad {α : Type} (x : Cmd α) : Prop :=
  ∀ s₀, Cmd.Triple (OnlyPadMoved s₀) x (fun _ => OnlyPadMoved s₀) (fun _ => OnlyPadMoved s₀)

section MovesOnlyPad

variable {α β : Type} {s t u : State}

theorem OnlyPadMoved.refl (s : State) : OnlyPadMoved s s := rfl

theorem OnlyPadMoved.trans (h₁ : OnlyPadMoved s t) (h₂ : OnlyPadMoved t u) : OnlyPadMoved s u := by
  unfold OnlyPadMoved at *
  rw [h₂, h₁]

theorem OnlyPadMoved.fault_eq (h : OnlyPadMoved s t) : t.status.fault = s.status.fault := by rw [h]

theorem OnlyDecoderMoved.onlyPadMoved (h : OnlyDecoderMoved s t) : OnlyPadMoved s t := by
  unfold OnlyPadMoved
  rw [h]
  rfl

theorem WritesOnly.onlyPadMoved {l : List Part} (h : WritesOnly l s t) (hl : .status ∉ l) : OnlyPadMoved s t := by
  have hstatus : t.status = s.status := h.1 .status hl
  rw [OnlyPadMoved, hstatus]

theorem Cmd.MovesOnlyPad.of_apply {x : Cmd α}
    (h : ∀ s, match x s with | .ok _ t => OnlyPadMoved s t | .error _ t => OnlyPadMoved s t) : x.MovesOnlyPad := by
  intro s₀ s hs
  have hx := h s
  cases he : x s with
  | ok a t => rw [he] at hx; exact hs.trans hx
  | error c t => rw [he] at hx; exact hs.trans hx

theorem Cmd.MovesOnlyPad.of_writes {l : List Part} {x : Cmd α} (h : Cmd.Writes l x) (hl : .status ∉ l) :
    x.MovesOnlyPad := by
  refine .of_apply fun s => ?_
  split
  · exact (h.ok ‹_›).onlyPadMoved hl
  · exact (h.error ‹_›).onlyPadMoved hl

theorem Cmd.MovesOnlyPad.ok {x : Cmd α} (h : x.MovesOnlyPad) {a : α} (hx : x s = .ok a t) : OnlyPadMoved s t :=
  (h s).ok (.refl s) hx

theorem Cmd.MovesOnlyPad.pure (a : α) : Cmd.MovesOnlyPad (Pure.pure a) := fun _ => .pure fun _ h => h

theorem Cmd.MovesOnlyPad.raise (c : Cause) : (Machine.raise (α := α) c).MovesOnlyPad := fun _ => .raise fun _ h => h

theorem Cmd.MovesOnlyPad.update {g : State → State} (h : ∀ s, OnlyPadMoved s (g s)) : (Machine.update g).MovesOnlyPad :=
  fun _ => .update fun s hs => hs.trans (h s)

theorem Cmd.MovesOnlyPad.bind {x : Cmd α} {f : α → Cmd β} (hx : x.MovesOnlyPad) (hf : ∀ a, (f a).MovesOnlyPad) :
    Cmd.MovesOnlyPad (x >>= f) :=
  fun s₀ => (hx s₀).bind fun a => hf a s₀

theorem Cmd.MovesOnlyPad.update_bind {g : State → State} {f : Unit → Cmd β} (h : ∀ s, OnlyPadMoved s (g s))
    (hf : (f ()).MovesOnlyPad) : Cmd.MovesOnlyPad (Machine.update g >>= f) :=
  (Cmd.MovesOnlyPad.update h).bind fun _ => hf

theorem Cmd.MovesOnlyPad.require_bind {p : Prop} [Decidable p] {c : Cause} {f : Unit → Cmd β}
    (hf : (f ()).MovesOnlyPad) : Cmd.MovesOnlyPad (Machine.require p c >>= f) :=
  fun s₀ => Cmd.Triple.require_bind (fun _ h => h) fun _ => hf s₀

theorem Cmd.MovesOnlyPad.get {f : State → Cmd β} (hf : ∀ u, (f u).MovesOnlyPad) :
    Cmd.MovesOnlyPad (MonadState.get >>= f) :=
  fun s₀ => Cmd.Triple.get_of fun u _ => hf u s₀

theorem Cmd.MovesOnlyPad.ite {p : Prop} [Decidable p] {x y : Cmd α} (hx : x.MovesOnlyPad) (hy : y.MovesOnlyPad) :
    Cmd.MovesOnlyPad (if p then x else y) :=
  fun s₀ => .ite (fun _ => hx s₀) (fun _ => hy s₀)

end MovesOnlyPad

/-! #### The decoder, and what reads symbols from it -/

theorem rdInit_movesOnlyPad (len : Nat) : (update (rdInit len)).MovesOnlyPad :=
  .update fun s => (onlyDecoderMoved_rdInit len s).onlyPadMoved

theorem rdCount_movesOnlyPad (total : Nat) : (rdCount total).MovesOnlyPad :=
  .of_apply fun s => by rw [rdCount_apply]; rfl

theorem rdRemove_movesOnlyPad (bottom top : Nat) : (rdRemove bottom top).MovesOnlyPad :=
  .of_apply fun s => by
    rcases rdRemove_spec bottom top s with ⟨_, _, t, _, he, _, _, _, _, _, ht⟩ | ⟨t, _, he, ht⟩
    · rw [he]; exact ht.onlyPadMoved
    · rw [he]; exact ht.onlyPadMoved

theorem readNumber_movesOnlyPad (max : Nat) : (readNumber max).MovesOnlyPad :=
  .ite (.pure 0) <| (rdCount_movesOnlyPad max).bind fun c => .require_bind <|
    (rdRemove_movesOnlyPad c (c + 1)).bind fun _ => .pure c

theorem readSizeLoop_movesOnlyPad (c : Config) (n : Nat) (bits : Int) : (readSizeLoop c n bits).MovesOnlyPad := by
  induction n generalizing bits with
  | zero => exact .pure _
  | succ n ih =>
    refine (readNumber_movesOnlyPad _).bind fun v => .require_bind <| .ite (ih _) ?_
    exact (readNumber_movesOnlyPad 2).bind fun f => .ite (ih _) (.pure _)

theorem readSize_movesOnlyPad : readSize.MovesOnlyPad := .get fun s => readSizeLoop_movesOnlyPad s.cfg _ _

theorem readDims_movesOnlyPad : readDims.MovesOnlyPad :=
  readSize_movesOnlyPad.bind fun _ => .update_bind (fun _ => rfl) <|
    readSize_movesOnlyPad.bind fun _ => .update fun _ => rfl

theorem readPaletteLoop_movesOnlyPad (k i : Nat) : (readPaletteLoop k i).MovesOnlyPad := by
  have hnum := readNumber_movesOnlyPad 256
  induction k generalizing i with
  | zero => exact .pure _
  | succ k ih =>
    exact hnum.bind fun r => hnum.bind fun g => hnum.bind fun b => .update_bind (fun _ => rfl) <| ih (i + 1)

theorem readPalette_movesOnlyPad : readPalette.MovesOnlyPad :=
  .get fun _ => (readNumber_movesOnlyPad _).bind fun n => (readPaletteLoop_movesOnlyPad n 0).bind fun _ =>
    .update fun _ => rfl

theorem readHeader_movesOnlyPad (flags : Nat) : (readHeader flags).MovesOnlyPad := by
  have hcode : Cmd.MovesOnlyPad (do
      let s ← get
      let code ← readNumber s.cfg.maxCode
      update (setCode code)
      readPalette
      pure code) :=
    .get fun s => (readNumber_movesOnlyPad _).bind fun code => .update_bind (fun _ => rfl) <|
      readPalette_movesOnlyPad.bind fun _ => .pure code
  exact .ite (readDims_movesOnlyPad.bind fun _ => hcode) hcode

/-! #### The tree -/

theorem readColor_movesOnlyPad : readColor.MovesOnlyPad :=
  .get fun _ => .ite ((readNumber_movesOnlyPad _).bind fun _ => .pure _)
    ((readNumber_movesOnlyPad _).bind fun _ => (readNumber_movesOnlyPad _).bind fun _ =>
      (readNumber_movesOnlyPad _).bind fun _ => .pure _)

theorem readAngle_movesOnlyPad (level : Fin 7) : (readAngle level).MovesOnlyPad :=
  .get fun _ => (readNumber_movesOnlyPad _).bind fun _ => .pure _

theorem parseFill_movesOnlyPad (n : Nat) : (parseFill n).MovesOnlyPad :=
  readColor_movesOnlyPad.bind fun _ => .update_bind (fun _ => rfl) <| .update fun _ => rfl

theorem drUpdate_onlyPadMoved (n a : Nat) (s : State) : OnlyPadMoved s (drUpdate n a s) :=
  (drUpdate_writes n a s).onlyPadMoved (by decide)

theorem parseSplit_movesOnlyPad (n : Nat) : (parseSplit n).MovesOnlyPad := by
  refine .get fun s => ?_
  cases s.getLevel n with
  | none => exact .raise _
  | some level =>
    exact (readAngle_movesOnlyPad level.1).bind fun ang => .update_bind (drUpdate_onlyPadMoved n ang) <| .get fun t =>
      (readNumber_movesOnlyPad _).bind fun line =>
      (Cmd.MovesOnlyPad.of_writes (allocChildren_writes n) (by decide)).bind fun kids =>
      .update_bind (fun _ => rfl) <| .update_bind (fun _ => rfl) <| .update fun _ => rfl

theorem parseNode_movesOnlyPad : parseNode.MovesOnlyPad := by
  have hhead : (update fun u => u.withFt { u.ft with head := u.ft.head + 1 }).MovesOnlyPad := .update fun _ => rfl
  exact .get fun s => (readNumber_movesOnlyPad 2).bind fun t =>
    .ite ((parseFill_movesOnlyPad _).bind fun _ => hhead) ((parseSplit_movesOnlyPad _).bind fun _ => hhead)

theorem parseAll_movesOnlyPad (k : Nat) : (parseAll k).MovesOnlyPad := by
  induction k with
  | zero => exact .pure _
  | succ k ih => exact .get fun s => .ite (parseNode_movesOnlyPad.bind fun _ => ih) (.pure _)

theorem makeRoot_movesOnlyPad : makeRoot.MovesOnlyPad := .of_writes makeRoot_writes (by decide)

theorem render_movesOnlyPad : render.MovesOnlyPad := .of_writes render_writes (by decide)

theorem setImageResults_movesOnlyPad : setImageResults.MovesOnlyPad := .of_writes setImageResults_writes (by decide)

theorem ftDecodeBody_movesOnlyPad : ftDecodeBody.MovesOnlyPad :=
  .get fun _ => .require_bind <| .require_bind <| .require_bind <| .update_bind (fun _ => rfl) <|
    (rdInit_movesOnlyPad _).bind fun _ => (readHeader_movesOnlyPad _).bind fun _ => .get fun _ => .require_bind <|
    makeRoot_movesOnlyPad.bind fun _ => (parseAll_movesOnlyPad _).bind fun _ => render_movesOnlyPad.bind fun _ =>
    .update_bind (fun _ => rfl) <| setImageResults_movesOnlyPad.bind fun _ => .update fun _ => rfl

/-! #### The encoder -/

theorem reLog_movesOnlyPad (bottom top total : Nat) : (reLog bottom top total).MovesOnlyPad :=
  .of_writes (reLog_writes bottom top total) (by decide)

theorem rePut_movesOnlyPad (bottom top total : Nat) : (rePut bottom top total).MovesOnlyPad :=
  .of_writes (rePut_writes bottom top total) (by decide)

theorem reFinish_movesOnlyPad : reFinish.MovesOnlyPad := .of_writes reFinish_writes (by decide)

theorem reNumBody_movesOnlyPad : reNumBody.MovesOnlyPad := by
  have hlen : setRes0OutLen.MovesOnlyPad := .update fun _ => rfl
  exact .get fun _ => .require_bind <| .require_bind <| .require_bind <| .ite hlen <|
    (reLog_movesOnlyPad _ _ _).bind fun _ => (rePut_movesOnlyPad _ _ _).bind fun _ => hlen

theorem reOptfinBody_movesOnlyPad : reOptfinBody.MovesOnlyPad := by
  have hmin : (update (fun t => t.withRes1 t.re.outLen) >>= fun _ => update minimize >>= fun _ =>
      setRes0OutLen : Cmd Unit).MovesOnlyPad :=
    .update_bind (fun _ => rfl) <| .update_bind (fun s => (minimize_writes s).onlyPadMoved (by decide)) <|
      .update fun _ => rfl
  exact .get fun _ => .require_bind <| .ite (reFinish_movesOnlyPad.bind fun _ => hmin) hmin

/-! #### The commands -/

theorem cpLevelBody_movesOnlyPad : cpLevelBody.MovesOnlyPad := by
  refine .get fun s => .require_bind <| .require_bind <| ?_
  cases s.getLevel s.operand0 with
  | none => exact .raise _
  | some level => exact .update_bind (fun _ => rfl) <| .update fun _ => rfl

/-- The run of a command writes no bit of `STATUS` but `PAD`; the others are written at its start and at its end. -/
theorem body_movesOnlyPad (i : Instr) : (commandBody i).MovesOnlyPad := by
  cases i with
  | sysReset => exact .pure ()
  | rdInit => exact .get fun _ => .require_bind <| (rdInit_movesOnlyPad _).bind fun _ => .update fun _ => rfl
  | rdCount =>
    exact .get fun _ => .require_bind <| .require_bind <| (rdCount_movesOnlyPad _).bind fun _ => .update fun _ => rfl
  | rdRemove => exact .get fun _ => .require_bind <| .require_bind <| .require_bind <| rdRemove_movesOnlyPad _ _
  | rdNum =>
    exact .get fun _ => .require_bind <| .require_bind <| (readNumber_movesOnlyPad _).bind fun _ => .update fun _ => rfl
  | reInit => exact .update fun _ => rfl
  | rePut =>
    exact .get fun _ => .require_bind <| .require_bind <| .require_bind <| (reLog_movesOnlyPad _ _ _).bind fun _ =>
      (rePut_movesOnlyPad _ _ _).bind fun _ => .update fun _ => rfl
  | reNum => exact reNumBody_movesOnlyPad
  | reFinish => exact .get fun _ => .require_bind <| reFinish_movesOnlyPad.bind fun _ => .update fun _ => rfl
  | reOptfin => exact reOptfinBody_movesOnlyPad
  | tgLookup => exact .get fun _ => .require_bind <| .update_bind (fun _ => rfl) <| .update fun _ => rfl
  | cpSetcode =>
    exact .get fun _ => .require_bind <| .require_bind <| .require_bind <| .update_bind (fun _ => rfl) <|
      .update fun _ => rfl
  | cpRead =>
    exact .get fun _ => .require_bind <| .require_bind <| .require_bind <| .require_bind <|
      (readHeader_movesOnlyPad _).bind fun _ => .update_bind (fun _ => rfl) <| .update_bind (fun _ => rfl) <|
      .update_bind (fun _ => rfl) <| .update fun _ => rfl
  | cpSize => exact .get fun _ => .require_bind <| readSize_movesOnlyPad.bind fun _ => .update fun _ => rfl
  | cpLevel => exact cpLevelBody_movesOnlyPad
  | cpDeq => exact .get fun _ => .require_bind <| .update fun _ => rfl
  | drUpdate =>
    exact .get fun _ => .require_bind <| .require_bind <| .require_bind <| .require_bind <|
      .update_bind (drUpdate_onlyPadMoved _ _) <| .update_bind (fun _ => rfl) <| .update_bind (fun _ => rfl) <|
      .update_bind (fun _ => rfl) <| .update fun _ => rfl
  | drDist => exact .get fun _ => .require_bind <| .require_bind <| .update fun _ => rfl
  | rgSplit =>
    exact .get fun _ => .require_bind <| .require_bind <| .require_bind <| .require_bind <| .require_bind <|
      .update_bind (fun _ => rfl) <| .update_bind (fun _ => rfl) <| .update fun _ => rfl
  | ftRoot => exact .get fun _ => .require_bind <| makeRoot_movesOnlyPad.bind fun _ => .update fun _ => rfl
  | ftParse =>
    exact .get fun _ => .require_bind <| .require_bind <| .require_bind <| parseNode_movesOnlyPad.bind fun _ =>
      .update_bind (fun _ => rfl) <| .update_bind (fun _ => rfl) <| .update fun _ => rfl
  | ftRender =>
    exact .get fun _ => .require_bind <| .require_bind <| render_movesOnlyPad.bind fun _ =>
      .update_bind (fun _ => rfl) <| setImageResults_movesOnlyPad
  | ftDecode => exact ftDecodeBody_movesOnlyPad

/-! ### The end of a command -/

/-- A command other than `SYS.RESET` answers one next state: with `DONE` and `FAULT` as it was, or with `FAULT` and no `DONE`;
`BUSY` is 0 in both. -/
theorem exec_ends {i : Instr} (hi : i ≠ .sysReset) (s : State) :
    ∃ t, exec i s = .next t ∧
      (Completed s t ∨ t.status.busy = false ∧ t.status.done = false ∧ t.status.fault = true) := by
  rw [exec_eq_runCommand hi]
  rcases runCommand_cases i (commandBody i) s with ⟨u, hu, he⟩ | ⟨c, u, _, he⟩
  · exact ⟨_, he, .inl ⟨rfl, rfl, ((body_movesOnlyPad i).ok hu).fault_eq⟩⟩
  · refine ⟨_, he, .inr ?_⟩
    rw [raiseFault_eq]
    exact ⟨rfl, rfl, rfl⟩

/-- Settles O16: `SYS.RESET` answers the reset registers, any other command ends as `exec_ends` says. -/
theorem everyCommandEnds : Obligations.EveryCommandEnds := by
  intro i s
  by_cases hi : i = .sysReset
  · subst hi
    exact ⟨_, rfl, rfl, fun hne => absurd rfl hne⟩
  · obtain ⟨t, he, ⟨hbusy, hdone, hfault⟩ | ⟨hbusy, hdone, hfault⟩⟩ := exec_ends hi s
    · exact ⟨t, he, hbusy, fun _ hf => by rw [hdone, hfault, hf]; rfl⟩
    · exact ⟨t, he, hbusy, fun _ _ => by rw [hdone, hfault]; rfl⟩

end Sys2Proof.Machine
end

section
/-! PROOFS. The arithmetic of `(low, range)` (40_range_decoder.md R143 to R147, R155): division and narrowing, the shift, how
the renormalization ends, and the bytes it emits. -/

namespace Sys2Proof.Machine

/-! ### Division and narrowing (R143, R144) -/

/-- The operands that a symbol may have (40_range_decoder.md R143, R144). -/
structure LegalSymbol (bottom top total : Nat) : Prop where
  total_pos : 1 ≤ total
  total_le : total ≤ 2 ^ 32
  bottom_lt_top : bottom < top
  top_le_total : top ≤ total

namespace Coder

variable {c c' : Coder} {bottom top total : Nat}

@[simp] theorem divide_low (c : Coder) (total : Nat) : (c.divide total).low = c.low := rfl

@[simp] theorem divide_range_toNat (c : Coder) (total : Nat) :
    (c.divide total).range.toNat = c.range.toNat / total := by
  have hle := Nat.div_le_self c.range.toNat total
  have hlt := c.range.isLt
  rw [divide, BitVec.toNat_ofNat, Nat.mod_eq_of_lt (by omega)]

/-- The divided range is positive: `range > 2^32 >= total` (R143). -/
theorem divide_range_pos (hc : c.Normal) (h1 : 1 ≤ total) (h2 : total ≤ 2 ^ 32) : 1 ≤ c.range.toNat / total :=
  (Nat.one_le_div_iff h1).mpr (by have := hc.1; omega)

/-- The parts below `top` of the divided range fit the range (R144). -/
theorem mul_div_le (c : Coder) (h : top ≤ total) : top * (c.range.toNat / total) ≤ c.range.toNat :=
  (Nat.mul_le_mul_right _ h).trans (Nat.mul_div_le _ _)

/-- The two parts of a divided range, below and inside an interval, make up the parts below its top. -/
theorem parts_add (r : Nat) (h : bottom < top) : bottom * r + r * (top - bottom) = top * r := by
  rw [Nat.mul_comm r, ← Nat.add_mul, Nat.add_sub_cancel' h.le]

theorem narrow_divide_range_toNat (c : Coder) (hbt : bottom < top) (htt : top ≤ total) :
    ((c.divide total).narrow bottom top).range.toNat = c.range.toNat / total * (top - bottom) := by
  have hle := c.mul_div_le htt
  have hparts := parts_add (c.range.toNat / total) hbt
  have hlt := c.range.isLt
  simp only [narrow, divide_range_toNat, BitVec.toNat_ofNat]
  exact Nat.mod_eq_of_lt (by omega)

theorem narrow_divide_low_toNat (hc : c.Normal) (hs : LegalSymbol bottom top total) :
    ((c.divide total).narrow bottom top).low.toNat = c.low.toNat + bottom * (c.range.toNat / total) := by
  obtain ⟨h1, h2, hbt, htt⟩ := hs
  have hle := c.mul_div_le htt
  have hparts := parts_add (c.range.toNat / total) hbt
  have hpos : 1 ≤ c.range.toNat / total * (top - bottom) := Nat.mul_pos (divide_range_pos hc h1 h2) (by omega)
  have hsum := hc.2
  simp only [narrow, divide_range_toNat, divide_low, BitVec.toNat_ofNat]
  exact Nat.mod_eq_of_lt (by omega)

/-- Narrowing between symbols keeps `1 <= range` and `low + range <= 2^48` (R144, R146). -/
theorem narrow_divide_inv (hc : c.Normal) (hs : LegalSymbol bottom top total) :
    ((c.divide total).narrow bottom top).Inv := by
  have hlow := narrow_divide_low_toNat hc hs
  obtain ⟨h1, h2, hbt, htt⟩ := hs
  have hle := c.mul_div_le htt
  have hparts := parts_add (c.range.toNat / total) hbt
  have hpos : 1 ≤ c.range.toNat / total * (top - bottom) := Nat.mul_pos (divide_range_pos hc h1 h2) (by omega)
  have hsum := hc.2
  rw [Inv, hlow, narrow_divide_range_toNat c hbt htt]
  omega

/-! ### One round of the renormalization (R145) -/

/-- The top byte is settled exactly where the interval ends at or below the next multiple of 2^40. -/
theorem settled_iff (hc : c.Inv) : c.settled = true ↔ c.low.toNat % 2 ^ 40 + c.range.toNat ≤ 2 ^ 40 := by
  have hpos := hc.1
  rw [settled, beq_iff_eq, top8, top8, headUnit]
  omega

theorem unsettled_iff (hc : c.Inv) : c.settled = false ↔ 2 ^ 40 < c.low.toNat % 2 ^ 40 + c.range.toNat := by
  rw [← Bool.not_eq_true, settled_iff hc, Nat.not_le]

theorem collapsed_iff : c.collapsed = true ↔ c.range.toNat = 2 ^ 40 := by rw [collapsed, beq_iff_eq, headUnit]

theorem collapsed_eq_false_iff : c.collapsed = false ↔ c.range.toNat ≠ 2 ^ 40 := by
  rw [← Bool.not_eq_true, collapsed_iff]

theorem shrink_range_toNat (c : Coder) : c.shrink.range.toNat = 2 ^ 40 - c.low.toNat % 2 ^ 40 := by
  rw [shrink, BitVec.toNat_ofNat, headUnit]
  omega

theorem toShift_of_settled (h : c.settled = true) : c.toShift = some c := by rw [toShift, if_pos h]

theorem toShift_of_wide (h : c.settled = false) (hr : 2 ^ 32 < c.range.toNat) : c.toShift = none := by
  rw [toShift, h, if_neg Bool.false_ne_true, rangeLimit, if_pos hr]

theorem toShift_of_shrunk (h : c.settled = false) (hr : c.range.toNat ≤ 2 ^ 32) : c.toShift = some c.shrink := by
  rw [toShift, h, if_neg Bool.false_ne_true, rangeLimit, if_neg (Nat.not_lt.mpr hr)]

/-- The loop exits exactly at an unsettled top byte with more than 2^32 of range. -/
theorem toShift_eq_none_iff : c.toShift = none ↔ c.settled = false ∧ 2 ^ 32 < c.range.toNat := by
  refine ⟨fun h => ?_, fun h => toShift_of_wide h.1 h.2⟩
  cases hs : c.settled with
  | true => rw [toShift_of_settled hs] at h; cases h
  | false =>
    by_cases hr : c.range.toNat ≤ 2 ^ 32
    · rw [toShift_of_shrunk hs hr] at h; cases h
    · exact ⟨rfl, by omega⟩

/-- The ways to reach a shift: with a settled top byte, or by a shrink to the next multiple of 2^40. -/
theorem toShift_eq_some_cases (h : c.toShift = some c') :
    (c.settled = true ∧ c' = c) ∨ (c.settled = false ∧ c.range.toNat ≤ 2 ^ 32 ∧ c' = c.shrink) := by
  cases hs : c.settled with
  | true => rw [toShift_of_settled hs] at h; cases h; exact .inl ⟨rfl, rfl⟩
  | false =>
    by_cases hr : c.range.toNat ≤ 2 ^ 32
    · rw [toShift_of_shrunk hs hr] at h; cases h; exact .inr ⟨rfl, hr, rfl⟩
    · rw [toShift_of_wide hs (by omega)] at h; cases h

/-- A shrink only takes from the top of the range, and never all of it. -/
theorem shrink_range_lt (hc : c.Inv) (h : c.settled = false) :
    1 ≤ c.shrink.range.toNat ∧ c.shrink.range.toNat < c.range.toNat := by
  rw [unsettled_iff hc] at h
  rw [shrink_range_toNat]
  omega

/-- Everything that holds where a shift is reached: `low` is the same, the range is part of the old one, and the interval
ends at or below the next multiple of 2^40. -/
theorem toShift_spec (hc : c.Inv) (h : c.toShift = some c') :
    c'.low = c.low ∧ 1 ≤ c'.range.toNat ∧ c'.range.toNat ≤ c.range.toNat ∧
    c.low.toNat % 2 ^ 40 + c'.range.toNat ≤ 2 ^ 40 := by
  rcases toShift_eq_some_cases h with ⟨hs, rfl⟩ | ⟨hs, _, rfl⟩
  · exact ⟨rfl, hc.1, le_refl _, (settled_iff hc).mp hs⟩
  · obtain ⟨h1, h2⟩ := shrink_range_lt hc hs
    refine ⟨rfl, h1, h2.le, ?_⟩
    rw [shrink_range_toNat]
    omega

theorem toShift_inv (hc : c.Inv) (h : c.toShift = some c') : c'.Inv ∧ c'.settled = true := by
  obtain ⟨hlow, hpos, hle, hend⟩ := toShift_spec hc h
  have hinv : c'.Inv := ⟨hpos, by rw [hlow]; exact (Nat.add_le_add_left hle _).trans hc.2⟩
  exact ⟨hinv, (settled_iff hinv).mpr (by rw [hlow]; exact hend)⟩

theorem shift_low_toNat (c : Coder) : c.shift.low.toNat = c.low.toNat % 2 ^ 40 * 256 := by
  rw [shift, BitVec.toNat_ofNat, headUnit]
  omega

theorem shift_range_toNat (h : c.range.toNat < 2 ^ 40) : c.shift.range.toNat = c.range.toNat * 256 := by
  rw [shift, BitVec.toNat_ofNat, headUnit]
  omega

/-- Where a shift that is no collapse is reached, the range is below 2^40. -/
theorem range_lt_of_settled (hc : c.Inv) (hs : c.settled = true) (hn : c.collapsed = false) : c.range.toNat < 2 ^ 40 := by
  rw [settled_iff hc] at hs
  rw [collapsed_eq_false_iff] at hn
  omega

/-- A shift that is no collapse multiplies the interval by 256 within 48 bits (R146). -/
theorem shift_inv (hc : c.Inv) (hs : c.settled = true) (hn : c.collapsed = false) : c.shift.Inv := by
  have hr := shift_range_toNat (range_lt_of_settled hc hs hn)
  rw [settled_iff hc] at hs
  have hpos := hc.1
  rw [Inv, hr, shift_low_toNat]
  omega

/-! ### The rounds (R145, R147, R155) -/

/-- The renormalization from `c` ends within `k` shifts: it exits, it collapses, or it shifts and ends within the rest. -/
inductive EndsWithin : Nat → Coder → Prop
  | exit {k : Nat} {c : Coder} (h : c.toShift = none) : EndsWithin k c
  | collapse {k : Nat} {c c' : Coder} (h : c.toShift = some c') (hc : c'.collapsed = true) : EndsWithin k c
  | shift {k : Nat} {c c' : Coder} (h : c.toShift = some c') (hc : c'.collapsed = false) (hend : EndsWithin k c'.shift) :
      EndsWithin (k + 1) c

theorem normalize_of_exit (n : Nat) (h : c.toShift = none) : normalize n c = some (c, 0) := by
  cases n with
  | zero => rfl
  | succ n => rw [normalize, h]

theorem normalize_of_collapse (n : Nat) (h : c.toShift = some c') (hc : c'.collapsed = true) :
    normalize (n + 1) c = none := by
  rw [normalize, h]
  exact if_pos hc

theorem normalize_of_shift (n : Nat) (h : c.toShift = some c') (hc : c'.collapsed = false) :
    normalize (n + 1) c = (normalize n c'.shift).map (fun r => (r.1, r.2 + 1)) := by
  rw [normalize, h]
  exact if_neg (by rw [hc]; exact Bool.false_ne_true)

theorem emitted_of_exit (n : Nat) (h : c.toShift = none) : emitted n c = [] := by
  cases n with
  | zero => rfl
  | succ n => rw [emitted, h]

theorem emitted_of_collapse (n : Nat) (h : c.toShift = some c') (hc : c'.collapsed = true) :
    emitted (n + 1) c = [] := by
  rw [emitted, h]
  exact if_pos hc

theorem emitted_of_shift (n : Nat) (h : c.toShift = some c') (hc : c'.collapsed = false) :
    emitted (n + 1) c = c'.topByte :: emitted n c'.shift := by
  rw [emitted, h]
  exact if_neg (by rw [hc]; exact Bool.false_ne_true)

/-- Two runs of more rounds than the loop has shifts are the same run. -/
theorem EndsWithin.rounds_irrelevant {k : Nat} (h : EndsWithin k c) :
    ∀ {m n : Nat}, k < m → k < n → normalize m c = normalize n c ∧ emitted m c = emitted n c := by
  induction h with
  | exit h =>
    intro m n _ _
    exact ⟨by rw [normalize_of_exit m h, normalize_of_exit n h], by rw [emitted_of_exit m h, emitted_of_exit n h]⟩
  | collapse h hc =>
    intro m n hm hn
    obtain ⟨m, rfl⟩ := Nat.exists_eq_add_one.mpr (Nat.zero_lt_of_lt hm)
    obtain ⟨n, rfl⟩ := Nat.exists_eq_add_one.mpr (Nat.zero_lt_of_lt hn)
    exact ⟨by rw [normalize_of_collapse m h hc, normalize_of_collapse n h hc],
      by rw [emitted_of_collapse m h hc, emitted_of_collapse n h hc]⟩
  | shift h hc _ ih =>
    intro m n hm hn
    obtain ⟨m, rfl⟩ := Nat.exists_eq_add_one.mpr (Nat.zero_lt_of_lt hm)
    obtain ⟨n, rfl⟩ := Nat.exists_eq_add_one.mpr (Nat.zero_lt_of_lt hn)
    obtain ⟨hnorm, hemit⟩ := ih (m := m) (n := n) (by omega) (by omega)
    exact ⟨by rw [normalize_of_shift m h hc, normalize_of_shift n h hc, hnorm],
      by rw [emitted_of_shift m h hc, emitted_of_shift n h hc, hemit]⟩

/-- One byte goes out a shift. -/
theorem EndsWithin.emitted_length_le {k : Nat} (h : EndsWithin k c) : ∀ n, (emitted n c).length ≤ k := by
  induction h with
  | exit h => intro n; rw [emitted_of_exit n h]; exact Nat.zero_le _
  | collapse h hc =>
    intro n
    cases n with
    | zero => exact Nat.zero_le _
    | succ n => rw [emitted_of_collapse n h hc]; exact Nat.zero_le _
  | shift h hc _ ih =>
    intro n
    cases n with
    | zero => exact Nat.zero_le _
    | succ n => rw [emitted_of_shift n h hc, List.length_cons]; exact Nat.succ_le_succ (ih n)

theorem EndsWithin.mono {k : Nat} (h : EndsWithin k c) : ∀ {m : Nat}, k ≤ m → EndsWithin m c := by
  induction h with
  | exit h => exact fun _ => .exit h
  | collapse h hc => exact fun _ => .collapse h hc
  | shift h hc _ ih =>
    intro m hm
    obtain ⟨m, rfl⟩ := Nat.exists_eq_add_one.mpr (Nat.zero_lt_of_lt hm)
    exact .shift h hc (ih (by omega))

/-- A run that does not collapse counts one shift a byte. -/
theorem normalize_count (n : Nat) {k : Nat} (h : normalize n c = some (c', k)) : k = (emitted n c).length := by
  induction n generalizing c k with
  | zero => cases h; rfl
  | succ n ih =>
    cases hts : c.toShift with
    | none => rw [normalize_of_exit _ hts] at h; cases h; rw [emitted_of_exit _ hts]; rfl
    | some d =>
      cases hd : d.collapsed with
      | true => rw [normalize_of_collapse n hts hd] at h; cases h
      | false =>
        rw [normalize_of_shift n hts hd, Option.map_eq_some_iff] at h
        obtain ⟨⟨d', j⟩, hj, he⟩ := h
        cases he
        rw [emitted_of_shift n hts hd, List.length_cons, ih hj]

/-- Where the loop ends by its exit, the range is above 2^32 and the top byte is unsettled. -/
theorem EndsWithin.normal {k : Nat} (h : EndsWithin k c) (hinv : c.Inv) :
    ∀ {n j : Nat}, k < n → normalize n c = some (c', j) → c'.Normal ∧ c'.settled = false := by
  induction h with
  | exit h =>
    intro n j _ he
    rw [normalize_of_exit n h] at he
    cases he
    obtain ⟨hs, hr⟩ := toShift_eq_none_iff.mp h
    exact ⟨⟨hr, hinv.2⟩, hs⟩
  | collapse h hc =>
    intro n j hn he
    obtain ⟨n, rfl⟩ := Nat.exists_eq_add_one.mpr (Nat.zero_lt_of_lt hn)
    rw [normalize_of_collapse n h hc] at he
    cases he
  | shift h hc _ ih =>
    intro n j hn he
    obtain ⟨n, rfl⟩ := Nat.exists_eq_add_one.mpr (Nat.zero_lt_of_lt hn)
    rw [normalize_of_shift n h hc, Option.map_eq_some_iff] at he
    obtain ⟨⟨d, i⟩, hi, he⟩ := he
    cases he
    obtain ⟨hinv', hsettled⟩ := toShift_inv hinv h
    exact ih (shift_inv hinv' hsettled hc) (by omega) hi

/-! #### After a shrink: the interval ends at a multiple of 2^40 -/

/-- The interval ends at a multiple of 2^40, as a shrink leaves it. -/
def Aligned (c : Coder) : Prop := 2 ^ 40 ∣ c.low.toNat + c.range.toNat

theorem aligned_shrink (c : Coder) : c.shrink.Aligned := by
  have hr := shrink_range_toNat c
  have hlow : c.shrink.low = c.low := rfl
  rw [Aligned, hr, hlow]
  omega

/-- An aligned interval is settled exactly where it is no longer than 2^40. -/
theorem Aligned.settled_iff (ha : c.Aligned) (hc : c.Inv) : c.settled = true ↔ c.range.toNat ≤ 2 ^ 40 := by
  have hpos := hc.1
  rw [Aligned] at ha
  rw [Coder.settled_iff hc]
  omega

theorem Aligned.toShift_of_le (ha : c.Aligned) (hc : c.Inv) (h : c.range.toNat ≤ 2 ^ 40) : c.toShift = some c :=
  toShift_of_settled ((ha.settled_iff hc).mpr h)

theorem Aligned.toShift_of_gt (ha : c.Aligned) (hc : c.Inv) (h : 2 ^ 40 < c.range.toNat) : c.toShift = none := by
  refine toShift_of_wide ?_ (by omega)
  rw [← Bool.not_eq_true, ha.settled_iff hc]
  omega

/-- A shift of an aligned interval is aligned: it ends at 2^48. -/
theorem Aligned.shift (ha : c.Aligned) (hc : c.Inv) (h : c.range.toNat < 2 ^ 40) : c.shift.Aligned ∧ c.shift.Inv := by
  have hs := (ha.settled_iff hc).mpr h.le
  refine ⟨?_, shift_inv hc hs (collapsed_eq_false_iff.mpr (by omega))⟩
  have hpos := hc.1
  rw [Coder.settled_iff hc] at hs
  rw [Aligned] at ha ⊢
  rw [shift_low_toNat, shift_range_toNat h]
  omega

/-- An aligned interval is shifted until it is longer than 2^40, so `k` shifts that reach that length are enough. -/
theorem Aligned.endsWithin (k : Nat) (ha : c.Aligned) (hc : c.Inv) (hk : 2 ^ 40 ≤ c.range.toNat * 256 ^ k) :
    EndsWithin k c := by
  induction k generalizing c with
  | zero =>
    rcases (show 2 ^ 40 = c.range.toNat ∨ 2 ^ 40 < c.range.toNat by omega) with h | h
    · exact .collapse (ha.toShift_of_le hc h.ge) (collapsed_iff.mpr h.symm)
    · exact .exit (ha.toShift_of_gt hc h)
  | succ k ih =>
    rcases lt_trichotomy c.range.toNat (2 ^ 40) with h | h | h
    · obtain ⟨ha', hc'⟩ := ha.shift hc h
      refine .shift (ha.toShift_of_le hc h.le) (collapsed_eq_false_iff.mpr h.ne) (ih ha' hc' ?_)
      rw [shift_range_toNat h, Nat.mul_assoc, ← Nat.pow_succ']
      exact hk
    · exact .collapse (ha.toShift_of_le hc h.le) (collapsed_iff.mpr h)
    · exact .exit (ha.toShift_of_gt hc h)

/-- The shift after a shrink starts an aligned run of at least 256. -/
theorem shift_shrink (hc : c.Inv) (h : c.settled = false) (hr : c.range.toNat ≤ 2 ^ 32) :
    c.shrink.collapsed = false ∧ c.shrink.shift.Aligned ∧ c.shrink.shift.Inv ∧
    c.shrink.shift.range.toNat = c.shrink.range.toNat * 256 := by
  obtain ⟨_, hlt⟩ := shrink_range_lt hc h
  have hinv := (toShift_inv hc (toShift_of_shrunk h hr)).1
  obtain ⟨ha', hc'⟩ := (aligned_shrink c).shift hinv (by omega)
  exact ⟨collapsed_eq_false_iff.mpr (by omega), ha', hc', shift_range_toNat (by omega)⟩

theorem endsWithin_of_shrunk (hc : c.Inv) (h : c.settled = false) (hr : c.range.toNat ≤ 2 ^ 32) : EndsWithin 5 c := by
  obtain ⟨hpos, _⟩ := shrink_range_lt hc h
  obtain ⟨hn, ha, hinv, hrange⟩ := shift_shrink hc h hr
  exact .shift (toShift_of_shrunk h hr) hn (ha.endsWithin 4 hinv (by omega))

/-- Before the shrink a shift multiplies the range by 256, so at most `k` settled bytes go out before the range passes 2^32;
the shrink and what follows it take at most 5 shifts more. -/
theorem endsWithin_of_pow (k : Nat) (hc : c.Inv) (hk : 2 ^ 32 ≤ c.range.toNat * 256 ^ k) : EndsWithin (k + 5) c := by
  induction k generalizing c with
  | zero =>
    cases hs : c.settled with
    | true =>
      cases hn : c.collapsed with
      | true => exact .collapse (toShift_of_settled hs) hn
      | false =>
        have hinv := shift_inv hc hs hn
        have hrange := shift_range_toNat (range_lt_of_settled hc hs hn)
        refine .shift (toShift_of_settled hs) hn ?_
        cases hs' : c.shift.settled with
        | true =>
          refine .collapse (toShift_of_settled hs') (collapsed_iff.mpr ?_)
          rw [Coder.settled_iff hinv] at hs'
          omega
        | false => exact .exit (toShift_of_wide hs' (by omega))
    | false =>
      by_cases hr : c.range.toNat ≤ 2 ^ 32
      · exact endsWithin_of_shrunk hc hs hr
      · exact .exit (toShift_of_wide hs (by omega))
  | succ k ih =>
    cases hs : c.settled with
    | true =>
      cases hn : c.collapsed with
      | true => exact .collapse (toShift_of_settled hs) hn
      | false =>
        refine EndsWithin.shift (k := k + 5) (toShift_of_settled hs) hn (ih (shift_inv hc hs hn) ?_)
        rw [shift_range_toNat (range_lt_of_settled hc hs hn), Nat.mul_assoc, ← Nat.pow_succ']
        exact hk
    | false =>
      by_cases hr : c.range.toNat ≤ 2 ^ 32
      · exact (endsWithin_of_shrunk hc hs hr).mono (by omega)
      · exact .exit (toShift_of_wide hs (by omega))

/-- The bound of R155: from `range >= 1` at most 4 shifts before the shrink and 5 after it. -/
theorem endsWithin_nine (hc : c.Inv) : EndsWithin 9 c := endsWithin_of_pow 4 hc (by have := hc.1; omega)

theorem normalize_normal {k : Nat} (hc : c.Inv) (h : normalize normalizeRounds c = some (c', k)) : c'.Normal :=
  ((endsWithin_nine hc).normal hc (by decide) h).1

/-! #### Collapse (R147) -/

/-- An aligned interval collapses exactly where its length, times a power of 256, is 2^40. -/
theorem Aligned.normalize_eq_none_iff (k : Nat) (ha : c.Aligned) (hc : c.Inv) (hk : 2 ^ 40 ≤ c.range.toNat * 256 ^ k)
    {n : Nat} (hn : k < n) : normalize n c = none ↔ ∃ j ≤ k, c.range.toNat * 256 ^ j = 2 ^ 40 := by
  induction k generalizing c n with
  | zero =>
    obtain ⟨n, rfl⟩ := Nat.exists_eq_add_one.mpr hn
    rcases (show c.range.toNat = 2 ^ 40 ∨ 2 ^ 40 < c.range.toNat by omega) with h | h
    · exact iff_of_true (normalize_of_collapse n (ha.toShift_of_le hc h.le) (collapsed_iff.mpr h))
        ⟨0, le_refl _, by omega⟩
    · rw [normalize_of_exit _ (ha.toShift_of_gt hc h)]
      refine iff_of_false nofun ?_
      rintro ⟨j, hj, he⟩
      rw [Nat.le_zero.mp hj] at he
      omega
  | succ k ih =>
    obtain ⟨n, rfl⟩ := Nat.exists_eq_add_one.mpr (Nat.zero_lt_of_lt hn)
    rcases lt_trichotomy c.range.toNat (2 ^ 40) with h | h | h
    · obtain ⟨ha', hc'⟩ := ha.shift hc h
      have hpow : ∀ j, c.shift.range.toNat * 256 ^ j = c.range.toNat * 256 ^ (j + 1) := fun j => by
        rw [shift_range_toNat h, Nat.mul_assoc, ← Nat.pow_succ']
      rw [normalize_of_shift n (ha.toShift_of_le hc h.le) (collapsed_eq_false_iff.mpr h.ne), Option.map_eq_none_iff,
        ih ha' hc' (by rw [hpow]; exact hk) (by omega)]
      simp only [hpow]
      constructor
      · rintro ⟨j, hj, he⟩
        exact ⟨j + 1, by omega, he⟩
      · rintro ⟨_ | j, hj, he⟩
        · omega
        · exact ⟨j, by omega, he⟩
    · exact iff_of_true (normalize_of_collapse n (ha.toShift_of_le hc h.le) (collapsed_iff.mpr h))
        ⟨0, Nat.zero_le _, by omega⟩
    · rw [normalize_of_exit _ (ha.toShift_of_gt hc h)]
      refine iff_of_false nofun ?_
      rintro ⟨j, _, he⟩
      have := Nat.le_mul_of_pos_right c.range.toNat (Nat.pow_pos (n := j) (show 0 < 256 by decide))
      omega

end Coder

/-! ### The statements -/

open Coder

/-- Settles O18: the division and the narrowing by their equations; the shift by `toShift_spec` and `shift_inv`. -/
theorem coderStaysInWidth : Obligations.CoderStaysInWidth := by
  refine ⟨fun c bottom top total hc h1 h2 hbt htt => ?_, fun c c' hc h => ?_⟩
  · have hs : LegalSymbol bottom top total := ⟨h1, h2, hbt, htt⟩
    exact ⟨rfl, divide_range_toNat c total, by rw [divide_range_toNat]; exact divide_range_pos hc h1 h2,
      narrow_divide_low_toNat hc hs, narrow_divide_range_toNat c hbt htt, narrow_divide_inv hc hs⟩
  · obtain ⟨hinv, hsettled⟩ := toShift_inv hc h
    have hlow := (toShift_spec hc h).1
    refine ⟨hinv, hsettled, hlow, fun hne => ?_⟩
    have hn := collapsed_eq_false_iff.mpr hne
    exact ⟨shift_inv hinv hsettled hn, by rw [shift_low_toNat, hlow],
      shift_range_toNat (range_lt_of_settled hinv hsettled hn)⟩

/-- Settles O19: every run ends within 9 shifts (`endsWithin_nine`), and the model's 16 rounds are more. -/
theorem normalizationEnds : Obligations.NormalizationEnds := by
  intro c hc
  have hend := endsWithin_nine hc
  have hrounds : 9 < normalizeRounds := by decide
  exact ⟨fun n hn => hend.rounds_irrelevant (hrounds.trans_le hn) hrounds, hend.emitted_length_le _,
    fun c' k h => ⟨normalize_count _ h, hend.normal hc hrounds h⟩⟩

/-- Settles O20: the shift after the shrink starts an aligned run, whose collapses `normalize_eq_none_iff` counts. -/
theorem collapseExactly : Obligations.CollapseExactly := by
  intro c hc h hr
  obtain ⟨hpos, hlt⟩ := shrink_range_lt hc h
  obtain ⟨hn, ha, hinv, hrange⟩ := shift_shrink hc h hr
  rw [normalizeRounds, normalize_of_shift 15 (toShift_of_shrunk h hr) hn, Option.map_eq_none_iff,
    ha.normalize_eq_none_iff 4 hinv (by omega) (by omega), hrange]
  simp only [List.mem_cons, List.not_mem_nil, or_false]
  constructor
  · rintro ⟨j, hj, he⟩
    interval_cases j <;> omega
  · rintro (h1 | h1 | h1 | h1)
    · exact ⟨4, by omega, by omega⟩
    · exact ⟨3, by omega, by omega⟩
    · exact ⟨2, by omega, by omega⟩
    · exact ⟨1, by omega, by omega⟩

end Sys2Proof.Machine
end

section
/-! PROOFS. The range decoder's commands (40_range_decoder.md R150 to R153): the seed of the window, and each command from its
checks to its end. -/

namespace Sys2Proof.Machine

/-! ### How a decoder command ends -/

section Ends

variable {i : Instr} {body : Cmd Unit} {c : Cause} {s t : State}

theorem OnlyPadMoved.completed (h : OnlyPadMoved s t) : Completed s (endCommand t) := ⟨rfl, rfl, h.fault_eq⟩

theorem faultedWith_raiseFault (h : t.status.fault = false) (c : Cause) (cmd : Byte) :
    FaultedWith c.code c.sub cmd (raiseFault c (cmd.setWidth 64) t) := by
  rw [raiseFault_eq, h]
  exact ⟨rfl, rfl, rfl, rfl, rfl, rfl⟩

@[simp] theorem raiseFault_rd (c : Cause) (cmd : Word) (s : State) : (raiseFault c cmd s).rd = s.rd := by
  rw [raiseFault_eq]

@[simp] theorem raiseFault_pad (c : Cause) (cmd : Word) (s : State) :
    (raiseFault c cmd s).status.pad = s.status.pad := by
  rw [raiseFault_eq]

/-- A command that faults after it has moved the decoder leaves the decoder as it is at the fault (60_exceptions.md R340). -/
theorem runCommand_decoder_fault (hf : s.status.fault = false) (hm : OnlyDecoderMoved s t) (h : body s = .error c t) :
    ∃ u, runCommand i body s = .next u ∧ FaultedWith c.code c.sub (opcode i) u ∧ u.rd = t.rd ∧
      u.status.pad = t.status.pad ∧ KeepsAllBut (.rd :: faultParts) s u := by
  have hft : t.status.fault = false := hm.onlyPadMoved.fault_eq.trans hf
  exact ⟨_, runCommand_of_error h, faultedWith_raiseFault hft c _, raiseFault_rd _ _ _, raiseFault_pad _ _ _,
    (hm.keepsAllBut.mono (by decide)).trans ((keepsAllBut_raiseFault _ _ _).mono (by decide))⟩

theorem onlyDecoderMoved_withRd (s : State) (r : RdRegs) : OnlyDecoderMoved s (s.withRd r) := rfl

theorem keepsAllBut_endCommand_withRes0 (hm : OnlyDecoderMoved s t) (v : Word) :
    KeepsAllBut [.status, .res0, .rd] s (endCommand (t.withRes0 v)) :=
  ((hm.keepsAllBut.mono (by decide)).trans ((WritesOnly.withRes0 (by decide) t v).1)).trans
    ((keepsAllBut_endCommand _).mono (by decide))

end Ends

/-! ### The seed (R141, R150) -/

/-- The 48-bit window of the six bytes from index `j` on, the first the most significant (40_range_decoder.md R141). -/
def windowAt (bytes : Nat → Byte) (j : Nat) : Nat :=
  (bytes j).toNat * 2 ^ 40 + (bytes (j + 1)).toNat * 2 ^ 32 + (bytes (j + 2)).toNat * 2 ^ 24 +
  (bytes (j + 3)).toNat * 2 ^ 16 + (bytes (j + 4)).toNat * 2 ^ 8 + (bytes (j + 5)).toNat

/-- Six bytes fill the window. -/
theorem absorb_seed (bytes : Nat → Byte) (code : Nat) : absorb bytes seedBytes code = windowAt bytes 0 := by
  have hlt : ∀ j, (bytes j).toNat < 256 := fun j => (bytes j).isLt
  have h0 := hlt 0
  have h1 := hlt 1
  have h2 := hlt 2
  have h3 := hlt 3
  have h4 := hlt 4
  have h5 := hlt 5
  simp only [seedBytes, absorb, windowAt, Nat.zero_add]
  omega

/-- The seed moves only the decoder's position and pad counter. -/
theorem rdSeed_rd (n : Nat) (w : Window) (s : State) :
    ∃ pos pad, (rdSeed n w s).2.rd = { s.rd with pos := pos, pad := pad } := by
  induction n generalizing w s with
  | zero => exact ⟨_, _, rfl⟩
  | succ n ih =>
    obtain ⟨pos, pad, h⟩ := ih (BitVec.ofNat 48 (w.toNat * 256 + (rdByte s).1.toNat)) (rdByte s).2
    refine ⟨pos, pad, h.trans ?_⟩
    obtain ⟨_, _, hrd, _⟩ := rdByte_spec s
    rw [hrd]

/-- The decoder with another window. -/
def State.withCode (s : State) (w : Window) : State := s.withRd { s.rd with code := w }

/-- The seed takes `n` bytes into the window. -/
theorem rdSeed_tookBytes (n : Nat) (w : Window) (s : State) :
    TookBytes n (s.withCode w) ((rdSeed n w s).2.withCode (rdSeed n w s).1) := by
  induction n generalizing w s with
  | zero => exact tookBytes_zero _
  | succ n ih =>
    obtain ⟨hbyte, hmoved, hrd, hpad⟩ := rdByte_spec s
    refine TookBytes.cons (code := w) (u := (rdByte s).2.withCode (shiftCode w (rdByte s).1)) ?_ ?_ ?_ ?_ ?_ rfl hpad ?_
    · exact (congrArg State.inMem hmoved :)
    · exact (congrArg RdRegs.len hrd :)
    · exact congrArg RdRegs.pos hrd
    · exact congrArg RdRegs.pad hrd
    · exact congrArg (shiftCode w) hbyte
    · have hshift : shiftCode w (rdByte s).1 = BitVec.ofNat 48 (w.toNat * 256 + (rdByte s).1.toNat) := by
        refine BitVec.eq_of_toNat_eq ?_
        rw [shiftCode_toNat, BitVec.toNat_ofNat]
      rw [hshift]
      exact ih _ _

/-- Everything that `rdInit` does to the decoder (R141): from position 0 with the pad counter and `PAD` clear it takes six
bytes. -/
theorem rdInit_spec (len : Nat) (s : State) :
    TookBytes seedBytes ((rdRestart len s).withCode 0) (rdInit len s) ∧ (rdInit len s).rd.state = .ready ∧
    (rdInit len s).rd.coder = ⟨0, rangeInit⟩ ∧ (rdInit len s).rd.total = s.rd.total ∧
    (rdInit len s).rd.count = s.rd.count := by
  obtain ⟨pos, pad, hrd⟩ := rdSeed_rd seedBytes 0 (rdRestart len s)
  have htook := rdSeed_tookBytes seedBytes 0 (rdRestart len s)
  unfold rdInit
  generalize rdSeed seedBytes 0 (rdRestart len s) = r at hrd htook ⊢
  exact ⟨htook, rfl, congrArg RdRegs.coder hrd, (congrArg RdRegs.total hrd :), (congrArg RdRegs.count hrd :)⟩

theorem rdRestart_len (s : State) : ((rdRestart s.arg0.toNat s).withCode 0).rd.len = s.arg0 :=
  (BitVec.ofNat_toNat 64 s.arg0).trans (BitVec.setWidth_eq s.arg0)

theorem rdRestart_pos (len : Nat) (s : State) : ((rdRestart len s).withCode 0).rd.pos = 0#64 := rfl

theorem rdRestart_pad (len : Nat) (s : State) : ((rdRestart len s).withCode 0).rd.pad = 0#64 := rfl

theorem rdRestart_statusPad (len : Nat) (s : State) : ((rdRestart len s).withCode 0).status.pad = false := rfl

/-- The bytes that the decoder takes after a restart: the input below the length, zero from there on. -/
theorem streamByte_rdRestart (s : State) (j : Nat) :
    ((rdRestart s.arg0.toNat s).withCode 0).streamByte j = if j < s.arg0.toNat then s.inByte j else 0 := by
  rw [State.streamByte, rdRestart_len, rdRestart_pos, BitVec.toNat_zero, Nat.zero_add]
  rfl

theorem inputAmong_rdRestart (s : State) (k : Nat) :
    ((rdRestart s.arg0.toNat s).withCode 0).inputAmong k = min k s.arg0.toNat := by
  rw [State.inputAmong, rdRestart_len, rdRestart_pos, BitVec.toNat_zero, Nat.sub_zero]

/-- `RD.INIT` past its check. -/
theorem rdInitBody_ok {s : State} (h : s.operand0 ≤ s.cfg.inCap) :
    rdInitBody s = .ok () ((rdInit s.operand0 s).withRes0 ((rdInit s.operand0 s).rd.code.setWidth 64)) := by
  unfold rdInitBody
  rw [get_bind, require_bind_of_true _ _ _ h, update_bind, update_apply]

theorem rdInitBody_value {s : State} (h : ¬ s.operand0 ≤ s.cfg.inCap) : rdInitBody s = .error .argValue s := by
  unfold rdInitBody
  rw [get_bind, require_bind_of_false _ _ _ h]

/-- What `rdInit` leaves, in terms of the operand and of `IN` (R150). -/
theorem rdInit_arg0 (s : State) :
    (rdInit s.arg0.toNat s).rd.len = s.arg0 ∧ (rdInit s.arg0.toNat s).rd.pos.toNat = min s.arg0.toNat 6 ∧
    (rdInit s.arg0.toNat s).rd.pad.toNat = 6 - s.arg0.toNat ∧
    (rdInit s.arg0.toNat s).status.pad = decide (s.arg0.toNat < 6) ∧
    (rdInit s.arg0.toNat s).rd.code.toNat = windowAt (fun j => if j < s.arg0.toNat then s.inByte j else 0) 0 := by
  obtain ⟨hpos, hpad, hlen, hcode, hstatus⟩ := (rdInit_spec s.arg0.toNat s).1
  rw [inputAmong_rdRestart, seedBytes] at hpos hpad hstatus
  refine ⟨hlen.trans (rdRestart_len s), ?_, ?_, ?_, ?_⟩
  · rw [hpos, rdRestart_pos, BitVec.zero_add, BitVec.toNat_ofNat]
    omega
  · rw [hpad, rdRestart_pad, BitVec.zero_add, BitVec.toNat_ofNat]
    omega
  · rw [hstatus, rdRestart_statusPad, Bool.false_or, decide_eq_decide]
    omega
  · rw [hcode, absorb_seed]
    exact congrArg (windowAt · 0) (funext (streamByte_rdRestart s))

/-- Settles O21: the seed by `rdInit_spec` and `rdInit_arg0`; the check raises before any effect. -/
theorem rdInitResult : Obligations.RdInitResult := by
  intro s
  refine ⟨fun h => ?_, fun h hf => ?_⟩
  · obtain ⟨_, hstate, hcoder, htotal, hcount⟩ := rdInit_spec s.arg0.toNat s
    obtain ⟨hlen, hpos, hpad, hstatus, hcode⟩ := rdInit_arg0 s
    have hmoved := onlyDecoderMoved_rdInit s.arg0.toNat s
    have hbody := rdInitBody_ok h
    rw [State.operand0] at hbody
    generalize rdInit s.arg0.toNat s = t at *
    refine ⟨_, runCommand_of_ok (i := .rdInit) hbody, hmoved.onlyPadMoved.completed, hstate,
      congrArg (fun c => c.low.toNat) hcoder, congrArg (fun c => c.range.toNat) hcoder, hlen, hpos, hpad, hstatus, ?_,
      rfl, htotal, hcount, keepsAllBut_endCommand_withRes0 hmoved _⟩
    refine hcode.trans ?_
    simp only [windowAt, apply_ite BitVec.toNat]
    rfl
  · exact trapsCleanly_of_error (i := .rdInit) hf (rdInitBody_value (Nat.not_le.mpr h))

/-! ### Counting (R143, R151) -/

theorem countOf_eq (c : Coder) (code : Window) :
    c.countOf code = (code.toNat + 2 ^ 48 - c.low.toNat) % 2 ^ 48 / c.range.toNat := by
  have hlow := c.low.isLt
  rw [Coder.countOf, BitVec.toNat_sub, Nat.add_comm, Nat.add_sub_assoc (by omega)]

theorem countOf_lt (c : Coder) (code : Window) : c.countOf code < 2 ^ 48 :=
  (Nat.div_le_self _ _).trans_lt (code - c.low).isLt

/-- `RD.COUNT` past its checks. -/
theorem rdCountBody_ok {s : State} (hready : s.rd.state = .ready) (htotal : 1 ≤ s.operand0 ∧ s.operand0 ≤ totalMax) :
    rdCountBody s = .ok ()
      ((s.withRd { s.rd with
        coder := s.rd.coder.divide s.operand0
        total := BitVec.ofNat 33 s.operand0
        count := BitVec.ofNat 48 ((s.rd.coder.divide s.operand0).countOf s.rd.code)
        state := .peeked }).withRes0 (zext64 ((s.rd.coder.divide s.operand0).countOf s.rd.code))) := by
  unfold rdCountBody
  rw [get_bind, require_bind_of_true _ _ _ hready, require_bind_of_true _ _ _ htotal, bind_of_ok (rdCount_apply _ s),
    setRes0, update_apply]

theorem rdCountBody_protocol {s : State} (hready : s.rd.state ≠ .ready) :
    rdCountBody s = .error .protocolDecoder s := by
  unfold rdCountBody
  rw [get_bind, require_bind_of_false _ _ _ hready]

theorem rdCountBody_total {s : State} (hready : s.rd.state = .ready)
    (htotal : ¬ (1 ≤ s.operand0 ∧ s.operand0 ≤ totalMax)) : rdCountBody s = .error .argTotal s := by
  unfold rdCountBody
  rw [get_bind, require_bind_of_true _ _ _ hready, require_bind_of_false _ _ _ htotal]

/-- Settles O22: the division is exact and positive, and the count, below 2^48, fits its register and `RES0`. -/
theorem rdCountResult : Obligations.RdCountResult := by
  intro s
  refine ⟨fun hready hnormal h1 h2 => ?_, fun hf hready => ?_, fun hf hready htotal => ?_⟩
  · have hbody := rdCountBody_ok hready ⟨h1, h2⟩
    rw [State.operand0] at hbody
    have hcount := countOf_lt (s.rd.coder.divide s.arg0.toNat) s.rd.code
    refine ⟨_, runCommand_of_ok (i := .rdCount) hbody, ⟨⟨rfl, rfl, rfl⟩, rfl⟩, rfl, rfl,
      Coder.divide_range_toNat _ _, ?_, ?_, ?_, ?_, rfl, rfl, rfl, rfl, keepsAllBut_endCommand_withRes0 (onlyDecoderMoved_withRd s _) _⟩
    · exact (Coder.divide_range_pos hnormal h1 h2).trans_eq (Coder.divide_range_toNat _ _).symm
    · refine (BitVec.toNat_ofNat _ _).trans (Nat.mod_eq_of_lt ?_)
      omega
    · refine (BitVec.toNat_ofNat _ _).trans ((Nat.mod_eq_of_lt hcount).trans ?_)
      rw [countOf_eq, Coder.divide_range_toNat]
      rfl
    · refine (BitVec.toNat_ofNat _ _).trans (Eq.trans ?_ (BitVec.toNat_ofNat _ _).symm)
      rw [Nat.mod_eq_of_lt hcount, Nat.mod_eq_of_lt (by omega)]
  · exact trapsCleanly_of_error (i := .rdCount) hf (rdCountBody_protocol hready)
  · exact trapsCleanly_of_error (i := .rdCount) hf (rdCountBody_total hready fun ⟨h1, h2⟩ =>
      htotal.elim (Nat.ne_of_gt h1) (Nat.not_lt.mpr h2))

/-! ### Removing (R144, R152) -/

/-- `RD.REMOVE` past its checks. -/
theorem rdRemoveBody_checked {s : State} (hpeeked : s.rd.state = .peeked)
    (hinterval : s.operand0 < s.operand1 ∧ s.operand1 ≤ s.rd.total.toNat)
    (hcount : s.operand0 ≤ s.rd.count.toNat ∧ s.rd.count.toNat < s.operand1) :
    rdRemoveBody s = rdRemove s.operand0 s.operand1 s := by
  unfold rdRemoveBody
  rw [get_bind, require_bind_of_true _ _ _ hpeeked, require_bind_of_true _ _ _ hinterval,
    require_bind_of_true _ _ _ hcount]

theorem rdRemoveBody_protocol {s : State} (hpeeked : s.rd.state ≠ .peeked) :
    rdRemoveBody s = .error .protocolDecoder s := by
  unfold rdRemoveBody
  rw [get_bind, require_bind_of_false _ _ _ hpeeked]

theorem rdRemoveBody_interval {s : State} (hpeeked : s.rd.state = .peeked)
    (hinterval : ¬ (s.operand0 < s.operand1 ∧ s.operand1 ≤ s.rd.total.toNat)) :
    rdRemoveBody s = .error .argInterval s := by
  unfold rdRemoveBody
  rw [get_bind, require_bind_of_true _ _ _ hpeeked, require_bind_of_false _ _ _ hinterval]

theorem rdRemoveBody_count {s : State} (hpeeked : s.rd.state = .peeked)
    (hinterval : s.operand0 < s.operand1 ∧ s.operand1 ≤ s.rd.total.toNat)
    (hcount : ¬ (s.operand0 ≤ s.rd.count.toNat ∧ s.rd.count.toNat < s.operand1)) :
    rdRemoveBody s = .error .argCount s := by
  unfold rdRemoveBody
  rw [get_bind, require_bind_of_true _ _ _ hpeeked, require_bind_of_true _ _ _ hinterval,
    require_bind_of_false _ _ _ hcount]

theorem TookBytes.endCommand {k : Nat} {s t : State} (h : TookBytes k s t) : TookBytes k s (endCommand t) := h

/-- Settles O23: past the checks `rdRemove_spec` says what can happen, and `Coder.normalize` which of it does. -/
theorem rdRemoveResult : Obligations.RdRemoveResult := by
  intro s
  refine ⟨fun hpeeked hlt hle hlo hhi => ?_, fun hf hpeeked => ?_, fun hf hpeeked hinterval => ?_,
    fun hf hpeeked hlt hle hcount => ?_⟩
  · have hbody := rdRemoveBody_checked hpeeked ⟨hlt, hle⟩ ⟨hlo, hhi⟩
    rcases rdRemove_spec s.arg0.toNat s.arg1.toNat s with
      ⟨c, k, t, hnorm, ht, hcoder, htook, hstate, htotal, hcount, hmoved⟩ | ⟨t, hnorm, ht, hmoved⟩
    · refine ⟨fun c' k' h => ?_, fun h => ?_⟩
      · rw [hnorm] at h
        cases h
        exact ⟨_, runCommand_of_ok (i := .rdRemove) (hbody.trans ht), hmoved.onlyPadMoved.completed, hstate, hcoder,
          htook.endCommand, htotal, hcount, hmoved.keepsAllBut.trans ((keepsAllBut_endCommand t).mono (by decide))⟩
      · rw [hnorm] at h
        cases h
    · refine ⟨fun c' k' h => ?_, fun _ hf => ?_⟩
      · rw [hnorm] at h
        cases h
      · obtain ⟨u, hu, hfault, _, _, hframe⟩ := runCommand_decoder_fault (i := .rdRemove) hf hmoved (hbody.trans ht)
        exact ⟨u, hu, hfault, hframe⟩
  · exact trapsCleanly_of_error (i := .rdRemove) hf (rdRemoveBody_protocol hpeeked)
  · exact trapsCleanly_of_error (i := .rdRemove) hf (rdRemoveBody_interval hpeeked hinterval)
  · exact trapsCleanly_of_error (i := .rdRemove) hf (rdRemoveBody_count hpeeked ⟨hlt, hle⟩ hcount)

/-! ### Reading a symbol (R149, R153) -/

/-- `RD.NUM` past its checks. -/
theorem rdNumBody_checked {s : State} (hready : s.rd.state = .ready) (hmax : s.operand0 ≤ totalMax) :
    rdNumBody s = (readNumber s.operand0 >>= fun v => setRes0 (zext64 v)) s := by
  unfold rdNumBody
  rw [get_bind, require_bind_of_true _ _ _ hready, require_bind_of_true _ _ _ hmax]

theorem rdNumBody_protocol {s : State} (hready : s.rd.state ≠ .ready) : rdNumBody s = .error .protocolDecoder s := by
  unfold rdNumBody
  rw [get_bind, require_bind_of_false _ _ _ hready]

theorem rdNumBody_total {s : State} (hready : s.rd.state = .ready) (hmax : ¬ s.operand0 ≤ totalMax) :
    rdNumBody s = .error .argTotal s := by
  unfold rdNumBody
  rw [get_bind, require_bind_of_true _ _ _ hready, require_bind_of_false _ _ _ hmax]

theorem not_readsSymbol_of_le {max v : Nat} {s u : State} (hm : 2 ≤ max)
    (h : max ≤ (s.rd.coder.divide max).countOf s.rd.code) : ¬ ReadsSymbol max v s u := by
  rw [ReadsSymbol, if_neg (by omega)]
  rintro ⟨hv, hcount, _⟩
  omega

theorem not_readsSymbol_of_collapse {max v : Nat} {s u : State} (hm : 2 ≤ max)
    (h : Coder.normalize normalizeRounds ((s.rd.coder.divide max).narrow ((s.rd.coder.divide max).countOf s.rd.code)
      ((s.rd.coder.divide max).countOf s.rd.code + 1)) = none) : ¬ ReadsSymbol max v s u := by
  rw [ReadsSymbol, if_neg (by omega)]
  rintro ⟨_, hcount, c, k, hnorm, _⟩
  rw [hcount, hnorm] at h
  cases h

/-- A count at or above the bound faults with the decoder in `PEEKED`. -/
theorem readNumber_corrupt {max : Nat} {s : State} (hm : 2 ≤ max)
    (h : max ≤ (s.rd.coder.divide max).countOf s.rd.code) :
    ∃ t, readNumber max s = .error .corruptSymbol t ∧
      rdCount max s = .ok ((s.rd.coder.divide max).countOf s.rd.code) t := by
  rcases readNumber_spec max s with ⟨v, u, hr, _⟩ | ⟨_, _, ht⟩ | ⟨_, hlt, _⟩
  · exact absurd hr (not_readsSymbol_of_le hm h)
  · exact ht
  · omega

/-- A symbol whose removal collapses faults. -/
theorem readNumber_collapse {max : Nat} {s : State} (hm : 2 ≤ max)
    (hlt : (s.rd.coder.divide max).countOf s.rd.code < max)
    (h : Coder.normalize normalizeRounds ((s.rd.coder.divide max).narrow ((s.rd.coder.divide max).countOf s.rd.code)
      ((s.rd.coder.divide max).countOf s.rd.code + 1)) = none) :
    ∃ t, readNumber max s = .error .collapseDecoder t ∧ OnlyDecoderMoved s t := by
  rcases readNumber_spec max s with ⟨v, u, hr, _⟩ | ⟨_, hle, _⟩ | ⟨_, _, _, ht⟩
  · exact absurd hr (not_readsSymbol_of_collapse hm h)
  · omega
  · exact ht

/-- Settles O24: a symbol that is read by `readNumber_eq_ok`, the two faults by `readNumber_corrupt` and
`readNumber_collapse`. -/
theorem rdNumResult : Obligations.RdNumResult := by
  intro s
  refine ⟨fun hready hmax => ?_, fun hf hready => ?_, fun hf hready hmax => ?_⟩
  · have hbody := rdNumBody_checked hready hmax
    rw [State.operand0] at hbody
    refine ⟨fun v u hr => ?_, fun hm hf hcount => ?_, fun hm hf v hv hcount hnorm => ?_⟩
    · have hmoved := hr.onlyDecoderMoved
      rw [bind_of_ok (readNumber_eq_ok.mpr hr)] at hbody
      exact ⟨_, runCommand_of_ok (i := .rdNum) hbody, hmoved.onlyPadMoved.completed, rfl, rfl, rfl,
        keepsAllBut_endCommand_withRes0 hmoved _⟩
    · obtain ⟨t, ht, hpeek⟩ := readNumber_corrupt hm hcount
      rw [rdCount_apply] at hpeek
      cases hpeek
      obtain ⟨u, hu, hfault, hrd, hpad, hframe⟩ := runCommand_decoder_fault (i := .rdNum) hf
        (onlyDecoderMoved_withRd s _) (hbody.trans (bind_of_error ht))
      exact ⟨u, hu, hfault, congrArg RdRegs.state hrd, (congrArg RdRegs.pos hrd :), (congrArg RdRegs.pad hrd :), hpad, hframe⟩
    · subst hcount
      obtain ⟨t, ht, hmoved⟩ := readNumber_collapse hm hv hnorm
      obtain ⟨u, hu, hfault, _, _, hframe⟩ := runCommand_decoder_fault (i := .rdNum) hf hmoved
        (hbody.trans (bind_of_error ht))
      exact ⟨u, hu, hfault, hframe⟩
  · exact trapsCleanly_of_error (i := .rdNum) hf (rdNumBody_protocol hready)
  · exact trapsCleanly_of_error (i := .rdNum) hf (rdNumBody_total hready (Nat.not_le.mpr hmax))

end Sys2Proof.Machine
end

section
/-! PROOFS. Lists of triplets over a byte stream (40_range_decoder.md R156, 42_byte_minimizer.md R193, R196): when coding them
ends without a collapse, when a stream answers a count inside every interval, and that `Check` decides the latter. -/

namespace Sys2Proof.Machine

/-! ### The window as it moves along a byte stream -/

section Window

variable {bytes : Nat → Byte}

theorem windowAt_lt (bytes : Nat → Byte) (j : Nat) : windowAt bytes j < 2 ^ 48 := by
  have h0 := (bytes j).isLt
  have h1 := (bytes (j + 1)).isLt
  have h2 := (bytes (j + 2)).isLt
  have h3 := (bytes (j + 3)).isLt
  have h4 := (bytes (j + 4)).isLt
  have h5 := (bytes (j + 5)).isLt
  rw [windowAt]
  omega

/-- The bytes behind the first of a window. -/
theorem windowAt_eq_top (bytes : Nat → Byte) (j : Nat) :
    windowAt bytes j = (bytes j).toNat * 2 ^ 40 + windowAt bytes (j + 1) / 256 := by
  have h6 := (bytes (j + 6)).isLt
  simp only [windowAt, Nat.add_assoc, Nat.reduceAdd]
  omega

/-- One byte enters the window (40_range_decoder.md R145). -/
theorem windowAt_succ (bytes : Nat → Byte) (j : Nat) :
    windowAt bytes (j + 1) = (windowAt bytes j * 256 + (bytes (j + 6)).toNat) % 2 ^ 48 := by
  have hlt := windowAt_lt bytes (j + 1)
  have htop := windowAt_eq_top bytes j
  have hlast : windowAt bytes (j + 1) % 256 = (bytes (j + 6)).toNat := by
    have h6 := (bytes (j + 6)).isLt
    simp only [windowAt, Nat.add_assoc, Nat.reduceAdd]
    omega
  omega

theorem absorb_windowAt {f : Nat → Byte} (k j : Nat) (h : ∀ i, f i = bytes (j + 6 + i)) :
    absorb f k (windowAt bytes j) = windowAt bytes (j + k) := by
  induction k with
  | zero => rfl
  | succ k ih => rw [absorb, ih, h, ← Nat.add_assoc j k 1, windowAt_succ, Nat.add_right_comm j 6 k]

end Window

/-! ### Codes inside the interval of a coder -/

/-- The code lies in the interval `[low, low + range)`. -/
def Coder.Holds (c : Coder) (code : Nat) : Prop := c.low.toNat ≤ code ∧ code < c.low.toNat + c.range.toNat

namespace Coder

variable {c c' : Coder} {bytes : Nat → Byte} {bottom top total : Nat}

theorem topByte_toNat (c : Coder) : c.topByte.toNat = c.low.toNat / 2 ^ 40 := by
  have hlow := c.low.isLt
  rw [topByte, top8, headUnit, BitVec.toNat_ofNat]
  omega

/-- One shift back: the emitted byte before a window inside the shifted interval is a window inside the old one. -/
theorem holds_of_shift {j : Nat} (hc : c.Inv) (h : c.toShift = some c') (hn : c'.collapsed = false)
    (hbyte : bytes j = c'.topByte) (hw : c'.shift.Holds (windowAt bytes (j + 1))) : c.Holds (windowAt bytes j) := by
  obtain ⟨hinv, hsettled⟩ := toShift_inv hc h
  obtain ⟨hlow, _, hle, _⟩ := toShift_spec hc h
  obtain ⟨h1, h2⟩ := hw
  rw [shift_low_toNat, hlow] at h1 h2
  rw [shift_range_toNat (range_lt_of_settled hinv hsettled hn)] at h2
  rw [Holds, windowAt_eq_top, hbyte, topByte_toNat, hlow]
  omega

/-- The emitted bytes before a window inside the renormalized interval are a window inside the old one. -/
theorem holds_of_normalize (n : Nat) {k j : Nat} (hc : c.Inv) (h : normalize n c = some (c', k))
    (hbytes : ∀ i < k, bytes (j + i) = (emitted n c).getD i 0) (hw : c'.Holds (windowAt bytes (j + k))) :
    c.Holds (windowAt bytes j) := by
  induction n generalizing c k j with
  | zero => cases h; exact hw
  | succ n ih =>
    cases hts : c.toShift with
    | none => rw [normalize_of_exit _ hts] at h; cases h; exact hw
    | some d =>
      cases hd : d.collapsed with
      | true => rw [normalize_of_collapse n hts hd] at h; cases h
      | false =>
        rw [normalize_of_shift n hts hd, Option.map_eq_some_iff] at h
        obtain ⟨⟨d', i⟩, hi, he⟩ := h
        cases he
        rw [emitted_of_shift n hts hd] at hbytes
        obtain ⟨hinv, hsettled⟩ := toShift_inv hc hts
        refine holds_of_shift hc hts hd (hbytes 0 (Nat.succ_pos i)) (ih (shift_inv hinv hsettled hd) hi ?_ ?_)
        · intro m hm
          rw [Nat.add_assoc, Nat.add_comm 1 m]
          exact hbytes (m + 1) (Nat.succ_lt_succ hm)
        · rw [Nat.add_assoc, Nat.add_comm 1 i]
          exact hw

theorem narrow_divide_holds_iff {w : Nat} (hc : c.Normal) (hs : LegalSymbol bottom top total) :
    ((c.divide total).narrow bottom top).Holds w ↔
      c.low.toNat + bottom * (c.range.toNat / total) ≤ w ∧ w < c.low.toNat + top * (c.range.toNat / total) := by
  have hparts := parts_add (c.range.toNat / total) hs.bottom_lt_top
  rw [Holds, narrow_divide_low_toNat hc hs, narrow_divide_range_toNat c hs.bottom_lt_top hs.top_le_total]
  omega

/-- A code inside the narrowed interval is inside the interval before it. -/
theorem holds_of_narrow {w : Nat} (hc : c.Normal) (hs : LegalSymbol bottom top total)
    (h : ((c.divide total).narrow bottom top).Holds w) : c.Holds w := by
  have hle := c.mul_div_le hs.top_le_total
  rw [narrow_divide_holds_iff hc hs] at h
  rw [Holds]
  omega

/-- A code inside the narrowed interval has its count inside the symbol's interval (R143, R148). -/
theorem count_of_holds {code : Window} (hc : c.Normal) (hs : LegalSymbol bottom top total)
    (h : ((c.divide total).narrow bottom top).Holds code.toNat) :
    bottom ≤ (c.divide total).countOf code ∧ (c.divide total).countOf code < top := by
  have hpos := divide_range_pos hc hs.total_pos hs.total_le
  have hcode := code.isLt
  rw [narrow_divide_holds_iff hc hs] at h
  have hdiff : (code.toNat + 2 ^ 48 - c.low.toNat) % 2 ^ 48 = code.toNat - c.low.toNat := by omega
  rw [countOf_eq, divide_low, divide_range_toNat, hdiff]
  exact ⟨(Nat.le_div_iff_mul_le hpos).mpr (by omega), (Nat.div_lt_iff_lt_mul hpos).mpr (by omega)⟩

end Coder

/-! ### Lists of triplets -/

/-- The triplet's operands are legal (41_range_encoder.md R176). -/
def Triplet.Legal (x : Triplet) : Prop := LegalSymbol x.bottom.toNat x.top.toNat x.total.toNat

/-- `(low, range)` narrowed to the triplet's interval (40_range_decoder.md R143, R144). -/
def Coder.narrowTo (c : Coder) (x : Triplet) : Coder := (c.divide x.total.toNat).narrow x.bottom.toNat x.top.toNat

/-- The count that the code gives lies in the triplet's interval (40_range_decoder.md R143, R156). -/
def Triplet.CountInside (x : Triplet) (c : Coder) (code : Window) : Prop :=
  x.bottom.toNat ≤ (c.divide x.total.toNat).countOf code ∧ (c.divide x.total.toNat).countOf code < x.top.toNat

/-- The triplets are legal, and coding them in order from `c` does not collapse (41_range_encoder.md R172). -/
def TripletsCode : List Triplet → Coder → Prop
  | [], _ => True
  | x :: rest, c =>
    x.Legal ∧ ∃ c' k, Coder.normalize normalizeRounds (c.narrowTo x) = some (c', k) ∧ TripletsCode rest c'

/-- From `(low, range)` and the window at index `j` of the byte stream, every triplet in order has its count inside its
interval (40_range_decoder.md R156). -/
def TripletsReadBack (bytes : Nat → Byte) : List Triplet → Coder → Nat → Prop
  | [], _, _ => True
  | x :: rest, c, j =>
    x.CountInside c (BitVec.ofNat 48 (windowAt bytes j)) ∧
    ∃ c' k, Coder.normalize normalizeRounds (c.narrowTo x) = some (c', k) ∧ TripletsReadBack bytes rest c' (j + k)

theorem ofNat_windowAt_toNat (bytes : Nat → Byte) (j : Nat) :
    (BitVec.ofNat 48 (windowAt bytes j)).toNat = windowAt bytes j := by
  rw [BitVec.toNat_ofNat, Nat.mod_eq_of_lt (windowAt_lt bytes j)]

theorem eq_ofNat_windowAt {code : Window} {bytes : Nat → Byte} {j : Nat} (h : code.toNat = windowAt bytes j) :
    code = BitVec.ofNat 48 (windowAt bytes j) :=
  BitVec.eq_of_toNat_eq (h.trans (ofNat_windowAt_toNat bytes j).symm)

section ReadBack

variable {bytes : Nat → Byte} {x : Triplet} {c c' : Coder} {k j : Nat}

theorem Coder.narrowTo_inv (hc : c.Normal) (hx : x.Legal) : (c.narrowTo x).Inv := Coder.narrow_divide_inv hc hx

/-- Where coding one triplet emits the bytes of the stream from index `j` on, and the window behind them is inside the
interval then, the triplet is read back and the window at `j` is inside the interval before it. -/
theorem readBack_one (hc : c.Normal) (hx : x.Legal)
    (h : Coder.normalize normalizeRounds (c.narrowTo x) = some (c', k))
    (hbytes : ∀ i < k, bytes (j + i) = (Coder.emitted normalizeRounds (c.narrowTo x)).getD i 0)
    (hw : c'.Holds (windowAt bytes (j + k))) :
    x.CountInside c (BitVec.ofNat 48 (windowAt bytes j)) ∧
    c.Holds (windowAt bytes j) := by
  have hnarrow := Coder.holds_of_normalize _ (Coder.narrowTo_inv hc hx) h hbytes hw
  exact ⟨Coder.count_of_holds hc hx (by rw [ofNat_windowAt_toNat]; exact hnarrow), Coder.holds_of_narrow hc hx hnarrow⟩

end ReadBack

/-! ### The replay decoder (42_byte_minimizer.md R192) -/

/-- The bytes of `OUT` below `n`, zero from there on. -/
def paddedOut (out : List Host.Cell) (n j : Nat) : Byte := if j < n then outByteOf out j else 0

section Replay

variable {out : List Host.Cell} {n j : Nat} {r : RpRegs}

/-- The replay decoder of `OUT[0 .. n)` with the bytes from index `j` on in its window. -/
structure RpRegs.At (out : List Host.Cell) (n j : Nat) (r : RpRegs) : Prop where
  len_toNat : r.len.toNat = n
  pos_toNat : r.pos.toNat = min (j + seedBytes) n
  code_toNat : r.code.toNat = windowAt (paddedOut out n) j

/-- Everything that `rpByte` does: it answers the next byte of the padded stream and moves only the position. -/
theorem rpByte_spec {m : Nat} (hlen : r.len.toNat = n) (hpos : r.pos.toNat = min m n) :
    (rpByte out r).1 = paddedOut out n m ∧ (rpByte out r).2.pos.toNat = min (m + 1) n ∧
    (rpByte out r).2.len = r.len ∧ (rpByte out r).2.code = r.code ∧ (rpByte out r).2.coder = r.coder := by
  have hlt := r.len.isLt
  rw [rpByte, paddedOut, hlen, hpos]
  by_cases h : m < n
  · rw [if_pos (by omega), if_pos h, Nat.min_eq_left h.le]
    refine ⟨rfl, ?_, rfl, rfl, rfl⟩
    rw [BitVec.toNat_add, hpos, word_one_toNat]
    omega
  · rw [if_neg (by omega), if_neg h]
    refine ⟨rfl, ?_, rfl, rfl, rfl⟩
    rw [hpos]
    omega

theorem rpSeed_spec (k : Nat) {m : Nat} (hlen : r.len.toNat = n) (hpos : r.pos.toNat = min m n) :
    (rpSeed out k r).len.toNat = n ∧ (rpSeed out k r).pos.toNat = min (m + k) n ∧ (rpSeed out k r).coder = r.coder ∧
    (rpSeed out k r).code.toNat = absorb (fun i => paddedOut out n (m + i)) k r.code.toNat := by
  induction k generalizing r m with
  | zero => exact ⟨hlen, hpos, rfl, rfl⟩
  | succ k ih =>
    obtain ⟨hbyte, hpos', hlen', hcode', hcoder'⟩ := rpByte_spec (out := out) hlen hpos
    obtain ⟨h1, h2, h3, h4⟩ := ih (m := m + 1)
      (r := { (rpByte out r).2 with code := BitVec.ofNat 48 ((rpByte out r).2.code.toNat * 256 + (rpByte out r).1.toNat) })
      ((congrArg BitVec.toNat hlen').trans hlen) hpos'
    refine ⟨h1, h2.trans (by rw [Nat.add_assoc, Nat.add_comm 1 k]), h3.trans hcoder', h4.trans ?_⟩
    simp only [absorb_succ, BitVec.toNat_ofNat, hcode', hbyte, Nat.add_zero, Nat.add_assoc, Nat.add_comm 1]

theorem rpInit_at (out : List Host.Cell) (hn : n < 2 ^ 64) :
    (rpInit out n).At out n 0 ∧ (rpInit out n).coder = ⟨0, rangeInit⟩ := by
  have hlen : (BitVec.ofNat 64 n).toNat = n := by rw [BitVec.toNat_ofNat, Nat.mod_eq_of_lt hn]
  obtain ⟨h1, h2, h3, h4⟩ := rpSeed_spec (out := out) (r := ⟨⟨0, rangeInit⟩, 0, 0, BitVec.ofNat 64 n⟩) seedBytes (m := 0)
    hlen (Nat.zero_min n).symm
  refine ⟨⟨h1, h2, h4.trans ?_⟩, h3⟩
  rw [absorb_seed]
  simp only [Nat.zero_add]

/-- One shift of the replay decoder moves its window by one byte. -/
theorem RpRegs.At.shift (h : r.At out n j) (d : Coder) :
    RpRegs.At out n (j + 1)
      { (rpByte out r).2 with code := shiftCode (rpByte out r).2.code (rpByte out r).1, coder := d } := by
  obtain ⟨hlen, hpos, hcode⟩ := h
  obtain ⟨hbyte, hpos', hlen', hcode', _⟩ := rpByte_spec (out := out) hlen hpos
  refine ⟨(congrArg BitVec.toNat hlen').trans hlen, hpos'.trans (by rw [Nat.add_right_comm]), ?_⟩
  show (shiftCode _ _).toNat = _
  rw [shiftCode_toNat, hcode', hcode, hbyte, windowAt_succ]
  rfl

/-- Where the renormalization of `(low, range)` does not collapse, the replay decoder follows it (R192). -/
theorem rpNormalize_of_some (m : Nat) {c : Coder} {k : Nat} (h : Coder.normalize m r.coder = some (c, k))
    (hr : r.At out n j) : ∃ r', rpNormalize out m r = some r' ∧ r'.coder = c ∧ r'.At out n (j + k) := by
  induction m generalizing r k j with
  | zero => cases h; exact ⟨r, rfl, rfl, hr⟩
  | succ m ih =>
    rw [rpNormalize]
    cases hts : r.coder.toShift with
    | none => rw [Coder.normalize_of_exit _ hts] at h; cases h; exact ⟨r, rfl, rfl, hr⟩
    | some d =>
      cases hd : d.collapsed with
      | true => rw [Coder.normalize_of_collapse m hts hd] at h; cases h
      | false =>
        rw [Coder.normalize_of_shift m hts hd, Option.map_eq_some_iff] at h
        obtain ⟨⟨d', i⟩, hi, he⟩ := h
        cases he
        obtain ⟨r', h1, h2, h3⟩ := ih (r := { (rpByte out r).2 with
            code := shiftCode (rpByte out r).2.code (rpByte out r).1, coder := d.shift }) hi (hr.shift d.shift)
        refine ⟨r', ?_, h2, by rw [Nat.add_assoc, Nat.add_comm 1 i] at h3; exact h3⟩
        simp only [hd, Bool.false_eq_true, if_false]
        exact h1

/-! ### The replay of the log (42_byte_minimizer.md R193) -/

/-- The triplets stand in the log from index `i` on. -/
def LoggedFrom (log : Nat → Triplet) : Nat → List Triplet → Prop
  | _, [] => True
  | i, x :: rest => log i = x ∧ LoggedFrom log (i + 1) rest

theorem Coder.narrowTo_fits {c : Coder} {x : Triplet} (hc : c.Normal) (hx : x.Legal) :
    (c.divide x.total.toNat).narrowFits x.bottom.toNat x.top.toNat = true := by
  have hle := c.mul_div_le hx.top_le_total
  have hparts := Coder.parts_add (c.range.toNat / x.total.toNat) hx.bottom_lt_top
  have hlt := c.range.isLt
  have hsum := hc.2
  rw [Coder.narrowFits, Bool.and_eq_true, decide_eq_true_iff, decide_eq_true_iff, Coder.divide_range_toNat,
    Coder.divide_low]
  omega

/-- One entry of the replay of a log that the encoder wrote: no verdict is free, and the renormalization does not collapse, so
only the count decides (log 26 does not bear on it). -/
theorem replay_succ {log : Nat → Triplet} {x : Triplet} {i m : Nat} {r' : RpRegs} (hlog : log i = x)
    (hc : r.coder.Normal) (hx : x.Legal)
    (hnorm : rpNormalize out normalizeRounds { r with coder := r.coder.narrowTo x } = some r') :
    replay log out (m + 1) i r =
      if x.bottom.toNat ≤ (r.coder.divide x.total.toNat).countOf r.code ∧
          (r.coder.divide x.total.toNat).countOf r.code < x.top.toNat then replay log out m (i + 1) r'
      else false := by
  have hpos := Coder.divide_range_pos hc hx.total_pos hx.total_le
  have hrange : (r.coder.divide x.total.toNat).range ≠ 0 := fun h => by
    rw [← Coder.divide_range_toNat, h] at hpos
    exact absurd hpos (by decide)
  have hremove : rpRemove out x.bottom.toNat x.top.toNat (rpCount x.total.toNat r).2 = some r' := hnorm
  rw [replay]
  simp only [hlog, hremove]
  simp only [rpCount, hrange, if_false, Coder.narrowTo_fits hc hx, if_true]

theorem replay_iff {log : Nat → Triplet} (l : List Triplet) {i : Nat} (hcode : TripletsCode l r.coder)
    (hlog : LoggedFrom log i l) (hc : r.coder.Normal) (hr : r.At out n j) :
    replay log out l.length i r = true ↔ TripletsReadBack (paddedOut out n) l r.coder j := by
  induction l generalizing r i j with
  | nil => exact iff_of_true rfl trivial
  | cons x rest ih =>
    obtain ⟨hx, c', k, hnorm, hrest⟩ := hcode
    obtain ⟨hentry, hlog⟩ := hlog
    have hnarrow : RpRegs.At out n j { r with coder := r.coder.narrowTo x } := ⟨hr.len_toNat, hr.pos_toNat, hr.code_toNat⟩
    obtain ⟨r', hr', hcoder, hat⟩ := rpNormalize_of_some _ hnorm hnarrow
    have hnormal := Coder.normalize_normal (Coder.narrowTo_inv hc hx) hnorm
    subst hcoder
    rw [List.length_cons, replay_succ hentry hc hx hr', TripletsReadBack, ← eq_ofNat_windowAt hr.code_toNat]
    split
    · rename_i hcount
      rw [ih hrest hlog hnormal hat]
      refine ⟨fun h => ⟨hcount, r'.coder, k, hnorm, h⟩, fun ⟨_, d, m, hd, h⟩ => ?_⟩
      rw [hnorm] at hd
      cases hd
      exact h
    · rename_i hcount
      exact iff_of_false Bool.false_ne_true fun h => hcount h.1

/-- `(low, range)` at the start of a stream (40_range_decoder.md R141, 41_range_encoder.md R175). -/
theorem Coder.reset_normal : Coder.reset.Normal := by decide

/-- `Check(n)` says whether the logged triplets are read back from `OUT[0 .. n)`, zero-padded. -/
theorem check_iff {log : Nat → Triplet} {l : List Triplet} (hcode : TripletsCode l Coder.reset)
    (hlog : LoggedFrom log 0 l) (hn : n < 2 ^ 64) :
    check log l.length out n = true ↔ TripletsReadBack (paddedOut out n) l Coder.reset 0 := by
  obtain ⟨hat, hcoder⟩ := rpInit_at out hn
  have hreset : (rpInit out n).coder = Coder.reset := hcoder
  rw [check, ← hreset]
  rw [← hreset] at hcode
  exact replay_iff l hcode hlog (by rw [hreset]; exact Coder.reset_normal) hat

/-! ### The search of the minimizer (R194, R196) -/

theorem paddedOut_succ_of_zero (h : outByteOf out n = 0) : paddedOut out (n + 1) = paddedOut out n := by
  funext j
  rw [paddedOut, paddedOut]
  rcases lt_trichotomy j n with hj | hj | hj
  · rw [if_pos (by omega), if_pos hj]
  · rw [if_pos (by omega), if_neg (by omega), hj, h]
  · rw [if_neg (by omega), if_neg (by omega)]

/-- The search goes from candidates that validate to candidates that validate: dropping a zero byte leaves the padded stream
the same, and every other step asks `Check` first. -/
theorem minimizeLoop_validates {log : Nat → Triplet} {l : List Triplet} (hcode : TripletsCode l Coder.reset)
    (hlog : LoggedFrom log 0 l) (n : Nat) (out : List Host.Cell) (hn : n < 2 ^ 64)
    (h : check log l.length out n = true) :
    check log l.length (minimizeLoop log l.length n out).2 (minimizeLoop log l.length n out).1 = true := by
  induction n generalizing out with
  | zero => exact h
  | succ n ih =>
    have hn' : n < 2 ^ 64 := Nat.lt_of_succ_lt hn
    rw [minimizeLoop]
    split
    · rename_i hzero
      refine ih out hn' ?_
      rw [check_iff hcode hlog hn, paddedOut_succ_of_zero hzero] at h
      exact (check_iff hcode hlog hn').mpr h
    split
    · exact ih out hn' ‹_›
    split
    · exact h
    split
    · exact ih _ hn' ‹_›
    · exact h

end Replay

end Sys2Proof.Machine
end

section
/-! PROOFS. What a list of triplets leaves in `OUT` and `LOG` (41_range_encoder.md R171 to R178, 42_byte_minimizer.md R194): the
run of each encoder command that ends without fault, and why the finished output reads back. -/

namespace Sys2Proof.Machine

/-! ### Runs that end without fault -/

theorem require_bind_eq_ok {β : Type} {p : Prop} [Decidable p] {c : Cause} {f : Unit → Cmd β} {s t : State} {b : β} :
    (require p c >>= f) s = .ok b t ↔ p ∧ f () s = .ok b t := by
  rw [require_bind_apply]
  split
  · exact (and_iff_right ‹_›).symm
  · exact iff_of_false nofun fun h => absurd h.1 ‹_›

/-- A command that answers without a fault has run to its end. -/
theorem Runs.body_ok {i : Instr} {s t : State} (hi : i ≠ .sysReset) (h : Runs i s t) :
    ∃ u, commandBody i s = .ok () u ∧ t = endCommand u := by
  obtain ⟨he, hf⟩ := h
  rw [exec_eq_runCommand hi] at he
  rcases runCommand_cases i (commandBody i) s with ⟨u, hu, hn⟩ | ⟨c, u, _, hn⟩
  · rw [hn] at he
    cases he
    exact ⟨u, hu, rfl⟩
  · rw [hn, raiseFault_eq] at he
    cases he
    cases hf

/-! ### Coding one triplet (R172, R173, R176) -/

/-- A state in which the encoder has coded one triplet more, with what reading it back needs besides `CodesTriplet`: the
lengths do not wrap. -/
structure CodedOne (x : Triplet) (s t : State) : Prop where
  opened : s.re.state = .opened
  legal : x.Legal
  codes : CodesTriplet x.bottom.toNat x.top.toNat x.total.toNat s t
  cfg_eq : t.cfg = s.cfg
  logLen_toNat : t.re.logLen.toNat = s.re.logLen.toNat + 1
  outLen_toNat : t.re.outLen.toNat =
    s.re.outLen.toNat + (Coder.emitted normalizeRounds (s.re.coder.narrowTo x)).length

theorem AppendsBytes.outLen_toNat {bytes : List Byte} {s t : State} (h : AppendsBytes bytes s t)
    (hroom : s.re.outLen.toNat + bytes.length < 2 ^ 64) : t.re.outLen.toNat = s.re.outLen.toNat + bytes.length := by
  rw [h.1, BitVec.toNat_add, BitVec.toNat_ofNat]
  omega

/-- The two halves of `RE.PUT`, the log and the coder, where neither faults. -/
theorem reLog_rePut_eq_ok {bottom top total : Nat} {s t : State} (hb : s.cfg.Bounds)
    (h : (reLog bottom top total >>= fun _ => rePut bottom top total) s = .ok () t) :
    CodesTriplet bottom top total s t ∧ t.cfg = s.cfg ∧ t.re.logLen.toNat = s.re.logLen.toNat + 1 ∧
    s.re.outLen.toNat + (Coder.emitted normalizeRounds (s.putCoder bottom top total)).length < 2 ^ 64 := by
  obtain ⟨_, _, _, _, hcap, hlogCap, _⟩ := hb
  obtain ⟨_, u, hu, hput⟩ := bind_eq_ok.mp h
  rcases reLog_spec bottom top total s with ⟨hlog, u', he, hlogs, hmem, hre⟩ | ⟨_, he⟩
  · rw [he] at hu
    cases hu
    have hcfg : u.cfg = s.cfg := by rw [hmem]; rfl
    have hcoder : u.putCoder bottom top total = s.putCoder bottom top total := by rw [State.putCoder, hre]; rfl
    have hlen : u.re.outLen = s.re.outLen := by rw [hre]
    have hout : u.outMem = s.outMem := by rw [hmem]; rfl
    rw [rePut_apply, hcoder] at hput
    rcases reNormalize_spec normalizeRounds (u.withRe { u.re with coder := s.putCoder bottom top total })
        (by rw [withRe_cfg, hcfg]; exact hcap) with
      ⟨c, k, w, hnorm, hroom, hw, hc, happ, hgrew⟩ | ⟨w, _, _, hw, _⟩ | ⟨w, _, hw, _⟩
    · rw [hput] at hw
      cases hw
      obtain ⟨hgrew, hstate, hlogLen⟩ := hgrew
      have happ' : AppendsBytes (Coder.emitted normalizeRounds (s.putCoder bottom top total)) u t := happ
      have hmem' : t.logMem = u.logMem := by rw [hgrew]; rfl
      refine ⟨⟨⟨c, k, hnorm, hc⟩, hstate.trans (by rw [withRe_re, hre]), ⟨?_, fun i => ?_⟩, ?_, fun i => ?_⟩, ?_, ?_, ?_⟩
      · exact hlogLen.trans hlogs.1
      · exact (show t.logEntry i = u.logEntry i by rw [State.logEntry, hmem', State.logEntry]).trans (hlogs.2 i)
      · rw [happ'.1, hlen]
      · rw [happ'.2 i, hlen, State.outByte, State.outByte, hout]
      · rw [hgrew]; exact hcfg
      · rw [hlogLen, withRe_re, hre, BitVec.toNat_add, word_one_toNat]
        omega
      · simp only [withRe_re, withRe_cfg, hlen, hcfg] at hroom
        have hlt := s.re.outLen.isLt
        omega
    · rw [hput] at hw; cases hw
    · rw [hput] at hw; cases hw
  · rw [he] at hu; cases hu

theorem total_toNat_setWidth (v : Total) : (v.setWidth 64).toNat = v.toNat := by
  rw [BitVec.toNat_setWidth]
  exact Nat.mod_eq_of_lt (v.isLt.trans (by decide))

/-- `RE.PUT` of a triplet, where it does not fault. -/
theorem codedOne_of_runs {x : Triplet} {s t : State} (hb : s.cfg.Bounds)
    (h : Runs .rePut (s.withArgs (x.bottom.setWidth 64) (x.top.setWidth 64) (x.total.setWidth 64)) t) :
    CodedOne x s t := by
  obtain ⟨u, hu, rfl⟩ := h.body_ok (by decide)
  have hbody : rePutBody _ = _ := hu
  unfold rePutBody at hbody
  rw [get_bind, require_bind_eq_ok, require_bind_eq_ok, require_bind_eq_ok] at hbody
  simp only [State.operand0, State.operand1, State.operand2, State.withArgs, total_toNat_setWidth] at hbody
  obtain ⟨hopen, htotal, hinterval, hrun⟩ := hbody
  rw [← bind_assoc, bind_eq_ok] at hrun
  obtain ⟨⟨⟩, w, hw, hres⟩ := hrun
  cases hres
  obtain ⟨⟨hcoder, hstate, hlog, hout⟩, hcfg, hlogLen, hroom⟩ := reLog_rePut_eq_ok
    (s := s.withArgs (x.bottom.setWidth 64) (x.top.setWidth 64) (x.total.setWidth 64)) hb hw
  have happ : AppendsBytes (Coder.emitted normalizeRounds (s.re.coder.narrowTo x)) s w := hout
  exact ⟨hopen, ⟨htotal.1, htotal.2, hinterval.1, hinterval.2⟩, ⟨hcoder, hstate, hlog, hout⟩, hcfg,
    hlogLen, happ.outLen_toNat hroom⟩

/-! ### Coding a list (R176, R180) -/

/-- The encoder has coded the triplets between `s` and `t`: the log holds them, `OUT` and `LOG` have only grown, and from
every stream that begins with `OUT` and goes on with a code of the interval in `t` they are read back. -/
structure CodedAll (l : List Triplet) (s t : State) : Prop where
  codes : TripletsCode l s.re.coder
  normal : t.re.coder.Normal
  state_eq : t.re.state = s.re.state
  cfg_eq : t.cfg = s.cfg
  logLen_toNat : t.re.logLen.toNat = s.re.logLen.toNat + l.length
  log_kept : ∀ i < s.re.logLen.toNat, t.logEntry i = s.logEntry i
  logged : LoggedFrom t.logEntry s.re.logLen.toNat l
  outLen_le : s.re.outLen.toNat ≤ t.re.outLen.toNat
  out_kept : ∀ i < s.re.outLen.toNat, t.outByte i = s.outByte i
  readBack : ∀ bytes : Nat → Byte, (∀ i < t.re.outLen.toNat, bytes i = t.outByte i) →
    t.re.coder.Holds (windowAt bytes t.re.outLen.toNat) →
    TripletsReadBack bytes l s.re.coder s.re.outLen.toNat ∧ s.re.coder.Holds (windowAt bytes s.re.outLen.toNat)

theorem CodedAll.nil {s : State} (h : s.re.coder.Normal) : CodedAll [] s s where
  codes := trivial
  normal := h
  state_eq := rfl
  cfg_eq := rfl
  logLen_toNat := rfl
  log_kept := fun _ _ => rfl
  logged := trivial
  outLen_le := le_refl _
  out_kept := fun _ _ => rfl
  readBack := fun _ _ hw => ⟨trivial, hw⟩

section CodedOne

variable {x : Triplet} {s u : State}

theorem CodedOne.logEntry (h : CodedOne x s u) (i : Nat) :
    u.logEntry i = if i = s.re.logLen.toNat then x else s.logEntry i := by
  obtain ⟨_, _, ⟨_, hlog⟩, _⟩ := h.codes
  rw [hlog i, BitVec.ofNat_toNat, BitVec.ofNat_toNat, BitVec.ofNat_toNat, BitVec.setWidth_eq, BitVec.setWidth_eq,
    BitVec.setWidth_eq]

theorem CodedOne.outByte (h : CodedOne x s u) (i : Nat) :
    u.outByte i =
      if s.re.outLen.toNat ≤ i ∧ i < u.re.outLen.toNat then
        (Coder.emitted normalizeRounds (s.re.coder.narrowTo x)).getD (i - s.re.outLen.toNat) 0
      else s.outByte i := by
  obtain ⟨_, _, _, _, hout⟩ := h.codes
  rw [h.outLen_toNat]
  exact hout i

theorem CodedOne.normalize (h : CodedOne x s u) :
    Coder.normalize normalizeRounds (s.re.coder.narrowTo x) =
      some (u.re.coder, (Coder.emitted normalizeRounds (s.re.coder.narrowTo x)).length) := by
  obtain ⟨⟨c, k, hnorm, hc⟩, _⟩ := h.codes
  have hnorm' : Coder.normalize normalizeRounds (s.re.coder.narrowTo x) = some (c, k) := hnorm
  rw [hnorm', hc, Coder.normalize_count _ hnorm']

theorem CodedAll.cons {l : List Triplet} {t : State} (hs : s.re.coder.Normal) (h : CodedOne x s u)
    (ht : CodedAll l u t) : CodedAll (x :: l) s t := by
  have hlen := h.outLen_toNat
  have hlogLen := h.logLen_toNat
  have hle := ht.outLen_le
  obtain ⟨_, hstate, _⟩ := h.codes
  refine
    { codes := ⟨h.legal, _, _, h.normalize, ht.codes⟩
      normal := ht.normal
      state_eq := ht.state_eq.trans hstate
      cfg_eq := ht.cfg_eq.trans h.cfg_eq
      logLen_toNat := by rw [ht.logLen_toNat, hlogLen, List.length_cons]; omega
      log_kept := fun i hi => ?_
      logged := ⟨?_, hlogLen ▸ ht.logged⟩
      outLen_le := by omega
      out_kept := fun i hi => ?_
      readBack := fun bytes hbytes hw => ?_ }
  · rw [ht.log_kept i (by omega), h.logEntry, if_neg (by omega)]
  · rw [ht.log_kept _ (by omega), h.logEntry, if_pos rfl]
  · rw [ht.out_kept i (by omega), h.outByte, if_neg (by omega)]
  · obtain ⟨hrest, hholds⟩ := ht.readBack bytes hbytes hw
    rw [hlen] at hrest hholds
    have hemitted : ∀ i < (Coder.emitted normalizeRounds (s.re.coder.narrowTo x)).length,
        bytes (s.re.outLen.toNat + i) = (Coder.emitted normalizeRounds (s.re.coder.narrowTo x)).getD i 0 := fun i hi => by
      rw [hbytes _ (by omega), ht.out_kept _ (by omega), h.outByte, if_pos (by omega), Nat.add_sub_cancel_left]
    obtain ⟨hcount, hholds⟩ := readBack_one hs h.legal h.normalize hemitted hholds
    exact ⟨⟨hcount, _, _, h.normalize, hrest⟩, hholds⟩

end CodedOne

/-- Every list of triplets that `RE.PUT` codes without fault. -/
theorem codedAll_of_encodes {l : List Triplet} {s t : State} (hb : s.cfg.Bounds) (hs : s.re.coder.Normal)
    (h : EncodesTriplets l s t) : CodedAll l s t := by
  induction l generalizing s with
  | nil => rw [show t = s from h]; exact .nil hs
  | cons x l ih =>
    obtain ⟨u, hu, ht⟩ := h
    have hone := codedOne_of_runs hb hu
    have hnormal := Coder.normalize_normal (Coder.narrowTo_inv hs hone.legal) hone.normalize
    exact .cons hs hone (ih (by rw [hone.cfg_eq]; exact hb) hnormal ht)

/-! ### The flush (R174) -/

/-- The bytes that `n` rounds of the flush emit from `low`. -/
def flushBytes : Nat → Window → List Byte
  | 0, _ => []
  | n + 1, low => BitVec.ofNat 8 (top8 low.toNat) :: flushBytes n (BitVec.ofNat 48 (low.toNat % headUnit * 256))

theorem flushBytes_length (n : Nat) (low : Window) : (flushBytes n low).length = n := by
  induction n generalizing low with
  | zero => rfl
  | succ n ih => rw [flushBytes, List.length_cons, ih]

/-- One round of the flush that finds room. -/
theorem reFlushByte_apply (s : State) (h : s.re.outLen.toNat < s.cfg.outCap) :
    reFlushByte s = .ok () ((s.putOut s.re.outLen.toNat s.re.coder.topByte).withRe
      { s.re with
        outLen := s.re.outLen + 1
        coder := { s.re.coder with low := BitVec.ofNat 48 (s.re.coder.low.toNat % headUnit * 256) } }) := by
  unfold reFlushByte
  rw [get_bind, bind_of_ok ((reEmit_apply _ s).trans (if_pos h))]
  rfl

theorem reFlushByte_eq_ok {s t : State} (h : reFlushByte s = .ok () t) : s.re.outLen.toNat < s.cfg.outCap := by
  by_contra hn
  unfold reFlushByte at h
  rw [get_bind, bind_of_error ((reEmit_apply _ s).trans (if_neg hn))] at h
  cases h

/-- A flush that ends without fault has appended its bytes. -/
theorem reFlush_eq_ok {n : Nat} {s t : State} (hcap : s.cfg.outCap < 2 ^ 64) (h : reFlush n s = .ok () t) :
    AppendsBytes (flushBytes n s.re.coder.low) s t ∧ OnlyOutputGrew s t ∧
    t.re.outLen.toNat = s.re.outLen.toNat + n := by
  induction n generalizing s with
  | zero => cases h; exact ⟨appendsBytes_nil _, onlyOutputGrew_refl _, rfl⟩
  | succ n ih =>
    obtain ⟨_, u, hu, hrest⟩ := bind_eq_ok.mp h
    have hroom := reFlushByte_eq_ok hu
    obtain ⟨_, rfl⟩ : _ ∧ _ = u := EStateM.Result.ok.inj ((reFlushByte_apply s hroom).symm.trans hu)
    obtain ⟨happ, hgrew, hlen⟩ := ih (by exact hcap) hrest
    refine ⟨.cons (by omega) rfl (fun i => ?_) happ, OnlyOutputGrew.trans ⟨rfl, rfl, rfl⟩ hgrew, hlen.trans ?_⟩
    · rw [withRe_outByte, State.outByte, outByteOf, State.putOut, Memory.read?_write]
      split <;> rfl
    · rw [withRe_re, BitVec.toNat_add, word_one_toNat]
      omega

/-- The six bytes of the flush are `low` (R174). -/
theorem windowAt_flush {bytes : Nat → Byte} {low : Window} {j : Nat}
    (h : ∀ i < 6, bytes (j + i) = (flushBytes seedBytes low).getD i 0) : windowAt bytes j = low.toNat := by
  have hlow := low.isLt
  have h0 := h 0 (by omega)
  have h1 := h 1 (by omega)
  have h2 := h 2 (by omega)
  have h3 := h 3 (by omega)
  have h4 := h 4 (by omega)
  have h5 := h 5 (by omega)
  rw [windowAt, ← Nat.add_zero j, h0, h1, h2, h3, h4, h5]
  simp only [flushBytes, seedBytes, top8, headUnit, BitVec.toNat_ofNat, List.getD_cons_zero, List.getD_cons_succ]
  omega

/-! ### The finished output (R178, R196) -/

/-- The finished output of the triplets from `RE.INIT` on: the log holds them, and `OUT`, zero-padded, validates. -/
structure Finished (l : List Triplet) (t : State) : Prop where
  codes : TripletsCode l Coder.reset
  logged : LoggedFrom t.logEntry 0 l
  logLen_toNat : t.re.logLen.toNat = l.length
  readBack : TripletsReadBack (paddedOut t.outMem t.re.outLen.toNat) l Coder.reset 0

theorem finished_of_reFinish {l : List Triplet} {s₀ s f : State} (hcap : s.cfg.outCap < 2 ^ 64)
    (hcoder : s₀.re.coder = Coder.reset) (hout : s₀.re.outLen = 0) (hlog : s₀.re.logLen = 0)
    (h : CodedAll l s₀ s) (hf : reFinish s = .ok () f) : Finished l f := by
  obtain ⟨_, u, hu, hstate⟩ := bind_eq_ok.mp hf
  cases hstate
  obtain ⟨happ, ⟨hgrew, _, hlogLen⟩, hlen⟩ := reFlush_eq_ok hcap hu
  have hlogMem : u.logMem = s.logMem := by rw [hgrew]; rfl
  have hentry : u.logEntry = s.logEntry := by
    funext i
    rw [State.logEntry, State.logEntry, hlogMem]
  have hbyte : ∀ i < u.re.outLen.toNat, paddedOut u.outMem u.re.outLen.toNat i = u.outByte i := fun i hi => if_pos hi
  rw [hlen] at hbyte
  have hlow : windowAt (paddedOut u.outMem u.re.outLen.toNat) s.re.outLen.toNat = s.re.coder.low.toNat := by
    refine windowAt_flush fun i hi => ?_
    rw [hlen, hbyte _ (Nat.add_lt_add_left hi _), happ.2, flushBytes_length, if_pos (by rw [seedBytes]; omega),
      Nat.add_sub_cancel_left]
  have hread := (h.readBack (paddedOut u.outMem u.re.outLen.toNat) (fun i hi => ?_) ?_).1
  · have hlogged := h.logged
    have hlogLen' := h.logLen_toNat
    have hcodes := h.codes
    rw [hcoder] at hread hcodes
    rw [hout] at hread
    rw [hlog] at hlogged hlogLen'
    exact ⟨hcodes, (congrArg (LoggedFrom · 0 l) hentry).mpr hlogged,
      (congrArg BitVec.toNat hlogLen).trans (hlogLen'.trans (Nat.zero_add _)), hread⟩
  · rw [hlen, hbyte i (by omega), happ.2, if_neg (by omega)]
  · rw [hlow]
    exact ⟨le_refl _, Nat.lt_add_of_pos_right (by have := h.normal.1; omega)⟩

/-- `Minimize` keeps a finished output finished (42_byte_minimizer.md R196): what it keeps validates. -/
theorem Finished.minimize {l : List Triplet} {s : State} (h : Finished l s) :
    TripletsReadBack (paddedOut (minimize s).outMem (minimize s).re.outLen.toNat) l Coder.reset 0 := by
  have hlt := s.re.outLen.isLt
  have hstart := (check_iff h.codes h.logged hlt).mpr h.readBack
  have hend := minimizeLoop_validates h.codes h.logged _ _ hlt hstart
  have hle := minimizeLoop_length_le s.logEntry s.re.logLen.toNat s.re.outLen.toNat s.outMem
  rw [← h.logLen_toNat] at hend
  rw [Machine.minimize]
  generalize minimizeLoop s.logEntry s.re.logLen.toNat s.re.outLen.toNat s.outMem = r at hend hle
  rw [h.logLen_toNat, check_iff h.codes h.logged (by omega)] at hend
  have hlen : (BitVec.ofNat 64 r.1).toNat = r.1 := by rw [BitVec.toNat_ofNat, Nat.mod_eq_of_lt (by omega)]
  have hbytes : paddedOut (Memory.replaceFrom r.1 (Config.freeOutByte s.freeCount) r.2) r.1 = paddedOut r.2 r.1 := by
    funext i
    rw [paddedOut, paddedOut]
    split
    · rw [outByteOf, Memory.read?_replaceFrom, if_neg (by omega), outByteOf]
    · rfl
  show TripletsReadBack (paddedOut _ (BitVec.ofNat 64 r.1).toNat) l Coder.reset 0
  rw [hlen]
  exact hbytes ▸ hend

/-- `RE.INIT` opens the encoder with `(low, range)` at its start and both lengths at 0 (R175). -/
theorem runs_reInit {s s₀ : State} (h : Runs .reInit s s₀) :
    s₀.cfg = s.cfg ∧ s₀.re = { state := .opened, coder := Coder.reset, outLen := 0, logLen := 0 } := by
  obtain ⟨u, hu, rfl⟩ := h.body_ok (by decide)
  cases hu
  exact ⟨rfl, rfl⟩

/-- `RE.FINISH` is the flush, and `RE.OPTFIN` of an open encoder the flush and the search (R178, R195). -/
theorem readBack_of_finish {l : List Triplet} {i : Instr} {s t : State} (hi : i ∈ [Instr.reFinish, .reOptfin])
    (hopen : s.re.state = .opened) (hfinish : ∀ f, reFinish s = .ok () f → Finished l f) (h : Runs i s t) :
    TripletsReadBack (paddedOut t.outMem t.re.outLen.toNat) l Coder.reset 0 := by
  rcases List.mem_pair.mp hi with rfl | rfl
  · obtain ⟨u, hu, rfl⟩ := h.body_ok (by decide)
    have hbody : reFinishBody s = .ok () u := hu
    unfold reFinishBody at hbody
    rw [get_bind, require_bind_of_true _ _ _ hopen] at hbody
    obtain ⟨_, f, hf, hres⟩ := bind_eq_ok.mp hbody
    cases hres
    exact (hfinish f hf).readBack
  · obtain ⟨u, hu, rfl⟩ := h.body_ok (by decide)
    have hbody : reOptfinBody s = .ok () u := hu
    unfold reOptfinBody at hbody
    rw [get_bind, require_bind_of_true _ _ _ (.inl hopen), if_pos hopen] at hbody
    obtain ⟨_, f, hf, hres⟩ := bind_eq_ok.mp hbody
    cases hres
    obtain ⟨hcodes, hlogged, hlen, hread⟩ := hfinish f hf
    have hfin : Finished l (f.withRes1 f.re.outLen) := ⟨hcodes, hlogged, hlen, hread⟩
    exact hfin.minimize

/-- What the encoder's part of a round trip leaves: triplets that code, read back from the output. -/
theorem readBack_of_encodes {l : List Triplet} {i : Instr} {s s₀ s₁ t : State}
    (hi : i ∈ [Instr.reFinish, .reOptfin]) (hb : s.cfg.Bounds) (hinit : Runs .reInit s s₀)
    (hencode : EncodesTriplets l s₀ s₁) (hfinish : Runs i s₁ t) :
    TripletsCode l Coder.reset ∧ TripletsReadBack (paddedOut t.outMem t.re.outLen.toNat) l Coder.reset 0 := by
  obtain ⟨hcfg, hre⟩ := runs_reInit hinit
  have hcoder : s₀.re.coder = Coder.reset := by rw [hre]
  have hcap : s.cfg.outCap < 2 ^ 64 := by obtain ⟨_, _, _, _, hcap, _⟩ := hb; exact hcap
  have hall := codedAll_of_encodes (by rw [hcfg]; exact hb) (by rw [hcoder]; exact Coder.reset_normal) hencode
  have hcodes := hall.codes
  rw [hcoder] at hcodes
  refine ⟨hcodes, readBack_of_finish hi (hall.state_eq.trans (by rw [hre])) (fun f hf => ?_) hfinish⟩
  exact finished_of_reFinish (by rw [hall.cfg_eq, hcfg]; exact hcap) hcoder (by rw [hre]) (by rw [hre]) hall hf

end Sys2Proof.Machine
end

section
/-! PROOFS. The decoder reads back what the encoder coded (40_range_decoder.md R156, 42_byte_minimizer.md R196). -/

namespace Sys2Proof.Machine

/-! ### The decoder along a byte stream -/

theorem KeepsAllBut.inByte {l : List Part} {s t : State} (h : KeepsAllBut l s t) (hl : .mem .inp ∉ l) :
    t.inByte = s.inByte := by
  funext i
  exact BusData.byte.inj (h (.mem .inp) hl i)

/-- After `k` bytes the decoder goes on with the bytes behind them. -/
theorem TookBytes.streamByte {k : Nat} {s t : State} (h : TookBytes k s t) (hin : t.inByte = s.inByte) (i : Nat) :
    t.streamByte i = s.streamByte (k + i) := by
  obtain ⟨hpos, _, hlen, _⟩ := h
  have hlt := s.rd.len.isLt
  have hposN : t.rd.pos.toNat = s.rd.pos.toNat + min k (s.rd.len.toNat - s.rd.pos.toNat) := by
    have hpos' := s.rd.pos.isLt
    rw [hpos, State.inputAmong, BitVec.toNat_add, BitVec.toNat_ofNat]
    omega
  rw [State.streamByte, State.streamByte, hlen, hposN, hin]
  by_cases hi : s.rd.pos.toNat + (k + i) < s.rd.len.toNat
  · have hk : min k (s.rd.len.toNat - s.rd.pos.toNat) = k := Nat.min_eq_left (by omega)
    rw [hk, Nat.add_assoc]
  · rw [if_neg (by omega), if_neg hi]

/-- The decoder is between symbols outside the fault state, with `(low, range)` given and the bytes of a stream from index `j`
on in its window and behind it. -/
structure State.DecodesAt (bytes : Nat → Byte) (j : Nat) (c : Coder) (d : State) : Prop where
  fault : d.status.fault = false
  ready : d.rd.state = .ready
  coder : d.rd.coder = c
  code : d.rd.code.toNat = windowAt bytes j
  stream : ∀ i, d.streamByte i = bytes (j + seedBytes + i)

section Decode

variable {bytes : Nat → Byte} {x : Triplet} {c c' : Coder} {d : State} {j k : Nat}

/-- `RD.COUNT` of a legal total answers the count of the window, and leaves the window and the stream (R151). -/
theorem runs_rdCount_of_decodesAt (hd : d.DecodesAt bytes j c) (hc : c.Normal) (hx : x.Legal) :
    ∃ u, Runs .rdCount (d.withArgs (x.total.setWidth 64) 0 0) u ∧
      u.res0.toNat = (c.divide x.total.toNat).countOf (BitVec.ofNat 48 (windowAt bytes j)) ∧
      u.rd.count.toNat = u.res0.toNat ∧ u.rd.state = .peeked ∧ u.rd.coder = c.divide x.total.toNat ∧
      u.rd.total = x.total ∧ u.rd.code = d.rd.code ∧ u.streamByte = d.streamByte := by
  obtain ⟨hfault, hready, hcoder, hcode, _⟩ := hd
  have harg : (x.total.setWidth 64).toNat = x.total.toNat := total_toNat_setWidth x.total
  obtain ⟨u, hu, ⟨⟨_, _, hf⟩, _⟩, hstate, hlow, hrange, _, htotal, hcount, hres, hcode', hlen, hpos, _, hframe⟩ :=
    (rdCountResult (d.withArgs (x.total.setWidth 64) 0 0)).1 hready (hcoder ▸ hc) (harg ▸ hx.total_pos) (harg ▸ hx.total_le)
  simp only [State.withArgs, harg, hcoder] at hlow hrange htotal hcount
  refine ⟨u, ⟨hu, hf.trans hfault⟩, ?_, hres.symm, hstate, ?_, BitVec.eq_of_toNat_eq htotal, hcode', ?_⟩
  · rw [hres, hcount, countOf_eq, ← eq_ofNat_windowAt hcode, Coder.divide_low, Coder.divide_range_toNat]
  · rw [show u.rd.coder = ⟨u.rd.coder.low, u.rd.coder.range⟩ from rfl, hlow,
      BitVec.eq_of_toNat_eq (hrange.trans (Coder.divide_range_toNat c _).symm)]
    rfl
  · have hin : u.inByte = d.inByte := hframe.inByte (by decide)
    funext i
    rw [State.streamByte, State.streamByte, hpos, hlen, hin]
    rfl

/-- `RD.REMOVE` of the interval around the count moves the decoder to the next symbol (R152). -/
theorem runs_rdRemove_of_count {u : State} (hfault : u.status.fault = false) (hpeeked : u.rd.state = .peeked)
    (hcoder : u.rd.coder = c.divide x.total.toNat) (htotal : u.rd.total = x.total)
    (hcode : u.rd.code.toNat = windowAt bytes j) (hstream : ∀ i, u.streamByte i = bytes (j + seedBytes + i))
    (hx : x.Legal) (hcount : x.bottom.toNat ≤ u.rd.count.toNat ∧ u.rd.count.toNat < x.top.toNat)
    (hnorm : Coder.normalize normalizeRounds (c.narrowTo x) = some (c', k)) :
    ∃ v, Runs .rdRemove (u.withArgs (x.bottom.setWidth 64) (x.top.setWidth 64) 0) v ∧
      v.DecodesAt bytes (j + k) c' := by
  have hbottom : (x.bottom.setWidth 64).toNat = x.bottom.toNat := total_toNat_setWidth x.bottom
  have htop : (x.top.setWidth 64).toNat = x.top.toNat := total_toNat_setWidth x.top
  have hresult := (rdRemoveResult (u.withArgs (x.bottom.setWidth 64) (x.top.setWidth 64) 0)).1
  simp only [State.withArgs, hbottom, htop, hcoder, htotal] at hresult
  obtain ⟨v, hv, ⟨_, _, hf⟩, hready, hcoder', htook, _, _, hframe⟩ :=
    (hresult hpeeked hx.bottom_lt_top hx.top_le_total hcount.1 hcount.2).1 c' k hnorm
  refine ⟨v, ⟨hv, hf.trans hfault⟩, hf.trans hfault, hready, hcoder', ?_, fun i => ?_⟩
  · obtain ⟨_, _, _, hcode', _⟩ := htook
    refine hcode'.trans ?_
    rw [show u.rd.code.toNat = _ from hcode]
    exact absorb_windowAt k j hstream
  · refine (htook.streamByte (hframe.inByte (by decide)) i).trans ?_
    refine (hstream (k + i)).trans ?_
    rw [Nat.add_right_comm j k, Nat.add_assoc (j + seedBytes) k i]

/-- A decoder on a stream from which the triplets are read back answers every count inside its interval. -/
theorem decodesTriplets_of_readBack (l : List Triplet) (hcode : TripletsCode l c) (hread : TripletsReadBack bytes l c j)
    (hc : c.Normal) (hd : d.DecodesAt bytes j c) : DecodesTriplets l d := by
  induction l generalizing c d j with
  | nil => trivial
  | cons x rest ih =>
    obtain ⟨hx, c', k, hnorm, hrest⟩ := hcode
    obtain ⟨⟨hlo, hhi⟩, c'', k', hnorm', hread⟩ := hread
    rw [hnorm] at hnorm'
    cases hnorm'
    obtain ⟨u, hu, hres, hcount, hpeeked, hcoder, htotal, hcode, hstream⟩ := runs_rdCount_of_decodesAt hd hc hx
    rw [← hres] at hlo hhi
    obtain ⟨v, hv, hnext⟩ := runs_rdRemove_of_count hu.2 hpeeked hcoder htotal (hcode ▸ hd.code)
      (fun i => hstream ▸ hd.stream i) hx (hcount ▸ ⟨hlo, hhi⟩) hnorm
    exact ⟨u, v, hu, hlo, hhi, hv,
      ih hrest hread (Coder.normalize_normal (Coder.narrowTo_inv hc hx) hnorm) hnext⟩

/-- `RD.INIT` starts the decoder on its input, zero-padded (R150). -/
theorem runs_rdInit {len : Word} (hfault : d.status.fault = false) (hlen : len.toNat ≤ d.cfg.inCap) :
    ∃ d₀, Runs .rdInit (d.withArgs len 0 0) d₀ ∧
      d₀.DecodesAt (fun j => if j < len.toNat then d.inByte j else 0) 0 Coder.reset := by
  obtain ⟨t, ht, ⟨_, _, hf⟩, hready, hlow, hrange, hlen', hpos, _, _, hcode, _, _, _, hframe⟩ :=
    (rdInitResult (d.withArgs len 0 0)).1 hlen
  refine ⟨t, ⟨ht, hf.trans hfault⟩, hf.trans hfault, hready, ?_, ?_, fun i => ?_⟩
  · rw [show t.rd.coder = ⟨t.rd.coder.low, t.rd.coder.range⟩ from rfl,
      BitVec.eq_of_toNat_eq (hlow.trans (by decide : 0 = (0 : Window).toNat)),
      BitVec.eq_of_toNat_eq (hrange.trans (by decide : _ = rangeInit.toNat))]
    rfl
  · refine hcode.trans ?_
    simp only [windowAt, apply_ite BitVec.toNat]
    rfl
  · have hin : t.inByte = d.inByte := hframe.inByte (by decide)
    have hpos' : t.rd.pos.toNat = min len.toNat 6 := hpos
    have hlenN : t.rd.len.toNat = len.toNat := congrArg BitVec.toNat hlen'
    rw [State.streamByte, hin, hpos', hlenN, seedBytes, Nat.zero_add]
    by_cases hi : 6 + i < len.toNat
    · rw [Nat.min_eq_right (by omega)]
    · rw [if_neg (by omega), if_neg hi]

end Decode

/-- Settles O32: the encoder's output reads back (`readBack_of_encodes`), and a decoder on an input that agrees with it
follows (`decodesTriplets_of_readBack`). -/
theorem tripletsRoundTrip : Obligations.TripletsRoundTrip := by
  intro i triplets s s₀ s₁ t d hi hb hinit hencode hfinish hfault hcap hin
  obtain ⟨hcodes, hread⟩ := readBack_of_encodes hi hb hinit hencode hfinish
  obtain ⟨d₀, hrun, hd₀⟩ := runs_rdInit hfault hcap
  have hbytes : (fun j => if j < t.re.outLen.toNat then d.inByte j else 0) = paddedOut t.outMem t.re.outLen.toNat := by
    funext j
    rw [paddedOut]
    split
    · exact hin j ‹_›
    · rfl
  rw [hbytes] at hd₀
  exact ⟨d₀, hrun, decodesTriplets_of_readBack triplets hcodes hread Coder.reset_normal hd₀⟩

end Sys2Proof.Machine
end

section
/-! PROOFS. The range encoder's commands (41_range_encoder.md R175 to R181): coding one triplet and the flush, each command from its
checks to its end, and that the encoder only appends and moves as the decoder does. -/

namespace Sys2Proof.Machine

/-! ### How an encoder command ends -/

section Ends

variable {i : Instr} {body : Cmd Unit} {c : Cause} {l : List Part} {s t : State}

/-- A command that has written the listed parts and then faults (60_exceptions.md R340). -/
theorem runCommand_fault (hf : s.status.fault = false) (hk : KeepsAllBut l s t) (hl : .status ∉ l)
    (h : body s = .error c t) :
    runCommand i body s = .next (raiseFault c ((opcode i).setWidth 64) t) ∧
    FaultedWith c.code c.sub (opcode i) (raiseFault c ((opcode i).setWidth 64) t) ∧
    KeepsAllBut (l ++ faultParts) s (raiseFault c ((opcode i).setWidth 64) t) := by
  have hstatus : t.status = s.status := hk .status hl
  exact ⟨runCommand_of_error h, faultedWith_raiseFault (by rw [hstatus]; exact hf) c _,
    (hk.mono (List.subset_append_left _ _)).trans ((keepsAllBut_raiseFault _ _ _).mono (List.subset_append_right _ _))⟩

/-- A command that has written the listed parts ends by setting `RES0` to `OUT_LEN`. -/
theorem endCommand_setRes0OutLen (hk : KeepsAllBut l s t) (hl : .status ∉ l) :
    CompletedKeepingPad s (endCommand (t.withRes0 t.re.outLen)) ∧
    KeepsAllBut (.status :: .res0 :: l) s (endCommand (t.withRes0 t.re.outLen)) := by
  have hstatus : t.status = s.status := hk .status hl
  refine ⟨⟨⟨rfl, rfl, (congrArg Status.fault hstatus :)⟩, (congrArg Status.pad hstatus :)⟩, ?_⟩
  exact ((hk.mono (by simp +contextual)).trans (WritesOnly.withRes0 (by simp) t _).1).trans
    ((keepsAllBut_endCommand _).mono (by simp))

@[simp] theorem raiseFault_re (c : Cause) (cmd : Word) (s : State) : (raiseFault c cmd s).re = s.re := by
  rw [raiseFault_eq]

theorem AppendsBytes.raiseFault {bytes : List Byte} (h : AppendsBytes bytes s t) (c : Cause) (cmd : Word) :
    AppendsBytes bytes s (raiseFault c cmd t) := by
  rw [raiseFault_eq]
  exact h

theorem LogsTriplet.raiseFault {bottom top total : Nat} (h : LogsTriplet bottom top total s t) (c : Cause) (cmd : Word) :
    LogsTriplet bottom top total s (raiseFault c cmd t) := by
  rw [raiseFault_eq]
  exact h

end Ends

/-! ### Opening (R175) -/

/-- Settles O25: the run is one assignment. -/
theorem reInitResult : Obligations.ReInitResult := by
  intro s
  refine ⟨_, runCommand_of_ok (i := .reInit) rfl, ⟨⟨rfl, rfl, rfl⟩, rfl⟩, rfl, rfl, rfl, rfl, rfl, ?_⟩
  exact ((WritesOnly.withRe (by decide) s _).1).trans ((keepsAllBut_endCommand _).mono (by decide))

/-! ### Coding one triplet (R172, R173) -/

/-- `ReLog` and then `RePut` of a triplet, the common part of `RE.PUT` and `RE.NUM`. -/
def codeTriplet (bottom top total : Nat) : Cmd Unit := reLog bottom top total >>= fun _ => rePut bottom top total

/-- The triplet is in `LOG` and `(low, range)` is narrowed, before the renormalization. -/
def State.logAndNarrow (s : State) (bottom top total : Nat) : State :=
  (s.putLog s.re.logLen.toNat ⟨BitVec.ofNat 33 bottom, BitVec.ofNat 33 top, BitVec.ofNat 33 total⟩).withRe
    { s.re with logLen := s.re.logLen + 1, coder := s.putCoder bottom top total }

section CodeTriplet

variable {bottom top total : Nat} {s t : State}

theorem codeTriplet_apply (bottom top total : Nat) (s : State) :
    codeTriplet bottom top total s =
      if s.re.logLen.toNat < s.cfg.logCap then reNormalize normalizeRounds (s.logAndNarrow bottom top total)
      else .error .capacityLog s := by
  unfold codeTriplet
  split
  · rw [bind_of_ok (if_pos ‹_›)]
    rfl
  · exact bind_of_error (if_neg ‹_›)

theorem codeTriplet_writes (bottom top total : Nat) :
    Cmd.Writes [.re, .mem .out, .mem .log] (codeTriplet bottom top total) :=
  ((reLog_writes _ _ _).mono (by decide)).bind fun _ => (rePut_writes _ _ _).mono (by decide)

/-- The renormalization leaves the entry just logged. -/
theorem OnlyOutputGrew.logsTriplet (h : OnlyOutputGrew (s.logAndNarrow bottom top total) t) :
    LogsTriplet bottom top total s t := by
  obtain ⟨hgrew, _, hlogLen⟩ := h
  refine ⟨hlogLen, fun i => ?_⟩
  have hmem : t.logMem = (s.logAndNarrow bottom top total).logMem := by rw [hgrew]; rfl
  rw [State.logEntry, hmem, State.logAndNarrow, withRe_logMem, State.putLog, Memory.read?_write]
  split <;> rfl

/-- Everything that coding a triplet can do: `LOG` is full and nothing is written, or the triplet is logged, the bytes are
appended as far as they fit, and then `(low, range)` is renormalized, collapses, or `OUT` is full (R171 to R173). -/
theorem codeTriplet_cases (bottom top total : Nat) (s : State) (hcap : s.cfg.outCap < 2 ^ 64)
    {bytes : List Byte} (hbytes : bytes = Coder.emitted normalizeRounds (s.putCoder bottom top total))
    {r : Option (Coder × Nat)} (hr : r = Coder.normalize normalizeRounds (s.putCoder bottom top total)) :
    (s.cfg.logCap ≤ s.re.logLen.toNat ∧ codeTriplet bottom top total s = .error .capacityLog s) ∨
    (s.re.logLen.toNat < s.cfg.logCap ∧ ∃ t, LogsTriplet bottom top total s t ∧
      ((r.isSome = true ∧ s.re.outLen.toNat + bytes.length ≤ max s.re.outLen.toNat s.cfg.outCap ∧
          codeTriplet bottom top total s = .ok () t ∧ CodesTriplet bottom top total s t) ∨
       (r = none ∧ s.re.outLen.toNat + bytes.length ≤ max s.re.outLen.toNat s.cfg.outCap ∧
          codeTriplet bottom top total s = .error .collapseEncoder t ∧ AppendsBytes bytes s t) ∨
       (max s.re.outLen.toNat s.cfg.outCap < s.re.outLen.toNat + bytes.length ∧
          codeTriplet bottom top total s = .error .capacityOut t ∧
          AppendsBytes (bytes.take (s.cfg.outCap - s.re.outLen.toNat)) s t))) := by
  subst hbytes hr
  rw [codeTriplet_apply]
  by_cases hlog : s.re.logLen.toNat < s.cfg.logCap
  · rw [if_pos hlog]
    refine .inr ⟨hlog, ?_⟩
    rcases reNormalize_spec normalizeRounds (s.logAndNarrow bottom top total) hcap with
      ⟨c, k, t, hnorm, hroom, ht, hc, happ, hgrew⟩ | ⟨t, hnorm, hroom, ht, happ, hgrew⟩ | ⟨t, hfull, ht, happ, hgrew⟩
    · have hlogs := hgrew.logsTriplet
      obtain ⟨_, hstate, _⟩ := hgrew
      exact ⟨t, hlogs, .inl ⟨Option.isSome_of_eq_some hnorm, hroom, ht, ⟨c, k, hnorm, hc⟩, hstate, hlogs, happ⟩⟩
    · exact ⟨t, hgrew.logsTriplet, .inr (.inl ⟨hnorm, hroom, ht, happ⟩)⟩
    · exact ⟨t, hgrew.logsTriplet, .inr (.inr ⟨hfull, ht, happ⟩)⟩
  · exact .inl ⟨Nat.not_lt.mp hlog, if_neg hlog⟩

/-- With room in `LOG` and `OUT` and no collapse, coding a triplet ends without fault. -/
theorem codeTriplet_of_canCode (hcap : s.cfg.outCap < 2 ^ 64) (h : s.canCode bottom top total) :
    ∃ t, codeTriplet bottom top total s = .ok () t ∧ CodesTriplet bottom top total s t := by
  obtain ⟨hlog, hroom, hsome⟩ := h
  rcases codeTriplet_cases bottom top total s hcap rfl rfl with
    ⟨hfull, _⟩ | ⟨_, t, _, ⟨_, _, ht, hcodes⟩ | ⟨hnone, _⟩ | ⟨hfull, _⟩⟩
  · omega
  · exact ⟨t, ht, hcodes⟩
  · rw [hnone] at hsome
    cases hsome
  · omega

/-- A command that codes a triplet and then sets `RES0` to `OUT_LEN`. -/
theorem runCommand_codeTriplet {i : Instr} {body : Cmd Unit} (hb : s.cfg.Bounds) (h : s.canCode bottom top total)
    (hbody : body s = (codeTriplet bottom top total >>= fun _ => setRes0OutLen) s) :
    ∃ t, runCommand i body s = .next t ∧ CompletedKeepingPad s t ∧ CodesTriplet bottom top total s t ∧
      t.res0 = t.re.outLen ∧ KeepsAllBut [.status, .res0, .re, .mem .out, .mem .log] s t := by
  obtain ⟨_, _, _, _, hcap, _⟩ := hb
  obtain ⟨t, ht, hcodes⟩ := codeTriplet_of_canCode hcap h
  rw [bind_of_ok ht] at hbody
  obtain ⟨hdone, hframe⟩ := endCommand_setRes0OutLen ((codeTriplet_writes _ _ _).ok ht).1 (by decide)
  exact ⟨_, runCommand_of_ok hbody, hdone, hcodes, rfl, hframe⟩

end CodeTriplet

/-! ### `RE.PUT` (R176) -/

section Put

variable {s : State}

/-- `RE.PUT` past its checks. -/
theorem rePutBody_checked (hopen : s.re.state = .opened) (htotal : 1 ≤ s.operand2 ∧ s.operand2 ≤ totalMax)
    (hinterval : s.operand0 < s.operand1 ∧ s.operand1 ≤ s.operand2) :
    rePutBody s = (codeTriplet s.operand0 s.operand1 s.operand2 >>= fun _ => setRes0OutLen) s := by
  unfold rePutBody codeTriplet
  rw [get_bind, require_bind_of_true _ _ _ hopen, require_bind_of_true _ _ _ htotal,
    require_bind_of_true _ _ _ hinterval, bind_assoc]

theorem rePutBody_protocol (hopen : s.re.state ≠ .opened) : rePutBody s = .error .protocolEncoder s := by
  unfold rePutBody
  rw [get_bind, require_bind_of_false _ _ _ hopen]

theorem rePutBody_total (hopen : s.re.state = .opened) (htotal : ¬ (1 ≤ s.operand2 ∧ s.operand2 ≤ totalMax)) :
    rePutBody s = .error .argTotal s := by
  unfold rePutBody
  rw [get_bind, require_bind_of_true _ _ _ hopen, require_bind_of_false _ _ _ htotal]

theorem rePutBody_interval (hopen : s.re.state = .opened) (htotal : 1 ≤ s.operand2 ∧ s.operand2 ≤ totalMax)
    (hinterval : ¬ (s.operand0 < s.operand1 ∧ s.operand1 ≤ s.operand2)) : rePutBody s = .error .argInterval s := by
  unfold rePutBody
  rw [get_bind, require_bind_of_true _ _ _ hopen, require_bind_of_true _ _ _ htotal,
    require_bind_of_false _ _ _ hinterval]

end Put

/-- Settles O26: past the checks `RE.PUT` codes its triplet (`runCommand_codeTriplet`); each check raises before any effect. -/
theorem rePutResult : Obligations.RePutResult := by
  intro s
  refine ⟨fun hb hopen h1 h2 hlt hle hcan => ?_, fun hf hopen => ?_, fun hf hopen htotal => ?_,
    fun hf hopen h1 h2 hinterval => ?_⟩
  · exact runCommand_codeTriplet (i := .rePut) hb hcan (rePutBody_checked hopen ⟨h1, h2⟩ ⟨hlt, hle⟩)
  · exact trapsCleanly_of_error (i := .rePut) hf (rePutBody_protocol hopen)
  · exact trapsCleanly_of_error (i := .rePut) hf (rePutBody_total hopen fun ⟨h1, h2⟩ =>
      htotal.elim (Nat.ne_of_gt h1) (Nat.not_lt.mpr h2))
  · exact trapsCleanly_of_error (i := .rePut) hf (rePutBody_interval hopen ⟨h1, h2⟩ hinterval)

/-- Settles O29: past the checks a fault of `RE.PUT` is one that coding its triplet meets (`codeTriplet_cases`). -/
theorem encoderRunFaults : Obligations.EncoderRunFaults := by
  intro s ⟨_, _, _, _, hcap, _⟩ hf hopen h1 h2 hlt hle hout
  have hbody := rePutBody_checked hopen ⟨h1, h2⟩ ⟨hlt, hle⟩
  simp only [State.operand0, State.operand1, State.operand2] at hbody
  have hmax : max s.re.outLen.toNat s.cfg.outCap = s.cfg.outCap := Nat.max_eq_right hout
  have hcases := codeTriplet_cases s.arg0.toNat s.arg1.toNat s.arg2.toNat s hcap rfl rfl
  rw [hmax] at hcases
  have hfault {c : Cause} {t : State} (ht : codeTriplet s.arg0.toNat s.arg1.toNat s.arg2.toNat s = .error c t) :=
    runCommand_fault (i := .rePut) hf ((codeTriplet_writes _ _ _).error ht).1 (by decide)
      (hbody.trans (bind_of_error ht))
  rcases hcases with ⟨hfull, ht⟩ | ⟨hlog, t, hlogs, ⟨hsome, hroom, _⟩ | ⟨hnone, hroom, ht, happ⟩ | ⟨hover, ht, happ⟩⟩
  · exact ⟨fun _ => trapsCleanly_of_error (i := .rePut) hf (hbody.trans (bind_of_error ht)), fun hlog => by omega⟩
  · refine ⟨fun hfull => by omega, fun _ => ⟨fun hover => by omega, fun _ hnone => ?_⟩⟩
    rw [hnone] at hsome
    cases hsome
  · obtain ⟨he, hfaulted, hframe⟩ := hfault ht
    exact ⟨fun hfull => by omega, fun _ => ⟨fun hover => by omega, fun _ _ =>
      ⟨_, he, hfaulted, hlogs.raiseFault _ _, happ.raiseFault _ _, hframe⟩⟩⟩
  · obtain ⟨he, hfaulted, hframe⟩ := hfault ht
    exact ⟨fun hfull => by omega, fun _ => ⟨fun _ =>
      ⟨_, he, hfaulted, hlogs.raiseFault _ _, happ.raiseFault _ _, hframe⟩, fun hroom => by omega⟩⟩

/-! ### `RE.NUM` (R177) -/

section Num

variable {s : State}

/-- The value operand of `RE.NUM` is in range: 0 below two outcomes, else one of the outcomes. -/
abbrev State.numValueOk (s : State) : Prop := if s.operand0 < 2 then s.operand1 = 0 else s.operand1 < s.operand0

theorem reNumBody_small (hopen : s.re.state = .opened) (hmax : s.operand0 < 2) (hvalue : s.operand1 = 0) :
    reNumBody s = .ok () (s.withRes0 s.re.outLen) := by
  have htotal : s.operand0 ≤ totalMax := by rw [totalMax]; omega
  unfold reNumBody
  rw [get_bind, require_bind_of_true _ _ _ hopen, require_bind_of_true _ _ _ htotal,
    require_bind_of_true _ _ _ (by rw [if_pos hmax]; exact hvalue), if_pos hmax]
  rfl

/-- `RE.NUM` of two outcomes or more past its checks. -/
theorem reNumBody_checked (hopen : s.re.state = .opened) (hmax : 2 ≤ s.operand0) (htotal : s.operand0 ≤ totalMax)
    (hvalue : s.operand1 < s.operand0) :
    reNumBody s = (codeTriplet s.operand1 (s.operand1 + 1) s.operand0 >>= fun _ => setRes0OutLen) s := by
  have hmax' : ¬ s.operand0 < 2 := Nat.not_lt.mpr hmax
  unfold reNumBody codeTriplet
  rw [get_bind, require_bind_of_true _ _ _ hopen, require_bind_of_true _ _ _ htotal,
    require_bind_of_true _ _ _ (by rw [if_neg hmax']; exact hvalue), if_neg hmax', bind_assoc]

theorem reNumBody_protocol (hopen : s.re.state ≠ .opened) : reNumBody s = .error .protocolEncoder s := by
  unfold reNumBody
  rw [get_bind, require_bind_of_false _ _ _ hopen]

theorem reNumBody_total (hopen : s.re.state = .opened) (htotal : ¬ s.operand0 ≤ totalMax) :
    reNumBody s = .error .argTotal s := by
  unfold reNumBody
  rw [get_bind, require_bind_of_true _ _ _ hopen, require_bind_of_false _ _ _ htotal]

theorem reNumBody_value (hopen : s.re.state = .opened) (htotal : s.operand0 ≤ totalMax) (hvalue : ¬ s.numValueOk) :
    reNumBody s = .error .argValue s := by
  unfold reNumBody
  rw [get_bind, require_bind_of_true _ _ _ hopen, require_bind_of_true _ _ _ htotal,
    require_bind_of_false _ _ _ hvalue]

end Num

/-- Settles O27: below two outcomes only `RES0` is set, from two on `RE.NUM` codes its triplet (`runCommand_codeTriplet`); each
check raises before any effect. -/
theorem reNumResult : Obligations.ReNumResult := by
  intro s
  refine ⟨fun hopen hmax hvalue => ?_, fun hb hopen hmax htotal hvalue hcan => ?_, fun hf hopen => ?_,
    fun hf hopen htotal => ?_, fun hf hopen htotal hvalue => ?_⟩
  · have hbody := reNumBody_small hopen hmax (congrArg BitVec.toNat hvalue)
    obtain ⟨hdone, hframe⟩ := endCommand_setRes0OutLen (.refl [] s) (by decide)
    exact ⟨_, runCommand_of_ok (i := .reNum) hbody, hdone, rfl, hframe⟩
  · exact runCommand_codeTriplet (i := .reNum) hb hcan (reNumBody_checked hopen hmax htotal hvalue)
  · exact trapsCleanly_of_error (i := .reNum) hf (reNumBody_protocol hopen)
  · exact trapsCleanly_of_error (i := .reNum) hf (reNumBody_total hopen (Nat.not_le.mpr htotal))
  · refine trapsCleanly_of_error (i := .reNum) hf (reNumBody_value hopen htotal ?_)
    rcases hvalue with ⟨hmax, hvalue⟩ | ⟨hmax, hvalue⟩
    · exact fun h => hvalue (BitVec.eq_of_toNat_eq ((if_pos hmax).mp h))
    · exact fun h => Nat.not_lt.mpr hvalue ((if_neg (Nat.not_lt.mpr hmax)).mp h)

/-! ### `RE.FINISH` (R174, R178) -/

section Flush

variable {s t : State} {n : Nat}

/-- A round of the flush shifts `low` by one byte. -/
theorem flush_low_eq_shiftLeft (low : Window) : BitVec.ofNat 48 (low.toNat % headUnit * 256) = low <<< 8 := by
  refine BitVec.eq_of_toNat_eq ?_
  rw [BitVec.toNat_ofNat, BitVec.toNat_shiftLeft, Nat.shiftLeft_eq, headUnit]
  omega

/-- The flush with room for its bytes ends, with `low` shifted out and `range` as it was. -/
theorem reFlush_of_room (hcap : s.cfg.outCap < 2 ^ 64) (hroom : s.re.outLen.toNat + n ≤ s.cfg.outCap) :
    ∃ t, reFlush n s = .ok () t ∧ t.re.coder = { s.re.coder with low := s.re.coder.low <<< (8 * n) } := by
  induction n generalizing s with
  | zero => exact ⟨s, rfl, by simp⟩
  | succ n ih =>
    have hbyte := reFlushByte_apply s (by omega)
    rw [flush_low_eq_shiftLeft] at hbyte
    unfold reFlush
    rw [bind_of_ok hbyte]
    generalize hu : State.withRe _ _ = u
    have hre : u.re = { s.re with
        outLen := s.re.outLen + 1, coder := { s.re.coder with low := s.re.coder.low <<< 8 } } := by rw [← hu]; rfl
    have hcfg : u.cfg = s.cfg := by rw [← hu]; rfl
    have hlen : u.re.outLen.toNat = s.re.outLen.toNat + 1 := by
      rw [hre, BitVec.toNat_add, word_one_toNat]
      omega
    obtain ⟨t, ht, hcoder⟩ := ih (s := u) (by rw [hcfg]; exact hcap) (by rw [hcfg, hlen]; omega)
    refine ⟨t, ht, hcoder.trans ?_⟩
    rw [hre, ← BitVec.shiftLeft_add, Nat.mul_succ, Nat.add_comm 8]

/-- The flush without room for all its bytes fills `OUT` and faults. -/
theorem reFlush_full (hcap : s.cfg.outCap < 2 ^ 64) (hle : s.re.outLen.toNat ≤ s.cfg.outCap)
    (hfull : s.cfg.outCap < s.re.outLen.toNat + n) :
    ∃ t, reFlush n s = .error .capacityOut t ∧ t.re.outLen.toNat = s.cfg.outCap ∧ t.re.state = s.re.state := by
  induction n generalizing s with
  | zero => omega
  | succ n ih =>
    unfold reFlush
    by_cases hroom : s.re.outLen.toNat < s.cfg.outCap
    · rw [bind_of_ok (reFlushByte_apply s hroom)]
      generalize hu : State.withRe _ _ = u
      have hcfg : u.cfg = s.cfg := by rw [← hu]; rfl
      have hstate : u.re.state = s.re.state := by rw [← hu]; rfl
      have hlen : u.re.outLen.toNat = s.re.outLen.toNat + 1 := by
        rw [← hu, withRe_re, BitVec.toNat_add, word_one_toNat]
        omega
      obtain ⟨t, ht, hout, hst⟩ := ih (s := u) (by rw [hcfg]; exact hcap) (by rw [hcfg, hlen]; omega)
        (by rw [hcfg, hlen]; omega)
      exact ⟨t, ht, hout.trans (by rw [hcfg]), hst.trans hstate⟩
    · have hbyte : reFlushByte s = .error .capacityOut s := by
        unfold reFlushByte
        rw [get_bind, bind_of_error ((reEmit_apply _ s).trans (if_neg hroom))]
      exact ⟨s, bind_of_error hbyte, by omega, rfl⟩

/-- The six bytes of the flush, by the power of two at which each stands in `low`. -/
theorem flushBytes_six (low : Window) :
    flushBytes 6 low = [40, 32, 24, 16, 8, 0].map (fun k => BitVec.ofNat 8 (low.toNat / 2 ^ k)) := by
  have hlow := low.isLt
  simp only [flushBytes, List.map_cons, List.map_nil, List.cons.injEq, and_true, true_and, ← BitVec.toNat_inj, top8,
    headUnit, BitVec.toNat_ofNat]
  omega

/-- `RE.FINISH` past its check. -/
theorem reFinishBody_checked (hopen : s.re.state = .opened) :
    reFinishBody s = (reFinish >>= fun _ => setRes0OutLen) s := by
  unfold reFinishBody
  rw [get_bind, require_bind_of_true _ _ _ hopen]

theorem reFinishBody_protocol (hopen : s.re.state ≠ .opened) : reFinishBody s = .error .protocolEncoder s := by
  unfold reFinishBody
  rw [get_bind, require_bind_of_false _ _ _ hopen]

end Flush

/-- Settles O28: the flush by `reFlush_of_room`, `reFlush_eq_ok` and `reFlush_full`. -/
theorem reFinishResult : Obligations.ReFinishResult := by
  intro s
  refine ⟨fun ⟨_, _, _, _, hcap, _⟩ hopen hroom => ?_, fun hf hopen => ?_,
    fun ⟨_, _, _, _, hcap, _⟩ hf hopen hle hfull => ?_⟩
  · obtain ⟨t, ht, hcoder⟩ := reFlush_of_room hcap hroom
    obtain ⟨happ, ⟨_, _, hlogLen⟩, _⟩ := reFlush_eq_ok hcap ht
    rw [flushBytes_six] at happ
    have hfinish : reFinish s = .ok () (t.withRe { t.re with state := .finished }) := bind_of_ok ht
    have hbody := (reFinishBody_checked hopen).trans (bind_of_ok hfinish)
    obtain ⟨hdone, hframe⟩ := endCommand_setRes0OutLen (reFinish_writes.ok hfinish).1 (by decide)
    have hlow : t.re.coder.low = 0 := by rw [hcoder, BitVec.shiftLeft_eq_zero (le_refl _)]; rfl
    have hrange : t.re.coder.range = s.re.coder.range := by rw [hcoder]
    exact ⟨_, runCommand_of_ok (i := .reFinish) hbody, hdone, rfl, hlow, hrange, hlogLen, happ, rfl, hframe⟩
  · exact trapsCleanly_of_error (i := .reFinish) hf (reFinishBody_protocol hopen)
  · obtain ⟨t, ht, hlen, hstate⟩ := reFlush_full hcap hle hfull
    have hfinish : reFinish s = .error .capacityOut t := bind_of_error ht
    obtain ⟨he, hfaulted, hframe⟩ := runCommand_fault (i := .reFinish) hf (reFinish_writes.error hfinish).1 (by decide)
      ((reFinishBody_checked hopen).trans (bind_of_error hfinish))
    refine ⟨_, he, hfaulted, ?_, ?_, hframe⟩
    · rw [raiseFault_re, hlen]
    · rw [raiseFault_re, hstate, hopen]

/-! ### The encoder only appends (R180) -/

/-- Neither `OUT` below `OUT_LEN` nor `LOG` below `LOG_LEN` changes between `s` and `t`, and neither length goes down. -/
structure OnlyAppends (s t : State) : Prop where
  cfg_eq : t.cfg = s.cfg
  out_kept : ∀ j < s.re.outLen.toNat, t.outByte j = s.outByte j
  outLen_le : s.re.outLen.toNat ≤ t.re.outLen.toNat
  log_kept : ∀ j < s.re.logLen.toNat, t.logEntry j = s.logEntry j
  logLen_le : s.re.logLen.toNat ≤ t.re.logLen.toNat

theorem OnlyAppends.refl (s : State) : OnlyAppends s s := ⟨rfl, fun _ _ => rfl, le_refl _, fun _ _ => rfl, le_refl _⟩

theorem OnlyAppends.trans {s t u : State} (h₁ : OnlyAppends s t) (h₂ : OnlyAppends t u) : OnlyAppends s u where
  cfg_eq := h₂.cfg_eq.trans h₁.cfg_eq
  out_kept j hj := (h₂.out_kept j (hj.trans_le h₁.outLen_le)).trans (h₁.out_kept j hj)
  outLen_le := h₁.outLen_le.trans h₂.outLen_le
  log_kept j hj := (h₂.log_kept j (hj.trans_le h₁.logLen_le)).trans (h₁.log_kept j hj)
  logLen_le := h₁.logLen_le.trans h₂.logLen_le

/-- Assignments to the encoder's registers that leave both lengths. -/
theorem OnlyAppends.withRe {s : State} {r : ReRegs} (hout : r.outLen = s.re.outLen) (hlog : r.logLen = s.re.logLen) :
    OnlyAppends s (s.withRe r) :=
  ⟨rfl, fun _ _ => rfl, (congrArg BitVec.toNat hout).ge, fun _ _ => rfl, (congrArg BitVec.toNat hlog).ge⟩

theorem OnlyAppends.raiseFault {s t : State} (h : OnlyAppends s t) (c : Cause) (cmd : Word) :
    OnlyAppends s (raiseFault c cmd t) := by
  rw [raiseFault_eq]
  exact ⟨h.cfg_eq, h.out_kept, h.outLen_le, h.log_kept, h.logLen_le⟩

theorem OnlyAppends.endCommand {s t : State} (h : OnlyAppends s t) : OnlyAppends s (endCommand t) :=
  ⟨h.cfg_eq, h.out_kept, h.outLen_le, h.log_kept, h.logLen_le⟩

/-- From every state after `s₀` that only appended, the run ends or faults having only appended. -/
def Cmd.Appends {α : Type} (s₀ : State) (x : Cmd α) : Prop :=
  Cmd.Triple (OnlyAppends s₀) x (fun _ => OnlyAppends s₀) (fun _ => OnlyAppends s₀)

section Appends

variable {α β : Type} {s₀ : State}

theorem Cmd.Appends.bind {x : Cmd α} {f : α → Cmd β} (hx : Cmd.Appends s₀ x) (hf : ∀ a, Cmd.Appends s₀ (f a)) :
    Cmd.Appends s₀ (x >>= f) := Cmd.Triple.bind hx hf

theorem Cmd.Appends.get {f : State → Cmd β} (hf : ∀ u, Cmd.Appends s₀ (f u)) : Cmd.Appends s₀ (MonadState.get >>= f) :=
  Cmd.Triple.get_of fun u _ => hf u

theorem Cmd.Appends.require_bind {p : Prop} [Decidable p] {c : Cause} {f : Unit → Cmd β}
    (hf : Cmd.Appends s₀ (f ())) : Cmd.Appends s₀ (Machine.require p c >>= f) :=
  Cmd.Triple.require_bind (fun _ h => h) fun _ => hf

theorem Cmd.Appends.update {g : State → State} (h : ∀ s, OnlyAppends s (g s)) : Cmd.Appends s₀ (Machine.update g) :=
  Cmd.Triple.update fun s hs => hs.trans (h s)

theorem setRes0OutLen_appends : Cmd.Appends s₀ setRes0OutLen :=
  .update fun _ => ⟨rfl, fun _ _ => rfl, le_refl _, fun _ _ => rfl, le_refl _⟩

theorem setCoder_appends (f : State → Coder) :
    Cmd.Appends s₀ (Machine.update fun s => s.withRe { s.re with coder := f s }) :=
  .update fun _ => .withRe rfl rfl

theorem reEmit_appends (hcap : s₀.cfg.outCap < 2 ^ 64) (v : Byte) : Cmd.Appends s₀ (reEmit v) := by
  intro s hs
  rw [reEmit_apply]
  by_cases h : s.re.outLen.toNat < s.cfg.outCap
  · rw [if_pos h]
    rw [← hs.cfg_eq] at hcap
    refine hs.trans ⟨rfl, fun j hj => ?_, ?_, fun _ _ => rfl, le_refl _⟩
    · rw [withRe_outByte, State.outByte, outByteOf, State.putOut, Memory.read?_write_other _ _ (Nat.ne_of_lt hj)]
      rfl
    · rw [withRe_re, BitVec.toNat_add, word_one_toNat]
      omega
  · rw [if_neg h]
    exact hs

theorem reNormalize_appends (hcap : s₀.cfg.outCap < 2 ^ 64) (n : Nat) : Cmd.Appends s₀ (reNormalize n) := by
  induction n with
  | zero => exact Cmd.Triple.pure fun _ h => h
  | succ n ih =>
    intro s hs
    cases hts : s.re.coder.toShift with
    | none => rw [reNormalize, hts]; exact hs
    | some c =>
      have hcoder : OnlyAppends s₀ (s.withRe { s.re with coder := c }) := hs.trans (.withRe rfl rfl)
      cases hc : c.collapsed with
      | true => rw [reNormalize, hts]; simp only [hc, if_true]; exact hcoder
      | false =>
        rw [reNormalize_succ hts hc]
        exact (reEmit_appends hcap _).bind (fun _ => (setCoder_appends fun _ => c.shift).bind fun _ => ih) _ hcoder

theorem reLog_appends (hcap : s₀.cfg.logCap < 2 ^ 64) (bottom top total : Nat) :
    Cmd.Appends s₀ (reLog bottom top total) := by
  intro s hs
  rcases reLog_spec bottom top total s with ⟨hroom, t, he, ⟨hlen, hentry⟩, ht, hre⟩ | ⟨_, he⟩
  · rw [he]
    rw [← hs.cfg_eq] at hcap
    refine hs.trans ⟨by rw [ht]; rfl, fun j _ => by rw [ht]; rfl, by rw [hre], fun j hj => ?_, ?_⟩
    · rw [hentry, if_neg (Nat.ne_of_lt hj)]
    · rw [hlen, BitVec.toNat_add, word_one_toNat]
      omega
  · rw [he]
    exact hs

theorem codeTriplet_appends (hcap : s₀.cfg.outCap < 2 ^ 64) (hlogCap : s₀.cfg.logCap < 2 ^ 64)
    (bottom top total : Nat) : Cmd.Appends s₀ (codeTriplet bottom top total) :=
  (reLog_appends hlogCap _ _ _).bind fun _ => (setCoder_appends _).bind fun _ => reNormalize_appends hcap _

theorem reFlush_appends (hcap : s₀.cfg.outCap < 2 ^ 64) (n : Nat) : Cmd.Appends s₀ (reFlush n) := by
  induction n with
  | zero => exact Cmd.Triple.pure fun _ h => h
  | succ n ih =>
    have hbyte : Cmd.Appends s₀ reFlushByte :=
      .get fun _ => (reEmit_appends hcap _).bind fun _ => setCoder_appends _
    exact hbyte.bind fun _ => ih

theorem reFinish_appends (hcap : s₀.cfg.outCap < 2 ^ 64) : Cmd.Appends s₀ reFinish :=
  (reFlush_appends hcap _).bind fun _ => Cmd.Triple.update fun _ hs => hs.trans (.withRe rfl rfl)

/-- The run of each of the three commands only appends. -/
theorem encoderBody_appends {i : Instr} (hi : i ∈ [Instr.rePut, .reNum, .reFinish]) (hb : s₀.cfg.Bounds) :
    Cmd.Appends s₀ (commandBody i) := by
  obtain ⟨_, _, _, _, hcap, hlogCap, _⟩ := hb
  have hcode (bottom top total : Nat) :
      Cmd.Appends s₀ (reLog bottom top total >>= fun _ => rePut bottom top total >>= fun _ => setRes0OutLen) := by
    rw [← bind_assoc]
    exact (codeTriplet_appends hcap hlogCap bottom top total).bind fun _ => setRes0OutLen_appends
  simp only [List.mem_cons, List.not_mem_nil, or_false] at hi
  rcases hi with rfl | rfl | rfl
  · exact .get fun _ => .require_bind <| .require_bind <| .require_bind <| hcode _ _ _
  · exact .get fun _ => .require_bind <| .require_bind <| .require_bind <|
      Cmd.Triple.ite (fun _ => setRes0OutLen_appends) fun _ => hcode _ _ _
  · exact .get fun _ => .require_bind <| (reFinish_appends hcap).bind fun _ => setRes0OutLen_appends

end Appends

/-- Settles O30: the run only appends (`encoderBody_appends`), and neither end of a command writes `OUT` or `LOG`. -/
theorem encoderOnlyAppends : Obligations.EncoderOnlyAppends := by
  intro i s t hi hb he
  have hne : i ≠ .sysReset := by rintro rfl; revert hi; decide
  have hbody := encoderBody_appends hi hb
  rw [exec_eq_runCommand hne] at he
  have happ : OnlyAppends s t := by
    rcases runCommand_cases i (commandBody i) s with ⟨u, hu, hn⟩ | ⟨c, u, hu, hn⟩
    · rw [hn] at he
      cases he
      exact (hbody.ok (.refl s) hu).endCommand
    · rw [hn] at he
      cases he
      exact (hbody.error (.refl s) hu).raiseFault _ _
  exact ⟨happ.out_kept, happ.outLen_le, happ.log_kept, happ.logLen_le⟩

/-! ### The encoder and the decoder move together (R181) -/

/-- A renormalization of the encoder that ends has moved `(low, range)` as `Coder.normalize` and emitted a byte a shift,
whatever the capacity of `OUT`. -/
theorem reNormalize_eq_ok {n : Nat} {s t : State} (h : reNormalize n s = .ok () t) :
    ∃ k, Coder.normalize n s.re.coder = some (t.re.coder, k) ∧ t.re.outLen = s.re.outLen + BitVec.ofNat 64 k := by
  induction n generalizing s with
  | zero => cases h; exact ⟨0, rfl, (BitVec.add_zero _).symm⟩
  | succ n ih =>
    rw [Coder.normalize]
    cases hts : s.re.coder.toShift with
    | none =>
      rw [reNormalize, hts] at h
      cases h
      exact ⟨0, rfl, (BitVec.add_zero _).symm⟩
    | some c =>
      cases hc : c.collapsed with
      | true =>
        rw [reNormalize, hts] at h
        simp only [hc, if_true] at h
        cases h
      | false =>
        rw [reNormalize_succ hts hc] at h
        obtain ⟨_, u, hu, hrest⟩ := bind_eq_ok.mp h
        rw [reEmit_apply] at hu
        split at hu
        · cases hu
          obtain ⟨k, hnorm, hlen⟩ := ih hrest
          refine ⟨k + 1, ?_, hlen.trans ?_⟩
          · simp only [hc, Bool.false_eq_true, if_false]
            rw [show Coder.normalize n c.shift = _ from hnorm]
            rfl
          · rw [BitVec.ofNat_add, BitVec.add_comm (BitVec.ofNat 64 k), ← BitVec.add_assoc]
            rfl
        · cases hu

/-- `RE.PUT` that ends without fault: `(low, range)` and how many bytes went out (R172). -/
theorem rePut_moves {bottom top total : Word} {e e' : State} (h : Runs .rePut (e.withArgs bottom top total) e') :
    ∃ k, Coder.normalize normalizeRounds (e.putCoder bottom.toNat top.toNat total.toNat) = some (e'.re.coder, k) ∧
      e'.re.outLen = e.re.outLen + BitVec.ofNat 64 k := by
  obtain ⟨u, hu, rfl⟩ := h.body_ok (by decide)
  have hbody : rePutBody _ = _ := hu
  unfold rePutBody at hbody
  rw [get_bind, require_bind_eq_ok, require_bind_eq_ok, require_bind_eq_ok, ← bind_assoc, bind_eq_ok] at hbody
  obtain ⟨_, _, _, _, w, hw, hres⟩ := hbody
  cases hres
  have hcode : codeTriplet _ _ _ _ = _ := hw
  rw [codeTriplet_apply] at hcode
  split at hcode
  · exact reNormalize_eq_ok hcode
  · cases hcode

/-- `RD.COUNT` that ends without fault divides `range` and takes no byte (R143). -/
theorem rdCount_moves {total a b : Word} {d u : State} (h : Runs .rdCount (d.withArgs total a b) u) :
    u.rd.coder = d.rd.coder.divide total.toNat ∧ u.rd.pos = d.rd.pos ∧ u.rd.pad = d.rd.pad := by
  obtain ⟨v, hv, rfl⟩ := h.body_ok (by decide)
  have hbody : rdCountBody _ = _ := hv
  unfold rdCountBody at hbody
  rw [get_bind, require_bind_eq_ok, require_bind_eq_ok, bind_of_ok (rdCount_apply _ _)] at hbody
  obtain ⟨_, _, hres⟩ := hbody
  cases hres
  exact ⟨rfl, rfl, rfl⟩

/-- The bytes taken are input bytes and pad bytes (R142). -/
theorem TookBytes.pos_add_pad {k : Nat} {s t : State} (h : TookBytes k s t) :
    t.rd.pos + t.rd.pad = s.rd.pos + s.rd.pad + BitVec.ofNat 64 k := by
  obtain ⟨hpos, hpad, _⟩ := h
  have hle : s.inputAmong k ≤ k := Nat.min_le_left _ _
  have hk : BitVec.ofNat 64 k = BitVec.ofNat 64 (s.inputAmong k) + BitVec.ofNat 64 (k - s.inputAmong k) := by
    rw [← BitVec.ofNat_add, Nat.add_sub_cancel' hle]
  rw [hpos, hpad, hk]
  ac_rfl

/-- `RD.REMOVE` that ends without fault: `(low, range)` and how many bytes came in (R144). -/
theorem rdRemove_moves {bottom top a : Word} {u d : State} (h : Runs .rdRemove (u.withArgs bottom top a) d) :
    ∃ k, Coder.normalize normalizeRounds (u.rd.coder.narrow bottom.toNat top.toNat) = some (d.rd.coder, k) ∧
      d.rd.pos + d.rd.pad = u.rd.pos + u.rd.pad + BitVec.ofNat 64 k := by
  obtain ⟨v, hv, rfl⟩ := h.body_ok (by decide)
  have hbody : rdRemoveBody _ = _ := hv
  unfold rdRemoveBody at hbody
  rw [get_bind, require_bind_eq_ok, require_bind_eq_ok, require_bind_eq_ok] at hbody
  obtain ⟨_, _, _, hrun⟩ := hbody
  rcases rdRemove_spec bottom.toNat top.toNat (u.withArgs bottom top a) with
    ⟨c, k, t, hnorm, ht, hcoder, htook, _⟩ | ⟨t, _, ht, _⟩
  · cases hrun.symm.trans ht
    exact ⟨k, hcoder ▸ hnorm, htook.pos_add_pad⟩
  · cases hrun.symm.trans ht

/-- Settles O31: both sides renormalize the same narrowed `(low, range)`, and `Coder.normalize` counts the shifts. -/
theorem codersMoveTogether : Obligations.CodersMoveTogether := by
  intro e e' d u d' bottom top total heq hput hcount hremove
  obtain ⟨k, hnorm, hlen⟩ := rePut_moves hput
  obtain ⟨hcoder, hpos, hpad⟩ := rdCount_moves hcount
  obtain ⟨k', hnorm', htook⟩ := rdRemove_moves hremove
  rw [hcoder, ← heq] at hnorm'
  obtain ⟨hmoved, rfl⟩ : e'.re.coder = d'.rd.coder ∧ k = k' := by
    simpa only [Option.some.injEq, Prod.mk.injEq] using hnorm.symm.trans hnorm'
  refine ⟨hmoved, ?_⟩
  rw [hlen, htook, hpos, hpad, BitVec.add_comm, BitVec.add_sub_cancel, BitVec.add_comm, BitVec.add_sub_cancel]

end Sys2Proof.Machine
end

section
/-! PROOFS. `RE.OPTFIN` (42_byte_minimizer.md R192 to R195, R197): what `Check` depends on, what the search keeps for every log,
and the command from its check to its end. -/

namespace Sys2Proof.Machine

/-! ### What `Check` depends on (R192, R193) -/

section CheckCongr

variable {out out' : List Host.Cell} {n n' : Nat} {r r' : RpRegs}

/-- Two replay decoders at the same point of the same padded stream: they differ at most in where their string ends. -/
def RpRegs.Alike (out out' : List Host.Cell) (n n' : Nat) (r r' : RpRegs) : Prop :=
  r.coder = r'.coder ∧ ∃ j, r.At out n j ∧ r'.At out' n' j

theorem RpRegs.Alike.code_eq (hpad : paddedOut out n = paddedOut out' n') (h : r.Alike out out' n n' r') :
    r.code = r'.code := by
  obtain ⟨_, j, hr, hr'⟩ := h
  exact BitVec.eq_of_toNat_eq (by rw [hr.code_toNat, hr'.code_toNat, hpad])

theorem RpRegs.Alike.withCoder (h : r.Alike out out' n n' r') (c : Coder) :
    RpRegs.Alike out out' n n' { r with coder := c } { r' with coder := c } := by
  obtain ⟨_, j, ⟨h1, h2, h3⟩, h1', h2', h3'⟩ := h
  exact ⟨rfl, j, ⟨h1, h2, h3⟩, h1', h2', h3'⟩

/-- Their renormalizations collapse together, or end at alike decoders. -/
theorem rpNormalize_alike (m : Nat) (h : r.Alike out out' n n' r') :
    Option.Rel (RpRegs.Alike out out' n n') (rpNormalize out m r) (rpNormalize out' m r') := by
  induction m generalizing r r' with
  | zero => exact .some h
  | succ m ih =>
    obtain ⟨hcoder, j, hr, hr'⟩ := h
    rw [rpNormalize, rpNormalize, ← hcoder]
    cases r.coder.toShift with
    | none => exact .some ⟨hcoder, j, hr, hr'⟩
    | some c =>
      by_cases hc : c.collapsed = true
      · simp only [hc, if_true]
        exact .none
      · simp only [hc]
        exact ih ⟨rfl, j + 1, hr.shift _, hr'.shift _⟩

/-- Their replays of any log give one verdict. -/
theorem replay_alike (hpad : paddedOut out n = paddedOut out' n') (log : Nat → Triplet) (k i : Nat)
    (h : r.Alike out out' n n' r') : replay log out k i r = replay log out' k i r' := by
  induction k generalizing r r' i with
  | zero => rfl
  | succ k ih =>
    have hcode := h.code_eq hpad
    have hremove := rpNormalize_alike normalizeRounds
      (h.withCoder ((r.coder.divide (log i).total.toNat).narrow (log i).bottom.toNat (log i).top.toNat))
    have hcoder := h.1
    rw [replay, replay]
    simp only [rpCount, rpRemove, ← hcoder, ← hcode]
    refine ite_congr rfl (fun _ => rfl) fun _ => ite_congr rfl (fun _ => ite_congr rfl (fun _ => ?_) fun _ => rfl) fun _ => rfl
    revert hremove
    simp only [← hcode]
    generalize rpNormalize out _ _ = a
    generalize rpNormalize out' _ _ = b
    rintro (hq | _)
    · exact ih _ hq
    · rfl

/-- `Check` depends on the bytes and the length of the string only through the padded stream, whatever the log. -/
theorem check_congr (log : Nat → Triplet) (logLen : Nat) (hn : n < 2 ^ 64) (hn' : n' < 2 ^ 64)
    (hpad : paddedOut out n = paddedOut out' n') : check log logLen out n = check log logLen out' n' := by
  obtain ⟨hat, hcoder⟩ := rpInit_at out hn
  obtain ⟨hat', hcoder'⟩ := rpInit_at out' hn'
  exact replay_alike hpad log logLen 0 ⟨hcoder.trans hcoder'.symm, 0, hat, hat'⟩

end CheckCongr

/-! ### The search (R194) -/

/-- The search goes from candidates that validate to candidates that validate, for every log: `Check` does not see the zero
byte that it drops, and answers before every other step. -/
theorem minimizeLoop_keeps_check (log : Nat → Triplet) (logLen n : Nat) (out : List Host.Cell) (hn : n < 2 ^ 64)
    (h : check log logLen out n = true) :
    check log logLen (minimizeLoop log logLen n out).2 (minimizeLoop log logLen n out).1 = true := by
  induction n generalizing out with
  | zero => exact h
  | succ n ih =>
    have hn' : n < 2 ^ 64 := Nat.lt_of_succ_lt hn
    rw [minimizeLoop]
    split
    · rename_i hzero
      exact ih out hn' ((check_congr log logLen hn' hn (paddedOut_succ_of_zero hzero).symm).trans h)
    split
    · exact ih out hn' ‹_›
    split
    · exact h
    split
    · exact ih _ hn' ‹_›
    · exact h

/-- The free values that `Minimize` leaves above the kept length are not part of the padded stream (log 9). -/
theorem paddedOut_replaceFrom (f : Nat → Byte) (out : List Host.Cell) {m n : Nat} (h : m ≤ n) :
    paddedOut (Memory.replaceFrom n f out) m = paddedOut out m := by
  funext i
  rw [paddedOut, paddedOut]
  split
  · rw [outByteOf, Memory.read?_replaceFrom, if_neg (by omega), outByteOf]
  · rfl

section Minimize

variable (s : State)

/-- What the search answers for the output of `s`. -/
def State.searched : Nat × List Host.Cell := minimizeLoop s.logEntry s.re.logLen.toNat s.re.outLen.toNat s.outMem

theorem searched_le : s.searched.1 ≤ s.re.outLen.toNat := minimizeLoop_length_le _ _ _ _

theorem minimize_outLen_toNat : (minimize s).re.outLen.toNat = s.searched.1 := by
  have hle := searched_le s
  have hlt := s.re.outLen.isLt
  show (BitVec.ofNat 64 s.searched.1).toNat = _
  rw [BitVec.toNat_ofNat, Nat.mod_eq_of_lt (by omega)]

/-- `Check` of a length up to the kept one is that of the string the search ended with. -/
theorem check_minimize {m : Nat} (h : m ≤ s.searched.1) :
    check (minimize s).logEntry (minimize s).re.logLen.toNat (minimize s).outMem m =
      check s.logEntry s.re.logLen.toNat s.searched.2 m := by
  have hle := searched_le s
  have hlt := s.re.outLen.isLt
  exact check_congr _ _ (by omega) (by omega) (paddedOut_replaceFrom _ _ h)

theorem minimize_keeps_validating (h : s.outputValidates = true) : (minimize s).outputValidates = true := by
  rw [State.outputValidates, minimize_outLen_toNat, check_minimize s (le_refl _)]
  exact minimizeLoop_keeps_check _ _ _ _ s.re.outLen.isLt h

theorem minimize_lastByteNeeded : (minimize s).LastByteNeeded := by
  intro hpos
  rw [minimize_outLen_toNat] at hpos ⊢
  rw [check_minimize s (Nat.sub_le _ _)]
  exact minimizeLoop_stops _ _ _ _ hpos

end Minimize

/-! ### The command (R195) -/

section Optfin

variable {s f u : State}

/-- What `RE.OPTFIN` does with a finished output. -/
def optimized (f : State) : State := minimize (f.withRes1 f.re.outLen)

theorem reOptfinBody_of_finished (h : s.re.state = .finished) :
    reOptfinBody s = .ok () ((optimized s).withRes0 (optimized s).re.outLen) := by
  unfold reOptfinBody
  rw [get_bind, require_bind_of_true _ _ _ (.inr h), if_neg (by rw [h]; decide)]
  rfl

theorem reOptfinBody_of_opened (h : s.re.state = .opened) (hf : reFinish s = .ok () f) :
    reOptfinBody s = .ok () ((optimized f).withRes0 (optimized f).re.outLen) := by
  unfold reOptfinBody
  rw [get_bind, require_bind_of_true _ _ _ (.inl h), if_pos h, bind_of_ok hf]
  rfl

theorem reOptfinBody_protocol (h : s.re.state = .closed ∨ s.re.state = .minimized) :
    reOptfinBody s = .error .protocolEncoder s := by
  unfold reOptfinBody
  rw [get_bind, require_bind_of_false]
  rcases h with h | h <;> rw [h] <;> decide

/-- `RE.FINISH` that ends without fault has opened with the flush and then written `RES0` and `STATUS`. -/
theorem reFinish_of_runs (h : Runs .reFinish s u) :
    s.re.state = .opened ∧ ∃ f, reFinish s = .ok () f ∧ u = endCommand (f.withRes0 f.re.outLen) := by
  obtain ⟨v, hv, rfl⟩ := h.body_ok (by decide)
  have hbody : reFinishBody s = .ok () v := hv
  unfold reFinishBody at hbody
  rw [get_bind, require_bind_eq_ok] at hbody
  obtain ⟨hopen, hrun⟩ := hbody
  obtain ⟨_, f, hf, hres⟩ := bind_eq_ok.mp hrun
  cases hres
  exact ⟨hopen, f, hf, rfl⟩

/-- The end of `RE.OPTFIN` from the finished output `f` on. -/
theorem exec_reOptfin (hbody : reOptfinBody s = .ok () ((optimized f).withRes0 (optimized f).re.outLen))
    (hk : KeepsAllBut [.re, .mem .out] s f) :
    ∃ t, exec .reOptfin s = .next t ∧ CompletedKeepingPad s t ∧ t.re.state = .minimized ∧
      t.res1 = f.re.outLen ∧ t.res0 = t.re.outLen ∧ t.re.outLen.toNat ≤ f.re.outLen.toNat ∧
      t.re.coder = f.re.coder ∧ t.re.logLen = f.re.logLen ∧
      (f.outputValidates = true → t.outputValidates = true) ∧ t.LastByteNeeded ∧
      KeepsAllBut [.status, .res0, .res1, .re, .rp, .mem .out, .freeCount] s t := by
  have hwrites : KeepsAllBut [.res1, .re, .rp, .freeCount, .mem .out] s (optimized f) :=
    ((hk.mono (by decide)).trans (WritesOnly.withRes1 (by decide) f _).1).trans
      ((minimize_writes (f.withRes1 f.re.outLen)).1.mono (by decide))
  obtain ⟨hdone, hframe⟩ := endCommand_setRes0OutLen hwrites (by decide)
  have hlen : (optimized f).re.outLen.toNat ≤ f.re.outLen.toNat :=
    (minimize_outLen_toNat _).trans_le (searched_le (f.withRes1 f.re.outLen))
  exact ⟨_, runCommand_of_ok (i := .reOptfin) hbody, hdone, rfl, rfl, rfl, hlen, rfl, rfl,
    minimize_keeps_validating (f.withRes1 f.re.outLen), minimize_lastByteNeeded (f.withRes1 f.re.outLen),
    hframe.mono (by decide)⟩

end Optfin

/-- Settles O33: both ways to a finished output end as `exec_reOptfin` says. -/
theorem optfinShortens : Obligations.OptfinShortens := by
  intro s
  refine ⟨fun u hu => ?_, fun hf hstate => trapsCleanly_of_error (i := .reOptfin) hf (reOptfinBody_protocol hstate)⟩
  rcases hu with ⟨hfinished, rfl⟩ | ⟨_, hrun⟩
  · exact exec_reOptfin (reOptfinBody_of_finished hfinished) (.refl _ _)
  · obtain ⟨hopen, f, hf, rfl⟩ := reFinish_of_runs hrun
    exact exec_reOptfin (f := f) (reOptfinBody_of_opened hopen hf) (reFinish_writes.ok hf).1

end Sys2Proof.Machine
end

section
/-! PROOFS. Byte streams in order, as numbers between 0 and 1: the leading bytes of a stream as a number, and the order that they
give. The minimality of the minimizer's output (42_byte_minimizer.md R198) is an argument about intervals of this order. -/

namespace Sys2Proof.Machine

/-! ### The leading bytes -/

/-- The first `n` bytes of a stream as a number, the first byte the most significant. -/
def leading (f : Nat → Byte) : Nat → Nat
  | 0 => 0
  | n + 1 => leading f n * 256 + (f n).toNat

/-- The stream is zero from index `n` on: it is the zero-padded form of its first `n` bytes. -/
def ZeroFrom (f : Nat → Byte) (n : Nat) : Prop := ∀ i, n ≤ i → f i = 0

/-- The order of streams: no leading bytes of `f` are above those of `g`. -/
def StreamLe (f g : Nat → Byte) : Prop := ∀ n, leading f n ≤ leading g n

section Leading

variable {f g : Nat → Byte} {m n j k : Nat}

theorem ZeroFrom.mono (h : ZeroFrom f m) (hmn : m ≤ n) : ZeroFrom f n := fun i hi => h i (hmn.trans hi)

theorem leading_succ (f : Nat → Byte) (n : Nat) : leading f (n + 1) = leading f n * 256 + (f n).toNat := rfl

theorem leading_congr (h : ∀ i < n, f i = g i) : leading f n = leading g n := by
  induction n with
  | zero => rfl
  | succ n ih => rw [leading_succ, leading_succ, ih fun i hi => h i (Nat.lt_succ_of_lt hi), h n (Nat.lt_succ_self n)]

theorem eq_of_leading_eq (h : leading f n = leading g n) : ∀ i < n, f i = g i := by
  induction n with
  | zero => exact fun i hi => absurd hi (Nat.not_lt_zero i)
  | succ n ih =>
    have hf := (f n).isLt
    have hg := (g n).isLt
    rw [leading_succ, leading_succ] at h
    intro i hi
    rcases Nat.lt_succ_iff_lt_or_eq.mp hi with hi | rfl
    · exact ih (by omega) i hi
    · exact BitVec.eq_of_toNat_eq (by omega)

/-- An order between longer leading parts is one between shorter ones. -/
theorem leading_le_of_le (hmn : m ≤ n) (h : leading f n ≤ leading g n) : leading f m ≤ leading g m := by
  induction n, hmn using Nat.le_induction with
  | base => exact h
  | succ n _ ih =>
    have hg := (g n).isLt
    rw [leading_succ, leading_succ] at h
    exact ih (by omega)

/-- A strict order between shorter leading parts is one between longer ones. -/
theorem leading_lt_of_lt (hmn : m ≤ n) (h : leading f m < leading g m) : leading f n < leading g n := by
  induction n, hmn using Nat.le_induction with
  | base => exact h
  | succ n _ ih =>
    have hf := (f n).isLt
    rw [leading_succ, leading_succ]
    omega

theorem streamLe_of_leading_lt (h : leading f n < leading g n) : StreamLe f g := fun m => by
  rcases le_total m n with hmn | hmn
  · exact leading_le_of_le hmn h.le
  · exact (leading_lt_of_lt hmn h).le

/-- A zero-padded string is compared by its own bytes. -/
theorem streamLe_of_leading_le (hz : ZeroFrom f n) (h : leading f n ≤ leading g n) : StreamLe f g := fun m => by
  rcases le_total m n with hmn | hmn
  · exact leading_le_of_le hmn h
  · induction m, hmn using Nat.le_induction with
    | base => exact h
    | succ m hm ih =>
      have hbyte : (f m).toNat = 0 := congrArg BitVec.toNat (hz m hm)
      rw [leading_succ, leading_succ]
      omega

/-- No string of `n` bytes is above the one of bytes 0xFF. -/
theorem leading_le_of_allFF (h : ∀ i < n, g i = 0xFF) : leading f n ≤ leading g n := by
  induction n with
  | zero => exact le_refl _
  | succ n ih =>
    have hf := (f n).isLt
    have hrest := ih fun i hi => h i (Nat.lt_succ_of_lt hi)
    have hbyte : (g n).toNat = 255 := congrArg BitVec.toNat (h n (Nat.lt_succ_self n))
    rw [leading_succ, leading_succ]
    omega

/-! ### The window in the order -/

theorem leading_add_six (f : Nat → Byte) (j : Nat) : leading f (j + 6) = leading f j * 2 ^ 48 + windowAt f j := by
  rw [windowAt, leading_succ f (j + 5), leading_succ f (j + 4), leading_succ f (j + 3), leading_succ f (j + 2),
    leading_succ f (j + 1), leading_succ f j]
  omega

theorem windowAt_congr (h : ∀ i, j ≤ i → f i = g i) : windowAt f j = windowAt g j := by
  simp only [windowAt, h j (by omega), h (j + 1) (by omega), h (j + 2) (by omega), h (j + 3) (by omega),
    h (j + 4) (by omega), h (j + 5) (by omega)]

theorem windowAt_of_zeroFrom (h : ZeroFrom f j) : windowAt f j = 0 := by
  rw [windowAt_congr (g := fun _ => 0) h]
  simp [windowAt]

theorem windowAt_le_of_leading_le (heq : leading f j = leading g j) (h : leading f (j + 6) ≤ leading g (j + 6)) :
    windowAt f j ≤ windowAt g j := by
  rw [leading_add_six, leading_add_six, heq] at h
  omega

end Leading

/-! ### Bytes of a list in a stream -/

/-- The stream has the first `k` bytes of the list from index `j` on. -/
def Spells (f : Nat → Byte) (j k : Nat) (l : List Byte) : Prop := ∀ i < k, f (j + i) = l.getD i 0

section Spells

variable {f g : Nat → Byte} {j k : Nat} {b : Byte} {l : List Byte}

theorem spells_cons : Spells f j (k + 1) (b :: l) ↔ f j = b ∧ Spells f (j + 1) k l := by
  refine ⟨fun h => ⟨h 0 (Nat.succ_pos k), fun i hi => ?_⟩, fun ⟨h0, h⟩ i hi => ?_⟩
  · rw [Nat.add_assoc, Nat.add_comm 1 i]
    exact h (i + 1) (Nat.succ_lt_succ hi)
  · cases i with
    | zero => exact h0
    | succ i =>
      rw [Nat.add_comm i 1, ← Nat.add_assoc, Nat.add_comm 1 i]
      exact h i (Nat.lt_of_succ_lt_succ hi)

/-- Two streams that agree up to a list and both have its bytes agree behind it. -/
theorem Spells.leading_eq (hf : Spells f j k l) (hg : Spells g j k l) (h : leading f j = leading g j) :
    leading f (j + k) = leading g (j + k) := by
  refine leading_congr fun i hi => ?_
  rcases lt_or_ge i j with hij | hij
  · exact eq_of_leading_eq h i hij
  · obtain ⟨d, rfl⟩ := Nat.exists_eq_add_of_le hij
    rw [hf d (by omega), hg d (by omega)]

theorem Spells.of_leading_eq (hf : Spells f j k l) (h : leading f (j + k) = leading g (j + k)) : Spells g j k l :=
  fun i hi => (eq_of_leading_eq h (j + i) (by omega)).symm.trans (hf i hi)

end Spells

end Sys2Proof.Machine
end

section
/-! PROOFS. The strings that read back a list of triplets (42_byte_minimizer.md R193, R198). The streams that follow the encoder's
own bytes up to the last triplet form an interval of the order. A renormalization that shrinks also lets through streams above the
bytes that the encoder emits, and the replay does not see the bytes it drops. But such a stream is not zero behind them, so putting
the encoder's bytes in their place gives a stream of the interval that is no longer. -/

namespace Sys2Proof.Machine

/-! ### The end of the interval after a shrink (R145) -/

namespace Coder

variable {c c' d : Coder} {bytes : Nat → Byte} {j k : Nat}

/-- The interval goes up to 2^48. -/
def ReachesEnd (c : Coder) : Prop := c.low.toNat + c.range.toNat = 2 ^ 48

theorem ReachesEnd.low_pos (h : c.ReachesEnd) : 0 < c.low.toNat := by
  have hlt := c.range.isLt
  rw [ReachesEnd] at h
  omega

/-- A code of an interval that goes up to 2^48 is not zero. -/
theorem ReachesEnd.not_zeroFrom (h : c.ReachesEnd) (hw : c.Holds (windowAt bytes j)) : ¬ ZeroFrom bytes j := fun hzero => by
  have hle := hw.1
  rw [windowAt_of_zeroFrom hzero] at hle
  exact absurd hle (Nat.not_le.mpr h.low_pos)

theorem ReachesEnd.aligned (h : c.ReachesEnd) : c.Aligned := by
  rw [ReachesEnd] at h
  rw [Aligned, h]
  decide

theorem Aligned.reachesEnd_shift (ha : c.Aligned) (hc : c.Inv) (hs : c.settled = true) (hn : c.collapsed = false) :
    c.shift.ReachesEnd := by
  have hrange := range_lt_of_settled hc hs hn
  have hpos := hc.1
  rw [Coder.settled_iff hc] at hs
  rw [Aligned] at ha
  rw [ReachesEnd, shift_low_toNat, shift_range_toNat hrange]
  omega

theorem Aligned.toShift (ha : c.Aligned) (h : c.toShift = some d) : d.Aligned := by
  rcases toShift_eq_some_cases h with ⟨_, rfl⟩ | ⟨_, _, rfl⟩
  · exact ha
  · exact aligned_shrink c

/-- The renormalization of an interval that goes up to 2^48 leaves one that does. -/
theorem ReachesEnd.normalize (m : Nat) (hr : c.ReachesEnd) (hc : c.Inv) (h : normalize m c = some (c', k)) :
    c'.ReachesEnd := by
  induction m generalizing c k with
  | zero => cases h; exact hr
  | succ m ih =>
    cases hts : c.toShift with
    | none => rw [normalize_of_exit _ hts] at h; cases h; exact hr
    | some d =>
      cases hd : d.collapsed with
      | true => rw [normalize_of_collapse m hts hd] at h; cases h
      | false =>
        rw [normalize_of_shift m hts hd, Option.map_eq_some_iff] at h
        obtain ⟨⟨d', i⟩, hi, he⟩ := h
        cases he
        obtain ⟨hinv, hsettled⟩ := toShift_inv hc hts
        exact ih ((hr.aligned.toShift hts).reachesEnd_shift hinv hsettled hd) (shift_inv hinv hsettled hd) hi

/-! ### A code that meets a renormalization -/

/-- Where a shift is reached, a code of the interval begins with the byte that goes out and is inside what is left of the
interval, or it begins with a greater byte, and the interval was shrunk. -/
theorem toShift_holds_or_passes (hc : c.Inv) (h : c.toShift = some d) (hn : d.collapsed = false)
    (hw : c.Holds (windowAt bytes j)) :
    (bytes j = d.topByte ∧ d.shift.Holds (windowAt bytes (j + 1))) ∨
    (d.Aligned ∧ d.topByte.toNat < (bytes j).toNat) := by
  obtain ⟨hinv, hsettled⟩ := toShift_inv hc h
  have hrange := range_lt_of_settled hinv hsettled hn
  have htop := topByte_toNat d
  obtain ⟨hlow, _, _, hend⟩ := toShift_spec hc h
  obtain ⟨hge, hlt⟩ := hw
  have hnext := windowAt_lt bytes (j + 1)
  rw [hlow] at htop
  rw [windowAt_eq_top] at hge hlt
  have hpart : d.Aligned ∨ d.range = c.range := by
    rcases toShift_eq_some_cases h with ⟨_, rfl⟩ | ⟨_, _, rfl⟩
    · exact .inr rfl
    · exact .inl (aligned_shrink c)
  rw [Aligned, hlow] at hpart ⊢
  by_cases hbyte : bytes j = d.topByte
  · refine .inl ⟨hbyte, ?_⟩
    rw [Holds, shift_low_toNat, shift_range_toNat hrange, hlow]
    have hb := congrArg BitVec.toNat hbyte
    rcases hpart with hpart | hpart
    · omega
    · rw [← hpart] at hlt
      omega
  · have hne : (bytes j).toNat ≠ d.topByte.toNat := fun he => hbyte (BitVec.eq_of_toNat_eq he)
    refine .inr ?_
    rcases hpart with hpart | hpart
    · exact ⟨hpart, by omega⟩
    · rw [← hpart] at hlt
      omega

/-- A code of the interval follows the bytes that the renormalization emits, or it passes above them, and the interval then
goes up to 2^48. -/
theorem normalize_spells_or_passes (m : Nat) (hc : c.Inv) (h : normalize m c = some (c', k))
    (hw : c.Holds (windowAt bytes j)) :
    Spells bytes j k (emitted m c) ∨
    (c'.ReachesEnd ∧ ∀ f, leading f j = leading bytes j → Spells f j k (emitted m c) →
      leading f (j + k) < leading bytes (j + k)) := by
  induction m generalizing c k j with
  | zero => cases h; exact .inl fun i hi => absurd hi (Nat.not_lt_zero i)
  | succ m ih =>
    cases hts : c.toShift with
    | none => rw [normalize_of_exit _ hts] at h; cases h; exact .inl fun i hi => absurd hi (Nat.not_lt_zero i)
    | some d =>
      cases hd : d.collapsed with
      | true => rw [normalize_of_collapse m hts hd] at h; cases h
      | false =>
        rw [normalize_of_shift m hts hd, Option.map_eq_some_iff] at h
        obtain ⟨⟨d', i⟩, hi, he⟩ := h
        cases he
        obtain ⟨hinv, hsettled⟩ := toShift_inv hc hts
        have hinv' := shift_inv hinv hsettled hd
        rw [emitted_of_shift m hts hd, Nat.add_comm i 1, ← Nat.add_assoc, Nat.add_comm 1 i]
        simp only [spells_cons]
        rcases toShift_holds_or_passes hc hts hd hw with ⟨hbyte, hw'⟩ | ⟨haligned, hbyte⟩
        · rcases ih hinv' hi hw' with hspells | ⟨hend, hpass⟩
          · exact .inl ⟨hbyte, hspells⟩
          · refine .inr ⟨hend, fun f hf ⟨hfj, hfrest⟩ => hpass f ?_ hfrest⟩
            rw [leading_succ, leading_succ, hf, hfj, hbyte]
        · refine .inr ⟨(haligned.reachesEnd_shift hinv hsettled hd).normalize m hinv' hi, fun f hf ⟨hfj, _⟩ => ?_⟩
          refine leading_lt_of_lt (Nat.le_add_right (j + 1) i) ?_
          rw [leading_succ, leading_succ, hf, hfj]
          omega

end Coder

/-! ### Counts and intervals (R143) -/

/-- A count lies inside the triplet's interval exactly where the code lies inside the narrowed interval: a code below `low` gives
a count from `total` on. -/
theorem countInside_iff {x : Triplet} {c : Coder} {code : Window} (hc : c.Normal) (hx : x.Legal) :
    x.CountInside c code ↔ (c.narrowTo x).Holds code.toNat := by
  refine ⟨fun ⟨hbottom, htop⟩ => ?_, Coder.count_of_holds hc hx⟩
  have hpos := Coder.divide_range_pos hc hx.total_pos hx.total_le
  have hle := c.mul_div_le hx.top_le_total
  have hcode := code.isLt
  have hsum := hc.2
  rw [countOf_eq, Coder.divide_low, Coder.divide_range_toNat] at hbottom htop
  rw [Nat.le_div_iff_mul_le hpos] at hbottom
  rw [Nat.div_lt_iff_lt_mul hpos] at htop
  refine (Coder.narrow_divide_holds_iff hc hx).mpr ?_
  omega

/-! ### Following the encoder's bytes -/

/-- From `(low, range)` and index `j`, the stream has the bytes that the encoder emits for the triplets but the last, and a code
of each narrowed interval. Behind the last triplet nothing is decoded, so the bytes that it would emit do not matter. -/
def TripletsOnPath (bytes : Nat → Byte) : List Triplet → Coder → Nat → Prop
  | [], _, _ => True
  | x :: rest, c, j =>
    (c.narrowTo x).Holds (windowAt bytes j) ∧
    (rest = [] ∨ ∃ c' k, Coder.normalize normalizeRounds (c.narrowTo x) = some (c', k) ∧
      Spells bytes j k (Coder.emitted normalizeRounds (c.narrowTo x)) ∧ TripletsOnPath bytes rest c' (j + k))

section Path

variable {f g h : Nat → Byte} {x : Triplet} {l rest : List Triplet} {c c' : Coder} {j k : Nat}

theorem onPath_cons (hnorm : Coder.normalize normalizeRounds (c.narrowTo x) = some (c', k)) :
    TripletsOnPath f (x :: rest) c j ↔
      (c.narrowTo x).Holds (windowAt f j) ∧
      (rest = [] ∨ Spells f j k (Coder.emitted normalizeRounds (c.narrowTo x)) ∧ TripletsOnPath f rest c' (j + k)) := by
  rw [TripletsOnPath, hnorm]
  simp only [Option.some.injEq, Prod.mk.injEq]
  refine and_congr_right fun _ => or_congr_right ⟨?_, fun hp => ⟨c', k, ⟨rfl, rfl⟩, hp⟩⟩
  rintro ⟨_, _, ⟨rfl, rfl⟩, hp⟩
  exact hp

theorem readBack_cons (hc : c.Normal) (hx : x.Legal)
    (hnorm : Coder.normalize normalizeRounds (c.narrowTo x) = some (c', k)) :
    TripletsReadBack f (x :: rest) c j ↔
      (c.narrowTo x).Holds (windowAt f j) ∧ TripletsReadBack f rest c' (j + k) := by
  rw [TripletsReadBack, countInside_iff hc hx, ofNat_windowAt_toNat, hnorm]
  simp only [Option.some.injEq, Prod.mk.injEq]
  refine and_congr_right fun _ => ⟨?_, fun hr => ⟨c', k, ⟨rfl, rfl⟩, hr⟩⟩
  rintro ⟨_, _, ⟨rfl, rfl⟩, hr⟩
  exact hr

/-- Triplets that a stream reads back have the stream's code inside the interval before the first. -/
theorem holds_of_readBack (hc : c.Normal) (hcode : TripletsCode l c) (hl : l ≠ []) (h : TripletsReadBack f l c j) :
    c.Holds (windowAt f j) := by
  cases l with
  | nil => exact absurd rfl hl
  | cons x rest =>
    obtain ⟨hx, c', k, hnorm, _⟩ := hcode
    exact Coder.holds_of_narrow hc hx ((readBack_cons hc hx hnorm).mp h).1

theorem readBack_of_onPath (hc : c.Normal) (hcode : TripletsCode l c) (h : TripletsOnPath f l c j) :
    TripletsReadBack f l c j := by
  induction l generalizing c j with
  | nil => trivial
  | cons x rest ih =>
    obtain ⟨hx, c', k, hnorm, hrest⟩ := hcode
    obtain ⟨hholds, hpath⟩ := (onPath_cons hnorm).mp h
    refine (readBack_cons hc hx hnorm).mpr ⟨hholds, ?_⟩
    rcases hpath with rfl | ⟨_, hpath⟩
    · trivial
    · exact ih (Coder.normalize_normal (Coder.narrowTo_inv hc hx) hnorm) hrest hpath

/-- Only the bytes from index `j` on matter. -/
theorem onPath_congr (heq : ∀ i, j ≤ i → f i = g i) (h : TripletsOnPath f l c j) : TripletsOnPath g l c j := by
  induction l generalizing c j with
  | nil => trivial
  | cons x rest ih =>
    obtain ⟨hholds, hpath⟩ := h
    refine ⟨windowAt_congr heq ▸ hholds, hpath.imp_right fun ⟨c', k, hnorm, hspells, hrest⟩ => ?_⟩
    refine ⟨c', k, hnorm, fun i hi => ?_, ih (fun i hi => heq i (by omega)) hrest⟩
    rw [← heq _ (Nat.le_add_right j i)]
    exact hspells i hi

/-- The streams that follow the encoder's bytes form an interval. -/
theorem onPath_between (hfh : leading f j = leading h j) (hfg : StreamLe f g) (hgh : StreamLe g h)
    (hf : TripletsOnPath f l c j) (hh : TripletsOnPath h l c j) : TripletsOnPath g l c j := by
  have hsame {n : Nat} (heq : leading f n = leading h n) : leading f n = leading g n :=
    le_antisymm (hfg n) (heq ▸ hgh n)
  induction l generalizing c j with
  | nil => trivial
  | cons x rest ih =>
    obtain ⟨⟨hlow, _⟩, hfpath⟩ := hf
    obtain ⟨⟨_, hhigh⟩, hhpath⟩ := hh
    have hfg' := windowAt_le_of_leading_le (hsame hfh) (hfg (j + 6))
    have hgh' := windowAt_le_of_leading_le ((hsame hfh).symm.trans hfh) (hgh (j + 6))
    refine ⟨⟨hlow.trans hfg', hgh'.trans_lt hhigh⟩, ?_⟩
    rcases hfpath with rfl | ⟨c', k, hnorm, hfspells, hfrest⟩
    · exact .inl rfl
    · refine hhpath.imp_right fun ⟨c'', k', hnorm', hhspells, hhrest⟩ => ?_
      rw [hnorm] at hnorm'
      cases hnorm'
      have heq := hfspells.leading_eq hhspells hfh
      exact ⟨c', k, hnorm, hfspells.of_leading_eq (hsame heq), ih heq hfrest hhrest⟩

/-- A stream that reads the triplets back follows the encoder's bytes, or it is above every stream that does: it passes above them
at some index and is not zero from there on. -/
theorem onPath_or_above (hc : c.Normal) (hcode : TripletsCode l c) (hg : TripletsReadBack g l c j) :
    TripletsOnPath g l c j ∨
    ∃ p, ¬ ZeroFrom g p ∧
      ∀ f, leading f j = leading g j → TripletsOnPath f l c j → leading f p < leading g p := by
  induction l generalizing c j with
  | nil => exact .inl trivial
  | cons x rest ih =>
    obtain ⟨hx, c', k, hnorm, hrest⟩ := hcode
    obtain ⟨hholds, hread⟩ := (readBack_cons hc hx hnorm).mp hg
    have hinv := Coder.narrowTo_inv hc hx
    have hnormal := Coder.normalize_normal hinv hnorm
    simp only [onPath_cons hnorm]
    by_cases hnil : rest = []
    · exact .inl ⟨hholds, .inl hnil⟩
    simp only [hnil, false_or]
    rcases Coder.normalize_spells_or_passes _ hinv hnorm hholds with hspells | ⟨hend, hpass⟩
    · rcases ih hnormal hrest hread with hpath | ⟨p, hp, habove⟩
      · exact .inl ⟨hholds, hspells, hpath⟩
      · exact .inr ⟨p, hp, fun f hf ⟨_, hfspells, hfrest⟩ => habove f (hfspells.leading_eq hspells hf) hfrest⟩
    · refine .inr ⟨j + k, fun hzero => ?_, fun f hf ⟨_, hfspells, _⟩ => hpass f hf hfspells⟩
      exact hend.not_zeroFrom (holds_of_readBack hnormal hrest hnil hread) hzero

/-- The stream with `k` bytes of the list in place of its own from index `j` on. -/
def overlay (f : Nat → Byte) (j k : Nat) (l : List Byte) (i : Nat) : Byte :=
  if j ≤ i ∧ i < j + k then l.getD (i - j) 0 else f i

theorem spells_overlay (f : Nat → Byte) (j k : Nat) (l : List Byte) : Spells (overlay f j k l) j k l := fun i hi => by
  rw [overlay, if_pos (by omega), Nat.add_sub_cancel_left]

theorem overlay_of_ge {f : Nat → Byte} {j k i : Nat} {l : List Byte} (h : j + k ≤ i) : overlay f j k l i = f i :=
  if_neg (by omega)

/-- For every stream that reads the triplets back there is one that follows the encoder's bytes and is no longer. -/
theorem exists_onPath_of_readBack (hc : c.Normal) (hcode : TripletsCode l c) (hg : TripletsReadBack g l c j) :
    ∃ f, TripletsOnPath f l c j ∧ ∀ m, ZeroFrom g m → ZeroFrom f m := by
  induction l generalizing c j with
  | nil => exact ⟨g, trivial, fun _ h => h⟩
  | cons x rest ih =>
    obtain ⟨hx, c', k, hnorm, hrest⟩ := hcode
    obtain ⟨hholds, hread⟩ := (readBack_cons hc hx hnorm).mp hg
    have hinv := Coder.narrowTo_inv hc hx
    have hnormal := Coder.normalize_normal hinv hnorm
    simp only [onPath_cons hnorm]
    by_cases hnil : rest = []
    · exact ⟨g, ⟨hholds, .inl hnil⟩, fun _ h => h⟩
    obtain ⟨f, hpath, hzero⟩ := ih hnormal hrest hread
    set emitted := Coder.emitted normalizeRounds (c.narrowTo x)
    have hspells := spells_overlay f j k emitted
    have hpath' : TripletsOnPath (overlay f j k emitted) rest c' (j + k) :=
      onPath_congr (fun i hi => (overlay_of_ge hi).symm) hpath
    have hin := holds_of_readBack hnormal hrest hnil (readBack_of_onPath hnormal hrest hpath')
    refine ⟨_, ⟨Coder.holds_of_normalize _ hinv hnorm hspells hin, .inr ⟨hspells, hpath'⟩⟩, fun m hm i hi => ?_⟩
    rw [overlay]
    split
    · rcases Coder.normalize_spells_or_passes _ hinv hnorm hholds with hgspells | ⟨hend, _⟩
      · obtain ⟨d, rfl⟩ := Nat.exists_eq_add_of_le (show j ≤ i by omega)
        rw [Nat.add_sub_cancel_left, ← hgspells d (by omega)]
        exact hm _ hi
      · exact absurd (hm.mono (by omega)) (hend.not_zeroFrom (holds_of_readBack hnormal hrest hnil hread))
    · exact hzero m hm i hi

end Path

end Sys2Proof.Machine
end

section
/-! PROOFS. The output of `RE.OPTFIN` is a shortest string that reads back (42_byte_minimizer.md R198): the encoder's output follows
its own bytes, the search stays among the streams that do, and where it stops no shorter string is one of them. -/

namespace Sys2Proof.Machine

/-! ### The streams that read back, from the start -/

section Start

variable {f g f' : Nat → Byte} {l : List Triplet}

/-- The stream follows the encoder's bytes for the triplets from the initial `(low, range)` on. -/
def FollowsEncoder (l : List Triplet) (f : Nat → Byte) : Prop := TripletsOnPath f l Coder.reset 0

/-- The stream reads the triplets back from the initial `(low, range)` on. -/
def ReadsBack (l : List Triplet) (f : Nat → Byte) : Prop := TripletsReadBack f l Coder.reset 0

theorem FollowsEncoder.between (hf : FollowsEncoder l f) (hf' : FollowsEncoder l f') (hfg : StreamLe f g)
    (hgf' : StreamLe g f') : FollowsEncoder l g := onPath_between (f := f) (h := f') rfl hfg hgf' hf hf'

theorem FollowsEncoder.readsBack (hcode : TripletsCode l Coder.reset) (h : FollowsEncoder l f) : ReadsBack l f :=
  readBack_of_onPath Coder.reset_normal hcode h

/-- A stream that reads back and whose nonzero bytes come no later than those at which it first passes above a stream that follows
the encoder's bytes follows them too. -/
theorem followsEncoder_of_readsBack (hcode : TripletsCode l Coder.reset) (hf : FollowsEncoder l f) (hg : ReadsBack l g)
    (hnear : ∀ p, leading f p < leading g p → ZeroFrom g p) : FollowsEncoder l g := by
  rcases onPath_or_above Coder.reset_normal hcode hg with hpath | ⟨p, hp, habove⟩
  · exact hpath
  · exact absurd (hnear p (habove f rfl hf)) hp

end Start

/-! ### The candidates of the search (R194) -/

section Candidates

variable (out : List Host.Cell) {n k : Nat}

theorem paddedOut_zeroFrom (n : Nat) : ZeroFrom (paddedOut out n) n := fun _ hi => if_neg (Nat.not_lt.mpr hi)

theorem paddedOut_of_lt {i : Nat} (h : i < n) : paddedOut out n i = outByteOf out i := if_pos h

theorem leading_paddedOut_succ (n : Nat) : leading (paddedOut out n) n = leading (paddedOut out (n + 1)) n :=
  leading_congr fun i hi => by rw [paddedOut_of_lt out hi, paddedOut_of_lt out (Nat.lt_succ_of_lt hi)]

/-- Dropping the last byte goes down in the order. -/
theorem paddedOut_le_succ (n : Nat) : StreamLe (paddedOut out n) (paddedOut out (n + 1)) :=
  streamLe_of_leading_le (paddedOut_zeroFrom out n) (leading_paddedOut_succ out n).le

/-- What the search for a byte below 0xFF answers (R191 (c), (d)). -/
theorem lastNotFF_spec (n : Nat) :
    match lastNotFF out n with
    | none => ∀ i < n, outByteOf out i = 0xFF
    | some k => k < n ∧ outByteOf out k ≠ 0xFF ∧ ∀ i, k < i → i < n → outByteOf out i = 0xFF := by
  induction n with
  | zero => exact fun i hi => absurd hi (Nat.not_lt_zero i)
  | succ n ih =>
    rw [lastNotFF]
    by_cases hn : outByteOf out n = 0xFF
    · rw [if_neg (not_not.mpr hn)]
      have hlast {i : Nat} (hi : i < n + 1) (h : i < n → outByteOf out i = 0xFF) : outByteOf out i = 0xFF := by
        rcases Nat.lt_succ_iff_lt_or_eq.mp hi with hi | rfl
        · exact h hi
        · exact hn
      cases hk : lastNotFF out n with
      | none => rw [hk] at ih; exact fun i hi => hlast hi (ih i)
      | some k =>
        rw [hk] at ih
        obtain ⟨hlt, hne, hff⟩ := ih
        exact ⟨Nat.lt_succ_of_lt hlt, hne, fun i hki hi => hlast hi (hff i hki)⟩
    · rw [if_pos hn]
      exact ⟨Nat.lt_succ_self n, hn, fun i hki hi => absurd hi (by omega)⟩

theorem outByteOf_carryAt (h : k < n) (i : Nat) :
    outByteOf (carryAt out k n) i =
      if i = k then outByteOf out k + 1 else if k < i ∧ i < n then 0 else outByteOf out i := by
  rw [outByteOf, carryAt, Memory.read?_fill, Memory.read?_write]
  by_cases hk : i = k
  · rw [if_neg (by omega), if_pos hk, if_pos hk]
    rfl
  · rw [if_neg hk, if_neg hk]
    by_cases hi : k < i ∧ i < n
    · rw [if_pos (by omega), if_pos hi]
      rfl
    · rw [if_neg (by omega), if_neg hi, outByteOf]

/-- The carry is one more in the last byte of the shortened string. -/
theorem leading_carryAt (h : k < n) (hne : outByteOf out k ≠ 0xFF) (hff : ∀ i, k < i → i < n → outByteOf out i = 0xFF) :
    ∀ m, k < m → m ≤ n → leading (paddedOut (carryAt out k n) n) m = leading (paddedOut out n) m + 1 := by
  intro m hkm
  induction m, hkm using Nat.le_induction with
  | base =>
    intro _
    have hbelow : leading (paddedOut (carryAt out k n) n) k = leading (paddedOut out n) k := leading_congr fun i hi => by
      rw [paddedOut_of_lt _ (by omega), paddedOut_of_lt _ (by omega), outByteOf_carryAt out h, if_neg (by omega),
        if_neg (by omega)]
    have hne' : (outByteOf out k).toNat ≠ 255 := fun he => hne (BitVec.eq_of_toNat_eq he)
    have hlt := (outByteOf out k).isLt
    have hone : (outByteOf out k + 1).toNat = (outByteOf out k).toNat + 1 := by
      rw [BitVec.toNat_add, show (1 : Byte).toNat = 1 from rfl]
      omega
    rw [leading_succ, leading_succ, hbelow, paddedOut_of_lt _ h, paddedOut_of_lt _ h, outByteOf_carryAt out h, if_pos rfl,
      hone]
    omega
  | succ m hm ih =>
    intro hn
    have hm' : m < n := hn
    have hff' : (outByteOf out m).toNat = 255 := congrArg BitVec.toNat (hff m hm hm')
    have hzero : (outByteOf (carryAt out k n) m).toNat = 0 := by
      rw [outByteOf_carryAt out h, if_neg (by omega), if_pos ⟨hm, hm'⟩]
      rfl
    rw [leading_succ, leading_succ, ih hm'.le, paddedOut_of_lt _ hm', paddedOut_of_lt _ hm', hff', hzero]
    omega

/-- Up to the increased byte the carry leaves the leading bytes, and behind it there are zeros alone. -/
theorem carryAt_zeroFrom_of_lt (h : k < n) {p : Nat}
    (hp : leading (paddedOut out (n + 1)) p < leading (paddedOut (carryAt out k n) n) p) :
    ZeroFrom (paddedOut (carryAt out k n) n) p := by
  have hkp : k < p := by
    by_contra hpk
    refine absurd (leading_congr fun i hi => ?_) hp.ne
    rw [paddedOut_of_lt _ (by omega), paddedOut_of_lt _ (by omega), outByteOf_carryAt out h, if_neg (by omega),
      if_neg (by omega)]
  intro i hi
  rw [paddedOut]
  split
  · rw [outByteOf_carryAt out h, if_neg (by omega), if_pos (by omega)]
  · rfl

end Candidates

/-! ### The search -/

section Search

variable {log : Nat → Triplet} {l : List Triplet} {n : Nat} {out : List Host.Cell}

/-- No zero-padded string of `n` bytes or fewer reads the triplets back. -/
def NoShortReadsBack (l : List Triplet) (n : Nat) : Prop := ∀ g, ZeroFrom g n → ¬ ReadsBack l g

/-- It is enough that no such string follows the encoder's bytes. -/
theorem noShortReadsBack_of_path (hcode : TripletsCode l Coder.reset)
    (h : ∀ f, ZeroFrom f n → ¬ FollowsEncoder l f) : NoShortReadsBack l n := fun g hg hread => by
  obtain ⟨f, hf, hzero⟩ := exists_onPath_of_readBack Coder.reset_normal hcode hread
  exact h f (hzero n hg) hf

/-- A string of `n` bytes that follows the encoder's bytes and is not above the shortened string would make the latter, between it
and the candidate, read back. -/
theorem not_follows_below (hcode : TripletsCode l Coder.reset) (hV : FollowsEncoder l (paddedOut out (n + 1)))
    (hP : ¬ ReadsBack l (paddedOut out n)) {f : Nat → Byte} (hz : ZeroFrom f n)
    (hle : leading f n ≤ leading (paddedOut out n) n) : ¬ FollowsEncoder l f := fun hf =>
  hP ((hf.between hV (streamLe_of_leading_le hz hle) (paddedOut_le_succ out n)).readsBack hcode)

/-- Where the shortened string fails and has no byte below 0xFF, no string of its length reads back. -/
theorem noShort_of_allFF (hcode : TripletsCode l Coder.reset) (hV : FollowsEncoder l (paddedOut out (n + 1)))
    (hP : ¬ ReadsBack l (paddedOut out n)) (hff : ∀ i < n, outByteOf out i = 0xFF) : NoShortReadsBack l n :=
  noShortReadsBack_of_path hcode fun _ hz => not_follows_below hcode hV hP hz
    (leading_le_of_allFF fun i hi => (paddedOut_of_lt out hi).trans (hff i hi))

/-- Where the shortened string and the carry both fail, no string of their length reads back: they are neighbours, one below and
one above the candidate. -/
theorem noShort_of_carry {k : Nat} (hcode : TripletsCode l Coder.reset)
    (hV : FollowsEncoder l (paddedOut out (n + 1))) (hP : ¬ ReadsBack l (paddedOut out n))
    (hQ : ¬ ReadsBack l (paddedOut (carryAt out k n) n))
    (hone : leading (paddedOut (carryAt out k n) n) n = leading (paddedOut out n) n + 1) : NoShortReadsBack l n :=
  noShortReadsBack_of_path hcode fun f hz hf => by
    rcases Nat.lt_or_ge (leading (paddedOut out n) n) (leading f n) with hlt | hle
    · have hVQ : StreamLe (paddedOut out (n + 1)) (paddedOut (carryAt out k n) n) :=
        streamLe_of_leading_lt (n := n) (by rw [hone, leading_paddedOut_succ]; exact Nat.lt_succ_self _)
      have hQf : StreamLe (paddedOut (carryAt out k n) n) f :=
        streamLe_of_leading_le (paddedOut_zeroFrom _ n) (by omega)
      exact hQ ((hV.between hf hVQ hQf).readsBack hcode)
    · exact not_follows_below hcode hV hP hz hle hf

/-- From a candidate that follows the encoder's bytes the search ends with a shortest string that reads back. -/
theorem minimizeLoop_shortest (hcode : TripletsCode l Coder.reset) (hlog : LoggedFrom log 0 l) (n : Nat)
    (out : List Host.Cell) (hn : n < 2 ^ 64) (hV : FollowsEncoder l (paddedOut out n)) :
    ∀ m < (minimizeLoop log l.length n out).1, NoShortReadsBack l m := by
  induction n generalizing out with
  | zero => exact fun m hm => absurd hm (Nat.not_lt_zero m)
  | succ n ih =>
    have hn' : n < 2 ^ 64 := Nat.lt_of_succ_lt hn
    have hcheck (o : List Host.Cell) : check log l.length o n = true ↔ ReadsBack l (paddedOut o n) :=
      check_iff hcode hlog hn'
    have hshorter (h : NoShortReadsBack l n) : ∀ m < n + 1, NoShortReadsBack l m :=
      fun m hm g hg => h g (hg.mono (Nat.le_of_lt_succ hm))
    have hlast := lastNotFF_spec out n
    rw [minimizeLoop]
    split
    · rename_i hzero
      rw [paddedOut_succ_of_zero hzero] at hV
      exact ih out hn' hV
    split
    · rename_i hP
      refine ih out hn' (followsEncoder_of_readsBack hcode hV ((hcheck out).mp hP) fun p hp => ?_)
      exact absurd (paddedOut_le_succ out n p) (Nat.not_le.mpr hp)
    rename_i hP
    rw [hcheck] at hP
    split
    · rename_i hk
      rw [hk] at hlast
      exact hshorter (noShort_of_allFF hcode hV hP hlast)
    rename_i k hk
    rw [hk] at hlast
    obtain ⟨hkn, hne, hff⟩ := hlast
    split
    · rename_i hQ
      exact ih _ hn' (followsEncoder_of_readsBack hcode hV ((hcheck _).mp hQ) fun p hp => carryAt_zeroFrom_of_lt out hkn hp)
    · rename_i hQ
      rw [hcheck] at hQ
      exact hshorter (noShort_of_carry hcode hV hP hQ (leading_carryAt out hkn hne hff n hkn (le_refl n)))

end Search

/-! ### The encoder's output follows its own bytes (R172, R174) -/

/-- From every stream that begins with `OUT` and goes on with a code of the interval in `t`, as `CodedAll.readBack`. -/
theorem onPath_of_encodes {l : List Triplet} {s t : State} {bytes : Nat → Byte} (hb : s.cfg.Bounds)
    (hs : s.re.coder.Normal) (h : EncodesTriplets l s t) (hbytes : ∀ i < t.re.outLen.toNat, bytes i = t.outByte i)
    (hw : t.re.coder.Holds (windowAt bytes t.re.outLen.toNat)) :
    TripletsOnPath bytes l s.re.coder s.re.outLen.toNat := by
  induction l generalizing s with
  | nil => trivial
  | cons x rest ih =>
    obtain ⟨u, hu, ht⟩ := h
    have hone := codedOne_of_runs hb hu
    have hlen := hone.outLen_toNat
    have hinv := Coder.narrowTo_inv hs hone.legal
    have hnormal := Coder.normalize_normal hinv hone.normalize
    have hbounds : u.cfg.Bounds := by rw [hone.cfg_eq]; exact hb
    have hall := codedAll_of_encodes hbounds hnormal ht
    have hle := hall.outLen_le
    have hspells : Spells bytes s.re.outLen.toNat (Coder.emitted normalizeRounds (s.re.coder.narrowTo x)).length
        (Coder.emitted normalizeRounds (s.re.coder.narrowTo x)) := fun i hi => by
      rw [hbytes _ (by omega), hall.out_kept _ (by omega), hone.outByte, if_pos (by omega), Nat.add_sub_cancel_left]
    have hholds := (hall.readBack bytes hbytes hw).2
    rw [hlen] at hholds
    have hnarrow := Coder.holds_of_normalize _ hinv hone.normalize hspells hholds
    refine (onPath_cons hone.normalize).mpr ⟨hnarrow, .inr ⟨hspells, ?_⟩⟩
    rw [← hlen]
    exact ih hbounds hnormal ht

/-- The flush keeps the bytes of `OUT` and puts `low` behind them. -/
theorem stream_of_reFinish {s f : State} (hcap : s.cfg.outCap < 2 ^ 64) (hf : reFinish s = .ok () f) :
    (∀ i < s.re.outLen.toNat, paddedOut f.outMem f.re.outLen.toNat i = s.outByte i) ∧
    windowAt (paddedOut f.outMem f.re.outLen.toNat) s.re.outLen.toNat = s.re.coder.low.toNat := by
  obtain ⟨_, u, hu, hstate⟩ := bind_eq_ok.mp hf
  cases hstate
  obtain ⟨happ, _, hlen⟩ := reFlush_eq_ok hcap hu
  have hbyte {i : Nat} (hi : i < u.re.outLen.toNat) : paddedOut u.outMem u.re.outLen.toNat i = u.outByte i := if_pos hi
  refine ⟨fun i hi => ?_, windowAt_flush fun i hi => ?_⟩
  · exact (hbyte (by omega)).trans ((happ.2 i).trans (if_neg (by omega)))
  · refine (hbyte (by rw [hlen, seedBytes]; omega)).trans ((happ.2 _).trans ?_)
    rw [flushBytes_length, if_pos (by rw [seedBytes]; omega), Nat.add_sub_cancel_left]

/-- A finished output that follows the encoder's bytes. -/
structure FinishedOnPath (l : List Triplet) (t : State) : Prop extends Finished l t where
  follows : FollowsEncoder l (paddedOut t.outMem t.re.outLen.toNat)

section Encoded

variable {l : List Triplet} {s s₀ s₁ f : State}

/-- What `RE.INIT` and the triplets leave. -/
theorem codedAll_of_reInit (hb : s.cfg.Bounds) (hinit : Runs .reInit s s₀) (hencode : EncodesTriplets l s₀ s₁) :
    s₀.cfg.Bounds ∧ s₀.re = ⟨.opened, Coder.reset, 0, 0⟩ ∧ CodedAll l s₀ s₁ := by
  obtain ⟨hcfg, hre⟩ := runs_reInit hinit
  have hb₀ : s₀.cfg.Bounds := by rw [hcfg]; exact hb
  exact ⟨hb₀, hre, codedAll_of_encodes hb₀ (by rw [hre]; exact Coder.reset_normal) hencode⟩

theorem opened_of_encodes (hb : s.cfg.Bounds) (hinit : Runs .reInit s s₀) (hencode : EncodesTriplets l s₀ s₁) :
    s₁.re.state = .opened := by
  obtain ⟨_, hre, hall⟩ := codedAll_of_reInit hb hinit hencode
  exact hall.state_eq.trans (by rw [hre])

/-- What `RE.INIT`, the triplets and the flush leave. -/
theorem finishedOnPath_of_encodes (hb : s.cfg.Bounds) (hinit : Runs .reInit s s₀) (hencode : EncodesTriplets l s₀ s₁)
    (hf : reFinish s₁ = .ok () f) : FinishedOnPath l f := by
  obtain ⟨hb₀, hre, hall⟩ := codedAll_of_reInit hb hinit hencode
  have hcap : s₁.cfg.outCap < 2 ^ 64 := by
    obtain ⟨_, _, _, _, hcap, _⟩ := hb₀
    rw [hall.cfg_eq]
    exact hcap
  obtain ⟨hkept, hlow⟩ := stream_of_reFinish hcap hf
  have hpos := hall.normal.1
  have hpath := onPath_of_encodes hb₀ (by rw [hre]; exact Coder.reset_normal) hencode hkept
    (by rw [hlow]; exact ⟨le_refl _, Nat.lt_add_of_pos_right (by omega)⟩)
  rw [hre] at hpath
  exact ⟨finished_of_reFinish hcap (by rw [hre]) (by rw [hre]) (by rw [hre]) hall hf, hpath⟩

end Encoded

/-! ### The command (R195, R198) -/

/-- `Minimize` of the encoder's finished output ends with a shortest string that validates. -/
theorem FinishedOnPath.optimized {l : List Triplet} {f : State} (h : FinishedOnPath l f) :
    (optimized f).outputValidates = true ∧ (optimized f).OutputIsShortest := by
  obtain ⟨⟨hcodes, hlogged, hlen, hread⟩, hfollows⟩ := h
  have hlt := f.re.outLen.isLt
  have hcheck (o : List Host.Cell) {n : Nat} (hn : n < 2 ^ 64) :
      check f.logEntry f.re.logLen.toNat o n = true ↔ ReadsBack l (paddedOut o n) := by
    rw [hlen]
    exact check_iff hcodes hlogged hn
  refine ⟨minimize_keeps_validating (f.withRes1 f.re.outLen) ((hcheck _ hlt).mpr hread), fun bytes hshort => ?_⟩
  have hmin : (Machine.optimized f).re.outLen.toNat = f.searched.1 := minimize_outLen_toNat (f.withRes1 f.re.outLen)
  have hle := searched_le f
  rw [hmin] at hshort
  have hshort' : bytes.length < (minimizeLoop f.logEntry l.length f.re.outLen.toNat f.outMem).1 := hlen ▸ hshort
  have hno : ¬ ReadsBack l (paddedOut (Memory.writeList bytes 0 []) bytes.length) :=
    minimizeLoop_shortest hcodes hlogged _ _ hlt hfollows _ hshort' _ (paddedOut_zeroFrom _ _)
  exact Bool.eq_false_iff.mpr fun hc => hno ((hcheck _ (by omega)).mp hc)

/-- `RE.OPTFIN` that ends without fault has searched the finished output, after the flush where the encoder was open. -/
theorem optimized_of_runs {s t : State} (h : Runs .reOptfin s t) :
    ∃ f, (s.re.state = .finished ∧ f = s ∨ s.re.state = .opened ∧ reFinish s = .ok () f) ∧
      t = endCommand ((optimized f).withRes0 (optimized f).re.outLen) := by
  obtain ⟨u, hu, rfl⟩ := h.body_ok (by decide)
  have hbody : reOptfinBody s = .ok () u := hu
  cases hstate : s.re.state with
  | closed => rw [reOptfinBody_protocol (.inl hstate)] at hbody; cases hbody
  | minimized => rw [reOptfinBody_protocol (.inr hstate)] at hbody; cases hbody
  | finished =>
    rw [reOptfinBody_of_finished hstate] at hbody
    cases hbody
    exact ⟨s, .inl ⟨rfl, rfl⟩, rfl⟩
  | opened =>
    have hrun := hbody
    unfold reOptfinBody at hrun
    rw [get_bind, require_bind_of_true _ _ _ (.inl hstate), if_pos hstate] at hrun
    obtain ⟨_, f, hf, _⟩ := bind_eq_ok.mp hrun
    rw [reOptfinBody_of_opened hstate hf] at hbody
    cases hbody
    exact ⟨f, .inr ⟨rfl, hf⟩, rfl⟩

theorem reFinish_state {s f : State} (h : reFinish s = .ok () f) : f.re.state = .finished := by
  obtain ⟨_, u, _, hstate⟩ := bind_eq_ok.mp h
  cases hstate
  rfl

/-- Settles O34: the flush, by `RE.OPTFIN` itself or by `RE.FINISH` before it, leaves an output that follows the encoder's bytes,
and the search makes of it a shortest string that validates. -/
theorem minimizedIsShortest : Obligations.MinimizedIsShortest := by
  intro l s s₀ s₁ t hb hinit hencode hrun
  have hfinish {f : State} (hf : reFinish s₁ = .ok () f) := finishedOnPath_of_encodes hb hinit hencode hf
  rcases hrun with hrun | ⟨u, hfin, hrun⟩
  · have hopen := opened_of_encodes hb hinit hencode
    obtain ⟨f, ⟨hclosed, _⟩ | ⟨_, hf⟩, rfl⟩ := optimized_of_runs hrun
    · rw [hopen] at hclosed
      cases hclosed
    · exact (hfinish hf).optimized
  · obtain ⟨_, f, hf, rfl⟩ := reFinish_of_runs hfin
    obtain ⟨w, ⟨_, rfl⟩ | ⟨hopen, _⟩, rfl⟩ := optimized_of_runs hrun
    · obtain ⟨⟨hcodes, hlogged, hlen, hread⟩, hfollows⟩ := hfinish hf
      have hended : FinishedOnPath l (endCommand (f.withRes0 f.re.outLen)) :=
        ⟨⟨hcodes, hlogged, hlen, hread⟩, hfollows⟩
      exact hended.optimized
    · cases (reFinish_state hf).symm.trans hopen

end Sys2Proof.Machine
end

section
/-! PROOFS. The trigonometry ROM (43_trig_lut.md R212 to R214): the default image from its first quadrant, the bound of a
projection, and `TG.LOOKUP`. -/

namespace Sys2Proof.Machine

/-! ### The first quadrant (R212) -/

/-- The entries of the first quadrant are 0 at index 0 only, and within the scale (R213 (a), (b)). -/
theorem sineEntry_range : ∀ i ≤ 256,
    (sineEntry i = 0 ↔ i = 0) ∧ (i ≠ 0 → 1608 ≤ sineEntry i) ∧ sineEntry i ≤ 2 ^ 18 := by
  decide +kernel

/-- The vectors of the first quadrant are unit vectors to rounding (R213 (d)). -/
theorem sineEntry_unit : ∀ i ≤ 256,
    (sineEntry i * sineEntry i + sineEntry (256 - i) * sineEntry (256 - i) - 2 ^ 36).natAbs ≤ 329831 := by
  decide +kernel

/-! ### The default image (R212, R213) -/

section DefaultImage

theorem getD_map_range {n i : Nat} (f : Nat → Int) (h : i < n) : ((List.range n).map f).getD i 0 = f i := by
  rw [List.getD_eq_getElem _ _ (by rwa [List.length_map, List.length_range]), List.getElem_map, List.getElem_range]

variable {a : Nat}

theorem trigSin_resetConfig (ha : a < 512) : resetConfig.trigSin a = defaultSine a := by
  have himage : resetConfig.sines = defaultSines := by rw [resetConfig]
  rw [Config.trigSin, himage, defaultSines, getD_map_range _ ha]

theorem trigCos_resetConfig (ha : a < 512) : resetConfig.trigCos a = defaultCosine a := by
  have himage : resetConfig.cosines = defaultCosines := by rw [resetConfig]
  rw [Config.trigCos, himage, defaultCosines, getD_map_range _ ha]

/-- Up to index 256 the sine runs up the first quadrant and the cosine runs down it. -/
theorem resetConfig_vector_of_le (ha : a ≤ 256) :
    resetConfig.trigSin a = sineEntry a ∧ resetConfig.trigCos a = sineEntry (256 - a) := by
  rw [trigSin_resetConfig (by omega), trigCos_resetConfig (by omega)]
  exact ⟨if_pos ha, if_pos ha⟩

/-- Past index 256 the vector mirrors the one at `512 - a`. -/
theorem resetConfig_vector_of_gt (ha : 256 < a) (hlt : a < 512) :
    resetConfig.trigSin a = sineEntry (512 - a) ∧ resetConfig.trigCos a = -sineEntry (256 - (512 - a)) := by
  have hmirror : 256 - (512 - a) = a - 256 := by omega
  rw [trigSin_resetConfig hlt, trigCos_resetConfig hlt, hmirror]
  exact ⟨if_neg (Nat.not_le.mpr ha), if_neg (Nat.not_le.mpr ha)⟩

/-- R213 (a) to (d) for one index: a vector of the first quadrant, or the mirror image of one. -/
theorem resetConfig_vector_properties (ha : a < 512) :
    (resetConfig.trigSin a = 0 ↔ a = 0) ∧ (a ≠ 0 → 1608 ≤ resetConfig.trigSin a) ∧
    (resetConfig.trigSin a).natAbs ≤ 2 ^ 18 ∧ (resetConfig.trigCos a).natAbs ≤ 2 ^ 18 ∧
    (0 < resetConfig.trigCos a ↔ a < 256) ∧ (resetConfig.trigCos a = 0 ↔ a = 256) ∧
    (resetConfig.trigSin a * resetConfig.trigSin a + resetConfig.trigCos a * resetConfig.trigCos a - 2 ^ 36).natAbs
      ≤ 329831 := by
  rcases Nat.lt_or_ge 256 a with h | h
  · obtain ⟨hsin, hcos⟩ := resetConfig_vector_of_gt h ha
    have hi := sineEntry_range (512 - a) (by omega)
    have hj := sineEntry_range (256 - (512 - a)) (by omega)
    have hunit := sineEntry_unit (512 - a) (by omega)
    rw [hsin, hcos, neg_mul_neg]
    refine ⟨?_, ?_, ?_, ?_, ?_, ?_, hunit⟩ <;> omega
  · obtain ⟨hsin, hcos⟩ := resetConfig_vector_of_le h
    have hi := sineEntry_range a h
    have hj := sineEntry_range (256 - a) (by omega)
    have hunit := sineEntry_unit a h
    rw [hsin, hcos]
    refine ⟨?_, ?_, ?_, ?_, ?_, ?_, hunit⟩ <;> omega

end DefaultImage

/-! ### The bounds of every image (R213 (b)) -/

/-- A projection of a point is at most twice the scale times the bound of its coordinates. -/
theorem natAbs_projection_le {nx ny : Int} {x y scale dim : Nat} (hnx : nx.natAbs ≤ scale) (hny : ny.natAbs ≤ scale)
    (hx : x ≤ dim) (hy : y ≤ dim) : (ny * y + nx * x).natAbs ≤ 2 * scale * dim :=
  calc (ny * y + nx * x).natAbs
      ≤ (ny * y).natAbs + (nx * x).natAbs := Int.natAbs_add_le _ _
    _ = ny.natAbs * y + nx.natAbs * x := by rw [Int.natAbs_mul, Int.natAbs_mul, Int.natAbs_natCast, Int.natAbs_natCast]
    _ ≤ scale * dim + scale * dim := Nat.add_le_add (Nat.mul_le_mul hny hy) (Nat.mul_le_mul hnx hx)
    _ = 2 * scale * dim := by rw [Nat.mul_assoc, Nat.two_mul]

/-- A scale that keeps projections below `2^34` is itself below it. -/
theorem Config.Bounds.trigScale_lt {c : Config} (hb : c.Bounds) : c.trigScale < 2 ^ 34 := by
  obtain ⟨_, _, _, _, _, _, _, _, _, _, _, _, hdim, _, hproj, _⟩ := hb
  have hle : 2 * c.trigScale ≤ 2 * c.trigScale * c.dimMax := Nat.le_mul_of_pos_right _ hdim
  omega

/-- Settles O36: the default image by `resetConfig_vector_properties`, every image by `natAbs_projection_le`. -/
theorem trigTableProperties : Obligations.TrigTableProperties := by
  refine ⟨⟨rfl, resetConfig_ok.2.1, fun a ha => resetConfig_vector_properties ha⟩, ?_⟩
  intro c a x y ⟨_, _, _, _, _, _, _, _, _, _, _, _, _, _, hproj, _⟩ ⟨_, _, hrom⟩ ha hx hy
  obtain ⟨_, _, hsin, hcos⟩ := hrom a ha
  exact (natAbs_projection_le hsin hcos hx hy).trans_lt hproj

/-! ### `TG.LOOKUP` (R214) -/

section Lookup

variable {s : State}

/-- A value within the scale is its own sign extension. -/
theorem sext64_toInt_of_natAbs_le {c : Config} {v : Int} (hb : c.Bounds) (h : v.natAbs ≤ c.trigScale) :
    (sext64 v).toInt = v := by
  have hscale := hb.trigScale_lt
  rw [sext64, BitVec.toInt_ofInt_eq_self (by decide)] <;> omega

/-- The results that `TG.LOOKUP` leaves when its check passes. -/
def State.lookedUp (s : State) : State :=
  (s.withRes0 (sext64 (s.cfg.trigSin s.operand0))).withRes1 (sext64 (s.cfg.trigCos s.operand0))

theorem lookedUp_writes (s : State) : WritesOnly [.res0, .res1] s s.lookedUp :=
  (WritesOnly.withRes0 (by decide) s _).trans (WritesOnly.withRes1 (by decide) _ _)

theorem tgLookupBody_of_lt (h : s.operand0 < s.cfg.nAngles) : tgLookupBody s = .ok () s.lookedUp := by
  unfold tgLookupBody
  rw [get_bind, require_bind_of_true _ _ _ h]
  rfl

theorem tgLookupBody_of_ge (h : s.cfg.nAngles ≤ s.operand0) : tgLookupBody s = .error .argValue s := by
  unfold tgLookupBody
  rw [get_bind, require_bind_of_false _ _ _ (Nat.not_lt.mpr h)]

end Lookup

/-- Settles O35: past the check the two results are all that is written; the check raises before any effect. -/
theorem tgLookupResult : Obligations.TgLookupResult := by
  intro s
  refine ⟨fun ha => ?_, fun hf ha => trapsCleanly_of_error (i := .tgLookup) hf (tgLookupBody_of_ge ha)⟩
  refine ⟨_, runCommand_of_ok (i := .tgLookup) (tgLookupBody_of_lt ha), ⟨⟨rfl, rfl, rfl⟩, rfl⟩, rfl, rfl,
    fun hb hrom => ?_, ((lookedUp_writes s).1.mono (by simp)).trans ((keepsAllBut_endCommand _).mono (by simp))⟩
  obtain ⟨_, _, hrom⟩ := hrom
  obtain ⟨_, _, hsin, hcos⟩ := hrom _ ha
  exact ⟨sext64_toInt_of_natAbs_le hb hsin, sext64_toInt_of_natAbs_le hb hcos⟩

end Sys2Proof.Machine
end

section
/-! PROOFS. The size code (30_encoding.md R111, 44_codec_params.md R226): the groups of a size are its digits in the
bijective base 8, which the reader folds. -/

namespace Sys2Proof.Machine

/-! ### The fold of the reader (R226) -/

/-- What the reader folds from the accumulator `bits` on. -/
def foldGroups (bits : Int) (gs : List Nat) : Int := gs.foldl (fun (bits : Int) (g : Nat) => 8 * bits + g + 8) bits

@[simp] theorem foldGroups_nil (bits : Int) : foldGroups bits [] = bits := rfl

@[simp] theorem foldGroups_cons (bits : Int) (g : Nat) (gs : List Nat) :
    foldGroups bits (g :: gs) = foldGroups (8 * bits + g + 8) gs := rfl

theorem foldGroups_concat (bits : Int) (gs : List Nat) (g : Nat) :
    foldGroups bits (gs ++ [g]) = 8 * foldGroups bits gs + g + 8 := by
  rw [foldGroups, List.foldl_append]; rfl

/-- From -1 on the accumulator never falls. -/
theorem le_foldGroups (gs : List Nat) {bits : Int} (h : -1 ≤ bits) : bits ≤ foldGroups bits gs := by
  induction gs generalizing bits with
  | nil => exact le_refl _
  | cons g gs ih => have := ih (bits := 8 * bits + g + 8) (by omega); rw [foldGroups_cons]; omega

/-- A string with a group folds to no negative number. -/
theorem foldGroups_nonneg {gs : List Nat} (h : gs ≠ []) : 0 ≤ foldGroups (-1) gs := by
  obtain ⟨g, gs, rfl⟩ := List.exists_cons_of_ne_nil h
  have := le_foldGroups gs (bits := 8 * -1 + g + 8) (by omega)
  rw [foldGroups_cons]
  omega

theorem eight_le_foldGroups {gs : List Nat} (h : 2 ≤ gs.length) : 8 ≤ foldGroups (-1) gs := by
  obtain ⟨init, g, rfl⟩ := List.eq_nil_or_concat' gs |>.resolve_left (by rintro rfl; simp at h)
  have hinit : init ≠ [] := by rintro rfl; simp at h
  have := foldGroups_nonneg hinit
  rw [foldGroups_concat]
  omega

/-- Strings of groups below 8 that fold to the same number are equal: the last group is the number mod 8. -/
theorem foldGroups_injective {gs gs' : List Nat} (h : ∀ g ∈ gs, g < 8) (h' : ∀ g ∈ gs', g < 8)
    (heq : foldGroups (-1) gs = foldGroups (-1) gs') : gs = gs' := by
  induction gs using List.reverseRecOn generalizing gs' with
  | nil =>
    by_contra hne
    have := foldGroups_nonneg (Ne.symm hne)
    rw [← heq, foldGroups_nil] at this
    omega
  | append_singleton init g ih =>
    rcases List.eq_nil_or_concat' gs' with rfl | ⟨init', g', rfl⟩
    · have := foldGroups_nonneg (gs := init ++ [g]) (by simp)
      rw [heq, foldGroups_nil] at this
      omega
    · rw [foldGroups_concat, foldGroups_concat] at heq
      have hg : g < 8 := h g (by simp)
      have hg' : g' < 8 := h' g' (by simp)
      obtain rfl : g = g' := by omega
      have hinit : init = init' :=
        ih (fun x hx => h x (List.mem_append_left _ hx)) (fun x hx => h' x (List.mem_append_left _ hx)) (by omega)
      rw [hinit]

/-! ### The groups of a size (R111) -/

theorem octalDigits_length (k m : Nat) : (octalDigits k m).length = k := by
  induction k with
  | zero => rfl
  | succ k ih => rw [octalDigits, List.length_cons, ih]

theorem lt_eight_of_mem_octalDigits {k m g : Nat} (h : g ∈ octalDigits k m) : g < 8 := by
  induction k with
  | zero => cases h
  | succ k ih =>
    rcases List.mem_cons.mp h with rfl | h
    · exact Nat.mod_lt _ (by decide)
    · exact ih h

/-- The fold of the `k` digits of `m`, free of division: `k` groups above the accumulator `bits` stand for the numbers from
`8^k * bits + (8^(k+1) - 8) / 7` on. -/
theorem foldGroups_octalDigits (k m : Nat) (bits : Int) :
    7 * foldGroups bits (octalDigits k m) + 8 = 8 ^ k * (7 * bits + 8) + 7 * (m % 8 ^ k : Nat) := by
  induction k generalizing bits with
  | zero => simp [octalDigits, Nat.mod_one]
  | succ k ih =>
    rw [octalDigits, foldGroups_cons, ih, Nat.mod_pow_succ]
    push_cast
    ring

/-- The group count `k` of a size `n`, with `OFF(k)` as the number `off` of `7 * off + 8 = 8^k`: the offset
value fits `k` digits. -/
theorem sizeGroupCount_spec (fuel : Nat) {k off n : Nat} (hk : 2 ≤ k) (hoff : 7 * off + 8 = 8 ^ k) (hle : off ≤ n)
    (hfuel : n < off + 8 ^ k + fuel) :
    2 ≤ (sizeGroupCount fuel k off n).1 ∧ (sizeGroupCount fuel k off n).2 < 8 ^ (sizeGroupCount fuel k off n).1 ∧
      7 * n + 8 = 8 ^ (sizeGroupCount fuel k off n).1 + 7 * (sizeGroupCount fuel k off n).2 := by
  induction fuel generalizing k off with
  | zero =>
    rw [sizeGroupCount]
    dsimp only
    omega
  | succ fuel ih =>
    rw [sizeGroupCount]
    split
    · dsimp only
      omega
    · have hpow : 8 ^ (k + 1) = 8 * 8 ^ k := Nat.pow_succ'
      exact ih (by omega) (by omega) (by omega) (by omega)

/-- The groups of a size: two or more, each below 8, and they fold to it. -/
theorem sizeGroups_spec {n : Nat} {gs : List Nat} (h : sizeGroups n = some gs) :
    2 ≤ gs.length ∧ (∀ g ∈ gs, g < 8) ∧ foldGroups (-1) gs = n := by
  unfold sizeGroups at h
  split at h
  · cases h
  · cases h
    obtain ⟨hk, hm, hn⟩ := sizeGroupCount_spec n (k := 2) (off := 8) (n := n) (by omega) (by norm_num) (by omega) (by omega)
    have hfold := foldGroups_octalDigits (sizeGroupCount n 2 8 n).1 (sizeGroupCount n 2 8 n).2 (-1)
    rw [Nat.mod_eq_of_lt hm] at hfold
    zify at hn
    refine ⟨(octalDigits_length _ _).symm ▸ hk, fun g hg => lt_eight_of_mem_octalDigits hg, by omega⟩

theorem sizeGroups_eq_none_iff (n : Nat) : sizeGroups n = none ↔ n < 8 := by
  unfold sizeGroups
  split
  · exact iff_of_true rfl ‹_›
  · exact iff_of_false nofun ‹_›

theorem sizeGroups_eq_some_iff (n : Nat) (gs : List Nat) :
    sizeGroups n = some gs ↔ 2 ≤ gs.length ∧ (∀ g ∈ gs, g < 8) ∧ foldGroups (-1) gs = n := by
  refine ⟨sizeGroups_spec, fun ⟨hlen, hgs, hfold⟩ => ?_⟩
  have hn := eight_le_foldGroups hlen
  obtain ⟨gs', h⟩ := Option.ne_none_iff_exists'.mp (mt (sizeGroups_eq_none_iff n).mp (by omega))
  obtain ⟨_, hgs', hfold'⟩ := sizeGroups_spec h
  rw [h, foldGroups_injective hgs hgs' (hfold.trans hfold'.symm)]

/-- Settles O40: the groups by `sizeGroups_eq_some_iff`, the values without an encoding by `sizeGroups_eq_none_iff`. -/
theorem sizeCodeIsBijective : Obligations.SizeCodeIsBijective := by
  refine ⟨fun n => (sizeGroups_eq_none_iff n).symm, fun n hn => ?_, sizeGroups_eq_some_iff,
    fun gs hlen _ => eight_le_foldGroups hlen⟩
  rw [reSizeLine, sizeSymbols, (sizeGroups_eq_none_iff n).mpr hn]
  rfl

end Sys2Proof.Machine
end

section
/-! PROOFS. Reading a size (44_codec_params.md R226): what each round of the reader's loop does, the symbols of a size up to
`DIM_MAX` and above it, and `CP.SIZE` (R232). -/

namespace Sys2Proof.Machine

/-! ### One round of the loop -/

section Round

variable {c : Config} {n g f : Nat} {bits : Int} {s u v : State}

/-- A round that has read its group goes on with the check of the folded value. -/
theorem readSizeLoop_succ (h : ReadsSymbol c.sizeGroupTotal g s u) :
    readSizeLoop c (n + 1) bits s =
      (require (8 * bits + g + 8 ≤ c.dimMax) .corruptSize >>= fun _ =>
        if 8 * bits + g + 8 < 8 then readSizeLoop c n (8 * bits + g + 8)
        else readNumber 2 >>= fun f =>
          if f = 1 then readSizeLoop c n (8 * bits + g + 8) else pure (8 * bits + g + 8).toNat) u :=
  bind_of_ok (readNumber_eq_ok.mpr h)

theorem readSizeLoop_above (h : ReadsSymbol c.sizeGroupTotal g s u) (hbig : c.dimMax < 8 * bits + g + 8) :
    readSizeLoop c (n + 1) bits s = .error .corruptSize u := by
  rw [readSizeLoop_succ h, require_bind_of_false _ _ _ (Int.not_le.mpr hbig)]

/-- The first group is followed by the second without a flag. -/
theorem readSizeLoop_first (h : ReadsSymbol c.sizeGroupTotal g s u) (hle : 8 * bits + g + 8 ≤ c.dimMax)
    (hlt : 8 * bits + g + 8 < 8) : readSizeLoop c (n + 1) bits s = readSizeLoop c n (8 * bits + g + 8) u := by
  rw [readSizeLoop_succ h, require_bind_of_true _ _ _ hle, if_pos hlt]

/-- From the second group on a flag 1 asks for one more group. -/
theorem readSizeLoop_more (h : ReadsSymbol c.sizeGroupTotal g s u) (hle : 8 * bits + g + 8 ≤ c.dimMax) (hbits : 0 ≤ bits)
    (hflag : ReadsSymbol 2 1 u v) : readSizeLoop c (n + 1) bits s = readSizeLoop c n (8 * bits + g + 8) v := by
  rw [readSizeLoop_succ h, require_bind_of_true _ _ _ hle, if_neg (by omega), bind_of_ok (readNumber_eq_ok.mpr hflag),
    if_pos rfl]

/-- From the second group on a flag 0 ends the size. -/
theorem readSizeLoop_end (h : ReadsSymbol c.sizeGroupTotal g s u) (hle : 8 * bits + g + 8 ≤ c.dimMax) (hbits : 0 ≤ bits)
    (hflag : ReadsSymbol 2 0 u v) : readSizeLoop c (n + 1) bits s = .ok (8 * bits + g + 8).toNat v := by
  rw [readSizeLoop_succ h, require_bind_of_true _ _ _ hle, if_neg (by omega), bind_of_ok (readNumber_eq_ok.mpr hflag),
    if_neg (by decide)]
  rfl

end Round

/-! ### The groups from the second on -/

theorem sizeTail_ne_nil (total : Nat) (gs : List Nat) : sizeTail total gs ≠ [] := by
  cases gs <;> exact List.cons_ne_nil _ _

theorem dropLast_sizeTail_cons (total g : Nat) (gs : List Nat) :
    (sizeTail total (g :: gs)).dropLast = (2, 1) :: (total, g) :: (sizeTail total gs).dropLast := by
  rw [sizeTail, List.dropLast_cons_of_ne_nil (List.cons_ne_nil _ _), List.dropLast_cons_of_ne_nil (sizeTail_ne_nil _ _)]

section Groups

variable {c : Config} {bits : Int} {s u : State}

/-- The rounds are enough, since the accumulator grows with every group and stays at `DIM_MAX` or below. -/
theorem readSizeLoop_of_reads (gs : List Nat) {n g : Nat} (hbits : 0 ≤ bits) (hrounds : c.dimMax ≤ bits + n)
    (hle : foldGroups bits (g :: gs) ≤ c.dimMax)
    (h : ReadsSymbols ((c.sizeGroupTotal, g) :: sizeTail c.sizeGroupTotal gs) s u) :
    readSizeLoop c (n + 1) bits s = .ok (foldGroups bits (g :: gs)).toNat u := by
  induction gs generalizing bits s n g with
  | nil =>
    obtain ⟨v, hg, w, hflag, rfl⟩ := h
    exact readSizeLoop_end hg hle hbits hflag
  | cons g' gs ih =>
    obtain ⟨v, hg, w, hflag, htail⟩ := h
    rw [foldGroups_cons] at hle ⊢
    have hgrow := le_foldGroups (g' :: gs) (bits := 8 * bits + g + 8) (by omega)
    obtain ⟨m, rfl⟩ : ∃ m, n = m + 1 := Nat.exists_eq_succ_of_ne_zero (by omega)
    rw [readSizeLoop_more hg (by omega) hbits hflag]
    exact ih (by omega) (by omega) hle htail

/-- Where the last group takes the size above `DIM_MAX`, the loop faults after it. -/
theorem readSizeLoop_of_reads_above (gs : List Nat) {n g : Nat} (hbits : 0 ≤ bits) (hrounds : c.dimMax ≤ bits + n)
    (hbig : c.dimMax < foldGroups bits (g :: gs)) (hle : foldGroups bits (g :: gs) ≤ 8 * c.dimMax + 15)
    (h : ReadsSymbols ((c.sizeGroupTotal, g) :: (sizeTail c.sizeGroupTotal gs).dropLast) s u) :
    readSizeLoop c (n + 1) bits s = .error .corruptSize u := by
  induction gs generalizing bits s n g with
  | nil =>
    obtain ⟨v, hg, rfl⟩ := h
    exact readSizeLoop_above hg hbig
  | cons g' gs ih =>
    rw [dropLast_sizeTail_cons] at h
    obtain ⟨v, hg, w, hflag, htail⟩ := h
    rw [foldGroups_cons] at hle hbig
    have hgrow := le_foldGroups gs (bits := 8 * (8 * bits + g + 8) + g' + 8) (by omega)
    rw [← foldGroups_cons] at hgrow
    obtain ⟨m, rfl⟩ : ∃ m, n = m + 1 := Nat.exists_eq_succ_of_ne_zero (by omega)
    rw [readSizeLoop_more hg (by omega) hbits hflag]
    exact ih (by omega) (by omega) hbig hle htail

end Groups

/-! ### The whole size -/

/-- The symbols of a size, group by group. -/
theorem sizeSymbols_eq_some {total n : Nat} {symbols : List (Nat × Nat)} (h : sizeSymbols total n = some symbols) :
    ∃ g₁ g₂ gs, symbols = (total, g₁) :: (total, g₂) :: sizeTail total gs ∧ g₁ < 8 ∧
      foldGroups g₁ (g₂ :: gs) = n := by
  obtain ⟨l, hl, rfl⟩ := Option.map_eq_some_iff.mp h
  obtain ⟨hlen, hlt, hfold⟩ := sizeGroups_spec hl
  match l with
  | g₁ :: g₂ :: gs =>
    refine ⟨g₁, g₂, gs, rfl, hlt g₁ (by simp), ?_⟩
    rwa [foldGroups_cons, show (8 * -1 + g₁ + 8 : Int) = g₁ by omega] at hfold

/-- A size up to `DIM_MAX` reads back. -/
theorem readSize_of_reads {s u : State} {n : Nat} {symbols : List (Nat × Nat)}
    (hsize : sizeSymbols s.cfg.sizeGroupTotal n = some symbols) (hn : n ≤ s.cfg.dimMax) (h : ReadsSymbols symbols s u) :
    readSize s = .ok n u := by
  obtain ⟨g₁, g₂, gs, rfl, hg₁, hfold⟩ := sizeSymbols_eq_some hsize
  obtain ⟨v, hfirst, hrest⟩ := h
  have hgrow := le_foldGroups (g₂ :: gs) (bits := g₁) (by omega)
  have hg : (8 * -1 + g₁ + 8 : Int) = g₁ := by omega
  calc readSize s
      = readSizeLoop s.cfg (s.cfg.dimMax + 1) g₁ v := by
        rw [readSize, get_bind, Config.sizeRounds, readSizeLoop_first hfirst (by omega) (by omega), hg]
    _ = .ok n u := by
        rw [readSizeLoop_of_reads gs (by omega) (by omega) (by omega) hrest, hfold, Int.toNat_natCast]

/-- A size above `DIM_MAX` faults after its last group, where the groups before it do not. -/
theorem readSize_of_reads_above {s u : State} {n : Nat} {symbols : List (Nat × Nat)}
    (hsize : sizeSymbols s.cfg.sizeGroupTotal n = some symbols) (hbig : s.cfg.dimMax < n) (hn : n ≤ 8 * s.cfg.dimMax + 15)
    (h : ReadsSymbols symbols.dropLast s u) : readSize s = .error .corruptSize u := by
  obtain ⟨g₁, g₂, gs, rfl, hg₁, hfold⟩ := sizeSymbols_eq_some hsize
  rw [List.dropLast_cons_of_ne_nil (List.cons_ne_nil _ _), List.dropLast_cons_of_ne_nil (sizeTail_ne_nil _ _)] at h
  obtain ⟨v, hfirst, hrest⟩ := h
  have hgrow := le_foldGroups gs (bits := 8 * g₁ + g₂ + 8) (by omega)
  rw [← foldGroups_cons] at hgrow
  have hg : (8 * -1 + g₁ + 8 : Int) = g₁ := by omega
  calc readSize s
      = readSizeLoop s.cfg (s.cfg.dimMax + 1) g₁ v := by
        rw [readSize, get_bind, Config.sizeRounds, readSizeLoop_first hfirst (by omega) (by omega), hg]
    _ = .error .corruptSize u := readSizeLoop_of_reads_above gs (by omega) (by omega) (by omega) (by omega) hrest

/-! ### `CP.SIZE` (R232) -/

theorem cpSizeBody_checked {s : State} (hready : s.rd.state = .ready) :
    cpSizeBody s = (readSize >>= fun n => setRes0 (zext64 n)) s := by
  unfold cpSizeBody
  rw [get_bind, require_bind_of_true _ _ _ hready]

theorem cpSizeBody_protocol {s : State} (hready : s.rd.state ≠ .ready) : cpSizeBody s = .error .protocolDecoder s := by
  unfold cpSizeBody
  rw [get_bind, require_bind_of_false _ _ _ hready]

/-- Settles O39: a size that is read by `readSize_of_reads`, one above `DIM_MAX` by `readSize_of_reads_above`. -/
theorem cpSizeResult : Obligations.CpSizeResult := by
  intro s
  refine ⟨fun n symbols u _ hready hsize hn hreads => ?_, fun n symbols u hf hready hsize hbig hn hreads => ?_,
    fun hf hready => trapsCleanly_of_error (i := .cpSize) hf (cpSizeBody_protocol hready)⟩
  · have hmoved := hreads.onlyDecoderMoved
    have hbody := (cpSizeBody_checked hready).trans (bind_of_ok (readSize_of_reads hsize hn hreads))
    exact ⟨_, runCommand_of_ok (i := .cpSize) hbody, hmoved.onlyPadMoved.completed, rfl, rfl, rfl,
      keepsAllBut_endCommand_withRes0 hmoved _⟩
  · have hbody := (cpSizeBody_checked hready).trans (bind_of_error (readSize_of_reads_above hsize hbig hn hreads))
    obtain ⟨t, ht, hfault, hrd, _, hframe⟩ := runCommand_decoder_fault (i := .cpSize) hf hreads.onlyDecoderMoved hbody
    exact ⟨t, ht, hfault, hrd, hframe⟩

end Sys2Proof.Machine
end

section
/-! PROOFS. Loading the bank (44_codec_params.md R224, R225): `CP.SETCODE` (R230). -/

namespace Sys2Proof.Machine

/-! ### The derived bank (R224, R225) -/

theorem setCode_cp (code : Nat) (s : State) :
    (setCode code s).cp =
      s.cp.loadDerived code (deriveFor s.cfg.derive code s.cp.width.toNat s.cp.height.toNat) := rfl

/-! ### `CP.SETCODE` (R230) -/

section SetCode

variable {s : State}

theorem cpSetcodeBody_of_valid (hphase : s.ft.phase ≠ .build) (hcode : s.operand0 < s.cfg.maxCode)
    (hdims : s.dimsValid = true) : cpSetcodeBody s = .ok () ((setCode s.operand0 s).withRes0 s.arg0) := by
  unfold cpSetcodeBody
  rw [get_bind, require_bind_of_true _ _ _ hphase, require_bind_of_true _ _ _ hcode, require_bind_of_true _ _ _ hdims]
  rfl

theorem cpSetcodeBody_lock (hphase : s.ft.phase = .build) : cpSetcodeBody s = .error .protocolLock s := by
  unfold cpSetcodeBody
  rw [get_bind, require_bind_of_false _ _ _ (not_not_intro hphase)]

theorem cpSetcodeBody_code (hphase : s.ft.phase ≠ .build) (hcode : s.cfg.maxCode ≤ s.operand0) :
    cpSetcodeBody s = .error .argValue s := by
  unfold cpSetcodeBody
  rw [get_bind, require_bind_of_true _ _ _ hphase, require_bind_of_false _ _ _ (Nat.not_lt.mpr hcode)]

theorem cpSetcodeBody_dims (hphase : s.ft.phase ≠ .build) (hcode : s.operand0 < s.cfg.maxCode)
    (hdims : s.dimsValid = false) : cpSetcodeBody s = .error .argBank s := by
  unfold cpSetcodeBody
  rw [get_bind, require_bind_of_true _ _ _ hphase, require_bind_of_true _ _ _ hcode,
    require_bind_of_false _ _ _ (Bool.eq_false_iff.mp hdims)]

end SetCode

theorem zext64_word_toNat (v : Word) : zext64 v.toNat = v := by
  rw [zext64, BitVec.ofNat_toNat, BitVec.setWidth_eq]

/-- Settles O37: past the checks the bank is the derivation's, valid by its contract. -/
theorem cpSetcodeResult : Obligations.CpSetcodeResult := by
  intro s
  refine ⟨fun hphase hcode hdims => ?_,
    fun hf hphase => trapsCleanly_of_error (i := .cpSetcode) hf (cpSetcodeBody_lock hphase),
    fun hf hphase hcode => trapsCleanly_of_error (i := .cpSetcode) hf (cpSetcodeBody_code hphase hcode),
    fun hf hphase hcode hdims => trapsCleanly_of_error (i := .cpSetcode) hf (cpSetcodeBody_dims hphase hcode hdims)⟩
  refine ⟨_, runCommand_of_ok (i := .cpSetcode) (cpSetcodeBody_of_valid hphase hcode hdims), ⟨⟨rfl, rfl, rfl⟩, rfl⟩, rfl,
    ?_, fun hderive hpal => ?_, ?_⟩
  · show (setCode s.operand0 s).cp = _
    rw [setCode_cp, CpRegs.loadDerived, State.operand0, zext64_word_toNat]
  · obtain ⟨hw, hh⟩ := Bool.and_eq_true_iff.mp hdims
    exact hderive s.cp s.operand0 hcode hw hh hpal
  · exact (((setCode_writes _ s).mono (by decide)).trans (WritesOnly.withRes0 (by decide) _ _)).1.trans
      ((keepsAllBut_endCommand _).mono (by decide))

end Sys2Proof.Machine
end

section
/-! PROOFS. The header that `CP.READ` (44_codec_params.md R226, R227, R231) takes from the stream: reading a symbol does not
look at the bank or the palette, so what the header writes between its symbols can be put after them all. -/

namespace Sys2Proof.Machine

/-! ### What a symbol does not look at (R142 to R149) -/

/-- A change of the state that the decoder neither sees nor makes: it commutes with what reading a symbol writes. -/
structure DecoderBlind (f : State → State) : Prop where
  inMem : ∀ s, (f s).inMem = s.inMem
  rd : ∀ s, (f s).rd = s.rd
  pad : ∀ s, (f s).status.pad = s.status.pad
  moves : ∀ s r p, f ((s.withRd r).withStatus { s.status with pad := p }) =
    ((f s).withRd r).withStatus { (f s).status with pad := p }

theorem decoderBlind_withCp (g : State → CpRegs) (hg : ∀ s r v, g ((s.withRd r).withStatus v) = g s) :
    DecoderBlind (fun s => s.withCp (g s)) :=
  ⟨fun _ => rfl, fun _ => rfl, fun _ => rfl, fun s r p => by dsimp only; rw [hg]; rfl⟩

theorem decoderBlind_putPal (i : Nat) (v : Colour) : DecoderBlind (fun s => s.putPal i v) :=
  ⟨fun _ => rfl, fun _ => rfl, fun _ => rfl, fun _ _ _ => rfl⟩

section Blind

variable {f : State → State} {s u : State}

theorem TookBytes.map (hf : DecoderBlind f) {k : Nat} (h : TookBytes k s u) : TookBytes k (f s) (f u) := by
  have hamong : (f s).inputAmong k = s.inputAmong k := by rw [State.inputAmong, State.inputAmong, hf.rd]
  have hstream : (f s).streamByte = s.streamByte := by
    funext j
    rw [State.streamByte, State.streamByte, State.inByte, State.inByte, hf.rd, hf.inMem]
  unfold TookBytes at *
  rwa [hamong, hstream, hf.rd, hf.rd, hf.pad, hf.pad]

theorem ReadsSymbol.map (hf : DecoderBlind f) {max v : Nat} (h : ReadsSymbol max v s u) : ReadsSymbol max v (f s) (f u) := by
  unfold ReadsSymbol at *
  split at h
  · obtain ⟨hv, rfl⟩ := h
    rw [if_pos ‹_›]
    exact ⟨hv, rfl⟩
  · rw [if_neg ‹_›, hf.rd, hf.rd, hf.pad]
    obtain ⟨hv, hcount, c, k, hnorm, htook, hcoder, hstate, htotal, hpending, hu⟩ := h
    refine ⟨hv, hcount, c, k, hnorm, htook.map hf, hcoder, hstate, htotal, hpending, ?_⟩
    conv_lhs => rw [hu]
    exact hf.moves s u.rd u.status.pad

theorem ReadsSymbols.map (hf : DecoderBlind f) {l : List (Nat × Nat)} (h : ReadsSymbols l s u) :
    ReadsSymbols l (f s) (f u) := by
  induction l generalizing s with
  | nil => exact congrArg f h
  | cons q l ih =>
    obtain ⟨v, hq, hl⟩ := h
    exact ⟨f v, hq.map hf, ih hl⟩

end Blind

theorem OnlyDecoderMoved.cfg_eq {s t : State} (h : OnlyDecoderMoved s t) : t.cfg = s.cfg := by rw [h]; rfl

theorem OnlyDecoderMoved.cp_eq {s t : State} (h : OnlyDecoderMoved s t) : t.cp = s.cp := by rw [h]; rfl

theorem OnlyDecoderMoved.palEntry_eq {s t : State} (h : OnlyDecoderMoved s t) : t.palEntry = s.palEntry := by rw [h]; rfl

/-! ### The sizes (R231) -/

/-- The sizes of a header written to the bank. -/
def State.withDims (s : State) (w h : Nat) : State := s.withCp { s.cp with width := zext64 w, height := zext64 h }

theorem readDims_of_reads {s v u : State} {w h : Nat} {ws hs : List (Nat × Nat)}
    (hw : sizeSymbols s.cfg.sizeGroupTotal w = some ws) (hwmax : w ≤ s.cfg.dimMax)
    (hh : sizeSymbols s.cfg.sizeGroupTotal h = some hs) (hhmax : h ≤ s.cfg.dimMax)
    (hreadw : ReadsSymbols ws s v) (hreadh : ReadsSymbols hs v u) : readDims s = .ok () (u.withDims w h) := by
  have hcfg := hreadw.onlyDecoderMoved.cfg_eq
  have hwidth : DecoderBlind (fun t => t.withCp { t.cp with width := zext64 w }) :=
    decoderBlind_withCp _ fun _ _ _ => rfl
  unfold readDims
  rw [bind_of_ok (readSize_of_reads hw hwmax hreadw), update_bind,
    bind_of_ok (readSize_of_reads (hcfg ▸ hh) (hcfg ▸ hhmax) (hreadh.map hwidth))]
  rfl

/-! ### The palette (R227) -/

/-- The colour of three channels as `PAL` holds it. -/
def opaqueColour (q : Nat × Nat × Nat) : Colour := ⟨BitVec.ofNat 8 q.1, BitVec.ofNat 8 q.2.1, BitVec.ofNat 8 q.2.2, 255⟩

/-- `PAL` holds the colours from index `i` on. -/
def State.withColours (s : State) (i : Nat) (colours : List (Nat × Nat × Nat)) : State :=
  { s with palMem := Memory.writeList (colours.map opaqueColour) i s.palMem }

@[simp] theorem withColours_rd (s : State) (i : Nat) (colours : List (Nat × Nat × Nat)) :
    (s.withColours i colours).rd = s.rd := rfl

@[simp] theorem withColours_cfg (s : State) (i : Nat) (colours : List (Nat × Nat × Nat)) :
    (s.withColours i colours).cfg = s.cfg := rfl

@[simp] theorem withColours_status (s : State) (i : Nat) (colours : List (Nat × Nat × Nat)) :
    (s.withColours i colours).status = s.status := rfl

theorem withColours_palEntry (s : State) (colours : List (Nat × Nat × Nat)) (k : Nat) :
    (s.withColours 0 colours).palEntry k = (colours[k]?.map opaqueColour).getD (s.palEntry k) := by
  rw [State.palEntry, State.withColours, Memory.read?_writeList, List.length_map, Nat.sub_zero, List.getElem?_map]
  by_cases hk : k < colours.length
  · rw [if_pos (by omega), List.getElem?_eq_getElem hk]
    rfl
  · rw [if_neg (by omega), List.getElem?_eq_none (by omega)]
    rfl

/-- The symbols of the channels of a palette's colours. -/
def channelSymbols (colours : List (Nat × Nat × Nat)) : List (Nat × Nat) :=
  colours.flatMap (fun q => [(256, q.1), (256, q.2.1), (256, q.2.2)])

theorem readPaletteLoop_of_reads (colours : List (Nat × Nat × Nat)) (i : Nat) {s u : State}
    (h : ReadsSymbols (channelSymbols colours) s u) :
    readPaletteLoop colours.length i s = .ok () (u.withColours i colours) := by
  induction colours generalizing s u i with
  | nil =>
    obtain rfl : u = s := h
    rfl
  | cons q colours ih =>
    obtain ⟨v₁, hr, v₂, hg, v₃, hb, hrest⟩ := h
    rw [List.length_cons, readPaletteLoop, bind_of_ok (readNumber_eq_ok.mpr hr), bind_of_ok (readNumber_eq_ok.mpr hg),
      bind_of_ok (readNumber_eq_ok.mpr hb), update_bind]
    exact ih (i + 1) (ReadsSymbols.map (decoderBlind_putPal i (opaqueColour q)) hrest)

/-- The palette of a header written to `PAL` and to the bank. -/
def State.withPalette (s : State) (colours : List (Nat × Nat × Nat)) : State :=
  (s.withColours 0 colours).withCp { s.cp with palSize := zext64 colours.length }

theorem readPalette_of_reads {s v u : State} {colours : List (Nat × Nat × Nat)}
    (hcount : ReadsSymbol (s.cfg.paletteMax + 1) colours.length s v) (h : ReadsSymbols (channelSymbols colours) v u) :
    readPalette s = .ok () (u.withPalette colours) := by
  unfold readPalette
  rw [get_bind, bind_of_ok (readNumber_eq_ok.mpr hcount), bind_of_ok (readPaletteLoop_of_reads colours 0 h)]
  rfl

/-! ### The header (R231) -/

/-- What a header leaves in the bank and in `PAL` after its sizes. -/
def State.withHeader (s : State) (code : Nat) (colours : List (Nat × Nat × Nat)) : State :=
  (setCode code s).withPalette colours

/-- The symbols of a header after its sizes. -/
def codeSymbols (c : Config) (code : Nat) (colours : List (Nat × Nat × Nat)) : List (Nat × Nat) :=
  (c.maxCode, code) :: (c.paletteMax + 1, colours.length) :: channelSymbols colours

theorem headerSymbols_none (c : Config) (code : Nat) (colours : List (Nat × Nat × Nat)) :
    headerSymbols c none code colours = codeSymbols c code colours := rfl

theorem headerSymbols_some {c : Config} {w h : Nat} {ws hs : List (Nat × Nat)} (hw : sizeSymbols c.sizeGroupTotal w = some ws)
    (hh : sizeSymbols c.sizeGroupTotal h = some hs) (code : Nat) (colours : List (Nat × Nat × Nat)) :
    headerSymbols c (some (w, h)) code colours = ws ++ (hs ++ codeSymbols c code colours) := by
  simp only [headerSymbols, codeSymbols, channelSymbols, hw, hh, Option.getD_some, List.append_assoc, List.cons_append,
    List.nil_append]

/-- A code and a palette count that are read lie within their parameters. -/
theorem code_palette_bounds {c : Config} {code : Nat} {colours : List (Nat × Nat × Nat)} {s u : State} (hb : c.Bounds)
    (h : ReadsSymbols (codeSymbols c code colours) s u) : code < c.maxCode ∧ colours.length ≤ c.paletteMax := by
  obtain ⟨v, hcode, w, hcount, _⟩ := h
  obtain ⟨hmax, _⟩ := hb
  have := hcode.le_pred
  have := hcount.le_pred
  omega

/-- `ReadHeader` after the sizes. -/
def readCodeAndPalette : Cmd Nat := do
  let s ← get
  let code ← readNumber s.cfg.maxCode
  update (setCode code)
  readPalette
  pure code

theorem readHeader_eq (flags : Nat) :
    readHeader flags = if flags % 2 = 0 then readDims >>= fun _ => readCodeAndPalette else readCodeAndPalette := rfl

theorem readCodeAndPalette_of_reads {s u : State} {code : Nat} {colours : List (Nat × Nat × Nat)}
    (h : ReadsSymbols (codeSymbols s.cfg code colours) s u) :
    readCodeAndPalette s = .ok code (u.withHeader code colours) := by
  obtain ⟨v, hcode, w, hcount, hcolours⟩ := h
  have hblind : DecoderBlind (setCode code) := decoderBlind_withCp _ fun _ _ _ => rfl
  have hcfg : (setCode code v).cfg = s.cfg := hcode.onlyDecoderMoved.cfg_eq
  have hpalette := readPalette_of_reads (hcfg ▸ hcount.map hblind) (hcolours.map hblind)
  unfold readCodeAndPalette
  rw [get_bind, bind_of_ok (readNumber_eq_ok.mpr hcode), update_bind, bind_of_ok hpalette]
  rfl

/-- The sizes that a header gives are those of the stream, or, without them, those that the bank has (R231). -/
def HeaderSizes (s : State) (dims : Option (Nat × Nat)) (w h : Nat) : Prop :=
  (s.arg0 = 0 ∧ dims = some (w, h) ∧ 8 ≤ w ∧ w ≤ s.cfg.dimMax ∧ 8 ≤ h ∧ h ≤ s.cfg.dimMax) ∨
    (s.arg0 = 1 ∧ dims = none ∧ s.dimsValid = true ∧ w = s.cp.width.toNat ∧ h = s.cp.height.toNat)

theorem exists_sizeSymbols {n : Nat} (total : Nat) (h : 8 ≤ n) : ∃ symbols, sizeSymbols total n = some symbols := by
  obtain ⟨gs, hgs⟩ := Option.ne_none_iff_exists'.mp (mt (sizeGroups_eq_none_iff n).mp (Nat.not_lt.mpr h))
  exact ⟨_, congrArg (Option.map (groupSymbols total)) hgs⟩

section Header

variable {s u : State} {dims : Option (Nat × Nat)} {w h code : Nat} {colours : List (Nat × Nat × Nat)}

/-- A header that the stream holds is read, and leaves its sizes, code and palette. -/
theorem readHeader_of_reads (hsizes : HeaderSizes s dims w h)
    (hreads : ReadsSymbols (headerSymbols s.cfg dims code colours) s u) :
    readHeader s.operand0 s = .ok code ((u.withDims w h).withHeader code colours) := by
  rw [readHeader_eq]
  rcases hsizes with ⟨harg, rfl, hw, hwmax, hh, hhmax⟩ | ⟨harg, rfl, _, rfl, rfl⟩
  · obtain ⟨ws, hws⟩ := exists_sizeSymbols s.cfg.sizeGroupTotal hw
    obtain ⟨hs, hhs⟩ := exists_sizeSymbols s.cfg.sizeGroupTotal hh
    rw [headerSymbols_some hws hhs] at hreads
    obtain ⟨v₁, hreadw, hreads⟩ := readsSymbols_append.mp hreads
    obtain ⟨v₂, hreadh, hreads⟩ := readsSymbols_append.mp hreads
    have hblind : DecoderBlind (fun t => t.withDims w h) := decoderBlind_withCp _ fun _ _ _ => rfl
    have hcfg : (v₂.withDims w h).cfg = s.cfg := (hreadw.onlyDecoderMoved.trans hreadh.onlyDecoderMoved).cfg_eq
    rw [if_pos (by rw [State.operand0, harg]; rfl), bind_of_ok (readDims_of_reads hws hwmax hhs hhmax hreadw hreadh)]
    exact readCodeAndPalette_of_reads (hcfg ▸ hreads.map hblind)
  · have hsame : u.withDims s.cp.width.toNat s.cp.height.toNat = u := by
      rw [State.withDims, zext64_word_toNat, zext64_word_toNat, ← hreads.onlyDecoderMoved.cp_eq]
      rfl
    rw [if_neg (by rw [State.operand0, harg]; decide), hsame]
    exact readCodeAndPalette_of_reads hreads

/-- The code and the palette count of a header that is read lie within their parameters. -/
theorem header_bounds (hb : s.cfg.Bounds) (hsizes : HeaderSizes s dims w h)
    (hreads : ReadsSymbols (headerSymbols s.cfg dims code colours) s u) :
    code < s.cfg.maxCode ∧ colours.length ≤ s.cfg.paletteMax := by
  rcases hsizes with ⟨_, rfl, hw, _, hh, _⟩ | ⟨_, rfl, _⟩
  · obtain ⟨ws, hws⟩ := exists_sizeSymbols s.cfg.sizeGroupTotal hw
    obtain ⟨hs, hhs⟩ := exists_sizeSymbols s.cfg.sizeGroupTotal hh
    rw [headerSymbols_some hws hhs] at hreads
    obtain ⟨_, _, hreads⟩ := readsSymbols_append.mp hreads
    obtain ⟨_, _, hreads⟩ := readsSymbols_append.mp hreads
    exact code_palette_bounds hb hreads
  · exact code_palette_bounds hb hreads

theorem dimOk_zext64 {dimMax n : Nat} (hmax : dimMax < 2 ^ 31) (hpos : 1 ≤ n) (hle : n ≤ dimMax) :
    dimOk dimMax (zext64 n) = true := by
  rw [dimOk, zext64_toNat (by omega), decide_eq_true hpos, decide_eq_true hle]
  rfl

/-- The sizes of a header are valid ones. -/
theorem HeaderSizes.dimOk (hb : s.cfg.Bounds) (hsizes : HeaderSizes s dims w h) :
    Machine.dimOk s.cfg.dimMax (zext64 w) = true ∧ Machine.dimOk s.cfg.dimMax (zext64 h) = true := by
  obtain ⟨_, _, _, _, _, _, _, _, _, _, _, _, _, hmax, _⟩ := hb
  rcases hsizes with ⟨_, _, hw, hwmax, hh, hhmax⟩ | ⟨_, _, hvalid, rfl, rfl⟩
  · exact ⟨dimOk_zext64 hmax (by omega) hwmax, dimOk_zext64 hmax (by omega) hhmax⟩
  · rw [zext64_word_toNat, zext64_word_toNat]
    exact Bool.and_eq_true_iff.mp hvalid

theorem HeaderSizes.lt (hb : s.cfg.Bounds) (hsizes : HeaderSizes s dims w h) : w < 2 ^ 64 ∧ h < 2 ^ 64 := by
  obtain ⟨_, _, _, _, _, _, _, _, _, _, _, _, _, hmax, _⟩ := hb
  rcases hsizes with ⟨_, _, _, hwmax, _, hhmax⟩ | ⟨_, _, _, rfl, rfl⟩
  · omega
  · exact ⟨s.cp.width.isLt, s.cp.height.isLt⟩

theorem HeaderSizes.flags (hsizes : HeaderSizes s dims w h) :
    s.operand0 < 2 ∧ (s.operand0 = 1 → s.dimsValid = true) := by
  rcases hsizes with ⟨harg, _⟩ | ⟨harg, _, hvalid, _⟩
  · rw [State.operand0, harg]
    exact ⟨by decide, fun h => absurd h (by decide)⟩
  · rw [State.operand0, harg]
    exact ⟨by decide, fun _ => hvalid⟩

/-- The bank of a header: its sizes and its palette's size, and what is derived from the code and the sizes. -/
theorem withDims_withHeader_cp (u : State) (w h code : Nat) (colours : List (Nat × Nat × Nat)) :
    ((u.withDims w h).withHeader code colours).cp =
      { u.cp with width := zext64 w, height := zext64 h, palSize := zext64 colours.length }.loadDerived code
        (deriveFor u.cfg.derive code (zext64 w).toNat (zext64 h).toNat) := rfl

theorem withDims_withHeader_rd (u : State) (w h code : Nat) (colours : List (Nat × Nat × Nat)) :
    ((u.withDims w h).withHeader code colours).rd = u.rd := by
  rw [State.withHeader, State.withPalette, withCp_rd, withColours_rd, setCode, withCp_rd, State.withDims, withCp_rd]

theorem withDims_withHeader_cfg (u : State) (w h code : Nat) (colours : List (Nat × Nat × Nat)) :
    ((u.withDims w h).withHeader code colours).cfg = u.cfg := by
  rw [State.withHeader, State.withPalette, withCp_cfg, withColours_cfg, setCode, withCp_cfg, State.withDims, withCp_cfg]

theorem withDims_withHeader_status (u : State) (w h code : Nat) (colours : List (Nat × Nat × Nat)) :
    ((u.withDims w h).withHeader code colours).status = u.status := by
  rw [State.withHeader, State.withPalette, withCp_status, withColours_status, setCode, withCp_status, State.withDims,
    withCp_status]

theorem withDims_withHeader_palEntry (u : State) (w h code : Nat) (colours : List (Nat × Nat × Nat)) (k : Nat) :
    ((u.withDims w h).withHeader code colours).palEntry k = (colours[k]?.map opaqueColour).getD (u.palEntry k) :=
  withColours_palEntry _ colours k

/-- A header gives a valid bank where `DeriveParams` keeps its contract (R224). -/
theorem withDims_withHeader_paramsValid (hb : u.cfg.Bounds) (hderive : u.cfg.DeriveOk)
    (hw : dimOk u.cfg.dimMax (zext64 w) = true) (hh : dimOk u.cfg.dimMax (zext64 h) = true) (hcode : code < u.cfg.maxCode)
    (hcount : colours.length ≤ u.cfg.paletteMax) :
    ((u.withDims w h).withHeader code colours).paramsValid = true := by
  obtain ⟨_, _, hpal, _⟩ := hb
  rw [State.paramsValid, withDims_withHeader_cp, withDims_withHeader_cfg]
  refine hderive { u.cp with width := zext64 w, height := zext64 h, palSize := zext64 colours.length } code hcode hw hh ?_
  rw [zext64_toNat (by omega)]
  exact hcount

end Header

/-! ### `CP.READ` (R231) -/

section Read

variable {s t u : State}

/-- The results of `CP.READ`. -/
def State.withHeaderResults (t : State) (code : Nat) : State :=
  (((t.withRes0 t.cp.width).withRes1 t.cp.height).withRes2 (zext64 code)).withRes3 t.cp.palSize

theorem withHeaderResults_writes (t : State) (code : Nat) :
    WritesOnly [.res0, .res1, .res2, .res3] t (t.withHeaderResults code) :=
  ((WritesOnly.withRes0 (by decide) t _).trans (WritesOnly.withRes1 (by decide) _ _)).trans
    ((WritesOnly.withRes2 (by decide) _ _).trans (WritesOnly.withRes3 (by decide) _ _))

/-- `CP.READ` past its checks. -/
theorem cpReadBody_checked (hready : s.rd.state = .ready) (hphase : s.ft.phase ≠ .build) (hflags : s.operand0 < 2)
    (hdims : s.operand0 = 1 → s.dimsValid = true) {code : Nat} (h : readHeader s.operand0 s = .ok code t) :
    cpReadBody s = .ok () (t.withHeaderResults code) := by
  unfold cpReadBody
  rw [get_bind, require_bind_of_true _ _ _ hready, require_bind_of_true _ _ _ hphase, require_bind_of_true _ _ _ hflags,
    require_bind_of_true _ _ _ hdims, bind_of_ok h]
  rfl

theorem cpReadBody_protocol (hready : s.rd.state ≠ .ready) : cpReadBody s = .error .protocolDecoder s := by
  unfold cpReadBody
  rw [get_bind, require_bind_of_false _ _ _ hready]

theorem cpReadBody_lock (hready : s.rd.state = .ready) (hphase : s.ft.phase = .build) :
    cpReadBody s = .error .protocolLock s := by
  unfold cpReadBody
  rw [get_bind, require_bind_of_true _ _ _ hready, require_bind_of_false _ _ _ (not_not_intro hphase)]

theorem cpReadBody_flags (hready : s.rd.state = .ready) (hphase : s.ft.phase ≠ .build) (hflags : 2 ≤ s.operand0) :
    cpReadBody s = .error .argValue s := by
  unfold cpReadBody
  rw [get_bind, require_bind_of_true _ _ _ hready, require_bind_of_true _ _ _ hphase,
    require_bind_of_false _ _ _ (Nat.not_lt.mpr hflags)]

theorem cpReadBody_dims (hready : s.rd.state = .ready) (hphase : s.ft.phase ≠ .build) (hflags : s.operand0 = 1)
    (hdims : s.dimsValid = false) : cpReadBody s = .error .argBank s := by
  unfold cpReadBody
  rw [get_bind, require_bind_of_true _ _ _ hready, require_bind_of_true _ _ _ hphase, require_bind_of_true _ _ _ (by omega),
    require_bind_of_false _ _ _ fun h => Bool.eq_false_iff.mp hdims (h hflags)]

end Read

/-- Settles O38: the header by `readHeader_of_reads`, its bank by `withHeader` and `withDims`, valid by the contract. -/
theorem cpReadResult : Obligations.CpReadResult := by
  intro s
  refine ⟨fun dims w h code colours u hb hready hphase (hsizes : HeaderSizes s dims w h) hreads => ?_,
    fun hf hready => trapsCleanly_of_error (i := .cpRead) hf (cpReadBody_protocol hready),
    fun hf hready hphase => trapsCleanly_of_error (i := .cpRead) hf (cpReadBody_lock hready hphase),
    fun hf hready hphase hflags => trapsCleanly_of_error (i := .cpRead) hf (cpReadBody_flags hready hphase hflags),
    fun hf hready hphase hflags hdims =>
      trapsCleanly_of_error (i := .cpRead) hf (cpReadBody_dims hready hphase (congrArg BitVec.toNat hflags) hdims)⟩
  have hmoved := hreads.onlyDecoderMoved
  have hcfg := hmoved.cfg_eq
  obtain ⟨hcode, hcount⟩ := header_bounds hb hsizes hreads
  obtain ⟨hw, hh⟩ := hsizes.dimOk hb
  obtain ⟨hwlt, hhlt⟩ := hsizes.lt hb
  obtain ⟨hflags, hdims⟩ := hsizes.flags
  have hheader := readHeader_of_reads hsizes hreads
  have hrd := withDims_withHeader_rd u w h code colours
  have hstatus := withDims_withHeader_status u w h code colours
  have hcp := withDims_withHeader_cp u w h code colours
  have hpal := withDims_withHeader_palEntry u w h code colours
  have hvalid := fun hderive => withDims_withHeader_paramsValid (hcfg ▸ hb) hderive (hcfg ▸ hw) (hcfg ▸ hh)
    (hcfg ▸ hcode) (hcfg ▸ hcount)
  generalize (u.withDims w h).withHeader code colours = v at hheader hrd hstatus hcp hpal hvalid
  have hframe := ((readHeader_writes _).ok hheader).1
  rw [CpRegs.loadDerived, zext64_toNat hwlt, zext64_toNat hhlt, hcfg] at hcp
  refine ⟨_, runCommand_of_ok (i := .cpRead) (cpReadBody_checked hready hphase hflags hdims hheader),
    ⟨rfl, rfl, ?_⟩, hrd, (congrArg Status.pad hstatus :), hcp, fun k => (hpal k).trans ?_, rfl, rfl,
    (congrArg CpRegs.code hcp).symm, rfl, fun hderive => hvalid (hcfg ▸ hderive), ?_⟩
  · exact (congrArg Status.fault hstatus).trans hmoved.onlyPadMoved.fault_eq
  · rw [hmoved.palEntry_eq]
    cases colours[k]? <;> rfl
  · exact ((hframe.mono (by decide)).trans ((withHeaderResults_writes v code).1.mono (by decide))).trans
      ((keepsAllBut_endCommand _).mono (by decide))

end Sys2Proof.Machine
end

section
/-! PROOFS. The level of a region (44_codec_params.md R228, R233, R235): the bounding box by its extremes, and `CP.LEVEL`; and
the dequantizer (R229, R234, R236), `CP.DEQ`. -/

namespace Sys2Proof.Machine

/-! ### Extremes -/

theorem isLeast_leastOf (start : Int) (l : List Int) : IsLeast {z | z ∈ start :: l} (leastOf start l) := by
  obtain ⟨hstart, hl⟩ := leastOf_le start l
  refine ⟨List.mem_cons.mpr (leastOf_mem start l), fun z hz => ?_⟩
  rcases List.mem_cons.mp hz with rfl | hz
  · exact hstart
  · exact hl z hz

theorem isGreatest_greatestOf (start : Int) (l : List Int) : IsGreatest {z | z ∈ start :: l} (greatestOf start l) := by
  obtain ⟨hstart, hl⟩ := le_greatestOf start l
  refine ⟨List.mem_cons.mpr (greatestOf_mem start l), fun z hz => ?_⟩
  rcases List.mem_cons.mp hz with rfl | hz
  · exact hstart
  · exact hl z hz

/-- The least value of a column of spans that some span has and none goes below. -/
theorem leastOf_eq_of_attained {f : SpanRec → Nat} {p : SpanRec} {l : List SpanRec} {m : Nat}
    (hle : ∀ q ∈ p :: l, m ≤ f q) (hmem : ∃ q ∈ p :: l, f q = m) : leastOf (f p) (l.map (fun q => (f q : Int))) = m := by
  refine (isLeast_leastOf _ _).unique ⟨?_, fun z hz => ?_⟩
  · obtain ⟨q, hq, rfl⟩ := hmem
    exact List.mem_map_of_mem (f := fun q => (f q : Int)) hq
  · have hz : z ∈ (p :: l).map (fun q => (f q : Int)) := hz
    obtain ⟨q, hq, rfl⟩ := List.mem_map.mp hz
    exact Int.ofNat_le.mpr (hle q hq)

theorem greatestOf_eq_of_attained {f : SpanRec → Nat} {p : SpanRec} {l : List SpanRec} {m : Nat}
    (hle : ∀ q ∈ p :: l, f q ≤ m) (hmem : ∃ q ∈ p :: l, f q = m) : greatestOf (f p) (l.map (fun q => (f q : Int))) = m := by
  refine (isGreatest_greatestOf _ _).unique ⟨?_, fun z hz => ?_⟩
  · obtain ⟨q, hq, rfl⟩ := hmem
    exact List.mem_map_of_mem (f := fun q => (f q : Int)) hq
  · have hz : z ∈ (p :: l).map (fun q => (f q : Int)) := hz
    obtain ⟨q, hq, rfl⟩ := List.mem_map.mp hz
    exact Int.ofNat_le.mpr (hle q hq)

/-! ### The bounding box (R228) -/

section Box

variable {s : State} {n : Nat} {l : List SpanRec} {minX maxX minY maxY : Nat}

theorem BoundingBox.minY_le (h : BoundingBox l minX maxX minY maxY) : minY ≤ maxY := by
  obtain ⟨hall, ⟨p, hp, _⟩, _⟩ := h
  obtain ⟨_, _, hmin, hmax⟩ := hall p hp
  omega

/-- The box of spans that hold a pixel has a width. -/
theorem BoundingBox.minX_lt (h : BoundingBox l minX maxX minY maxY) (hl : ∀ p ∈ l, p.x0 < p.x1) : minX < maxX := by
  obtain ⟨hall, ⟨p, hp, _⟩, _⟩ := h
  obtain ⟨hmin, hmax, _, _⟩ := hall p hp
  have := hl p hp
  omega

/-- The squared diagonal of a region is that of its bounding box. -/
theorem diagonalSquared_eq {p : SpanRec} (h : BoundingBox (p :: l) minX maxX minY maxY) (hl : ∀ q ∈ p :: l, q.x0 < q.x1) :
    diagonalSquared p l = boxDiagonal minX maxX minY maxY := by
  have hx := h.minX_lt hl
  have hy := h.minY_le
  obtain ⟨hall, hminX, hmaxX, hminY, hmaxY⟩ := h
  have hx0 := leastOf_eq_of_attained (f := SpanRec.x0) (fun q hq => (hall q hq).1) hminX
  have hx1 := greatestOf_eq_of_attained (f := SpanRec.x1) (fun q hq => (hall q hq).2.1) hmaxX
  have hy0 := leastOf_eq_of_attained (f := SpanRec.y) (fun q hq => (hall q hq).2.2.1) hminY
  have hy1 := greatestOf_eq_of_attained (f := SpanRec.y) (fun q hq => (hall q hq).2.2.2) hmaxY
  have hdx : (maxX : Int) - minX = (maxX - minX : Nat) := by omega
  have hdy : (maxY : Int) - minY + 1 = (maxY - minY + 1 : Nat) := by omega
  unfold diagonalSquared boxDiagonal
  simp only [hx0, hx1, hy0, hy1, hdx, hdy]
  exact Int.toNat_natCast _

/-- A box inside another has no longer a diagonal. -/
theorem boxDiagonal_le_of_inside {minX' maxX' minY' maxY' : Nat} (h1 : minX ≤ minX') (h2 : maxX' ≤ maxX)
    (h3 : minY ≤ minY') (h4 : maxY' ≤ maxY) : boxDiagonal minX' maxX' minY' maxY' ≤ boxDiagonal minX maxX minY maxY :=
  Nat.add_le_add (Nat.mul_le_mul (by omega) (by omega)) (Nat.mul_le_mul (by omega) (by omega))

theorem withArgs_regionOf (s : State) (a b c : Word) (n : Nat) : (s.withArgs a b c).regionOf n = s.regionOf n :=
  regionOf_congr rfl rfl fun _ _ _ => rfl

theorem regionOk_spans (h : s.regionOk n = true) :
    ∀ p ∈ s.regionOf n, p.x0 < p.x1 ∧ p.x1 ≤ s.cfg.dimMax ∧ p.y < s.cfg.dimMax := by
  simp only [State.regionOk, SpanRec.ok, Bool.and_eq_true, List.all_eq_true, decide_eq_true_eq, and_assoc] at h
  obtain ⟨_, _, _, hspans, _⟩ := h
  exact hspans

/-- The squared diagonal of a well-formed region fits a register. -/
theorem boxDiagonal_lt (hb : s.cfg.Bounds) (hok : s.regionOk n = true) (h : BoundingBox (s.regionOf n) minX maxX minY maxY) :
    boxDiagonal minX maxX minY maxY < 2 ^ 64 := by
  obtain ⟨_, _, _, _, _, _, _, _, _, _, _, _, _, hdim, _⟩ := hb
  obtain ⟨_, _, ⟨p, hp, hmaxX⟩, _, q, hq, hmaxY⟩ := h
  obtain ⟨_, hx, _⟩ := regionOk_spans hok p hp
  obtain ⟨_, _, hy⟩ := regionOk_spans hok q hq
  have hdx : maxX - minX ≤ 2 ^ 31 := by omega
  have hdy : maxY - minY + 1 ≤ 2 ^ 31 := by omega
  calc boxDiagonal minX maxX minY maxY ≤ 2 ^ 31 * 2 ^ 31 + 2 ^ 31 * 2 ^ 31 :=
        Nat.add_le_add (Nat.mul_le_mul hdx hdx) (Nat.mul_le_mul hdy hdy)
    _ < 2 ^ 64 := by norm_num

/-! ### The level (R228, R235) -/

/-- A shorter diagonal never has a lower level. -/
theorem IsLevel.mono {b : CpRegs} {d d' : Nat} {i j : Fin 7} (hi : IsLevel b d i) (hj : IsLevel b d' j) (hd : d' ≤ d) :
    i ≤ j := by
  by_contra hlt
  have hbelow := hi.2 j (by omega)
  rcases hj.1 with hreach | rfl
  · omega
  · omega

theorem getLevel_of_box (hok : s.regionOk n = true) (h : BoundingBox (s.regionOf n) minX maxX minY maxY) :
    s.getLevel n = some (s.cp.levelFor (boxDiagonal minX maxX minY maxY), boxDiagonal minX maxX minY maxY) := by
  have hspans := fun p hp => (regionOk_spans hok p hp).1
  unfold State.getLevel
  generalize s.regionOf n = l at h hspans
  cases l with
  | nil =>
    obtain ⟨_, ⟨p, hp, _⟩, _⟩ := h
    cases hp
  | cons p l => simp only [diagonalSquared_eq h hspans]

theorem getLevel_of_empty (h : (s.nodeRec n).count = 0) : s.getLevel n = none := by
  have hnil : s.regionOf n = [] := List.eq_nil_of_length_eq_zero ((regionOf_length s n).trans h)
  rw [State.getLevel, hnil]

end Box

/-! ### `CP.LEVEL` (R233) -/

section Level

variable {s : State}

/-- `CP.LEVEL` past its checks. -/
theorem cpLevelBody_of_level {i : Fin 7} {d : Nat} (hok : s.regionOk s.operand0 = true) (hvalid : s.paramsValid = true)
    (h : s.getLevel s.operand0 = some (i, d)) :
    cpLevelBody s = .ok () ((s.withRes0 (zext64 i.val)).withRes1 (zext64 d)) := by
  unfold cpLevelBody
  rw [get_bind, require_bind_of_true _ _ _ hok, require_bind_of_true _ _ _ hvalid, h]
  rfl

theorem cpLevelBody_node (hok : s.regionOk s.operand0 = false) : cpLevelBody s = .error .argValue s := by
  unfold cpLevelBody
  rw [get_bind, require_bind_of_false _ _ _ (Bool.eq_false_iff.mp hok)]

theorem cpLevelBody_bank (hok : s.regionOk s.operand0 = true) (hvalid : s.paramsValid = false) :
    cpLevelBody s = .error .argBank s := by
  unfold cpLevelBody
  rw [get_bind, require_bind_of_true _ _ _ hok, require_bind_of_false _ _ _ (Bool.eq_false_iff.mp hvalid)]

theorem cpLevelBody_empty (hok : s.regionOk s.operand0 = true) (hvalid : s.paramsValid = true)
    (h : s.getLevel s.operand0 = none) : cpLevelBody s = .error .corruptRegion s := by
  unfold cpLevelBody
  rw [get_bind, require_bind_of_true _ _ _ hok, require_bind_of_true _ _ _ hvalid, h]
  rfl

theorem zext64_level_toNat (i : Fin 7) : (zext64 i.val).toNat = i.val := zext64_toNat (by omega)

/-- `CP.LEVEL` completes on a well-formed region and with a valid bank only. -/
theorem checks_of_runs_cpLevel {t : State} (h : Runs .cpLevel s t) : s.regionOk s.operand0 = true ∧ s.paramsValid = true := by
  obtain ⟨u, hu, _⟩ := h.body_ok (by decide)
  change cpLevelBody s = _ at hu
  unfold cpLevelBody at hu
  rw [get_bind, require_bind_eq_ok, require_bind_eq_ok] at hu
  obtain ⟨hok, hvalid, _⟩ := hu
  exact ⟨hok, hvalid⟩

/-- The level that `CP.LEVEL` returns is that of the bounding box. -/
theorem cpLevel_res0 {t : State} {minX maxX minY maxY : Nat} (h : Runs .cpLevel s t)
    (hbox : BoundingBox (s.regionOf s.operand0) minX maxX minY maxY) :
    t.res0.toNat = (s.cp.levelFor (boxDiagonal minX maxX minY maxY)).val := by
  obtain ⟨hok, hvalid⟩ := checks_of_runs_cpLevel h
  obtain ⟨u, hu, rfl⟩ := h.body_ok (by decide)
  have hbody : commandBody .cpLevel s = _ := cpLevelBody_of_level hok hvalid (getLevel_of_box hok hbox)
  rw [hbody] at hu
  cases hu
  exact zext64_level_toNat _

end Level

/-- Settles O41: the level and the diagonal of the bounding box by `getLevel_of_box`, the empty region by
`getLevel_of_empty`. -/
theorem cpLevelResult : Obligations.CpLevelResult := by
  intro s
  refine ⟨fun minX maxX minY maxY i hb hok hvalid hbox hlevel => ?_,
    fun hf hok => trapsCleanly_of_error (i := .cpLevel) hf (cpLevelBody_node hok),
    fun hf hok hvalid => trapsCleanly_of_error (i := .cpLevel) hf (cpLevelBody_bank hok hvalid),
    fun hf hok hvalid hcount =>
      trapsCleanly_of_error (i := .cpLevel) hf (cpLevelBody_empty hok hvalid (getLevel_of_empty hcount))⟩
  obtain rfl := (levelFor_spec s.cp _).unique hlevel
  exact ⟨_, runCommand_of_ok (i := .cpLevel) (cpLevelBody_of_level hok hvalid (getLevel_of_box hok hbox)),
    ⟨⟨rfl, rfl, rfl⟩, rfl⟩, zext64_level_toNat _, zext64_toNat (boxDiagonal_lt hb hok hbox),
    ((WritesOnly.withRes0 (by decide) s _).trans (WritesOnly.withRes1 (by decide) _ _)).1.trans
      ((keepsAllBut_endCommand _).mono (by decide))⟩

/-- Settles O42: a box inside another has no longer a diagonal, so its level is no lower. -/
theorem levelIsMonotonic : Obligations.LevelIsMonotonic := by
  intro s t t' m n minX maxX minY maxY minX' maxX' minY' maxY' hbox hbox' h1 h2 h3 h4 hrun hrun'
  rw [← withArgs_regionOf s m 0 0] at hbox
  rw [← withArgs_regionOf s n 0 0] at hbox'
  rw [cpLevel_res0 hrun hbox, cpLevel_res0 hrun' hbox']
  exact (levelFor_spec s.cp _).mono (levelFor_spec s.cp _) (boxDiagonal_le_of_inside h1 h2 h3 h4)

/-! ### `CP.DEQ` (R229, R234, R236) -/

theorem dequantizeColor_le {v q : Nat} (hq : 2 ≤ q) (hv : v < q) : dequantizeColor v q ≤ 255 :=
  Nat.le_of_lt_succ (Nat.div_lt_of_lt_mul (by omega))

theorem dequantizeColor_zero {q : Nat} (hq : 2 ≤ q) : dequantizeColor 0 q = 0 := Nat.div_eq_of_lt (by omega)

theorem dequantizeColor_last {q : Nat} (hq : 2 ≤ q) : dequantizeColor (q - 1) q = 255 :=
  Nat.div_eq_of_lt_le (by omega) (by omega)

section Dequantize

variable {s : State}

theorem cpDeqBody_of_lt (h : 2 ≤ s.operand1 ∧ s.operand1 ≤ 2 ^ 32 ∧ s.operand0 < s.operand1) :
    cpDeqBody s = .ok () (s.withRes0 (zext64 (dequantizeColor s.operand0 s.operand1))) := by
  unfold cpDeqBody
  rw [get_bind, require_bind_of_true _ _ _ h]
  rfl

theorem cpDeqBody_of_not (h : ¬ (2 ≤ s.operand1 ∧ s.operand1 ≤ 2 ^ 32 ∧ s.operand0 < s.operand1)) :
    cpDeqBody s = .error .argValue s := by
  unfold cpDeqBody
  rw [get_bind, require_bind_of_false _ _ _ h]

/-- Past its check `CP.DEQ` writes the dequantized value and nothing else. -/
theorem exec_cpDeq (hq : 2 ≤ s.operand1) (hmax : s.operand1 ≤ 2 ^ 32) (hv : s.operand0 < s.operand1) :
    ∃ t, exec .cpDeq s = .next t ∧ CompletedKeepingPad s t ∧ t.res0 = zext64 (dequantizeColor s.operand0 s.operand1) ∧
      KeepsAllBut [.status, .res0] s t :=
  ⟨_, runCommand_of_ok (i := .cpDeq) (cpDeqBody_of_lt ⟨hq, hmax, hv⟩), ⟨⟨rfl, rfl, rfl⟩, rfl⟩, rfl,
    (WritesOnly.withRes0 (by decide) s _).1.trans ((keepsAllBut_endCommand _).mono (by decide))⟩

end Dequantize

/-- Settles O43: the value by `exec_cpDeq`, its bound by `dequantizeColor_le`. -/
theorem cpDeqResult : Obligations.CpDeqResult := by
  intro s
  refine ⟨fun hq hmax hv => ?_, fun hf h => trapsCleanly_of_error (i := .cpDeq) hf (cpDeqBody_of_not h)⟩
  obtain ⟨t, ht, hdone, hres, hframe⟩ := exec_cpDeq (s := s) hq hmax hv
  have hle : dequantizeColor s.operand0 s.operand1 ≤ 255 := dequantizeColor_le hq hv
  have hvalue : t.res0.toNat = dequantizeColor s.operand0 s.operand1 := by rw [hres, zext64_toNat (by omega)]
  exact ⟨t, ht, hdone, hvalue, hvalue.trans_le hle, hframe⟩

/-- Settles O44: the two ends of `dequantizeColor`. -/
theorem dequantizerEndpoints : Obligations.DequantizerEndpoints := by
  intro s q hq hmax
  have hlast : (q - 1).toNat = q.toNat - 1 := by bv_omega
  constructor
  · obtain ⟨t, ht, hdone, hres, _⟩ := exec_cpDeq (s := s.withArgs 0 q 0) hq hmax (show 0 < q.toNat by omega)
    refine ⟨t, ht, hdone, hres.trans ?_⟩
    exact congrArg zext64 (dequantizeColor_zero hq)
  · obtain ⟨t, ht, hdone, hres, _⟩ := exec_cpDeq (s := s.withArgs (q - 1) q 0) hq hmax
      (show (q - 1).toNat < q.toNat by omega)
    refine ⟨t, ht, hdone, hres.trans ?_⟩
    show zext64 (dequantizeColor (q - 1).toNat q.toNat) = 255
    rw [hlast, dequantizeColor_last hq]
    rfl

end Sys2Proof.Machine
end

section
/-! PROOFS. The distance quantizer (45_distance_quantizer.md R251 to R257): what a measurement of a region leaves in the `DR_*`
registers, `DR.UPDATE`; and where the distance of a line lies, `DR.DIST`. -/

namespace Sys2Proof.Machine

/-! ### The projections of a region (R252, R253) -/

section Projections

variable {c : Config} {a : Nat} {p : SpanRec} {l : List SpanRec} {z : Int}

/-- On spans that hold a pixel, the model's end projections are those of the first and last pixel. -/
theorem mem_projections_iff (hl : ∀ p ∈ l, p.x0 < p.x1) : z ∈ projections c a l ↔ z ∈ endProjections c a l := by
  have hlast : ∀ p ∈ l, proj c a (p.x1 - 1) p.y = c.trigCos a * p.y + c.trigSin a * ((p.x1 : Int) - 1) := fun p hp => by
    have := hl p hp
    rw [proj, Nat.cast_sub (by omega), Nat.cast_one]
  refine List.mem_flatMap.trans (exists_congr fun p => and_congr_right fun hp => ?_)
  rw [← hlast p hp]
  exact List.mem_pair

/-- The first span's first pixel, from which the extremes start, adds nothing to the end projections. -/
theorem mem_start_projections_iff (hl : ∀ q ∈ p :: l, q.x0 < q.x1) :
    z ∈ proj c a p.x0 p.y :: projections c a (p :: l) ↔ z ∈ endProjections c a (p :: l) := by
  rw [List.mem_cons, ← mem_projections_iff hl]
  exact or_iff_right_of_imp fun hz => hz ▸ List.mem_cons_self

theorem isLeast_projections (hl : ∀ q ∈ p :: l, q.x0 < q.x1) :
    IsLeast (endProjections c a (p :: l)) (leastOf (proj c a p.x0 p.y) (projections c a (p :: l))) := by
  obtain ⟨hmem, hle⟩ := isLeast_leastOf (proj c a p.x0 p.y) (projections c a (p :: l))
  exact ⟨(mem_start_projections_iff hl).mp hmem, fun _ hz => hle ((mem_start_projections_iff hl).mpr hz)⟩

theorem isGreatest_projections (hl : ∀ q ∈ p :: l, q.x0 < q.x1) :
    IsGreatest (endProjections c a (p :: l)) (greatestOf (proj c a p.x0 p.y) (projections c a (p :: l))) := by
  obtain ⟨hmem, hle⟩ := isGreatest_greatestOf (proj c a p.x0 p.y) (projections c a (p :: l))
  exact ⟨(mem_start_projections_iff hl).mp hmem, fun _ hz => hle ((mem_start_projections_iff hl).mpr hz)⟩

/-- The projections of a region inside the raster stay below `2^34` (43_trig_lut.md R213). -/
theorem natAbs_lt_of_mem_endProjections (hb : c.Bounds) (hrom : c.RomOk) (ha : a < c.nAngles)
    (hl : ∀ p ∈ l, p.x0 < p.x1 ∧ p.x1 ≤ c.dimMax ∧ p.y < c.dimMax) (hz : z ∈ endProjections c a l) : z.natAbs < 2 ^ 34 := by
  obtain ⟨_, _, _, _, _, _, _, _, _, _, _, _, _, _, hproj, _⟩ := hb
  obtain ⟨_, _, hrom⟩ := hrom
  obtain ⟨_, _, hsin, hcos⟩ := hrom a ha
  have hpixel : ∀ x y, x ≤ c.dimMax → y ≤ c.dimMax → (proj c a x y).natAbs < 2 ^ 34 := fun x y hx hy =>
    (natAbs_projection_le hsin hcos hx hy).trans_lt hproj
  obtain ⟨p, hp, hz⟩ := List.mem_flatMap.mp ((mem_projections_iff fun p hp => (hl p hp).1).mpr hz)
  obtain ⟨_, hx1, hy⟩ := hl p hp
  rcases List.mem_pair.mp hz with rfl | rfl
  · exact hpixel _ _ (by omega) (by omega)
  · exact hpixel _ _ (by omega) (by omega)

end Projections

/-! ### The quantum (R253) -/

/-- Only a quantum up to the extent grows, and one step does not double it. -/
theorem growQuantum_le {extent limit bound : Nat} (hb : 2 * extent ≤ bound) (n : Nat) {q : Nat} (hq : q ≤ bound) :
    growQuantum extent limit n q ≤ bound := by
  induction n generalizing q with
  | zero => exact hq
  | succ n ih =>
    rw [growQuantum]
    split
    next hmore =>
      have hle : q ≤ extent := by
        by_contra hlt
        rw [Nat.div_eq_of_lt (by omega)] at hmore
        exact Nat.not_lt_zero _ hmore
      exact ih (by omega)
    next => exact hq

theorem lineQuant_of_paramsValid {s : State} (h : s.paramsValid = true) :
    16 ≤ s.cp.lineQuant.toNat ∧ s.cp.lineQuant.toNat ≤ 2 ^ 40 := by
  simp only [State.paramsValid, CpRegs.valid, Bool.and_eq_true, decide_eq_true_eq, and_assoc] at h
  obtain ⟨_, _, hmin, hmax, _⟩ := h
  exact ⟨hmin, hmax⟩

/-! ### The measurement (R253) -/

theorem sext64_toInt_of_natAbs_lt {v : Int} (h : v.natAbs < 2 ^ 63) : (sext64 v).toInt = v := by
  rw [sext64, BitVec.toInt_ofInt_eq_self (by decide)] <;> omega

theorem Config.Bounds.nAngles_le {c : Config} (hb : c.Bounds) : c.nAngles ≤ 2 ^ 32 := by
  obtain ⟨_, _, _, _, _, _, _, _, _, hbits, _⟩ := hb
  exact Nat.pow_le_pow_right (by decide) hbits

section Measurement

variable {s : State} {a n : Nat}

/-- The registers after a measurement of spans inside the raster: every value fits its register. -/
theorem drUpdateWith_measures {p : SpanRec} {l : List SpanRec} (hb : s.cfg.Bounds) (hrom : s.cfg.RomOk)
    (ha : a < s.cfg.nAngles) (hvalid : s.paramsValid = true)
    (hl : ∀ q ∈ p :: l, q.x0 < q.x1 ∧ q.x1 ≤ s.cfg.dimMax ∧ q.y < s.cfg.dimMax) :
    Measures s.cfg s.cp (p :: l) a (drUpdateWith a p l s).dr := by
  have hleast := isLeast_projections (c := s.cfg) (a := a) fun q hq => (hl q hq).1
  have hgreatest := isGreatest_projections (c := s.cfg) (a := a) fun q hq => (hl q hq).1
  simp only [Measures, drUpdateWith, withDr_dr]
  generalize leastOf (proj s.cfg a p.x0 p.y) (projections s.cfg a (p :: l)) = mi at hleast ⊢
  generalize greatestOf (proj s.cfg a p.x0 p.y) (projections s.cfg a (p :: l)) = ma at hgreatest ⊢
  have hmi := natAbs_lt_of_mem_endProjections hb hrom ha hl hleast.1
  have hma := natAbs_lt_of_mem_endProjections hb hrom ha hl hgreatest.1
  obtain ⟨hq16, hq40⟩ := lineQuant_of_paramsValid hvalid
  have hangle := hb.nAngles_le
  have hmin : (sext64 mi).toInt = mi := sext64_toInt_of_natAbs_lt (by omega)
  have hmax : (sext64 ma).toInt = ma := sext64_toInt_of_natAbs_lt (by omega)
  have hspec := growQuantum_spec (ma - mi).toNat s.cp.lineLimit.toNat (ma - mi).toNat s.cp.lineQuant.toNat hq16 (by omega)
  have hq := growQuantum_le (extent := (ma - mi).toNat) (limit := s.cp.lineLimit.toNat) (by omega) (ma - mi).toNat hq40
  generalize growQuantum (ma - mi).toNat _ _ _ = q at hspec hq ⊢
  have hquant : (zext64 q).toNat = q := zext64_toNat (by omega)
  have hlines : (zext64 ((ma - mi).toNat / q)).toNat = (ma - mi).toNat / q :=
    zext64_toNat ((Nat.div_le_self _ _).trans_lt (by omega))
  rw [hmin, hmax, hquant, hlines]
  exact ⟨trivial, zext64_toNat (by omega), hleast, hgreatest, hspec, rfl⟩

theorem drUpdate_measures (hb : s.cfg.Bounds) (hrom : s.cfg.RomOk) (hok : s.regionOk n = true) (ha : a < s.cfg.nAngles)
    (hvalid : s.paramsValid = true) (hcount : 0 < (s.nodeRec n).count) :
    Measures s.cfg s.cp (s.regionOf n) a (drUpdate n a s).dr := by
  have hspans := regionOk_spans hok
  have hlength := regionOf_length s n
  unfold drUpdate
  generalize s.regionOf n = l at hspans hlength
  cases l with
  | nil => exact absurd hlength hcount.ne
  | cons p l => exact drUpdateWith_measures hb hrom ha hvalid hspans

end Measurement

/-! ### `DR.UPDATE` (R255) -/

section Update

variable {s : State}

/-- The results that `DR.UPDATE` copies from the registers. -/
def State.returnMeasurement (t : State) : State :=
  (((t.withRes0 t.dr.numLines).withRes1 t.dr.quant).withRes2 t.dr.min).withRes3 t.dr.max

theorem returnMeasurement_writes (t : State) : WritesOnly [.res0, .res1, .res2, .res3] t t.returnMeasurement :=
  (((WritesOnly.withRes0 (by decide) t _).trans (WritesOnly.withRes1 (by decide) _ _)).trans
    (WritesOnly.withRes2 (by decide) _ _)).trans (WritesOnly.withRes3 (by decide) _ _)

theorem completedKeepingPad_returnMeasurement {u : State} (h : u.status = s.status) :
    CompletedKeepingPad s (endCommand u.returnMeasurement) :=
  ⟨⟨rfl, rfl, (congrArg Status.fault h :)⟩, (congrArg Status.pad h :)⟩

theorem drUpdateBody_of_checks (hok : s.regionOk s.operand0 = true) (ha : s.operand1 < s.cfg.nAngles)
    (hvalid : s.paramsValid = true) (hcount : 0 < (s.nodeRec s.operand0).count) :
    drUpdateBody s = .ok () (drUpdate s.operand0 s.operand1 s).returnMeasurement := by
  unfold drUpdateBody
  rw [get_bind, require_bind_of_true _ _ _ hok, require_bind_of_true _ _ _ ha, require_bind_of_true _ _ _ hvalid,
    require_bind_of_true _ _ _ hcount]
  rfl

theorem drUpdateBody_value (h : s.regionOk s.operand0 = false ∨ s.cfg.nAngles ≤ s.operand1) :
    drUpdateBody s = .error .argValue s := by
  unfold drUpdateBody
  rw [get_bind]
  by_cases hok : s.regionOk s.operand0 = true
  · have ha := h.resolve_left (by rw [hok]; decide)
    rw [require_bind_of_true _ _ _ hok, require_bind_of_false _ _ _ (Nat.not_lt.mpr ha)]
  · rw [require_bind_of_false _ _ _ hok]

theorem drUpdateBody_bank (hok : s.regionOk s.operand0 = true) (ha : s.operand1 < s.cfg.nAngles)
    (hvalid : s.paramsValid = false) : drUpdateBody s = .error .argBank s := by
  unfold drUpdateBody
  rw [get_bind, require_bind_of_true _ _ _ hok, require_bind_of_true _ _ _ ha,
    require_bind_of_false _ _ _ (Bool.eq_false_iff.mp hvalid)]

theorem drUpdateBody_empty (hok : s.regionOk s.operand0 = true) (ha : s.operand1 < s.cfg.nAngles)
    (hvalid : s.paramsValid = true) (hcount : (s.nodeRec s.operand0).count = 0) :
    drUpdateBody s = .error .corruptRegion s := by
  unfold drUpdateBody
  rw [get_bind, require_bind_of_true _ _ _ hok, require_bind_of_true _ _ _ ha, require_bind_of_true _ _ _ hvalid,
    require_bind_of_false _ _ _ (Nat.not_lt.mpr hcount.le)]

end Update

/-- Settles O45: the registers by `drUpdate_measures`, the results copied from them, the checks in their order. -/
theorem drUpdateResult : Obligations.DrUpdateResult := by
  intro s
  refine ⟨fun hb hrom hok ha hvalid hcount => ?_,
    fun hf h => trapsCleanly_of_error (i := .drUpdate) hf (drUpdateBody_value h),
    fun hf hok ha hvalid => trapsCleanly_of_error (i := .drUpdate) hf (drUpdateBody_bank hok ha hvalid),
    fun hf hok ha hvalid hcount => trapsCleanly_of_error (i := .drUpdate) hf (drUpdateBody_empty hok ha hvalid hcount)⟩
  have hbody := drUpdateBody_of_checks hok ha hvalid hcount
  have hmeasures : Measures s.cfg s.cp (s.regionOf s.operand0) s.operand1 (drUpdate s.operand0 s.operand1 s).dr :=
    drUpdate_measures hb hrom hok ha hvalid hcount
  have hwrites := drUpdate_writes s.operand0 s.operand1 s
  generalize drUpdate s.operand0 s.operand1 s = u at hbody hmeasures hwrites
  have hstatus : u.status = s.status := hwrites.1 .status (by decide)
  exact ⟨_, runCommand_of_ok (i := .drUpdate) hbody, completedKeepingPad_returnMeasurement hstatus, hmeasures,
    rfl, rfl, rfl, rfl, ((hwrites.1.mono (by decide)).trans ((returnMeasurement_writes u).1.mono (by decide))).trans
      ((keepsAllBut_endCommand _).mono (by decide))⟩

/-! ### The distance of a line (R254, R257) -/

section Distance

variable {d : DrRegs} {line : Nat}

/-- With several lines, the first offset and the steps up to the last line stay within the span. -/
theorem steps_inside {extent q lines line : Nat} (hlines : lines * q ≤ extent) (hline : line < lines) :
    ((extent : Int) - ((lines : Int) - 1) * q) / 2 + q * line ≤ extent ∧
    0 ≤ ((extent : Int) - ((lines : Int) - 1) * q) / 2 + q * line := by
  have hsteps : (q : Int) * line ≤ ((lines : Int) - 1) * q := by
    rw [mul_comm]
    exact mul_le_mul_of_nonneg_right (by omega) (by omega)
  have hspan : ((lines : Int) - 1) * q ≤ extent := by
    rw [sub_mul, one_mul]
    have : (lines : Int) * q ≤ extent := mod_cast hlines
    omega
  have hnonneg : (0 : Int) ≤ q * line := by positivity
  omega

/-- The middle of two numbers lies between them. -/
theorem tdiv_two_inside {x y : Int} (h : x ≤ y) : x ≤ (y + x).tdiv 2 ∧ (y + x).tdiv 2 ≤ y := by
  rw [Int.tdiv_eq_ediv]
  split
  · omega
  · rw [show Int.sign 2 = 1 from rfl]
    omega

theorem drDistance_inside (hle : d.min.toInt ≤ d.max.toInt)
    (hlines : d.numLines.toNat = (d.max.toInt - d.min.toInt).toNat / d.quant.toNat) (hline : line < max d.numLines.toNat 1) :
    d.min.toInt ≤ drDistance d line ∧ drDistance d line ≤ d.max.toInt := by
  unfold drDistance
  dsimp only
  split
  next hmany =>
    have hspan : ((d.max.toInt - d.min.toInt).toNat : Int) = d.max.toInt - d.min.toInt := Int.toNat_of_nonneg (by omega)
    have hfit : d.numLines.toNat * d.quant.toNat ≤ (d.max.toInt - d.min.toInt).toNat := by
      rw [hlines]
      exact Nat.div_mul_le_self _ _
    have hsteps := steps_inside hfit (lt_of_lt_of_eq hline (max_eq_left hmany.le))
    rw [hspan] at hsteps
    obtain ⟨hupper, hlower⟩ := hsteps
    omega
  next => exact tdiv_two_inside hle

end Distance

/-! ### `DR.DIST` (R256) -/

section Dist

variable {s : State}

theorem drDistBody_of_lt (hvalid : s.dr.valid = true) (hline : s.operand0 < max s.dr.numLines.toNat 1) :
    drDistBody s = .ok () (s.withRes0 (sext64 (drDistance s.dr s.operand0))) := by
  unfold drDistBody
  rw [get_bind, require_bind_of_true _ _ _ hvalid, require_bind_of_true _ _ _ hline]
  rfl

theorem drDistBody_protocol (hvalid : s.dr.valid = false) : drDistBody s = .error .protocolDistance s := by
  unfold drDistBody
  rw [get_bind, require_bind_of_false _ _ _ (Bool.eq_false_iff.mp hvalid)]

theorem drDistBody_line (hvalid : s.dr.valid = true) (hline : max s.dr.numLines.toNat 1 ≤ s.operand0) :
    drDistBody s = .error .argValue s := by
  unfold drDistBody
  rw [get_bind, require_bind_of_true _ _ _ hvalid, require_bind_of_false _ _ _ (Nat.not_lt.mpr hline)]

theorem exec_drDist (hvalid : s.dr.valid = true) (hline : s.operand0 < max s.dr.numLines.toNat 1) :
    exec .drDist s = .next (endCommand (s.withRes0 (sext64 (drDistance s.dr s.operand0)))) :=
  runCommand_of_ok (i := .drDist) (drDistBody_of_lt hvalid hline)

theorem drDistance_mem_of_distanceInv (hinv : s.DistanceInv) (hvalid : s.dr.valid = true)
    (hline : s.operand0 < max s.dr.numLines.toNat 1) :
    s.dr.min.toInt ≤ drDistance s.dr s.operand0 ∧ drDistance s.dr s.operand0 ≤ s.dr.max.toInt := by
  obtain ⟨hle, _, _, _, _, _, hlines⟩ := hinv hvalid
  exact drDistance_inside hle hlines hline

/-- The distance of a legal line of a measurement fits a result register. -/
theorem sext64_drDistance_toInt (hinv : s.DistanceInv) (hvalid : s.dr.valid = true)
    (hline : s.operand0 < max s.dr.numLines.toNat 1) :
    (sext64 (drDistance s.dr s.operand0)).toInt = drDistance s.dr s.operand0 := by
  obtain ⟨hlower, hupper⟩ := drDistance_mem_of_distanceInv hinv hvalid hline
  obtain ⟨_, hmin, hmax, _⟩ := hinv hvalid
  exact sext64_toInt_of_natAbs_lt (by omega)

end Dist

/-- Settles O46: the value by `sext64_drDistance_toInt`, one equation for each branch of `drDistance`. -/
theorem drDistResult : Obligations.DrDistResult := by
  intro s
  refine ⟨fun hinv hvalid hline => ?_,
    fun hf hvalid => trapsCleanly_of_error (i := .drDist) hf (drDistBody_protocol hvalid),
    fun hf hvalid hline => trapsCleanly_of_error (i := .drDist) hf (drDistBody_line hvalid hline)⟩
  have hvalue := sext64_drDistance_toInt hinv hvalid hline
  exact ⟨_, exec_drDist hvalid hline, ⟨⟨rfl, rfl, rfl⟩, rfl⟩, fun hmany => hvalue.trans (if_pos hmany),
    fun hfew => hvalue.trans (if_neg (Nat.not_lt.mpr hfew)),
    (WritesOnly.withRes0 (by decide) s _).1.trans ((keepsAllBut_endCommand _).mono (by decide))⟩

/-- Settles O47: `DR.DIST` returns `drDistance`, which `drDistance_inside` bounds. -/
theorem distancesStayInside : Obligations.DistancesStayInside := by
  intro s t hinv hvalid hline hrun
  cases (exec_drDist hvalid hline).symm.trans hrun
  show s.dr.min.toInt ≤ (sext64 (drDistance s.dr s.operand0)).toInt ∧
    (sext64 (drDistance s.dr s.operand0)).toInt ≤ s.dr.max.toInt
  rw [sext64_drDistance_toInt hinv hvalid hline]
  exact drDistance_mem_of_distanceInv hinv hvalid hline

end Sys2Proof.Machine
end

section
/-! PROOFS. The region splitter (46_region_split.md R266 to R268): which pixels go to each part of a region and what the parts
keep of it; and `RG.SPLIT`, which stores them in the reservations of the two children (R270). -/

namespace Sys2Proof.Machine

/-! ### The parts of one span (R266, R268) -/

/-- `q` is cut out of `p`: the same row, columns of `p` only, and not emptied by the cut. -/
def SpanRec.Within (q p : SpanRec) : Prop := q.y = p.y ∧ p.x0 ≤ q.x0 ∧ q.x1 ≤ p.x1 ∧ (p.x0 < p.x1 → q.x0 < q.x1)

theorem SpanRec.Within.refl (p : SpanRec) : p.Within p := ⟨rfl, Nat.le_refl _, Nat.le_refl _, id⟩

theorem SpanRec.Within.ok {p q : SpanRec} {dimMax : Nat} (h : q.Within p) (hp : p.ok dimMax = true) :
    q.ok dimMax = true := by
  obtain ⟨hy, _, hx1, hne⟩ := h
  simp only [SpanRec.ok, Bool.and_eq_true, decide_eq_true_eq] at hp ⊢
  obtain ⟨⟨hpx, hpw⟩, hpy⟩ := hp
  exact ⟨⟨hne hpx, by omega⟩, by omega⟩

section Span

variable {c : Config} {a : Nat} {d : Int} {p q : SpanRec} {x y : Nat}

theorem leftPart_within (hq : q ∈ leftPart c a d p) : q.Within p := by
  unfold leftPart at hq
  split at hq <;> split at hq
  · rw [List.mem_singleton.mp hq]; exact .refl p
  · cases hq
  next hcut =>
    rw [List.mem_singleton.mp hq]
    exact ⟨rfl, by dsimp only; omega, Nat.le_refl _, by dsimp only; omega⟩
  · cases hq

theorem rightPart_within (hq : q ∈ rightPart c a d p) : q.Within p := by
  unfold rightPart at hq
  split at hq <;> split at hq
  · cases hq
  · rw [List.mem_singleton.mp hq]; exact .refl p
  next hcut =>
    rw [List.mem_singleton.mp hq]
    exact ⟨rfl, Nat.le_refl _, by dsimp only; omega, by dsimp only; omega⟩
  · cases hq

/-- `crossing` is the first column that goes left: the rounded quotient is the strict test at the centre column. -/
theorem goesLeft_iff_crossing_le (hsin : 0 < c.trigSin a) : goesLeft c a d x y ↔ crossing c a d y ≤ x := by
  have hdiv : crossing c a d y < x + 1 ↔ 2 * d + c.trigSin a - 2 * c.trigCos a * y < (x + 1) * (2 * c.trigSin a) :=
    Int.ediv_lt_iff_lt_mul (by omega)
  rw [goesLeft, if_neg hsin.ne', ← Int.lt_add_one_iff, hdiv]
  constructor <;> intro h <;> linarith

theorem covers_singleton : covers [p] x y ↔ p.y = y ∧ p.x0 ≤ x ∧ x < p.x1 := by
  simp only [covers, List.mem_singleton, exists_eq_left]

theorem covers_ite_singleton {P : Prop} [Decidable P] :
    covers (if P then [p] else []) x y ↔ P ∧ p.y = y ∧ p.x0 ≤ x ∧ x < p.x1 := by
  simp only [covers, List.mem_ite_nil_right, List.mem_singleton, and_assoc, exists_and_left, exists_eq_left]

theorem covers_leftPart (hsin : 0 ≤ c.trigSin a) : covers (leftPart c a d p) x y ↔ covers [p] x y ∧ goesLeft c a d x y := by
  rw [leftPart, covers_singleton]
  rcases hsin.eq_or_lt' with hzero | hpos
  · rw [if_pos hzero, goesLeft, if_pos hzero, covers_ite_singleton, and_comm]
    exact and_congr_right fun ⟨hy, _⟩ => hy ▸ Iff.rfl
  · rw [if_neg hpos.ne', goesLeft_iff_crossing_le hpos, covers_ite_singleton]
    constructor
    · rintro ⟨hcut, rfl, hx⟩; dsimp only at hx ⊢; omega
    · rintro ⟨⟨rfl, hx⟩, hleft⟩; dsimp only; omega

theorem covers_rightPart (hsin : 0 ≤ c.trigSin a) :
    covers (rightPart c a d p) x y ↔ covers [p] x y ∧ ¬ goesLeft c a d x y := by
  rw [rightPart, covers_singleton]
  rcases hsin.eq_or_lt' with hzero | hpos
  · rw [if_pos hzero, ← ite_not, goesLeft, if_pos hzero, covers_ite_singleton, and_comm]
    exact and_congr_right fun ⟨hy, _⟩ => hy ▸ Iff.rfl
  · rw [if_neg hpos.ne', goesLeft_iff_crossing_le hpos, covers_ite_singleton]
    constructor
    · rintro ⟨hcut, rfl, hx⟩; dsimp only at hx ⊢; omega
    · rintro ⟨⟨rfl, hx⟩, hright⟩; dsimp only; omega

end Span

/-! ### The parts of a region (R268) -/

theorem covers_flatMap {f : SpanRec → List SpanRec} {l : List SpanRec} {x y : Nat} {P : Prop}
    (h : ∀ p, covers (f p) x y ↔ covers [p] x y ∧ P) : covers (l.flatMap f) x y ↔ covers l x y ∧ P := by
  simp only [covers_singleton] at h
  calc covers (l.flatMap f) x y
      ↔ ∃ p ∈ l, covers (f p) x y := by simp only [covers, List.mem_flatMap]; tauto
    _ ↔ ∃ p ∈ l, (p.y = y ∧ p.x0 ≤ x ∧ x < p.x1) ∧ P := exists_congr fun p => and_congr_right fun _ => h p
    _ ↔ covers l x y ∧ P := by simp only [covers, ← and_assoc, exists_and_right]

/-- Sorted rows, pair by pair. -/
theorem rowsSorted_iff_pairwise (l : List SpanRec) : rowsSorted l = true ↔ l.Pairwise (fun p q => p.y ≤ q.y) := by
  induction l using rowsSorted.induct with
  | case1 => exact iff_of_true rfl .nil
  | case2 p => exact iff_of_true rfl (List.pairwise_singleton _ p)
  | case3 p q rest ih =>
    have htrans : IsTrans SpanRec (fun p q => p.y ≤ q.y) := ⟨fun _ _ _ => Nat.le_trans⟩
    rw [rowsSorted, Bool.and_eq_true, decide_eq_true_eq, ih, List.pairwise_cons_cons_iff_of_trans]

/-- A choice of at most one span out of each span. -/
def CutsSpans (f : SpanRec → List SpanRec) : Prop := ∀ p, (f p).length ≤ 1 ∧ ∀ q ∈ f p, q.Within p

theorem leftPart_cutsSpans (c : Config) (a : Nat) (d : Int) : CutsSpans (leftPart c a d) :=
  fun p => ⟨leftPart_length_le c a d p, fun _ => leftPart_within⟩

theorem rightPart_cutsSpans (c : Config) (a : Nat) (d : Int) : CutsSpans (rightPart c a d) :=
  fun p => ⟨rightPart_length_le c a d p, fun _ => rightPart_within⟩

section CutsSpans

variable {f : SpanRec → List SpanRec} {l : List SpanRec}

theorem CutsSpans.all_ok (hf : CutsSpans f) {dimMax : Nat} (hl : l.all (SpanRec.ok dimMax) = true) :
    (l.flatMap f).all (SpanRec.ok dimMax) = true := by
  rw [List.all_eq_true] at hl ⊢
  intro q hq
  obtain ⟨p, hp, hqp⟩ := List.mem_flatMap.mp hq
  exact ((hf p).2 q hqp).ok (hl p hp)

/-- A relation between the rows of a region's spans, in their order, also holds between those of the cut spans. -/
theorem CutsSpans.pairwise_rows (hf : CutsSpans f) {R : Nat → Nat → Prop} (hl : l.Pairwise (fun p q => R p.y q.y)) :
    (l.flatMap f).Pairwise (fun p q => R p.y q.y) := by
  refine List.pairwise_flatMap.mpr ⟨fun p _ => ?_, hl.imp fun {p q} hpq p' hp' q' hq' => ?_⟩
  · match f p, (hf p).1 with
    | [], _ => exact .nil
    | [q], _ => exact List.pairwise_singleton _ q
  · rw [((hf p).2 p' hp').1, ((hf q).2 q' hq').1]
    exact hpq

theorem CutsSpans.rowsSorted (hf : CutsSpans f) (hl : rowsSorted l = true) : rowsSorted (l.flatMap f) = true := by
  rw [rowsSorted_iff_pairwise] at hl ⊢
  exact hf.pairwise_rows hl

end CutsSpans

/-- Settles O49: pixel by pixel from `covers_leftPart` and `covers_rightPart`, the shape because each part cuts spans. -/
theorem splitPartitionsRegion : Obligations.SplitPartitionsRegion := by
  rintro c a d l ⟨_, _, hrom⟩ ha hok
  obtain ⟨_, hsin, _⟩ := hrom a ha
  have hleft := leftPart_cutsSpans c a d
  have hright := rightPart_cutsSpans c a d
  exact ⟨fun _ _ => covers_flatMap fun _ => covers_leftPart hsin, fun _ _ => covers_flatMap fun _ => covers_rightPart hsin,
    hleft.all_ok hok, hright.all_ok hok, fun h => ⟨hleft.rowsSorted h, hright.rowsSorted h⟩,
    fun h => ⟨hleft.pairwise_rows h, hright.pairwise_rows h⟩, leftSpans_length_le c a d l, rightSpans_length_le c a d l⟩

/-! ### Storing the parts (R267) -/

/-- Two reservations are disjoint exactly if no element of `SPAN` lies in both. -/
theorem reservedDisjoint_iff (p q : NodeRec) :
    reservedDisjoint p q = true ↔
      ∀ i, p.base ≤ i ∧ i < p.base + p.cap → ¬ (q.base ≤ i ∧ i < q.base + q.cap) := by
  simp only [reservedDisjoint, Bool.or_eq_true, decide_eq_true_eq]
  refine ⟨by omega, fun h => ?_⟩
  have hp := h p.base
  have hq := h q.base
  omega

section Store

variable {s : State} {m n : Nat} {l : List SpanRec}

/-- A list that fits the reservation changes no element outside it. -/
theorem storeRegion_spanRec_outside {i : Nat} (hl : l.length ≤ (s.nodeRec n).cap)
    (hi : ¬ ((s.nodeRec n).base ≤ i ∧ i < (s.nodeRec n).base + (s.nodeRec n).cap)) :
    (storeRegion n l s).spanRec i = s.spanRec i := by
  rw [(storeRegion_spec n l s).1, if_neg (by omega), if_neg (by omega)]

/-- Storing a region keeps one that lies in a disjoint reservation. -/
theorem storeRegion_regionOf_disjoint (hm : m ≠ n) (hl : l.length ≤ (s.nodeRec n).cap)
    (hcount : (s.nodeRec m).count ≤ (s.nodeRec m).cap) (hd : reservedDisjoint (s.nodeRec m) (s.nodeRec n) = true) :
    (storeRegion n l s).regionOf m = s.regionOf m := by
  have hrec := storeRegion_nodeRec_other l s hm
  refine regionOf_congr (by rw [hrec]) (by rw [hrec]) fun j hlo hhi => storeRegion_spanRec_outside hl ?_
  exact (reservedDisjoint_iff _ _).mp hd j ⟨hlo, by omega⟩

end Store

/-- The child nodes `l` and `r` take the parts of the region of `n`: the nodes differ, each reservation has room for as many
spans as the region, and the three reservations are disjoint (46_region_split.md R267). -/
structure State.SplitFits (s : State) (n l r : Nat) : Prop where
  left_ne_right : l ≠ r
  left_ne : l ≠ n
  right_ne : r ≠ n
  count_le : (s.nodeRec n).count ≤ (s.nodeRec n).cap
  count_le_left : (s.nodeRec n).count ≤ (s.nodeRec l).cap
  count_le_right : (s.nodeRec n).count ≤ (s.nodeRec r).cap
  disjoint : reservedDisjoint (s.nodeRec l) (s.nodeRec r) = true
  disjoint_left : reservedDisjoint (s.nodeRec n) (s.nodeRec l) = true
  disjoint_right : reservedDisjoint (s.nodeRec n) (s.nodeRec r) = true

/-- From `s` to `t` the lists `L` and `R` came to be the regions of `l` and `r`; the region of `n`, every other record and every
element of `SPAN` outside the two reservations are as they were (46_region_split.md R267). -/
structure State.PartsStored (s t : State) (n l r : Nat) (L R : List SpanRec) : Prop where
  regionOf_left : t.regionOf l = L
  regionOf_right : t.regionOf r = R
  regionOf_parent : t.regionOf n = s.regionOf n
  nodeRec_left : t.nodeRec l = { s.nodeRec l with count := L.length }
  nodeRec_right : t.nodeRec r = { s.nodeRec r with count := R.length }
  nodeRec_other : ∀ m, m ≠ l → m ≠ r → t.nodeRec m = s.nodeRec m
  spanRec_outside : ∀ i, ¬ ((s.nodeRec l).base ≤ i ∧ i < (s.nodeRec l).base + (s.nodeRec l).cap) →
    ¬ ((s.nodeRec r).base ≤ i ∧ i < (s.nodeRec r).base + (s.nodeRec r).cap) → t.spanRec i = s.spanRec i

section Split

variable {s : State} {n l r : Nat}

theorem State.SplitFits.leftSpans_le (h : s.SplitFits n l r) (a : Nat) (d : Int) :
    (leftSpans s.cfg a d (s.regionOf n)).length ≤ (s.nodeRec l).cap :=
  ((leftSpans_length_le s.cfg a d _).trans_eq (regionOf_length s n)).trans h.count_le_left

theorem State.SplitFits.rightSpans_le (h : s.SplitFits n l r) (a : Nat) (d : Int) :
    (rightSpans s.cfg a d (s.regionOf n)).length ≤ (s.nodeRec r).cap :=
  ((rightSpans_length_le s.cfg a d _).trans_eq (regionOf_length s n)).trans h.count_le_right

/-- Two lists that fit the reservations: the second store keeps the first region, and neither touches the parent's. -/
theorem State.SplitFits.partsStored (h : s.SplitFits n l r) {L R : List SpanRec} (hL : L.length ≤ (s.nodeRec l).cap)
    (hR : R.length ≤ (s.nodeRec r).cap) : s.PartsStored (storeRegion r R (storeRegion l L s)) n l r L R := by
  have hself : (storeRegion l L s).nodeRec l = { s.nodeRec l with count := L.length } := storeRegion_nodeRec_same l L s
  have hright : (storeRegion l L s).nodeRec r = s.nodeRec r := storeRegion_nodeRec_other L s h.left_ne_right.symm
  have hparent : (storeRegion l L s).nodeRec n = s.nodeRec n := storeRegion_nodeRec_other L s h.left_ne.symm
  have hR' : R.length ≤ ((storeRegion l L s).nodeRec r).cap := by rw [hright]; exact hR
  constructor
  case regionOf_left =>
    rw [storeRegion_regionOf_disjoint h.left_ne_right hR' (by rw [hself]; exact hL) (by rw [hself, hright]; exact h.disjoint),
      storeRegion_regionOf]
  case regionOf_right => exact storeRegion_regionOf r R _
  case regionOf_parent =>
    rw [storeRegion_regionOf_disjoint h.right_ne.symm hR' (by rw [hparent]; exact h.count_le)
        (by rw [hparent, hright]; exact h.disjoint_right),
      storeRegion_regionOf_disjoint h.left_ne.symm hL h.count_le h.disjoint_left]
  case nodeRec_left => rw [storeRegion_nodeRec_other _ _ h.left_ne_right, hself]
  case nodeRec_right => rw [storeRegion_nodeRec_same, hright]
  case nodeRec_other =>
    intro m hl hr
    rw [storeRegion_nodeRec_other _ _ hr, storeRegion_nodeRec_other _ _ hl]
  case spanRec_outside =>
    intro i hl hr
    rw [storeRegion_spanRec_outside hR' (by rw [hright]; exact hr), storeRegion_spanRec_outside hL hl]

theorem State.SplitFits.splitInto_partsStored (h : s.SplitFits n l r) (a : Nat) (d : Int) :
    s.PartsStored (splitInto n a d l r s) n l r (leftSpans s.cfg a d (s.regionOf n)) (rightSpans s.cfg a d (s.regionOf n)) :=
  h.partsStored (h.leftSpans_le a d) (h.rightSpans_le a d)

end Split

/-! ### `RG.SPLIT` (R270) -/

section Command

variable {s : State}

/-- The two counts that `RG.SPLIT` copies to its results from the records of `l` and `r`. -/
def State.returnCounts (t : State) (l r : Nat) : State :=
  (t.withRes0 (zext64 (t.nodeRec l).count)).withRes1 (zext64 (t.nodeRec r).count)

theorem returnCounts_writes (t : State) (l r : Nat) : WritesOnly [.res0, .res1] t (t.returnCounts l r) :=
  (WritesOnly.withRes0 (by decide) t _).trans (WritesOnly.withRes1 (by decide) _ _)

theorem endCommand_returnCounts_regionOf (t : State) (l r m : Nat) :
    (endCommand (t.returnCounts l r)).regionOf m = t.regionOf m :=
  regionOf_congr rfl rfl fun _ _ _ => rfl

theorem completedKeepingPad_returnCounts {t : State} (h : t.status = s.status) (l r : Nat) :
    CompletedKeepingPad s (endCommand (t.returnCounts l r)) :=
  ⟨⟨rfl, rfl, (congrArg Status.fault h :)⟩, (congrArg Status.pad h :)⟩

/-- All that `RG.SPLIT` asks of its operands and destinations once no tree is being built. -/
def State.SplitArgsOk (s : State) : Prop :=
  s.regionOk s.operand0 = true ∧ s.operand1 < s.cfg.nAngles ∧ -(2 ^ 40 : Int) < s.signedOperand2 ∧
  s.signedOperand2 < 2 ^ 40 ∧ s.destinationsOk s.operand0 = true

/-- The checks of `RG.SPLIT` on its nodes give all that `SplitInto` needs. -/
theorem State.SplitArgsOk.splitFits (h : s.SplitArgsOk) :
    s.SplitFits s.operand0 (s.nodeRec s.operand0).left (s.nodeRec s.operand0).right := by
  obtain ⟨hok, _, _, _, hd⟩ := h
  obtain ⟨_, _, hlr, hln, hrn, hcl, hcr, _, _, hdis, hdisl, hdisr⟩ := (destinationsOk_iff s s.operand0).mp hd
  simp only [State.regionOk, Bool.and_eq_true, decide_eq_true_eq] at hok
  obtain ⟨_, hcount, _⟩ := hok
  exact ⟨hlr, hln, hrn, hcount, hcl, hcr, hdis, hdisl, hdisr⟩

theorem rgSplitBody_of_checks (hphase : s.ft.phase ≠ .build) (h : s.SplitArgsOk) :
    rgSplitBody s = .ok () ((splitInto s.operand0 s.operand1 s.signedOperand2 (s.nodeRec s.operand0).left
      (s.nodeRec s.operand0).right s).returnCounts (s.nodeRec s.operand0).left (s.nodeRec s.operand0).right) := by
  obtain ⟨hok, ha, hlo, hhi, hd⟩ := h
  unfold rgSplitBody
  rw [get_bind, require_bind_of_true _ _ _ hphase, require_bind_of_true _ _ _ hok, require_bind_of_true _ _ _ ha,
    require_bind_of_true _ _ _ ⟨hlo, hhi⟩, require_bind_of_true _ _ _ hd]
  rfl

theorem rgSplitBody_protocol (hphase : s.ft.phase = .build) : rgSplitBody s = .error .protocolTree s := by
  unfold rgSplitBody
  rw [get_bind, require_bind_of_false _ _ _ (not_not.mpr hphase)]

/-- The four checks of the operands fault alike, so which one fails first does not matter. -/
theorem rgSplitBody_value (hphase : s.ft.phase ≠ .build) (h : ¬ s.SplitArgsOk) :
    rgSplitBody s = .error .argValue s := by
  unfold rgSplitBody
  rw [get_bind, require_bind_of_true _ _ _ hphase]
  by_cases hok : s.regionOk s.operand0 = true
  · rw [require_bind_of_true _ _ _ hok]
    by_cases ha : s.operand1 < s.cfg.nAngles
    · rw [require_bind_of_true _ _ _ ha]
      by_cases hdist : -(2 ^ 40 : Int) < s.signedOperand2 ∧ s.signedOperand2 < 2 ^ 40
      · rw [require_bind_of_true _ _ _ hdist,
          require_bind_of_false _ _ _ fun hd => h ⟨hok, ha, hdist.1, hdist.2, hd⟩]
      · rw [require_bind_of_false _ _ _ hdist]
    · rw [require_bind_of_false _ _ _ ha]
  · rw [require_bind_of_false _ _ _ hok]

end Command

/-- Settles O48: records, regions and `SPAN` by `State.SplitFits.splitInto_partsStored`, the results copied from the records, the
checks in their order. -/
theorem rgSplitResult : Obligations.RgSplitResult := by
  intro s
  refine ⟨fun hphase hok ha hlo hhi hd => ?_,
    fun hf hphase => trapsCleanly_of_error (i := .rgSplit) hf (rgSplitBody_protocol hphase),
    fun hf hphase h => trapsCleanly_of_error (i := .rgSplit) hf (rgSplitBody_value hphase h)⟩
  have hargs : s.SplitArgsOk := ⟨hok, ha, hlo, hhi, hd⟩
  have hbody := rgSplitBody_of_checks hphase hargs
  have hstored := hargs.splitFits.splitInto_partsStored s.operand1 s.signedOperand2
  have hwrites := splitInto_writes s.operand0 s.operand1 s.signedOperand2 (s.nodeRec s.operand0).left
    (s.nodeRec s.operand0).right s
  generalize splitInto s.operand0 s.operand1 s.signedOperand2 _ _ s = u at hbody hstored hwrites
  exact ⟨_, runCommand_of_ok (i := .rgSplit) hbody, completedKeepingPad_returnCounts (hwrites.1 .status (by decide)) _ _,
    (endCommand_returnCounts_regionOf ..).trans hstored.regionOf_left,
    (endCommand_returnCounts_regionOf ..).trans hstored.regionOf_right,
    (endCommand_returnCounts_regionOf ..).trans hstored.regionOf_parent,
    hstored.nodeRec_left, hstored.nodeRec_right, hstored.nodeRec_other, hstored.spanRec_outside,
    congrArg (fun q : NodeRec => zext64 q.count) hstored.nodeRec_left,
    congrArg (fun q : NodeRec => zext64 q.count) hstored.nodeRec_right,
    ((hwrites.1.mono (by decide)).trans ((returnCounts_writes ..).1.mono (by decide))).trans
      ((keepsAllBut_endCommand _).mono (by decide))⟩

end Sys2Proof.Machine
end

section
/-! PROOFS. The root of the tree, `FT.ROOT` (47_fragment_tree.md R283, R290). -/

namespace Sys2Proof.Machine

variable {s : State}

theorem makeRoot_of_room (hnode : 1 ≤ s.cfg.nodeCap) (hspan : s.cp.height.toNat ≤ s.cfg.spanCap) :
    makeRoot s = .ok () (rootState s) := by
  rcases makeRoot_spec s with ⟨_, _, he⟩ | ⟨hfull, _⟩ | ⟨_, hfull, _⟩
  · exact he
  · omega
  · omega

theorem makeRoot_node (h : s.cfg.nodeCap = 0) : makeRoot s = .error .capacityNode s := by
  rcases makeRoot_spec s with ⟨hnode, _⟩ | ⟨_, he⟩ | ⟨hnode, _⟩
  · omega
  · exact he
  · omega

theorem makeRoot_span (hnode : 1 ≤ s.cfg.nodeCap) (h : s.cfg.spanCap < s.cp.height.toNat) :
    makeRoot s = .error .capacitySpan s := by
  rcases makeRoot_spec s with ⟨_, hspan, _⟩ | ⟨hzero, _⟩ | ⟨_, _, he⟩
  · omega
  · omega
  · exact he

theorem rootState_ft (s : State) : (rootState s).ft = ⟨.build, 0, 1, s.cp.height⟩ := by
  show FtRegs.mk _ _ _ (zext64 s.cp.height.toNat) = _
  rw [zext64_word_toNat]

theorem ftRootBody_checked (hvalid : s.paramsValid = true) : ftRootBody s = (makeRoot >>= fun _ => setRes0 1) s := by
  unfold ftRootBody
  rw [get_bind, require_bind_of_true _ _ _ hvalid]

theorem ftRootBody_bank (hvalid : s.paramsValid = false) : ftRootBody s = .error .argBank s := by
  unfold ftRootBody
  rw [get_bind, require_bind_of_false _ _ _ (Bool.eq_false_iff.mp hvalid)]

/-- Settles O50: the elements by `rootState_spec`, the checks in their order. -/
theorem ftRootResult : Obligations.FtRootResult := by
  intro s
  refine ⟨fun hvalid hnode hspan => ?_, fun hf hvalid => trapsCleanly_of_error (i := .ftRoot) hf (ftRootBody_bank hvalid),
    fun hf hvalid hnode => trapsCleanly_of_error (i := .ftRoot) hf
      ((ftRootBody_checked hvalid).trans (bind_of_error (makeRoot_node hnode))),
    fun hf hvalid hnode hspan => trapsCleanly_of_error (i := .ftRoot) hf
      ((ftRootBody_checked hvalid).trans (bind_of_error (makeRoot_span hnode hspan)))⟩
  have hbody := (ftRootBody_checked hvalid).trans (bind_of_ok (makeRoot_of_room hnode hspan))
  obtain ⟨hspans, hrecs⟩ := rootState_spec s
  exact ⟨_, runCommand_of_ok (i := .ftRoot) hbody, ⟨⟨rfl, rfl, rfl⟩, rfl⟩, rfl, rootState_ft s, rfl, hspans, hrecs,
    (((rootState_writes s).1.mono (by decide)).trans ((WritesOnly.withRes0 (l := [.res0]) (by decide) _ _).1.mono (by decide))).trans
      ((keepsAllBut_endCommand _).mono (by decide))⟩

end Sys2Proof.Machine
end

section
/-! PROOFS. Parsing the node at the head of the queue (47_fragment_tree.md R284 to R286, R291): what a Fill and a Split do to the
tree, and `FT.PARSE` on the symbols of each. -/

namespace Sys2Proof.Machine

/-! ### Elements that a frame keeps -/

section Frame

variable {l : List Part} {s t : State}

theorem KeepsAllBut.nodeRec_eq (h : KeepsAllBut l s t) (hl : .mem .node ∉ l) : t.nodeRec = s.nodeRec :=
  funext fun n => BusData.node.inj (h (.mem .node) hl n)

theorem KeepsAllBut.spanRec_eq (h : KeepsAllBut l s t) (hl : .mem .span ∉ l) : t.spanRec = s.spanRec :=
  funext fun i => BusData.span.inj (h (.mem .span) hl i)

theorem KeepsAllBut.ft_eq (h : KeepsAllBut l s t) (hl : .ft ∉ l) : t.ft = s.ft := h .ft hl

theorem KeepsAllBut.cp_eq (h : KeepsAllBut l s t) (hl : .cp ∉ l) : t.cp = s.cp := h .cp hl

theorem KeepsAllBut.dr_eq (h : KeepsAllBut l s t) (hl : .dr ∉ l) : t.dr = s.dr := h .dr hl

theorem KeepsAllBut.rd_eq (h : KeepsAllBut l s t) (hl : .rd ∉ l) : t.rd = s.rd := h .rd hl

theorem KeepsAllBut.cfg_eq (h : KeepsAllBut l s t) (hl : .hostSide ∉ l) : t.cfg = s.cfg := (h .hostSide hl).1

end Frame

/-! ### The results of `FT.PARSE` (R291) -/

/-- The node at the head of the queue is done (47_fragment_tree.md R286). -/
def State.advanceHead (s : State) : State := s.withFt { s.ft with head := s.ft.head + 1 }

/-- The results of `FT.PARSE` for the node that was at the head. -/
def State.returnParsed (t : State) (head : Word) : State :=
  ((t.withRes0 head).withRes1 (zext64 (t.nodeRec head.toNat).kind.toNat)).withRes2 (t.ft.tail - t.ft.head)

theorem returnParsed_writes (t : State) (head : Word) : WritesOnly [.res0, .res1, .res2] t (t.returnParsed head) :=
  ((WritesOnly.withRes0 (by decide) t _).trans (WritesOnly.withRes1 (by decide) _ _)).trans
    (WritesOnly.withRes2 (by decide) _ _)

theorem advanceHead_writes (s : State) : WritesOnly [.ft] s s.advanceHead := .withFt (by decide) s _

section Checks

variable {s t : State}

/-- `FT.PARSE` past its checks. -/
theorem ftParseBody_of_parseNode (hphase : s.ft.phase = .build) (hqueue : s.ft.head.toNat < s.ft.tail.toNat)
    (hready : s.rd.state = .ready) (h : parseNode s = .ok () t) : ftParseBody s = .ok () (t.returnParsed s.ft.head) := by
  unfold ftParseBody
  rw [get_bind, require_bind_of_true _ _ _ hphase, require_bind_of_true _ _ _ hqueue, require_bind_of_true _ _ _ hready,
    bind_of_ok h]
  rfl

/-- `FT.PARSE` past its checks completes, with its results, and changes nothing else that the parse left. -/
theorem exec_ftParse_of_parseNode (hphase : s.ft.phase = .build) (hqueue : s.ft.head.toNat < s.ft.tail.toNat)
    (hready : s.rd.state = .ready) (h : parseNode s = .ok () t) :
    ∃ u, exec .ftParse s = .next u ∧ Completed s u ∧ u.status.pad = t.status.pad ∧ u.res0 = s.ft.head ∧
      u.res1 = zext64 (t.nodeRec s.ft.head.toNat).kind.toNat ∧ u.res2 = t.ft.tail - t.ft.head ∧
      KeepsAllBut [.status, .res0, .res1, .res2] t u :=
  ⟨_, runCommand_of_ok (i := .ftParse) (ftParseBody_of_parseNode hphase hqueue hready h),
    ⟨rfl, rfl, (parseNode_movesOnlyPad.ok h).fault_eq⟩, rfl, rfl, rfl, rfl,
    ((returnParsed_writes t _).1.mono (by decide)).trans ((keepsAllBut_endCommand _).mono (by decide))⟩

theorem ftParseBody_protocol (h : s.ft.phase ≠ .build ∨ s.ft.tail.toNat ≤ s.ft.head.toNat) :
    ftParseBody s = .error .protocolTree s := by
  unfold ftParseBody
  rw [get_bind]
  by_cases hphase : s.ft.phase = .build
  · have hqueue := h.resolve_left (not_not_intro hphase)
    rw [require_bind_of_true _ _ _ hphase, require_bind_of_false _ _ _ (Nat.not_lt.mpr hqueue)]
  · rw [require_bind_of_false _ _ _ hphase]

theorem ftParseBody_decoder (hphase : s.ft.phase = .build) (hqueue : s.ft.head.toNat < s.ft.tail.toNat)
    (hready : s.rd.state ≠ .ready) : ftParseBody s = .error .protocolDecoder s := by
  unfold ftParseBody
  rw [get_bind, require_bind_of_true _ _ _ hphase, require_bind_of_true _ _ _ hqueue, require_bind_of_false _ _ _ hready]

end Checks

/-! ### A Fill leaf (R284, R286) -/

/-- Node `n` becomes a Fill leaf: its colour, then its kind (47_fragment_tree.md R286). -/
def State.fillNode (s : State) (n : Nat) (c : Colour) : State :=
  let t := s.putNode n { s.nodeRec n with colour := c }
  t.putNode n { t.nodeRec n with kind := .fill }

theorem fillNode_nodeRec (s : State) (n : Nat) (c : Colour) (k : Nat) :
    (s.fillNode n c).nodeRec k = if k = n then { s.nodeRec k with kind := .fill, colour := c } else s.nodeRec k := by
  simp only [State.fillNode, putNode_nodeRec]
  by_cases h : k = n
  · subst h; simp only [if_true]
  · simp only [h, if_false]

theorem fillNode_writes (s : State) (n : Nat) (c : Colour) : WritesOnly [.mem .node] s (s.fillNode n c) :=
  (WritesOnly.putNode (by decide) s _ _).trans (.putNode (by decide) _ _ _)

theorem fillNode_advanceHead_nodeRec (s : State) (n : Nat) (c : Colour) (k : Nat) :
    (s.fillNode n c).advanceHead.nodeRec k =
      if k = n then { s.nodeRec k with kind := .fill, colour := c } else s.nodeRec k :=
  fillNode_nodeRec s n c k

theorem fillNode_advanceHead_keeps (s : State) (n : Nat) (c : Colour) :
    KeepsAllBut [.ft, .mem .node] s (s.fillNode n c).advanceHead :=
  (((fillNode_writes s n c).mono (by decide)).trans ((advanceHead_writes _).mono (by decide))).1

theorem OnlyDecoderMoved.nodeRec_eq {s t : State} (h : OnlyDecoderMoved s t) : t.nodeRec = s.nodeRec := by rw [h]; rfl

theorem OnlyDecoderMoved.ft_eq {s t : State} (h : OnlyDecoderMoved s t) : t.ft = s.ft := by rw [h]; rfl

theorem OnlyDecoderMoved.regionOf_eq {s t : State} (h : OnlyDecoderMoved s t) : t.regionOf = s.regionOf := by
  funext n
  rw [h]
  exact regionOf_congr rfl rfl fun _ _ _ => rfl

section Fill

variable {s u v : State} {symbols : List (Nat × Nat)} {c : Colour}

/-- The symbols of a colour are read as that colour. -/
theorem readColor_of_reads (hc : ColourSymbols s symbols c) (h : ReadsSymbols symbols s u) : readColor s = .ok c u := by
  unfold ColourSymbols at hc
  unfold readColor
  rw [get_bind]
  split at hc
  · obtain ⟨k, rfl, rfl⟩ := hc
    obtain ⟨_, hk, rfl⟩ := h
    rw [if_pos ‹_›, bind_of_ok (readNumber_eq_ok.mpr hk)]
    rfl
  · obtain ⟨vr, vg, vb, rfl, rfl⟩ := hc
    obtain ⟨_, hr, _, hg, _, hb, rfl⟩ := h
    rw [if_neg ‹_›, bind_of_ok (readNumber_eq_ok.mpr hr), bind_of_ok (readNumber_eq_ok.mpr hg),
      bind_of_ok (readNumber_eq_ok.mpr hb)]
    rfl

/-- What a colour's symbols stand for depends on the bank and the palette only. -/
theorem ColourSymbols.congr (hc : ColourSymbols s symbols c) (hcp : v.cp = s.cp) (hpal : v.palEntry = s.palEntry) :
    ColourSymbols v symbols c := by
  unfold ColourSymbols at *
  rwa [hcp, hpal]

/-- The type and the colour of a Fill leaf, read from the stream. -/
theorem parseNode_of_fill (hc : ColourSymbols s symbols c)
    (h : ReadsSymbols ((2, s.cfg.nodeFill) :: symbols) s u) :
    parseNode s = .ok () (u.fillNode s.ft.head.toNat c).advanceHead := by
  obtain ⟨v, htype, hcolour⟩ := h
  have hmoved := htype.onlyDecoderMoved
  unfold parseNode parseFill
  rw [get_bind, bind_of_ok (readNumber_eq_ok.mpr htype), if_pos rfl, bind_assoc,
    bind_of_ok (readColor_of_reads (hc.congr hmoved.cp_eq hmoved.palEntry_eq) hcolour)]
  rfl

end Fill

/-- Settles O51: the parse by `parseNode_of_fill`, the checks in their order. -/
theorem ftParseFillResult : Obligations.FtParseFillResult := by
  refine ⟨fun s u symbols c hphase hqueue hready hc hreads => ?_, fun s hf => ⟨fun h => ?_, fun hphase hqueue hready => ?_⟩⟩
  · have hmoved := hreads.onlyDecoderMoved
    have hparse := parseNode_of_fill hc hreads
    have hrec := fillNode_advanceHead_nodeRec u s.ft.head.toNat c
    have hframe := fillNode_advanceHead_keeps u s.ft.head.toNat c
    have hft : (u.fillNode s.ft.head.toNat c).advanceHead.ft = { u.ft with head := u.ft.head + 1 } := rfl
    have hpad : (u.fillNode s.ft.head.toNat c).advanceHead.status = u.status := hframe .status (by decide)
    rw [hmoved.nodeRec_eq] at hrec
    rw [hmoved.ft_eq] at hft
    generalize (u.fillNode s.ft.head.toNat c).advanceHead = v at hparse hrec hframe hft hpad
    obtain ⟨t, ht, hdone, hpad', hres0, hres1, hres2, hkept⟩ := exec_ftParse_of_parseNode hphase hqueue hready hparse
    refine ⟨t, ht, hdone, (hkept.rd_eq (by decide)).trans (hframe.rd_eq (by decide)),
      hpad'.trans (congrArg Status.pad hpad), (hkept.ft_eq (by decide)).trans hft, ?_, hres0, ?_, ?_, ?_⟩
    · rw [hkept.nodeRec_eq (by decide)]
      exact hrec
    · rw [hres1, hrec, if_pos rfl]
      rfl
    · rw [hres2, hft]
    · exact ((hmoved.keepsAllBut.mono (by decide)).trans (hframe.mono (by decide))).trans (hkept.mono (by decide))
  · exact trapsCleanly_of_error (i := .ftParse) hf (ftParseBody_protocol h)
  · exact trapsCleanly_of_error (i := .ftParse) hf (ftParseBody_decoder hphase hqueue hready)

end Sys2Proof.Machine
end

section
/-! PROOFS. A Split (47_fragment_tree.md R281, R285, R286): the two children that it allocates, the parts of the region that it
stores in them, and `FT.PARSE` on its symbols. -/

namespace Sys2Proof.Machine

/-! ### The two children and the parts (R281, R286) -/

/-- There is room in `NODE` and `SPAN` for two children of node `n` (47_fragment_tree.md R281). -/
def State.RoomForChildren (s : State) (n : Nat) : Prop :=
  s.ft.tail.toNat + 2 ≤ s.cfg.nodeCap ∧ s.ft.spanTop.toNat + 2 * (s.nodeRec n).count ≤ s.cfg.spanCap

/-- The two children of node `n` are allocated (47_fragment_tree.md R281). -/
def State.withChildren (s : State) (n : Nat) : State :=
  ((s.putNode s.ft.tail.toNat (NodeRec.fresh s.ft.spanTop.toNat 0 (s.nodeRec n).count)).putNode (s.ft.tail.toNat + 1)
    (NodeRec.fresh (s.ft.spanTop.toNat + (s.nodeRec n).count) 0 (s.nodeRec n).count)).withFt
    { s.ft with
      tail := zext64 (s.ft.tail.toNat + 2)
      spanTop := zext64 (s.ft.spanTop.toNat + 2 * (s.nodeRec n).count) }

/-- Node `n` becomes a Split with the children `l` and `r`: the children first, then the kind (47_fragment_tree.md R286). -/
def State.linkChildren (s : State) (n l r : Nat) : State :=
  let t := s.putNode n { s.nodeRec n with left := l, right := r }
  t.putNode n { t.nodeRec n with kind := .split }

/-- Node `n` is split by the cut of angle `a` at distance `d` into two new children (47_fragment_tree.md R286). -/
def State.splitNode (s : State) (n a : Nat) (d : Int) : State :=
  (splitInto n a d s.ft.tail.toNat (s.ft.tail.toNat + 1) (s.withChildren n)).linkChildren n s.ft.tail.toNat
    (s.ft.tail.toNat + 1)

/-- The Split case of `ParseNode` once its cut is known (47_fragment_tree.md R286). -/
def cutNode (n a : Nat) (d : Int) : Cmd Unit := do
  let kids ← allocChildren n
  update (splitInto n a d kids.1 kids.2)
  update (fun u => u.putNode n { u.nodeRec n with left := kids.1, right := kids.2 })
  update (fun u => u.putNode n { u.nodeRec n with kind := .split })

/-- The Split case of `ParseNode` from the angle on (47_fragment_tree.md R286). -/
def measureAndCut (n a : Nat) : Cmd Unit := do
  update (drUpdate n a)
  let t ← get
  let line ← readNumber t.dr.numLines.toNat
  cutNode n a (drDistance t.dr line)

theorem linkChildren_nodeRec (s : State) (n l r k : Nat) :
    (s.linkChildren n l r).nodeRec k =
      if k = n then { s.nodeRec k with kind := .split, left := l, right := r } else s.nodeRec k := by
  simp only [State.linkChildren, putNode_nodeRec]
  by_cases h : k = n
  · subst h; simp only [if_true]
  · simp only [h, if_false]

theorem linkChildren_regionOf (s : State) (n l r k : Nat) : (s.linkChildren n l r).regionOf k = s.regionOf k := by
  refine regionOf_congr ?_ ?_ fun _ _ _ => rfl
  · rw [linkChildren_nodeRec]; split <;> rfl
  · rw [linkChildren_nodeRec]; split <;> rfl

section Children

variable {s : State} {n : Nat}

theorem withChildren_nodeRec (s : State) (n k : Nat) :
    (s.withChildren n).nodeRec k =
      if k = s.ft.tail.toNat + 1 then NodeRec.fresh (s.ft.spanTop.toNat + (s.nodeRec n).count) 0 (s.nodeRec n).count
      else if k = s.ft.tail.toNat then NodeRec.fresh s.ft.spanTop.toNat 0 (s.nodeRec n).count
      else s.nodeRec k := by
  rw [State.withChildren, withFt_nodeRec, putNode_nodeRec, putNode_nodeRec]

theorem withChildren_nodeRec_left (s : State) (n : Nat) :
    (s.withChildren n).nodeRec s.ft.tail.toNat = NodeRec.fresh s.ft.spanTop.toNat 0 (s.nodeRec n).count := by
  rw [withChildren_nodeRec, if_neg (by omega), if_pos rfl]

theorem withChildren_nodeRec_right (s : State) (n : Nat) :
    (s.withChildren n).nodeRec (s.ft.tail.toNat + 1) =
      NodeRec.fresh (s.ft.spanTop.toNat + (s.nodeRec n).count) 0 (s.nodeRec n).count := by
  rw [withChildren_nodeRec, if_pos rfl]

theorem withChildren_nodeRec_other {k : Nat} (hl : k ≠ s.ft.tail.toNat) (hr : k ≠ s.ft.tail.toNat + 1) :
    (s.withChildren n).nodeRec k = s.nodeRec k := by
  rw [withChildren_nodeRec, if_neg hr, if_neg hl]

theorem withChildren_regionOf {k : Nat} (hk : k < s.ft.tail.toNat) : (s.withChildren n).regionOf k = s.regionOf k := by
  have hrec : (s.withChildren n).nodeRec k = s.nodeRec k := withChildren_nodeRec_other (by omega) (by omega)
  exact regionOf_congr (by rw [hrec]) (by rw [hrec]) fun _ _ _ => rfl

theorem allocChildren_of_room (h : s.RoomForChildren n) :
    allocChildren n s = .ok (s.ft.tail.toNat, s.ft.tail.toNat + 1) (s.withChildren n) := by
  obtain ⟨hnode, hspan⟩ := h
  rcases allocChildren_spec n s with ⟨_, _, he⟩ | ⟨hfull, _⟩ | ⟨_, hfull, _⟩
  · exact he
  · omega
  · omega

theorem cutNode_of_room (h : s.RoomForChildren n) (a : Nat) (d : Int) : cutNode n a d s = .ok () (s.splitNode n a d) := by
  unfold cutNode
  rw [bind_of_ok (allocChildren_of_room h), update_bind, update_bind, update_apply]
  rfl

/-- Everything that `cutNode` can do: the split, or a capacity fault with nothing changed. -/
theorem cutNode_spec (n a : Nat) (d : Int) (s : State) :
    (s.RoomForChildren n ∧ cutNode n a d s = .ok () (s.splitNode n a d)) ∨ ∃ e, cutNode n a d s = .error e s := by
  rcases allocChildren_spec n s with ⟨hnode, hspan, _⟩ | ⟨_, he⟩ | ⟨_, _, he⟩
  · exact .inl ⟨⟨hnode, hspan⟩, cutNode_of_room ⟨hnode, hspan⟩ a d⟩
  · exact .inr ⟨_, bind_of_error he⟩
  · exact .inr ⟨_, bind_of_error he⟩

/-- The new children and their parent take part in a split as R267 asks. -/
theorem withChildren_splitFits (hn : n < s.ft.tail.toNat) (hcount : (s.nodeRec n).count ≤ (s.nodeRec n).cap)
    (htop : (s.nodeRec n).base + (s.nodeRec n).cap ≤ s.ft.spanTop.toNat) :
    (s.withChildren n).SplitFits n s.ft.tail.toNat (s.ft.tail.toNat + 1) := by
  have hself : (s.withChildren n).nodeRec n = s.nodeRec n := withChildren_nodeRec_other (by omega) (by omega)
  have hl := withChildren_nodeRec_left s n
  have hr := withChildren_nodeRec_right s n
  constructor
  case left_ne_right => omega
  case left_ne => omega
  case right_ne => omega
  case count_le => rw [hself]; exact hcount
  case count_le_left => rw [hself, hl]; exact Nat.le_refl _
  case count_le_right => rw [hself, hr]; exact Nat.le_refl _
  all_goals
    simp only [reservedDisjoint_iff, hself, hl, hr, NodeRec.fresh]
    omega

end Children

/-- From `s` to `t` node `n` became a Split whose new children have the regions `L` and `R`; every other record, every older
region and every element of `SPAN` outside the two new reservations are as they were (47_fragment_tree.md R281, R286). -/
structure State.NodeCut (s t : State) (n : Nat) (L R : List SpanRec) : Prop where
  nodeRec_self : t.nodeRec n = { s.nodeRec n with kind := .split, left := s.ft.tail.toNat, right := s.ft.tail.toNat + 1 }
  nodeRec_left : t.nodeRec s.ft.tail.toNat = NodeRec.fresh s.ft.spanTop.toNat L.length (s.nodeRec n).count
  nodeRec_right : t.nodeRec (s.ft.tail.toNat + 1) =
    NodeRec.fresh (s.ft.spanTop.toNat + (s.nodeRec n).count) R.length (s.nodeRec n).count
  nodeRec_other : ∀ m, m ≠ n → m ≠ s.ft.tail.toNat → m ≠ s.ft.tail.toNat + 1 → t.nodeRec m = s.nodeRec m
  regionOf_left : t.regionOf s.ft.tail.toNat = L
  regionOf_right : t.regionOf (s.ft.tail.toNat + 1) = R
  spanRec_outside : ∀ i, i < s.ft.spanTop.toNat ∨ s.ft.spanTop.toNat + 2 * (s.nodeRec n).count ≤ i →
    t.spanRec i = s.spanRec i
  tail : t.ft.tail.toNat = s.ft.tail.toNat + 2
  spanTop : t.ft.spanTop.toNat = s.ft.spanTop.toNat + 2 * (s.nodeRec n).count

section Cut

variable {s t : State} {n : Nat} {L R : List SpanRec}

/-- The split of a node stores the two parts of its region in the new children. -/
theorem splitNode_nodeCut (hb : s.cfg.Bounds) (hroom : s.RoomForChildren n) (hn : n < s.ft.tail.toNat)
    (hcount : (s.nodeRec n).count ≤ (s.nodeRec n).cap)
    (htop : (s.nodeRec n).base + (s.nodeRec n).cap ≤ s.ft.spanTop.toNat) (a : Nat) (d : Int) :
    s.NodeCut (s.splitNode n a d) n (leftSpans s.cfg a d (s.regionOf n)) (rightSpans s.cfg a d (s.regionOf n)) := by
  obtain ⟨_, _, _, _, _, _, hnodeCap, hspanCap, _⟩ := hb
  obtain ⟨hnode, hspan⟩ := hroom
  have hstored := (withChildren_splitFits hn hcount htop).splitInto_partsStored a d
  have hself : (s.withChildren n).nodeRec n = s.nodeRec n := withChildren_nodeRec_other (by omega) (by omega)
  have hl := withChildren_nodeRec_left s n
  have hr := withChildren_nodeRec_right s n
  rw [withChildren_regionOf hn, show (s.withChildren n).cfg = s.cfg from rfl] at hstored
  have hft : (splitInto n a d s.ft.tail.toNat (s.ft.tail.toNat + 1) (s.withChildren n)).ft =
      { s.ft with
        tail := zext64 (s.ft.tail.toNat + 2)
        spanTop := zext64 (s.ft.spanTop.toNat + 2 * (s.nodeRec n).count) } := rfl
  unfold State.splitNode
  generalize splitInto n a d s.ft.tail.toNat (s.ft.tail.toNat + 1) (s.withChildren n) = t at hstored hft
  constructor
  case nodeRec_self =>
    rw [linkChildren_nodeRec, if_pos rfl, hstored.nodeRec_other n (by omega) (by omega), hself]
  case nodeRec_left =>
    rw [linkChildren_nodeRec, if_neg (by omega), hstored.nodeRec_left, hl]
    rfl
  case nodeRec_right =>
    rw [linkChildren_nodeRec, if_neg (by omega), hstored.nodeRec_right, hr]
    rfl
  case nodeRec_other =>
    intro m hmn hml hmr
    rw [linkChildren_nodeRec, if_neg hmn, hstored.nodeRec_other m hml hmr, withChildren_nodeRec_other hml hmr]
  case regionOf_left => rw [linkChildren_regionOf, hstored.regionOf_left]
  case regionOf_right => rw [linkChildren_regionOf, hstored.regionOf_right]
  case spanRec_outside =>
    intro i hi
    refine (hstored.spanRec_outside i ?_ ?_ :)
    · rw [hl, NodeRec.fresh]; dsimp only; omega
    · rw [hr, NodeRec.fresh]; dsimp only; omega
  case tail =>
    show t.ft.tail.toNat = _
    rw [hft]
    exact zext64_toNat (by omega)
  case spanTop =>
    show t.ft.spanTop.toNat = _
    rw [hft]
    exact zext64_toNat (by omega)

/-- A region below the new reservations is as it was. -/
theorem State.NodeCut.regionOf_older (h : s.NodeCut t n L R) {m : Nat} (hm : m < s.ft.tail.toNat)
    (htop : (s.nodeRec m).base + (s.nodeRec m).count ≤ s.ft.spanTop.toNat) : t.regionOf m = s.regionOf m := by
  have hbase : (t.nodeRec m).base = (s.nodeRec m).base ∧ (t.nodeRec m).count = (s.nodeRec m).count := by
    by_cases hmn : m = n
    · subst hmn
      rw [h.nodeRec_self]
      exact ⟨rfl, rfl⟩
    · rw [h.nodeRec_other m hmn (by omega) (by omega)]
      exact ⟨rfl, rfl⟩
  exact regionOf_congr hbase.1 hbase.2 fun j _ hj => h.spanRec_outside j (.inl (by omega))

end Cut

/-! ### The measurement of a Split (R286) -/

section Measured

variable {s u v : State} {n a : Nat} {d : DrRegs} {level : Fin 7}

theorem parseSplit_of_level {diag : Nat} (h : s.getLevel n = some (level, diag)) :
    parseSplit n s = (readAngle level >>= measureAndCut n) s := by
  unfold parseSplit
  rw [get_bind, h]
  rfl

theorem parseSplit_of_empty (h : s.getLevel n = none) : parseSplit n s = .error .corruptRegion s := by
  unfold parseSplit
  rw [get_bind, h]
  rfl

/-- A measurement of given spans at a given angle has one result. -/
theorem Measures.unique {c : Config} {b : CpRegs} {l : List SpanRec} {d d' : DrRegs} (h : Measures c b l a d)
    (h' : Measures c b l a d') : d = d' := by
  obtain ⟨hvalid, hangle, hmin, hmax, hquant, hlines⟩ := h
  obtain ⟨hvalid', hangle', hmin', hmax', hquant', hlines'⟩ := h'
  have emin : d.min = d'.min := BitVec.eq_of_toInt_eq (hmin.unique hmin')
  have emax : d.max = d'.max := BitVec.eq_of_toInt_eq (hmax.unique hmax')
  rw [← emin, ← emax] at hquant' hlines'
  have equant : d.quant = d'.quant := BitVec.eq_of_toNat_eq (hquant.unique hquant')
  rw [← equant] at hlines'
  have elines : d.numLines = d'.numLines := BitVec.eq_of_toNat_eq (hlines.trans hlines'.symm)
  have eangle : d.angle = d'.angle := BitVec.eq_of_toNat_eq (hangle.trans hangle'.symm)
  cases d
  cases d'
  simp only at emin emax equant elines eangle hvalid hvalid'
  subst emin emax equant elines eangle hvalid hvalid'
  rfl

theorem decoderBlind_withDr (d : DrRegs) : DecoderBlind (fun s => s.withDr d) :=
  ⟨fun _ => rfl, fun _ => rfl, fun _ => rfl, fun _ _ _ => rfl⟩

/-- From the angle on: the region is measured, the line is read, the node is split. -/
theorem measureAndCut_of_reads {line : Nat} (hdr : drUpdate n a s = s.withDr d)
    (h : ReadsSymbol d.numLines.toNat line s u) (hroom : u.RoomForChildren n) :
    measureAndCut n a s = .ok () ((u.withDr d).splitNode n a (drDistance d line)) := by
  have hread : readNumber d.numLines.toNat (s.withDr d) = .ok line (u.withDr d) :=
    readNumber_eq_ok.mpr (h.map (decoderBlind_withDr d))
  unfold measureAndCut
  rw [update_bind, get_bind, hdr, withDr_dr, bind_of_ok hread]
  have hroom' : (u.withDr d).RoomForChildren n := hroom
  exact cutNode_of_room hroom' a (drDistance d line)

theorem readAngle_of_reads {idx : Nat} (h : ReadsSymbol (2 ^ (s.cp.angleBits[level]).toNat) idx s u) :
    readAngle level s = .ok (idx * 2 ^ (s.cfg.angleBitsMax - (s.cp.angleBits[level]).toNat)) u := by
  unfold readAngle
  rw [get_bind, bind_of_ok (readNumber_eq_ok.mpr h)]
  rfl

theorem angleBits_le_of_paramsValid (h : s.paramsValid = true) (level : Fin 7) :
    (s.cp.angleBits[level]).toNat ≤ s.cfg.angleBitsMax := by
  have h7 : level = 0 ∨ level = 1 ∨ level = 2 ∨ level = 3 ∨ level = 4 ∨ level = 5 ∨ level = 6 := by revert level; decide
  simp only [State.paramsValid, CpRegs.valid, CpRegs.levelOk, Bool.and_eq_true, decide_eq_true_eq, and_assoc] at h
  obtain ⟨_, _, _, _, _, _, _, _, _, h0, _, h1, _, h2, _, h3, _, h4, _, h5, _, h6, _⟩ := h
  rcases h7 with rfl | rfl | rfl | rfl | rfl | rfl | rfl
  · exact h0
  · exact h1
  · exact h2
  · exact h3
  · exact h4
  · exact h5
  · exact h6

/-- The angle that an index of a level's bit depth stands for is one of the table (R285). -/
theorem angle_lt_nAngles {b idx : Nat} {c : Config} (hb : b ≤ c.angleBitsMax) (hidx : idx ≤ 2 ^ b - 1) :
    idx * 2 ^ (c.angleBitsMax - b) < c.nAngles := by
  have hpos : 0 < 2 ^ b := Nat.two_pow_pos b
  calc idx * 2 ^ (c.angleBitsMax - b) < 2 ^ b * 2 ^ (c.angleBitsMax - b) :=
        Nat.mul_lt_mul_of_pos_right (by omega) (Nat.two_pow_pos _)
    _ = c.nAngles := by rw [← pow_add, Nat.add_sub_cancel' hb, Config.nAngles]

/-- What a measurement leaves depends on the region, the parameters and the bank. -/
theorem drUpdate_dr_congr (hcfg : u.cfg = s.cfg) (hcp : u.cp = s.cp) (hregion : u.regionOf n = s.regionOf n)
    (hdr : u.dr = s.dr) : (drUpdate n a u).dr = (drUpdate n a s).dr := by
  unfold drUpdate
  rw [hregion]
  cases s.regionOf n with
  | nil => exact hdr
  | cons p rest =>
    show (drUpdateWith a p rest u).dr = (drUpdateWith a p rest s).dr
    simp only [drUpdateWith, hcfg, hcp, withDr_dr]

end Measured

end Sys2Proof.Machine
end

section
/-! PROOFS. `FT.PARSE` on the symbols of a Split (47_fragment_tree.md R281, R285, R286, R291). -/

namespace Sys2Proof.Machine

/-- A region depends on the records and the spans only. -/
theorem regionOf_eq_of_reads {s t : State} (hrec : t.nodeRec = s.nodeRec) (hspan : t.spanRec = s.spanRec) :
    t.regionOf = s.regionOf := by
  funext n
  exact regionOf_congr (by rw [hrec]) (by rw [hrec]) fun _ _ _ => by rw [hspan]

theorem OnlyDecoderMoved.spanRec_eq {s t : State} (h : OnlyDecoderMoved s t) : t.spanRec = s.spanRec := by rw [h]; rfl

theorem OnlyDecoderMoved.dr_eq {s t : State} (h : OnlyDecoderMoved s t) : t.dr = s.dr := by rw [h]; rfl

section Split

variable {s t u v : State} {n a : Nat} {L R : List SpanRec} {d : DrRegs} {level : Fin 7}

theorem State.NodeCut.of_same (h : u.NodeCut t n L R) (hrec : u.nodeRec = s.nodeRec) (hspan : u.spanRec = s.spanRec)
    (hft : u.ft = s.ft) : s.NodeCut t n L R := by
  obtain ⟨hself, hleft, hright, hother, hregl, hregr, houtside, htail, htop⟩ := h
  rw [hrec, hft] at hself hleft hright hother
  rw [hft] at hregl hregr htail
  rw [hrec, hspan, hft] at houtside
  rw [hrec, hft] at htop
  exact ⟨hself, hleft, hright, hother, hregl, hregr, houtside, htail, htop⟩

theorem State.NodeCut.advanceHead (h : s.NodeCut t n L R) : s.NodeCut t.advanceHead n L R := by
  have hregion : t.advanceHead.regionOf = t.regionOf := regionOf_eq_of_reads rfl rfl
  exact { h with regionOf_left := by rw [hregion, h.regionOf_left], regionOf_right := by rw [hregion, h.regionOf_right] }

theorem State.NodeCut.of_keeps (h : s.NodeCut t n L R) {l : List Part} (hk : KeepsAllBut l t u)
    (hl : Part.ft ∉ l ∧ Part.mem .node ∉ l ∧ Part.mem .span ∉ l) : s.NodeCut u n L R := by
  have hrec := hk.nodeRec_eq hl.2.1
  have hspan := hk.spanRec_eq hl.2.2
  have hft := hk.ft_eq hl.1
  have hregion := regionOf_eq_of_reads hrec hspan
  constructor
  case nodeRec_self => rw [hrec]; exact h.nodeRec_self
  case nodeRec_left => rw [hrec]; exact h.nodeRec_left
  case nodeRec_right => rw [hrec]; exact h.nodeRec_right
  case nodeRec_other => rw [hrec]; exact h.nodeRec_other
  case regionOf_left => rw [hregion]; exact h.regionOf_left
  case regionOf_right => rw [hregion]; exact h.regionOf_right
  case spanRec_outside => rw [hspan]; exact h.spanRec_outside
  case tail => rw [hft]; exact h.tail
  case spanTop => rw [hft]; exact h.spanTop

theorem splitNode_writes (s : State) (n a : Nat) (d : Int) :
    WritesOnly [.ft, .freeCount, .mem .node, .mem .span] s (s.splitNode n a d) := by
  have hkids : WritesOnly [.ft, .freeCount, .mem .node, .mem .span] s (s.withChildren n) :=
    ((WritesOnly.putNode (by decide) s _ _).trans (.putNode (by decide) _ _ _)).trans (.withFt (by decide) _ _)
  exact (hkids.trans ((splitInto_writes _ _ _ _ _ _).mono (by decide))).trans
    ((WritesOnly.putNode (by decide) _ _ _).trans (.putNode (by decide) _ _ _))

theorem linkChildren_ft (s : State) (n l r : Nat) : (s.linkChildren n l r).ft = s.ft := rfl

theorem splitNode_ft (s : State) (n a : Nat) (d : Int) : (s.splitNode n a d).ft = (s.withChildren n).ft := by
  rw [State.splitNode, linkChildren_ft, splitInto_eq, storeRegion_ft, storeRegion_ft]

theorem splitNode_phase (s : State) (n a : Nat) (d : Int) : (s.splitNode n a d).ft.phase = s.ft.phase := by
  rw [splitNode_ft]
  rfl

theorem splitNode_head (s : State) (n a : Nat) (d : Int) : (s.splitNode n a d).ft.head = s.ft.head := by
  rw [splitNode_ft]
  rfl

theorem splitNode_advanceHead_keeps (s : State) (n a : Nat) (d : Int) :
    KeepsAllBut [.ft, .freeCount, .mem .node, .mem .span] s (s.splitNode n a d).advanceHead :=
  ((splitNode_writes s n a d).trans ((advanceHead_writes _).mono (by decide))).1

/-- A node type other than `NODE_FILL` is a Split. -/
theorem parseNode_of_parseSplit {type : Nat} (htype : ReadsSymbol 2 type s v) (hne : type ≠ s.cfg.nodeFill)
    (h : parseSplit s.ft.head.toNat v = .ok () t) : parseNode s = .ok () t.advanceHead := by
  unfold parseNode
  rw [get_bind, bind_of_ok (readNumber_eq_ok.mpr htype), if_neg hne, bind_of_ok h]
  rfl

/-- The registers of a measurement are what `DrUpdate` leaves (R253). -/
theorem drUpdate_eq_of_measures (hb : s.cfg.Bounds) (hrom : s.cfg.RomOk) (hok : s.regionOk n = true) (ha : a < s.cfg.nAngles)
    (hvalid : s.paramsValid = true) (hcount : 0 < (s.nodeRec n).count) (hd : Measures s.cfg s.cp (s.regionOf n) a d)
    (hm : OnlyDecoderMoved s v) : drUpdate n a v = v.withDr d := by
  have hdr : (drUpdate n a v).dr = (drUpdate n a s).dr :=
    drUpdate_dr_congr hm.cfg_eq hm.cp_eq (by rw [hm.regionOf_eq]) hm.dr_eq
  rw [drUpdate_eq, hdr, (drUpdate_measures hb hrom hok ha hvalid hcount).unique hd]

theorem count_pos_of_box {minX maxX minY maxY : Nat} (h : BoundingBox (s.regionOf n) minX maxX minY maxY) :
    0 < (s.nodeRec n).count := by
  obtain ⟨_, ⟨p, hp, _⟩, _⟩ := h
  rw [← regionOf_length s n]
  exact List.length_pos_of_mem hp

/-- The type, the angle and the line of a Split, read from the stream. -/
theorem parseNode_of_split {minX maxX minY maxY idx line : Nat} (hb : s.cfg.Bounds) (hrom : s.cfg.RomOk)
    (hvalid : s.paramsValid = true) (hn : s.ft.head.toNat = n) (hok : s.regionOk n = true) (hroom : s.RoomForChildren n)
    (hbox : BoundingBox (s.regionOf n) minX maxX minY maxY) (hlevel : IsLevel s.cp (boxDiagonal minX maxX minY maxY) level)
    (ha : a = idx * 2 ^ (s.cfg.angleBitsMax - (s.cp.angleBits[level]).toNat))
    (hd : Measures s.cfg s.cp (s.regionOf n) a d)
    (h : ReadsSymbols [(2, s.cfg.nodeSplit), (2 ^ (s.cp.angleBits[level]).toNat, idx), (d.numLines.toNat, line)] s u) :
    parseNode s = .ok () ((u.withDr d).splitNode n a (drDistance d line)).advanceHead := by
  obtain ⟨_, _, _, _, _, _, _, _, _, _, _, _, _, _, _, _, _, hne⟩ := id hb
  obtain ⟨v, htype, w, hangle, _, hline, rfl⟩ := h
  have hv := htype.onlyDecoderMoved
  have hw := hv.trans hangle.onlyDecoderMoved
  have hu := hw.trans hline.onlyDecoderMoved
  have ha' : a < s.cfg.nAngles := by
    rw [ha]
    exact angle_lt_nAngles (angleBits_le_of_paramsValid hvalid level) hangle.le_pred
  have hdr := drUpdate_eq_of_measures hb hrom hok ha' hvalid (count_pos_of_box hbox) hd hw
  have hgetLevel : v.getLevel n = some (level, boxDiagonal minX maxX minY maxY) := by
    rw [State.getLevel, hv.regionOf_eq, hv.cp_eq]
    exact (getLevel_of_box hok hbox).trans (by rw [(levelFor_spec s.cp _).unique hlevel])
  have hreadAngle : readAngle level v = .ok a w := by
    rw [ha, ← hv.cp_eq, ← hv.cfg_eq]
    exact readAngle_of_reads (hv.cp_eq ▸ hangle)
  have hroom' : u.RoomForChildren n := by
    rw [State.RoomForChildren, hu.ft_eq, hu.cfg_eq, hu.nodeRec_eq]
    exact hroom
  have hsplit : parseSplit n v = .ok () ((u.withDr d).splitNode n a (drDistance d line)) := by
    rw [parseSplit_of_level hgetLevel, bind_of_ok hreadAngle]
    exact measureAndCut_of_reads hdr hline hroom'
  exact parseNode_of_parseSplit htype hne.symm (hn ▸ hsplit)

end Split

/-- Settles O52: the parse by `parseNode_of_split`, the records, regions and spans by `splitNode_nodeCut`. -/
theorem ftParseSplitResult : Obligations.FtParseSplitResult := by
  intro s u minX maxX minY maxY level idx line d n l top c b a dist hb hrom hphase hqueue hready hvalid hok htop hnode hspan
    hbox hlevel hd hreads
  have hmoved := hreads.onlyDecoderMoved
  have hroom : s.RoomForChildren n := ⟨hnode, hspan⟩
  have hparse := parseNode_of_split (a := a) hb hrom hvalid rfl hok hroom hbox hlevel rfl hd hreads
  have hdist : drDistance d line = dist := rfl
  rw [hdist] at hparse
  have hcount : (s.nodeRec n).count ≤ (s.nodeRec n).cap := by
    simp only [State.regionOk, Bool.and_eq_true, decide_eq_true_eq] at hok
    obtain ⟨_, hcount, _⟩ := hok; exact hcount
  have hcut : s.NodeCut ((u.withDr d).splitNode n a dist).advanceHead n (leftSpans s.cfg a dist (s.regionOf n))
      (rightSpans s.cfg a dist (s.regionOf n)) := by
    have hsame : (u.withDr d).cfg = s.cfg ∧ (u.withDr d).nodeRec = s.nodeRec ∧ (u.withDr d).spanRec = s.spanRec ∧
        (u.withDr d).ft = s.ft := ⟨hmoved.cfg_eq, hmoved.nodeRec_eq, hmoved.spanRec_eq, hmoved.ft_eq⟩
    generalize u.withDr d = w at hsame
    obtain ⟨hcfg, hrec, hspans, hft⟩ := hsame
    have hw := splitNode_nodeCut (s := w) (n := n) (hcfg ▸ hb)
      (by rw [State.RoomForChildren, hcfg, hrec, hft]; exact hroom) (by rw [hft]; exact hqueue) (by rw [hrec]; exact hcount)
      (by rw [hrec, hft]; exact htop) a dist
    rw [hcfg, regionOf_eq_of_reads hrec hspans] at hw
    exact (hw.of_same hrec hspans hft).advanceHead
  have hframe := splitNode_advanceHead_keeps (u.withDr d) n a dist
  have hframe' : KeepsAllBut [.dr] u (u.withDr d) := (WritesOnly.withDr (by decide) u d).1
  have hphase' : ((u.withDr d).splitNode n a dist).advanceHead.ft.phase = s.ft.phase :=
    (splitNode_phase (u.withDr d) n a dist).trans (congrArg FtRegs.phase hmoved.ft_eq)
  have hhead : ((u.withDr d).splitNode n a dist).advanceHead.ft.head = s.ft.head + 1 :=
    congrArg (· + 1) ((splitNode_head (u.withDr d) n a dist).trans (congrArg FtRegs.head hmoved.ft_eq))
  generalize ((u.withDr d).splitNode n a dist).advanceHead = v at hparse hcut hframe hphase' hhead
  obtain ⟨t, ht, hdone, hpad, hres0, hres1, hres2, hkept⟩ := exec_ftParse_of_parseNode hphase hqueue hready hparse
  have hft := hkept.ft_eq (by decide)
  have hstatus : v.status = u.status := hframe .status (by decide)
  have hcut' := hcut.of_keeps hkept (by decide)
  refine ⟨t, ht, hdone, (hkept.rd_eq (by decide)).trans (hframe.rd_eq (by decide)), hpad.trans (congrArg Status.pad hstatus),
    (hkept.dr_eq (by decide)).trans (hframe.dr_eq (by decide)), ?_, ?_, hcut'.tail, hcut'.spanTop, hcut'.nodeRec_self,
    hcut'.nodeRec_left, hcut'.nodeRec_right, hcut'.nodeRec_other, hcut'.regionOf_left, hcut'.regionOf_right,
    hcut'.spanRec_outside, hres0, ?_, ?_, ?_⟩
  · rw [hft, hphase', hphase]
  · rw [hft, hhead]
  · rw [hres1, hcut.nodeRec_self]
    rfl
  · rw [hres2, hft]
  · exact ((hmoved.keepsAllBut.mono (by decide)).trans (hframe'.mono (by decide))).trans
      ((hframe.mono (by decide)).trans (hkept.mono (by decide)))

end Sys2Proof.Machine
end

section
/-! PROOFS. The tree under construction stays well formed and its leaves tile the image (47_fragment_tree.md R283, R286, R303,
R304): at the root, after a Fill and after a Split. -/

namespace Sys2Proof.Machine

/-! ### The tiling (R303, R304) -/

/-- The region of node `n` lies in its reservation below `SPAN_TOP` and inside the image, one span a row at most. -/
def State.RegionShaped (s : State) (n : Nat) : Prop :=
  (s.nodeRec n).count ≤ (s.nodeRec n).cap ∧ (s.nodeRec n).base + (s.nodeRec n).cap ≤ s.ft.spanTop.toNat ∧
  (∀ p ∈ s.regionOf n, p.x0 < p.x1 ∧ p.x1 ≤ s.cp.width.toNat ∧ p.y < s.cp.height.toNat) ∧
  (s.regionOf n).Pairwise (fun p q => p.y < q.y)

/-- Node `n` is a node of the tree, no Split, and its region covers the pixel `(x, y)`. -/
def State.LeafCovers (s : State) (x y n : Nat) : Prop :=
  n < s.ft.tail.toNat ∧ (s.nodeRec n).kind ≠ .split ∧ covers (s.regionOf n) x y

/-- How many of the first `k` nodes are Splits. -/
def State.splitCount (s : State) (k : Nat) : Nat :=
  ((List.range k).filter (fun n => decide ((s.nodeRec n).kind = .split))).length

/-- What `State.TreeShape` says of a tree under construction, in every state. -/
structure State.TreeTiled (s : State) : Prop where
  regions : ∀ n < s.ft.tail.toNat, s.RegionShaped n
  unread : ∀ n < s.ft.tail.toNat, ((s.nodeRec n).kind = .unread ↔ s.ft.head.toNat ≤ n)
  disjoint : ∀ m < s.ft.tail.toNat, ∀ n < s.ft.tail.toNat, m ≠ n → reservedDisjoint (s.nodeRec m) (s.nodeRec n) = true
  tiles : ∀ x < s.cp.width.toNat, ∀ y < s.cp.height.toNat, ∃! n, s.LeafCovers x y n
  counts : s.ft.tail.toNat = 2 * s.splitCount s.ft.tail.toNat + 1

theorem treeShape_iff (s : State) :
    s.TreeShape ↔ (s.status.fault = false → s.ft.phase = .build → s.TreeTiled) :=
  ⟨fun h hf hp => let ⟨h1, h2, h3, h4, h5⟩ := h hf hp; ⟨h1, h2, h3, h4, h5⟩,
    fun h hf hp => let ⟨h1, h2, h3, h4, h5⟩ := h hf hp; ⟨h1, h2, h3, h4, h5⟩⟩

section Tiled

variable {s t u : State} {n m : Nat} {L R : List SpanRec}

theorem State.TreeTiled.of_same (h : s.TreeTiled) (hrec : t.nodeRec = s.nodeRec) (hspan : t.spanRec = s.spanRec)
    (hft : t.ft = s.ft) (hcp : t.cp = s.cp) : t.TreeTiled := by
  have hregion := regionOf_eq_of_reads hrec hspan
  obtain ⟨h1, h2, h3, h4, h5⟩ := h
  constructor
  case regions => unfold State.RegionShaped at *; rw [hrec, hft, hregion, hcp]; exact h1
  case unread => rw [hrec, hft]; exact h2
  case disjoint => rw [hrec, hft]; exact h3
  case tiles => unfold State.LeafCovers at *; rw [hrec, hft, hregion, hcp]; exact h4
  case counts => unfold State.splitCount at *; rw [hrec, hft]; exact h5

/-- The parts of the state that the tiling is about. -/
def treeParts : List Part := [.cp, .ft, .mem .node, .mem .span]

theorem State.TreeTiled.of_keeps (h : s.TreeTiled) {l : List Part} (hk : KeepsAllBut l s t) (hl : ∀ p ∈ treeParts, p ∉ l) :
    t.TreeTiled :=
  h.of_same (hk.nodeRec_eq (hl _ (by decide))) (hk.spanRec_eq (hl _ (by decide))) (hk.ft_eq (hl _ (by decide)))
    (hk.cp_eq (hl _ (by decide)))

/-! #### The root (R283) -/

theorem rootState_regionOf (s : State) : (rootState s).regionOf 0 = rootSpans s.cp.width.toNat s.cp.height.toNat 0 := by
  obtain ⟨hspans, hrecs⟩ := rootState_spec s
  have hread := spansFrom_eq_of_reads (s := rootState s) (rootSpans s.cp.width.toNat s.cp.height.toNat 0) 0 fun j hj => by
    rw [rootSpans_length] at hj
    have hget := rootSpans_getElem? s.cp.width.toNat s.cp.height.toNat 0 j
    rw [if_pos hj, List.getElem?_eq_some_iff] at hget
    obtain ⟨_, hget⟩ := hget
    rw [hget, hspans, Nat.zero_add, if_pos hj]
  rw [rootSpans_length] at hread
  rw [State.regionOf, hrecs, if_pos rfl]
  exact hread

theorem mem_rootSpans {w k y : Nat} {p : SpanRec} : p ∈ rootSpans w k y ↔ p.x0 = 0 ∧ p.x1 = w ∧ y ≤ p.y ∧ p.y < y + k := by
  induction k generalizing y with
  | zero => simp only [rootSpans, List.not_mem_nil, false_iff]; omega
  | succ k ih =>
    rw [rootSpans, List.mem_cons, ih]
    constructor
    · rintro (rfl | h)
      · exact ⟨rfl, rfl, Nat.le_refl y, by dsimp only; omega⟩
      · omega
    · rintro ⟨hx0, hx1, hlo, hhi⟩
      by_cases hy : p.y = y
      · refine .inl ?_
        cases p
        simp only at hx0 hx1 hy
        rw [hx0, hx1, hy]
      · exact .inr ⟨hx0, hx1, by omega, by omega⟩

theorem rootSpans_pairwise (w k y : Nat) : (rootSpans w k y).Pairwise (fun p q => p.y < q.y) := by
  induction k generalizing y with
  | zero => exact .nil
  | succ k ih =>
    refine List.pairwise_cons.mpr ⟨fun p hp => ?_, ih (y + 1)⟩
    obtain ⟨_, _, hlo, _⟩ := mem_rootSpans.mp hp
    exact hlo

theorem covers_rootSpans {w h x y : Nat} : covers (rootSpans w h 0) x y ↔ x < w ∧ y < h := by
  constructor
  · rintro ⟨p, hp, hy, hx⟩
    have := mem_rootSpans.mp hp
    omega
  · rintro ⟨hx, hy⟩
    exact ⟨⟨y, 0, w⟩, mem_rootSpans.mpr ⟨rfl, rfl, by dsimp only; omega, by dsimp only; omega⟩, rfl, Nat.zero_le x, hx⟩

/-- The root alone tiles the image (R283, R303). -/
theorem rootState_treeTiled (hw : 1 ≤ s.cp.width.toNat) : (rootState s).TreeTiled := by
  obtain ⟨_, hrecs⟩ := rootState_spec s
  have hrec : (rootState s).nodeRec 0 = NodeRec.fresh 0 s.cp.height.toNat s.cp.height.toNat := by rw [hrecs, if_pos rfl]
  have hregion := rootState_regionOf s
  have hft := rootState_ft s
  have hcp : (rootState s).cp = s.cp := rfl
  generalize rootState s = t at hrec hregion hft hcp
  have htail : t.ft.tail.toNat = 1 := by rw [hft]; rfl
  have hhead : t.ft.head.toNat = 0 := by rw [hft]; rfl
  have htop : t.ft.spanTop.toNat = s.cp.height.toNat := by rw [hft]
  constructor
  case regions =>
    intro n hn
    obtain rfl : n = 0 := by omega
    rw [State.RegionShaped, hrec, hregion, hcp, htop]
    refine ⟨Nat.le_refl _, (Nat.zero_add _).le, fun p hp => ?_, rootSpans_pairwise _ _ _⟩
    have := mem_rootSpans.mp hp
    omega
  case unread =>
    intro n hn
    obtain rfl : n = 0 := by omega
    rw [hrec, hhead]
    exact iff_of_true rfl (Nat.le_refl 0)
  case disjoint => omega
  case tiles =>
    intro x hx y hy
    rw [hcp] at hx hy
    refine ⟨0, ⟨by omega, by rw [hrec]; exact nofun, ?_⟩, fun n hn => ?_⟩
    · rw [hregion]
      exact covers_rootSpans.mpr ⟨hx, hy⟩
    · have := hn.1
      omega
  case counts =>
    rw [htail, State.splitCount, show List.range 1 = [0] from rfl, List.filter_cons, hrec]
    rfl

/-! #### A Fill (R286) -/

theorem head_succ_toNat (hqueue : s.ft.head.toNat < s.ft.tail.toNat) : (s.ft.head + 1).toNat = s.ft.head.toNat + 1 := by
  have := s.ft.tail.isLt
  bv_omega

/-- The node at the head of the queue is unread. -/
theorem State.TreeTiled.head_kind (h : s.TreeTiled) (hqueue : s.ft.head.toNat < s.ft.tail.toNat) :
    (s.nodeRec s.ft.head.toNat).kind = .unread :=
  (h.unread _ hqueue).mpr (Nat.le_refl _)

/-- A Fill takes the place of the unread node. -/
theorem State.TreeTiled.fillNode (h : s.TreeTiled) (hqueue : s.ft.head.toNat < s.ft.tail.toNat) (c : Colour) :
    (s.fillNode s.ft.head.toNat c).advanceHead.TreeTiled := by
  have hkind := h.head_kind hqueue
  have hnext := head_succ_toNat hqueue
  have hrec := fillNode_advanceHead_nodeRec s s.ft.head.toNat c
  have hspan : (s.fillNode s.ft.head.toNat c).advanceHead.spanRec = s.spanRec :=
    (fillNode_advanceHead_keeps s _ c).spanRec_eq (by decide)
  have hft : (s.fillNode s.ft.head.toNat c).advanceHead.ft = { s.ft with head := s.ft.head + 1 } := rfl
  have hcp : (s.fillNode s.ft.head.toNat c).advanceHead.cp = s.cp := (fillNode_advanceHead_keeps s _ c).cp_eq (by decide)
  generalize (s.fillNode s.ft.head.toNat c).advanceHead = t at hrec hspan hft hcp
  have hbase : ∀ k, (t.nodeRec k).base = (s.nodeRec k).base ∧ (t.nodeRec k).count = (s.nodeRec k).count ∧
      (t.nodeRec k).cap = (s.nodeRec k).cap := fun k => by
    rw [hrec]
    split <;> exact ⟨rfl, rfl, rfl⟩
  have hregion : ∀ k, t.regionOf k = s.regionOf k := fun k =>
    regionOf_congr (hbase k).1 (hbase k).2.1 fun _ _ _ => by rw [hspan]
  have hsplit : ∀ k, (t.nodeRec k).kind = .split ↔ (s.nodeRec k).kind = .split := fun k => by
    rw [hrec]
    split
    next he => subst he; rw [hkind]; exact iff_of_false nofun nofun
    next => exact Iff.rfl
  have htail : t.ft.tail = s.ft.tail := by rw [hft]
  obtain ⟨hregions, hunread, hdisjoint, htiles, hcounts⟩ := h
  constructor
  case regions =>
    intro n hn
    obtain ⟨hb, hc, hk⟩ := hbase n
    rw [htail] at hn
    rw [State.RegionShaped, hb, hc, hk, hregion, hcp, hft]
    exact hregions n hn
  case unread =>
    intro n hn
    rw [htail] at hn
    rw [hrec, hft, hnext]
    split
    next he => exact iff_of_false nofun (by omega)
    next hne => rw [hunread n hn]; omega
  case disjoint =>
    intro m hm n hn hmn
    rw [htail] at hm hn
    obtain ⟨hbm, _, hkm⟩ := hbase m
    obtain ⟨hbn, _, hkn⟩ := hbase n
    have := hdisjoint m hm n hn hmn
    rw [reservedDisjoint_iff] at this ⊢
    rwa [hbm, hkm, hbn, hkn]
  case tiles =>
    have hleaf : ∀ x y n, t.LeafCovers x y n ↔ s.LeafCovers x y n := fun x y n => by
      rw [State.LeafCovers, State.LeafCovers, htail, hregion, ne_eq, hsplit]
    simp only [hleaf, hcp]
    exact htiles
  case counts =>
    simp only [State.splitCount, hsplit, htail]
    exact hcounts

/-! #### A Split (R286) -/

/-- One more of the first `k` nodes has a property. -/
theorem length_filter_range_succ {p q : Nat → Bool} {k n : Nat} (hn : n < k) (hp : p n = false) (hq : q n = true)
    (h : ∀ m, m ≠ n → m < k → q m = p m) :
    ((List.range k).filter q).length = ((List.range k).filter p).length + 1 := by
  induction k with
  | zero => omega
  | succ k ih =>
    rw [List.range_succ, List.filter_append, List.filter_append, List.length_append, List.length_append]
    by_cases hk : n = k
    · subst hk
      have hsame : (List.range n).filter q = (List.range n).filter p :=
        List.filter_congr fun m hm => h m (by have := List.mem_range.mp hm; omega) (by have := List.mem_range.mp hm; omega)
      simp [hsame, hp, hq]
    · rw [ih (by omega) fun m hm hmk => h m hm (by omega)]
      simp only [List.filter_cons, h k (Ne.symm hk) (by omega), List.filter_nil]
      omega

/-- Cut spans stay inside the image. -/
theorem CutsSpans.inside {f : SpanRec → List SpanRec} {l : List SpanRec} {w h : Nat} (hf : CutsSpans f)
    (hl : ∀ p ∈ l, p.x0 < p.x1 ∧ p.x1 ≤ w ∧ p.y < h) : ∀ q ∈ l.flatMap f, q.x0 < q.x1 ∧ q.x1 ≤ w ∧ q.y < h := by
  intro q hq
  obtain ⟨p, hp, hqp⟩ := List.mem_flatMap.mp hq
  obtain ⟨hy, _, hx1, hne⟩ := (hf p).2 q hqp
  obtain ⟨hpx, hpw, hph⟩ := hl p hp
  exact ⟨hne hpx, by omega, by omega⟩

/-- What the two parts of a region must be for the tiling: shaped as the region is, and a partition of its pixels. -/
structure PartsTile (l L R : List SpanRec) (w h : Nat) : Prop where
  left_length : L.length ≤ l.length
  right_length : R.length ≤ l.length
  left_inside : ∀ p ∈ L, p.x0 < p.x1 ∧ p.x1 ≤ w ∧ p.y < h
  right_inside : ∀ p ∈ R, p.x0 < p.x1 ∧ p.x1 ≤ w ∧ p.y < h
  left_rows : L.Pairwise (fun p q => p.y < q.y)
  right_rows : R.Pairwise (fun p q => p.y < q.y)
  covers_iff : ∀ x y, covers l x y ↔ covers L x y ∨ covers R x y
  not_both : ∀ x y, covers L x y → ¬ covers R x y

theorem partsTile_of_cut {c : Config} {a w h : Nat} {d : Int} {l : List SpanRec} (hsin : 0 ≤ c.trigSin a)
    (hl : ∀ p ∈ l, p.x0 < p.x1 ∧ p.x1 ≤ w ∧ p.y < h) (hrows : l.Pairwise (fun p q => p.y < q.y)) :
    PartsTile l (leftSpans c a d l) (rightSpans c a d l) w h := by
  have hleft := leftPart_cutsSpans c a d
  have hright := rightPart_cutsSpans c a d
  have hcl : ∀ x y, covers (leftSpans c a d l) x y ↔ covers l x y ∧ goesLeft c a d x y :=
    fun _ _ => covers_flatMap fun _ => covers_leftPart hsin
  have hcr : ∀ x y, covers (rightSpans c a d l) x y ↔ covers l x y ∧ ¬ goesLeft c a d x y :=
    fun _ _ => covers_flatMap fun _ => covers_rightPart hsin
  exact ⟨leftSpans_length_le c a d l, rightSpans_length_le c a d l, hleft.inside hl, hright.inside hl,
    hleft.pairwise_rows hrows, hright.pairwise_rows hrows, fun x y => by rw [hcl, hcr]; tauto,
    fun x y => by rw [hcl, hcr]; tauto⟩

end Tiled

end Sys2Proof.Machine
end

section
/-! PROOFS. A Split keeps the tree well formed and its leaves tiling the image (47_fragment_tree.md R286, R303, R304). -/

namespace Sys2Proof.Machine

section Tiled

variable {s t : State} {n : Nat} {L R : List SpanRec}

/-- The nodes after a Split: the older ones and the two children. -/
theorem lt_add_two_cases {k tail : Nat} (h : k < tail + 2) : k < tail ∨ k = tail ∨ k = tail + 1 := by omega

theorem State.NodeCut.kind_self (h : s.NodeCut t n L R) : (t.nodeRec n).kind = .split := by rw [h.nodeRec_self]

theorem State.NodeCut.kind_left (h : s.NodeCut t n L R) : (t.nodeRec s.ft.tail.toNat).kind = .unread := by
  rw [h.nodeRec_left]; rfl

theorem State.NodeCut.kind_right (h : s.NodeCut t n L R) : (t.nodeRec (s.ft.tail.toNat + 1)).kind = .unread := by
  rw [h.nodeRec_right]; rfl

theorem State.NodeCut.nodeRec_older (h : s.NodeCut t n L R) {m : Nat} (hm : m < s.ft.tail.toNat) (hmn : m ≠ n) :
    t.nodeRec m = s.nodeRec m := h.nodeRec_other m hmn (by omega) (by omega)

/-- The reservations of the older nodes are as they were. -/
theorem State.NodeCut.reservation_older (h : s.NodeCut t n L R) {m : Nat} (hm : m < s.ft.tail.toNat) :
    (t.nodeRec m).base = (s.nodeRec m).base ∧ (t.nodeRec m).count = (s.nodeRec m).count ∧
      (t.nodeRec m).cap = (s.nodeRec m).cap := by
  by_cases hmn : m = n
  · subst hmn; rw [h.nodeRec_self]; exact ⟨rfl, rfl, rfl⟩
  · rw [h.nodeRec_older hm hmn]; exact ⟨rfl, rfl, rfl⟩

/-- The reservations after a Split: an older node's, below the old `SPAN_TOP`, or one of the two new ones. -/
theorem State.NodeCut.reservation (h : s.NodeCut t n L R) (hs : s.TreeTiled) {m : Nat} (hm : m < t.ft.tail.toNat) :
    (m < s.ft.tail.toNat ∧ (t.nodeRec m).base + (t.nodeRec m).cap ≤ s.ft.spanTop.toNat) ∨
    (m = s.ft.tail.toNat ∧ (t.nodeRec m).base = s.ft.spanTop.toNat ∧ (t.nodeRec m).cap = (s.nodeRec n).count) ∨
    (m = s.ft.tail.toNat + 1 ∧ (t.nodeRec m).base = s.ft.spanTop.toNat + (s.nodeRec n).count ∧
      (t.nodeRec m).cap = (s.nodeRec n).count) := by
  rw [h.tail] at hm
  rcases lt_add_two_cases hm with hm | rfl | rfl
  · obtain ⟨hbase, _, hcap⟩ := h.reservation_older hm
    obtain ⟨_, htop, _⟩ := hs.regions m hm
    exact .inl ⟨hm, by rw [hbase, hcap]; exact htop⟩
  · refine .inr (.inl ?_)
    rw [h.nodeRec_left]
    exact ⟨rfl, rfl, rfl⟩
  · refine .inr (.inr ?_)
    rw [h.nodeRec_right]
    exact ⟨rfl, rfl, rfl⟩

section Split

variable (hs : s.TreeTiled) (hn : n < s.ft.tail.toNat) (hcut : s.NodeCut t n L R)
  (hparts : PartsTile (s.regionOf n) L R s.cp.width.toNat s.cp.height.toNat) (hcp : t.cp = s.cp)
include hs hcut

theorem State.NodeCut.regionOf_tiled {m : Nat} (hm : m < s.ft.tail.toNat) : t.regionOf m = s.regionOf m := by
  obtain ⟨hcount, htop, _⟩ := hs.regions m hm
  exact hcut.regionOf_older hm (by omega)

theorem State.NodeCut.disjoint : ∀ m < t.ft.tail.toNat, ∀ k < t.ft.tail.toNat, m ≠ k →
    reservedDisjoint (t.nodeRec m) (t.nodeRec k) = true := by
  intro m hm k hk hmk
  by_cases holder : m < s.ft.tail.toNat ∧ k < s.ft.tail.toNat
  · obtain ⟨hm', hk'⟩ := holder
    have hd := hs.disjoint m hm' k hk' hmk
    obtain ⟨hbm, _, hcm⟩ := hcut.reservation_older hm'
    obtain ⟨hbk, _, hck⟩ := hcut.reservation_older hk'
    rw [reservedDisjoint_iff] at hd ⊢
    rwa [hbm, hcm, hbk, hck]
  · have hmr := hcut.reservation hs hm
    have hkr := hcut.reservation hs hk
    rw [reservedDisjoint_iff]
    omega

include hparts hcp

theorem State.NodeCut.regionShaped : ∀ m < t.ft.tail.toNat, t.RegionShaped m := by
  intro m hm
  have hlen := regionOf_length s n
  have htop := hcut.spanTop
  rw [hcut.tail] at hm
  rcases lt_add_two_cases hm with hm | rfl | rfl
  · obtain ⟨hbase, hcount, hcap⟩ := hcut.reservation_older hm
    obtain ⟨h1, h2, hinside, hrows⟩ := hs.regions m hm
    rw [State.RegionShaped, hbase, hcount, hcap, hcut.regionOf_tiled hs hm, hcp]
    exact ⟨h1, by omega, hinside, hrows⟩
  · have hcount := hparts.left_length
    rw [State.RegionShaped, hcut.nodeRec_left, hcut.regionOf_left, hcp]
    refine ⟨?_, ?_, hparts.left_inside, hparts.left_rows⟩ <;> simp only [NodeRec.fresh] <;> omega
  · have hcount := hparts.right_length
    rw [State.RegionShaped, hcut.nodeRec_right, hcut.regionOf_right, hcp]
    refine ⟨?_, ?_, hparts.right_inside, hparts.right_rows⟩ <;> simp only [NodeRec.fresh] <;> omega

include hn

omit hparts hcp in
/-- The leaves that cover a pixel after a Split: an older leaf, or the child whose part holds the pixel. -/
theorem State.NodeCut.leafCovers_iff (x y m : Nat) :
    t.LeafCovers x y m ↔ (m ≠ n ∧ s.LeafCovers x y m) ∨ (m = s.ft.tail.toNat ∧ covers L x y) ∨
      (m = s.ft.tail.toNat + 1 ∧ covers R x y) := by
  have htail := hcut.tail
  simp only [State.LeafCovers]
  by_cases hmn : m = n
  · subst hmn
    rw [hcut.kind_self]
    simp only [ne_eq, not_true_eq_false, false_and, and_false, false_or, false_iff]
    omega
  · rcases Nat.lt_or_ge m t.ft.tail.toNat with hm | hm
    · rw [htail] at hm
      rcases lt_add_two_cases hm with hm' | rfl | rfl
      · rw [hcut.nodeRec_older hm' hmn, hcut.regionOf_tiled hs hm']
        simp only [hm', hmn, htail, hm, ne_eq, not_false_eq_true, true_and, show m ≠ s.ft.tail.toNat by omega,
          show m ≠ s.ft.tail.toNat + 1 by omega, false_and, or_false]
      · rw [hcut.kind_left, hcut.regionOf_left]
        simp [htail]
      · rw [hcut.kind_right, hcut.regionOf_right]
        simp [htail]
    · refine iff_of_false (by omega) (by omega)

theorem State.NodeCut.tiles (hleaf : (s.nodeRec n).kind ≠ .split) : ∀ x < t.cp.width.toNat, ∀ y < t.cp.height.toNat,
    ∃! m, t.LeafCovers x y m := by
  intro x hx y hy
  rw [hcp] at hx hy
  simp only [hcut.leafCovers_iff hs hn]
  have hboth := hparts.not_both x y
  have hcov := hparts.covers_iff x y
  obtain ⟨m, hm, huniq⟩ := hs.tiles x hx y hy
  by_cases hmn : m = n
  · subst hmn
    have hold : ∀ k, ¬ (k ≠ m ∧ s.LeafCovers x y k) := fun k hk => hk.1 (huniq k hk.2)
    simp only [hold, false_or]
    rcases hcov.mp hm.2.2 with hL | hR
    · exact ⟨_, .inl ⟨rfl, hL⟩, by rintro k (⟨hk, _⟩ | ⟨_, hR⟩); exacts [hk, absurd hR (hboth hL)]⟩
    · exact ⟨_, .inr ⟨rfl, hR⟩, by rintro k (⟨_, hL⟩ | ⟨hk, _⟩); exacts [absurd hR (hboth hL), hk]⟩
  · have hnot : ¬ covers (s.regionOf n) x y := fun hc => hmn (huniq n ⟨hn, hleaf, hc⟩).symm
    rw [hcov, not_or] at hnot
    obtain ⟨hL, hR⟩ := hnot
    simp only [hL, hR, and_false, or_false]
    exact ⟨m, ⟨hmn, hm⟩, fun k hk => huniq k hk.2⟩

omit hs hparts hcp in
theorem State.NodeCut.splitCount (hleaf : (s.nodeRec n).kind ≠ .split) :
    t.splitCount (s.ft.tail.toNat + 2) = s.splitCount s.ft.tail.toNat + 1 := by
  have hone := length_filter_range_succ (p := fun m => decide ((s.nodeRec m).kind = .split))
    (q := fun m => decide ((t.nodeRec m).kind = .split)) hn (decide_eq_false hleaf) (decide_eq_true hcut.kind_self)
    fun m hmn hm => by rw [hcut.nodeRec_older hm hmn]
  rw [State.splitCount, State.splitCount, List.range_succ, List.range_succ, List.filter_append, List.filter_append,
    List.length_append, List.length_append, hone]
  simp [hcut.kind_left, hcut.kind_right]

/-- A Split of the node at the head of the queue keeps the tiling. -/
theorem State.TreeTiled.nodeCut (hhead : s.ft.head.toNat = n) (hnext : t.ft.head.toNat = n + 1) : t.TreeTiled := by
  have hkind := (hs.unread n hn).mpr hhead.le
  have hleaf : (s.nodeRec n).kind ≠ .split := by rw [hkind]; exact nofun
  constructor
  case regions => exact hcut.regionShaped hs hparts hcp
  case disjoint => exact hcut.disjoint hs
  case tiles => exact hcut.tiles hs hn hparts hcp hleaf
  case counts =>
    have := hs.counts
    rw [hcut.tail, hcut.splitCount hn hleaf]
    omega
  case unread =>
    intro m hm
    rw [hcut.tail] at hm
    rw [hnext]
    rcases lt_add_two_cases hm with hm | rfl | rfl
    · by_cases hmn : m = n
      · subst hmn
        rw [hcut.kind_self]
        exact iff_of_false nofun (by omega)
      · rw [hcut.nodeRec_older hm hmn, hs.unread m hm]
        omega
    · rw [hcut.kind_left]
      exact iff_of_true rfl (by omega)
    · rw [hcut.kind_right]
      exact iff_of_true rfl (by omega)

end Split

end Tiled

end Sys2Proof.Machine
end

section
/-! PROOFS. What the commands keep of the tree under construction and of the quantizer's registers (45_distance_quantizer.md
R253, 47_fragment_tree.md R303). -/

namespace Sys2Proof.Machine

/-! ### The quantizer's registers (R253) -/

section Distance

variable {s t : State} {a n : Nat}

theorem State.DistanceInv.of_same (h : s.DistanceInv) (hdr : t.dr = s.dr) (hcfg : t.cfg = s.cfg) : t.DistanceInv := by
  unfold State.DistanceInv at *
  rw [hdr, hcfg]
  exact h

theorem State.DistanceInv.of_keeps (h : s.DistanceInv) {l : List Part} (hk : KeepsAllBut l s t)
    (hl : .dr ∉ l ∧ .hostSide ∉ l) : t.DistanceInv :=
  h.of_same (hk.dr_eq hl.1) (hk.cfg_eq hl.2)

theorem distanceInv_of_invalid (h : s.dr.valid = false) : s.DistanceInv := fun hv => absurd (h.symm.trans hv) nofun

theorem IsQuantum.ge {extent limit q₀ q : Nat} (h : IsQuantum extent limit q₀ q) : q₀ ≤ q := by
  have hgrown : ∀ k, q₀ ≤ grownQuantum q₀ k := fun k => by
    induction k with
    | zero => exact Nat.le_refl _
    | succ k ih => exact ih.trans (Nat.le_add_right _ _)
  obtain ⟨k, rfl, _⟩ := h
  exact hgrown k

/-- Only a quantum up to the extent grows, so the quantum stays below twice the extent or is the first one. -/
theorem IsQuantum.le {extent limit q₀ q bound : Nat} (h : IsQuantum extent limit q₀ q) (hb : 2 * extent ≤ bound) (hq : q₀ ≤ bound) :
    q ≤ bound := by
  obtain ⟨k, rfl, _, hmore⟩ := h
  cases k with
  | zero => exact hq
  | succ k =>
    have hle : grownQuantum q₀ k ≤ extent := by
      by_contra hlt
      have := hmore k (Nat.lt_succ_self k)
      rw [Nat.div_eq_of_lt (by omega)] at this
      exact Nat.not_lt_zero _ this
    rw [grownQuantum]
    omega

/-- The registers of a measurement of spans inside the raster are as R253 bounds them. -/
theorem distanceInv_of_measures {l : List SpanRec} (hb : s.cfg.Bounds) (hrom : s.cfg.RomOk) (hvalid : s.paramsValid = true)
    (ha : a < s.cfg.nAngles) (hl : ∀ p ∈ l, p.x0 < p.x1 ∧ p.x1 ≤ s.cfg.dimMax ∧ p.y < s.cfg.dimMax)
    (h : Measures s.cfg s.cp l a s.dr) : s.DistanceInv := by
  obtain ⟨_, hangle, hmin, hmax, hquant, hlines⟩ := h
  have hmi := natAbs_lt_of_mem_endProjections hb hrom ha hl hmin.1
  have hma := natAbs_lt_of_mem_endProjections hb hrom ha hl hmax.1
  obtain ⟨hq16, hq40⟩ := lineQuant_of_paramsValid hvalid
  have hle := hquant.le (bound := 2 ^ 40) (by omega) hq40
  have hge := hquant.ge
  exact fun _ => ⟨hmin.2 hmax.1, by omega, by omega, by omega, by omega, by omega, hlines⟩

theorem drUpdateWith_distanceInv {p : SpanRec} {l : List SpanRec} (hb : s.cfg.Bounds) (hrom : s.cfg.RomOk)
    (hvalid : s.paramsValid = true) (ha : a < s.cfg.nAngles)
    (hl : ∀ q ∈ p :: l, q.x0 < q.x1 ∧ q.x1 ≤ s.cfg.dimMax ∧ q.y < s.cfg.dimMax) : (drUpdateWith a p l s).DistanceInv :=
  distanceInv_of_measures (s := drUpdateWith a p l s) hb hrom hvalid ha hl (drUpdateWith_measures hb hrom ha hvalid hl)

/-- A measurement of a region inside the raster; on an empty one nothing changes. -/
theorem drUpdate_distanceInv (h : s.DistanceInv) (hb : s.cfg.Bounds) (hrom : s.cfg.RomOk) (hvalid : s.paramsValid = true)
    (ha : a < s.cfg.nAngles) (hl : ∀ p ∈ s.regionOf n, p.x0 < p.x1 ∧ p.x1 ≤ s.cfg.dimMax ∧ p.y < s.cfg.dimMax) :
    (drUpdate n a s).DistanceInv := by
  unfold drUpdate
  generalize s.regionOf n = l at hl
  cases l with
  | nil => exact h
  | cons p l => exact drUpdateWith_distanceInv hb hrom hvalid ha hl

end Distance

/-! ### A tree under construction -/

/-- A command that writes only some parts keeps what does not look at them. -/
theorem Cmd.Writes.keeps {α : Type} {l : List Part} {x : Cmd α} {P E : State → Prop} (hx : Cmd.Writes l x)
    (hP : ∀ s t, KeepsAllBut l s t → P s → P t) (hE : ∀ s, P s → E s) : Cmd.Triple P x (fun _ => P) (fun _ => E) := by
  intro s hs
  cases h : x s with
  | ok a t => exact hP s t (hx.ok h).1 hs
  | error c t => exact hE t (hP s t (hx.error h).1 hs)

/-- A tree under construction with everything that its next node needs: the parameters' bounds, a valid bank, the tiling and
the quantizer's registers. -/
structure State.TreeBuilt (s : State) : Prop where
  bounds : s.cfg.Bounds
  rom : s.cfg.RomOk
  valid : s.paramsValid = true
  tiled : s.TreeTiled
  distance : s.DistanceInv

section Built

variable {s t : State} {n a : Nat}

theorem dims_of_paramsValid (h : s.paramsValid = true) :
    (1 ≤ s.cp.width.toNat ∧ s.cp.width.toNat ≤ s.cfg.dimMax) ∧ 1 ≤ s.cp.height.toNat ∧ s.cp.height.toNat ≤ s.cfg.dimMax := by
  simp only [State.paramsValid, CpRegs.valid, dimOk, Bool.and_eq_true, decide_eq_true_eq, and_assoc] at h
  obtain ⟨h1, h2, h3, h4, _⟩ := h
  exact ⟨⟨h1, h2⟩, h3, h4⟩

/-- The parts that the tree under construction depends on. -/
def builtParts : List Part := .hostSide :: .dr :: treeParts

theorem State.TreeBuilt.of_keeps (h : s.TreeBuilt) {l : List Part} (hk : KeepsAllBut l s t) (hl : ∀ p ∈ builtParts, p ∉ l) :
    t.TreeBuilt := by
  have hcfg : t.cfg = s.cfg := hk.cfg_eq (hl _ (by decide))
  have hcp : t.cp = s.cp := hk.cp_eq (hl _ (by decide))
  obtain ⟨hb, hrom, hvalid, htiled, hdist⟩ := h
  refine ⟨hcfg ▸ hb, hcfg ▸ hrom, ?_, htiled.of_keeps hk fun p hp => hl p (.tail _ (.tail _ hp)),
    hdist.of_keeps hk ⟨hl _ (by decide), hl _ (by decide)⟩⟩
  rw [State.paramsValid, hcfg, hcp]
  exact hvalid

/-- The spans of a node's region lie inside the raster. -/
theorem State.TreeBuilt.spans_inside (h : s.TreeBuilt) (hn : n < s.ft.tail.toNat) :
    ∀ p ∈ s.regionOf n, p.x0 < p.x1 ∧ p.x1 ≤ s.cfg.dimMax ∧ p.y < s.cfg.dimMax := by
  intro p hp
  obtain ⟨_, _, hinside, _⟩ := h.tiled.regions n hn
  have hdims := dims_of_paramsValid h.valid
  have := hinside p hp
  omega

/-- A tree under construction whose queue has node `n` at its head. -/
def State.AtNode (n : Nat) (s : State) : Prop := s.TreeBuilt ∧ s.ft.head.toNat = n ∧ n < s.ft.tail.toNat

theorem State.AtNode.of_keeps (h : s.AtNode n) {l : List Part} (hk : KeepsAllBut l s t) (hl : ∀ p ∈ builtParts, p ∉ l) :
    t.AtNode n := by
  obtain ⟨hbuilt, hqueue⟩ := h
  refine ⟨hbuilt.of_keeps hk hl, ?_⟩
  rw [hk.ft_eq (hl _ (by decide))]
  exact hqueue

theorem State.AtNode.withDr (h : s.AtNode n) {d : DrRegs} (hd : (s.withDr d).DistanceInv) : (s.withDr d).AtNode n := by
  obtain ⟨⟨hb, hrom, hvalid, htiled, _⟩, hqueue⟩ := h
  exact ⟨⟨hb, hrom, hvalid, htiled.of_keeps (WritesOnly.withDr (l := [.dr]) (by decide) s d).1 (by decide), hd⟩, hqueue⟩

theorem State.AtNode.drUpdate (h : s.AtNode n) (ha : a < s.cfg.nAngles) : (drUpdate n a s).AtNode n := by
  obtain ⟨hbuilt, _, hn⟩ := id h
  have hdist := drUpdate_distanceInv hbuilt.distance hbuilt.bounds hbuilt.rom hbuilt.valid ha (hbuilt.spans_inside hn)
  rw [drUpdate_eq] at hdist ⊢
  exact h.withDr hdist

/-- A Fill at the head of the queue. -/
theorem State.AtNode.fillNode (h : s.AtNode n) (c : Colour) : (s.fillNode n c).advanceHead.TreeBuilt := by
  obtain ⟨⟨hb, hrom, hvalid, htiled, hdist⟩, rfl, hn⟩ := h
  exact ⟨hb, hrom, hvalid, htiled.fillNode hn c, hdist⟩

/-- A Split at the head of the queue. -/
theorem State.AtNode.splitNode (h : s.AtNode n) (hroom : s.RoomForChildren n) (ha : a < s.cfg.nAngles) (d : Int) :
    (s.splitNode n a d).advanceHead.TreeBuilt := by
  obtain ⟨hbuilt, hhead, hn⟩ := h
  obtain ⟨hcount, htop, hinside, hrows⟩ := hbuilt.tiled.regions n hn
  obtain ⟨_, _, htrig⟩ := hbuilt.rom
  obtain ⟨_, hsin, _⟩ := htrig a ha
  have hcut := (splitNode_nodeCut hbuilt.bounds hroom hn hcount htop a d).advanceHead
  have hparts := partsTile_of_cut (a := a) (d := d) hsin hinside hrows
  have hkept := splitNode_advanceHead_keeps s n a d
  have hnext : (s.splitNode n a d).advanceHead.ft.head.toNat = n + 1 := by
    show ((s.splitNode n a d).ft.head + 1).toNat = n + 1
    rw [splitNode_head, ← hhead]
    exact head_succ_toNat (hhead ▸ hn)
  generalize (s.splitNode n a d).advanceHead = t at hcut hkept hnext
  have hcfg : t.cfg = s.cfg := hkept.cfg_eq (by decide)
  have hcp : t.cp = s.cp := hkept.cp_eq (by decide)
  refine ⟨hcfg ▸ hbuilt.bounds, hcfg ▸ hbuilt.rom, ?_, hbuilt.tiled.nodeCut hn hcut hparts hcp hhead hnext,
    hbuilt.distance.of_keeps hkept (by decide)⟩
  rw [State.paramsValid, hcfg, hcp]
  exact hbuilt.valid

end Built

/-! ### Parsing a node (R286) -/

section Parse

variable {n : Nat}

/-- What a fault leaves of these invariants. -/
abbrev faultLeaves (_ : Cause) (s : State) : Prop := s.DistanceInv

/-- What has to hold once a node is parsed and the queue has still to advance. -/
abbrev State.ReadyToAdvance (s : State) : Prop := s.advanceHead.TreeBuilt

theorem atNode_distance {s : State} (h : s.AtNode n) : s.DistanceInv := h.1.distance

theorem decoder_keeps_atNode {α : Type} {x : Cmd α} (hx : Cmd.Writes [.status, .rd] x) :
    Cmd.Triple (State.AtNode n) x (fun _ => State.AtNode n) faultLeaves :=
  hx.keeps (fun _ _ hk h => h.of_keeps hk (by decide)) fun _ => atNode_distance

theorem parseFill_built : Cmd.Triple (State.AtNode n) (parseFill n) (fun _ => State.ReadyToAdvance) faultLeaves :=
  (decoder_keeps_atNode readColor_writes).bind fun c => Cmd.Triple.update (g := fun s => s.fillNode n c) fun _ h => h.fillNode c

theorem readAngle_built {s : State} {level : Fin 7} (hs : s.AtNode n) :
    Cmd.Triple (fun t => t = s) (readAngle level) (fun a t => t.AtNode n ∧ a < t.cfg.nAngles) faultLeaves := by
  intro s' hs'
  obtain rfl : s' = s := hs'
  cases h : readAngle level s' with
  | error c t => exact (decoder_keeps_atNode (readAngle_writes level)).error hs h
  | ok a t =>
    have ht := (decoder_keeps_atNode (readAngle_writes level)).ok hs h
    have hcfg : t.cfg = s'.cfg := ((readAngle_writes level).ok h).1.cfg_eq (by decide)
    refine ⟨ht, ?_⟩
    unfold readAngle at h
    rw [get_bind, bind_eq_ok] at h
    obtain ⟨idx, u, hidx, h⟩ := h
    cases h
    rw [hcfg]
    exact angle_lt_nAngles (angleBits_le_of_paramsValid hs.1.valid level) (readNumber_eq_ok.mp hidx).le_pred

theorem cutNode_built {a : Nat} (d : Int) :
    Cmd.Triple (fun s => s.AtNode n ∧ a < s.cfg.nAngles) (cutNode n a d) (fun _ => State.ReadyToAdvance) faultLeaves := by
  rintro s ⟨hs, ha⟩
  rcases cutNode_spec n a d s with ⟨hroom, he⟩ | ⟨e, he⟩
  · rw [he]
    exact hs.splitNode hroom ha d
  · rw [he]
    exact atNode_distance hs

theorem measureAndCut_built {a : Nat} :
    Cmd.Triple (fun s => s.AtNode n ∧ a < s.cfg.nAngles) (measureAndCut n a) (fun _ => State.ReadyToAdvance) faultLeaves := by
  have hmeasure : Cmd.Triple (fun s => s.AtNode n ∧ a < s.cfg.nAngles) (update (drUpdate n a))
      (fun _ s => s.AtNode n ∧ a < s.cfg.nAngles) faultLeaves := by
    refine .update fun s hs => ⟨hs.1.drUpdate hs.2, ?_⟩
    rw [(drUpdate_writes n a s).1.cfg_eq (by decide)]
    exact hs.2
  have hline : ∀ max, Cmd.Triple (fun s => s.AtNode n ∧ a < s.cfg.nAngles) (readNumber max)
      (fun _ s => s.AtNode n ∧ a < s.cfg.nAngles) faultLeaves := fun max =>
    (readNumber_writes max).keeps (fun s t hk h => ⟨h.1.of_keeps hk (by decide), by rw [hk.cfg_eq (by decide)]; exact h.2⟩)
      fun _ h => atNode_distance h.1
  exact hmeasure.bind fun _ => .get_of fun t _ => (hline t.dr.numLines.toNat).bind fun line => cutNode_built _

theorem parseSplit_built : Cmd.Triple (State.AtNode n) (parseSplit n) (fun _ => State.ReadyToAdvance) faultLeaves := by
  intro s hs
  cases hlevel : s.getLevel n with
  | none =>
    rw [parseSplit_of_empty hlevel]
    exact atNode_distance hs
  | some level =>
    rw [parseSplit_of_level hlevel]
    exact ((readAngle_built hs).bind fun a => measureAndCut_built) s rfl

/-- Parsing the node at the head of the queue keeps the tree under construction. -/
theorem parseNode_built : Cmd.Triple (fun s => s.TreeBuilt ∧ s.ft.head.toNat < s.ft.tail.toNat) parseNode
    (fun _ => State.TreeBuilt) faultLeaves := by
  refine .get fun u => ?_
  have hadvance : Cmd.Triple State.ReadyToAdvance (update State.advanceHead) (fun _ => State.TreeBuilt) faultLeaves :=
    .update fun _ h => h
  refine Cmd.Triple.weaken (P := State.AtNode u.ft.head.toNat) (Q := fun _ => State.TreeBuilt) (E := faultLeaves)
    ((decoder_keeps_atNode (readNumber_writes 2)).bind fun type => .ite (fun _ => parseFill_built.bind fun _ => hadvance)
      fun _ => parseSplit_built.bind fun _ => hadvance) ?_ (fun _ _ h => h) fun _ _ h => h
  rintro s ⟨rfl, hbuilt, hlt⟩
  exact ⟨hbuilt, rfl, hlt⟩

theorem parseAll_built (k : Nat) : Cmd.Triple State.TreeBuilt (parseAll k) (fun _ => State.TreeBuilt) faultLeaves := by
  induction k with
  | zero => exact .pure fun _ h => h
  | succ k ih =>
    refine Cmd.Triple.get fun u => .ite (fun hlt => ?_) fun _ => .pure fun _ h => h.2
    refine Cmd.Triple.bind (parseNode_built.weaken ?_ (fun _ _ h => h) fun _ _ h => h) fun _ => ih
    rintro s ⟨rfl, h⟩
    exact ⟨h, hlt⟩

/-- The root of a valid bank is a tree under construction. -/
theorem makeRoot_built : Cmd.Triple (fun s => s.cfg.Bounds ∧ s.cfg.RomOk ∧ s.paramsValid = true ∧ s.DistanceInv) makeRoot
    (fun _ => State.TreeBuilt) faultLeaves := by
  rintro s ⟨hb, hrom, hvalid, hdist⟩
  rcases makeRoot_spec s with ⟨_, _, he⟩ | ⟨_, he⟩ | ⟨_, _, he⟩
  · rw [he]
    obtain ⟨⟨hw, _⟩, _⟩ := dims_of_paramsValid hvalid
    have htiled := rootState_treeTiled (s := s) hw
    have hkept := (rootState_writes s).1
    have hdr : (rootState s).dr.valid = false := rfl
    generalize rootState s = t at htiled hkept hdr
    have hcfg : t.cfg = s.cfg := hkept.cfg_eq (by decide)
    refine ⟨hcfg ▸ hb, hcfg ▸ hrom, ?_, htiled, distanceInv_of_invalid hdr⟩
    rw [State.paramsValid, hcfg, hkept.cp_eq (by decide)]
    exact hvalid
  · rw [he]; exact hdist
  · rw [he]; exact hdist

end Parse

end Sys2Proof.Machine
end

section
/-! PROOFS. Every step keeps the tree well formed and its leaves tiling the image, and the quantizer's registers those of a
measurement (47_fragment_tree.md R303, R304; 10_state.md R36; 45_distance_quantizer.md R253). -/

namespace Sys2Proof.Machine

/-- Outside a fault: the tree under construction is well formed and tiles the image, and the quantizer's registers are those
of a measurement. -/
def State.Tiling (s : State) : Prop := (s.ft.phase = .build → s.TreeTiled) ∧ s.DistanceInv

/-- Parameters in bounds, and in a build a valid bank. -/
def State.Provided (s : State) : Prop := s.cfg.Bounds ∧ s.cfg.RomOk ∧ (s.ft.phase = .build → s.paramsValid = true)

/-- What a command can rely on when it starts. -/
def State.Sound (s : State) : Prop := s.Provided ∧ s.Tiling

/-- From a sound state the run ends with the tiling, or faults with the quantizer's registers in order. -/
def Cmd.KeepsTiling {α : Type} (x : Cmd α) : Prop := Cmd.Triple State.Sound x (fun _ => State.Tiling) faultLeaves

section Bodies

variable {s t : State}

theorem State.Sound.distance (h : s.Sound) : s.DistanceInv := h.2.2

theorem State.Tiling.of_keeps (h : s.Tiling) {l : List Part} (hk : KeepsAllBut l s t) (hl : ∀ p ∈ builtParts, p ∉ l) :
    t.Tiling := by
  obtain ⟨htiled, hdist⟩ := h
  refine ⟨fun hphase => ?_, hdist.of_keeps hk ⟨hl _ (by decide), hl _ (by decide)⟩⟩
  rw [hk.ft_eq (hl _ (by decide))] at hphase
  exact (htiled hphase).of_keeps hk fun p hp => hl p (.tail _ (.tail _ hp))

theorem State.TreeBuilt.tiling (h : s.TreeBuilt) : s.Tiling := ⟨fun _ => h.tiled, h.distance⟩

theorem State.Sound.built (h : s.Sound) (hphase : s.ft.phase = .build) : s.TreeBuilt := by
  obtain ⟨⟨hb, hrom, hvalid⟩, htiled, hdist⟩ := h
  exact ⟨hb, hrom, hvalid hphase, htiled hphase, hdist⟩

theorem State.DistanceInv.tiling (h : s.DistanceInv) (hphase : s.ft.phase ≠ .build) : s.Tiling :=
  ⟨fun hb => absurd hb hphase, h⟩

/-- A command that writes neither the tree nor what it depends on. -/
theorem Cmd.Writes.keepsTiling {α : Type} {l : List Part} {x : Cmd α} (hx : Cmd.Writes l x) (hl : ∀ p ∈ builtParts, p ∉ l) :
    x.KeepsTiling := by
  intro s hs
  obtain ⟨_, htiling⟩ := id hs
  cases h : x s with
  | ok a t => exact htiling.of_keeps (hx.ok h).1 hl
  | error c t => exact hs.distance.of_keeps (hx.error h).1 ⟨hl _ (by decide), hl _ (by decide)⟩

/-- The parts of a result or of the decoder. -/
theorem Cmd.Writes.keeps_tiling_of {α : Type} {l : List Part} {x : Cmd α} (hx : Cmd.Writes l x) (hl : ∀ p ∈ builtParts, p ∉ l) :
    Cmd.Triple State.Tiling x (fun _ => State.Tiling) faultLeaves :=
  hx.keeps (fun _ _ hk h => h.of_keeps hk hl) fun _ h => h.2

/-- A command that writes neither the quantizer's registers nor the phase, outside a build. -/
theorem Cmd.Writes.keepsUnlocked {α : Type} {l : List Part} {x : Cmd α} (hx : Cmd.Writes l x)
    (hl : Part.dr ∉ l ∧ Part.hostSide ∉ l ∧ Part.ft ∉ l) {u : State} (hphase : u.ft.phase ≠ .build) :
    Cmd.Triple (fun s => s = u ∧ s.Sound) x (fun _ => State.Tiling) faultLeaves := by
  obtain ⟨hdr, hhost, hft⟩ := hl
  rintro s ⟨rfl, hs⟩
  cases h : x s with
  | ok a t =>
    refine (hs.distance.of_keeps (hx.ok h).1 ⟨hdr, hhost⟩).tiling ?_
    rw [(hx.ok h).1.ft_eq hft]
    exact hphase
  | error c t => exact hs.distance.of_keeps (hx.error h).1 ⟨hdr, hhost⟩

end Bodies

/-! ### The commands -/

section Commands

theorem sound_faultLeaves (u : State) (s : State) (h : s = u ∧ s.Sound) : s.DistanceInv := h.2.distance

theorem cpSetcodeBody_keepsTiling : Cmd.KeepsTiling cpSetcodeBody := by
  refine Cmd.Triple.get fun u => .require_bind (sound_faultLeaves u) fun hphase => ?_
  refine Cmd.Writes.keepsUnlocked (l := [.cp, .res0]) ?_ (by decide) hphase
  exact .require_bind <| .require_bind <|
    (Cmd.Writes.update fun t => (setCode_writes _ t).mono (by decide)).bind fun _ => (setRes0_writes _).mono (by decide)

theorem cpReadBody_keepsTiling : Cmd.KeepsTiling cpReadBody := by
  refine Cmd.Triple.get fun u => .require_bind (sound_faultLeaves u) fun _ =>
    .require_bind (sound_faultLeaves u) fun hphase => ?_
  refine Cmd.Writes.keepsUnlocked (l := [.status, .rd, .cp, .mem .pal, .res0, .res1, .res2, .res3]) ?_ (by decide) hphase
  exact .require_bind <| .require_bind <| ((readHeader_writes _).mono (by decide)).bind fun _ =>
    (Cmd.Writes.update fun t => .withRes0 (by decide) t _).bind fun _ =>
    (Cmd.Writes.update fun t => .withRes1 (by decide) t _).bind fun _ =>
    ((setRes2_writes _).mono (by decide)).bind fun _ => .update fun t => .withRes3 (by decide) t _

theorem rgSplitBody_keepsTiling : Cmd.KeepsTiling rgSplitBody := by
  refine Cmd.Triple.get fun u => .require_bind (sound_faultLeaves u) fun hphase => ?_
  refine Cmd.Writes.keepsUnlocked (l := [.freeCount, .mem .node, .mem .span, .res0, .res1]) ?_ (by decide) hphase
  exact .require_bind <| .require_bind <| .require_bind <| .require_bind <|
    (Cmd.Writes.update fun t => (splitInto_writes _ _ _ _ _ t).mono (by decide)).bind fun _ =>
    (Cmd.Writes.update fun t => .withRes0 (by decide) t _).bind fun _ => .update fun t => .withRes1 (by decide) t _

/-- The results are copied after the measurement. -/
theorem drUpdateBody_keepsTiling : Cmd.KeepsTiling drUpdateBody := by
  refine Cmd.Triple.get fun u => .require_bind (sound_faultLeaves u) fun hok => .require_bind (sound_faultLeaves u) fun ha =>
    .require_bind (sound_faultLeaves u) fun hvalid => .require_bind (sound_faultLeaves u) fun _ => ?_
  have hmeasure : Cmd.Triple (fun s => s = u ∧ s.Sound) (update (drUpdate u.operand0 u.operand1)) (fun _ => State.Tiling)
      faultLeaves := by
    refine .update ?_
    rintro s ⟨rfl, ⟨hb, hrom, _⟩, htiled, hdist⟩
    have hkept := (drUpdate_writes s.operand0 s.operand1 s).1
    refine ⟨fun hphase => ?_, drUpdate_distanceInv hdist hb hrom hvalid ha (regionOk_spans hok)⟩
    rw [hkept.ft_eq (by decide)] at hphase
    exact (htiled hphase).of_keeps hkept (by decide)
  have hresults : Cmd.Writes [.res0, .res1, .res2, .res3] (update State.returnMeasurement) :=
    .update returnMeasurement_writes
  exact hmeasure.bind fun _ => hresults.keeps_tiling_of (by decide)

theorem ftRootBody_keepsTiling : Cmd.KeepsTiling ftRootBody := by
  refine Cmd.Triple.get fun u => .require_bind (sound_faultLeaves u) fun hvalid => ?_
  have hroot : Cmd.Triple (fun s => s = u ∧ s.Sound) makeRoot (fun _ => State.Tiling) faultLeaves := by
    refine makeRoot_built.weaken ?_ (fun _ _ h => h.tiling) fun _ _ h => h
    rintro s ⟨rfl, ⟨hb, hrom, _⟩, _, hdist⟩
    exact ⟨hb, hrom, hvalid, hdist⟩
  exact hroot.bind fun _ => (setRes0_writes 1).keeps_tiling_of (by decide)

theorem ftParseBody_keepsTiling : Cmd.KeepsTiling ftParseBody := by
  refine Cmd.Triple.get fun u => .require_bind (sound_faultLeaves u) fun hphase =>
    .require_bind (sound_faultLeaves u) fun hqueue => .require_bind (sound_faultLeaves u) fun _ => ?_
  have hnode : Cmd.Triple (fun s => s = u ∧ s.Sound) parseNode (fun _ => State.Tiling) faultLeaves := by
    refine parseNode_built.weaken ?_ (fun _ _ h => h.tiling) fun _ _ h => h
    rintro s ⟨rfl, hs⟩
    exact ⟨hs.built hphase, hqueue⟩
  refine hnode.bind fun _ => Cmd.Writes.keeps_tiling_of (l := [.res0, .res1, .res2]) ?_ (by decide)
  exact ((setRes0_writes _).mono (by decide)).bind fun _ =>
    (Cmd.Writes.update fun t => .withRes1 (by decide) t _).bind fun _ => .update fun t => .withRes2 (by decide) t _

/-- A rendered tree is no longer under construction. -/
theorem setPhase_keepsTiling {p : FtPhase} (hp : p ≠ .build) :
    Cmd.Triple State.DistanceInv (setPhase p) (fun _ => State.Tiling) faultLeaves :=
  .update fun _ h => State.DistanceInv.tiling h hp

theorem distance_of_writes {α : Type} {l : List Part} {x : Cmd α} (hx : Cmd.Writes l x) (hl : Part.dr ∉ l ∧ Part.hostSide ∉ l) :
    Cmd.Triple State.DistanceInv x (fun _ => State.DistanceInv) faultLeaves :=
  hx.keeps (fun _ _ hk h => h.of_keeps hk hl) fun _ h => h

theorem setImageResults_keepsTiling : Cmd.Triple State.Tiling setImageResults (fun _ => State.Tiling) faultLeaves :=
  setImageResults_writes.keeps_tiling_of (by decide)

theorem ftRenderBody_keepsTiling : Cmd.KeepsTiling ftRenderBody := by
  refine Cmd.Triple.get fun u => .require_bind (sound_faultLeaves u) fun _ => .require_bind (sound_faultLeaves u) fun _ => ?_
  have hrender : Cmd.Triple State.DistanceInv (render >>= fun _ => setPhase .rendered >>= fun _ => setImageResults)
      (fun _ => State.Tiling) faultLeaves :=
    (distance_of_writes render_writes (by decide)).bind fun _ => (setPhase_keepsTiling (by decide)).bind fun _ =>
      setImageResults_keepsTiling
  exact hrender.weaken (sound_faultLeaves u) (fun _ _ h => h) fun _ _ h => h

/-- Parameters in bounds and the quantizer's registers in order: what the root relies on besides a valid bank. -/
def State.RootReady (s : State) : Prop := s.cfg.Bounds ∧ s.cfg.RomOk ∧ s.DistanceInv

/-- The header leaves the quantizer alone, the root and the parses keep the tree, and the render ends the build. -/
theorem ftDecodeBody_keepsTiling : Cmd.KeepsTiling ftDecodeBody := by
  refine Cmd.Triple.get fun u => .require_bind (sound_faultLeaves u) fun _ => .require_bind (sound_faultLeaves u) fun _ =>
    .require_bind (sound_faultLeaves u) fun _ => ?_
  have hkeeps : ∀ {α : Type} {l : List Part} {x : Cmd α}, Cmd.Writes l x → Part.dr ∉ l ∧ Part.hostSide ∉ l →
      Cmd.Triple State.RootReady x (fun _ => State.RootReady) faultLeaves := fun hx hl =>
    hx.keeps (fun s t hk ⟨hb, hrom, hd⟩ => have hcfg := hk.cfg_eq hl.2; ⟨hcfg ▸ hb, hcfg ▸ hrom, hd.of_keeps hk hl⟩)
      fun _ h => h.2.2
  have hend : Cmd.Triple State.TreeBuilt
      (render >>= fun _ => setPhase .rendered >>= fun _ => setImageResults >>= fun _ => update fun v => v.withRes3 v.rd.pad)
      (fun _ => State.Tiling) faultLeaves := by
    have hpad : Cmd.Writes [.res3] (update fun v => v.withRes3 v.rd.pad) := .update fun v => .withRes3 (by decide) v _
    exact ((distance_of_writes render_writes (by decide)).bind fun _ => (setPhase_keepsTiling (by decide)).bind fun _ =>
      setImageResults_keepsTiling.bind fun _ => hpad.keeps_tiling_of (by decide)).weaken (fun _ h => h.distance)
        (fun _ _ h => h) fun _ _ h => h
  refine Cmd.Triple.weaken (P := State.RootReady) (Q := fun _ => State.Tiling) (E := faultLeaves) ?_ ?_ (fun _ _ h => h) fun _ _ h => h
  · refine (hkeeps (setPhase_writes .idle) (by decide)).bind fun _ =>
      (hkeeps (.update fun t => rdInit_writes u.operand0 t) (by decide)).bind fun _ =>
      (hkeeps (readHeader_writes _) (by decide)).bind fun _ => .get fun v =>
      .require_bind (fun _ h => h.2.2.2) fun hvalid => ?_
    refine Cmd.Triple.bind (makeRoot_built.weaken ?_ (fun _ _ h => h) fun _ _ h => h) fun _ =>
      (parseAll_built _).bind fun _ => hend
    rintro s ⟨rfl, hb, hrom, hd⟩
    exact ⟨hb, hrom, hvalid, hd⟩
  · rintro s ⟨rfl, ⟨hb, hrom, _⟩, _, hd⟩
    exact ⟨hb, hrom, hd⟩

theorem body_keepsTiling (i : Instr) : Cmd.KeepsTiling (commandBody i) := by
  cases i with
  | cpSetcode => exact cpSetcodeBody_keepsTiling
  | cpRead => exact cpReadBody_keepsTiling
  | rgSplit => exact rgSplitBody_keepsTiling
  | drUpdate => exact drUpdateBody_keepsTiling
  | ftRoot => exact ftRootBody_keepsTiling
  | ftParse => exact ftParseBody_keepsTiling
  | ftRender => exact ftRenderBody_keepsTiling
  | ftDecode => exact ftDecodeBody_keepsTiling
  | sysReset => exact (Cmd.Writes.pure (l := []) ()).keepsTiling (by decide)
  | rdInit => exact rdInitBody_writes.keepsTiling (by decide)
  | rdCount => exact rdCountBody_writes.keepsTiling (by decide)
  | rdRemove => exact rdRemoveBody_writes.keepsTiling (by decide)
  | rdNum => exact rdNumBody_writes.keepsTiling (by decide)
  | reInit => exact reInitBody_writes.keepsTiling (by decide)
  | rePut => exact rePutBody_writes.keepsTiling (by decide)
  | reNum => exact reNumBody_writes.keepsTiling (by decide)
  | reFinish => exact reFinishBody_writes.keepsTiling (by decide)
  | reOptfin => exact reOptfinBody_writes.keepsTiling (by decide)
  | tgLookup => exact tgLookupBody_writes.keepsTiling (by decide)
  | cpSize => exact cpSizeBody_writes.keepsTiling (by decide)
  | cpLevel => exact cpLevelBody_writes.keepsTiling (by decide)
  | cpDeq => exact cpDeqBody_writes.keepsTiling (by decide)
  | drDist => exact drDistBody_writes.keepsTiling (by decide)

end Commands

/-! ### The step -/

section Step

variable {s t : State}

/-- Both invariants, in every state. -/
def State.Shaped (s : State) : Prop := s.TreeShape ∧ s.DistanceInv

theorem State.Tiling.shaped (h : s.Tiling) : s.Shaped := ⟨(treeShape_iff s).mpr fun _ => h.1, h.2⟩

theorem State.Shaped.tiling (h : s.Shaped) (hf : s.status.fault = false) : s.Tiling := ⟨(treeShape_iff s).mp h.1 hf, h.2⟩

theorem State.DistanceInv.shaped_of_fault (h : s.DistanceInv) (hf : s.status.fault = true) : s.Shaped :=
  ⟨fun hf' => absurd (hf.symm.trans hf') nofun, h⟩

theorem State.Shaped.of_same (h : s.Shaped) (hfault : t.status.fault = s.status.fault) (hft : t.ft = s.ft) (hcp : t.cp = s.cp)
    (hdr : t.dr = s.dr) (hcfg : t.cfg = s.cfg) (hrec : t.nodeRec = s.nodeRec) (hspan : t.spanRec = s.spanRec) : t.Shaped := by
  obtain ⟨htree, hdist⟩ := h
  refine ⟨(treeShape_iff t).mpr fun hf hphase => ?_, hdist.of_same hdr hcfg⟩
  rw [hfault] at hf
  rw [hft] at hphase
  exact ((treeShape_iff s).mp htree hf hphase).of_same hrec hspan hft hcp

theorem State.Shaped.of_keeps (h : s.Shaped) {l : List Part} (hk : KeepsAllBut l s t) (hl : ∀ p ∈ .status :: builtParts, p ∉ l) :
    t.Shaped :=
  have hstatus : t.status = s.status := hk .status (hl _ (by decide))
  h.of_same (by rw [hstatus]) (hk.ft_eq (hl _ (by decide))) (hk.cp_eq (hl _ (by decide))) (hk.dr_eq (hl _ (by decide)))
    (hk.cfg_eq (hl _ (by decide))) (hk.nodeRec_eq (hl _ (by decide))) (hk.spanRec_eq (hl _ (by decide)))

theorem State.Shaped.withPending (h : s.Shaped) (l : List HostAction) : (s.withPending l).Shaped :=
  h.of_same rfl rfl rfl rfl rfl rfl rfl

theorem State.Shaped.withBus (h : s.Shaped) (d : BusData) : (s.withBus d).Shaped := h.of_same rfl rfl rfl rfl rfl rfl rfl

theorem State.Shaped.beginCommand (h : s.Shaped) : (beginCommand s).Shaped := h.of_same rfl rfl rfl rfl rfl rfl rfl

theorem raiseFault_fault (c : Cause) (cmd : Word) (s : State) : (raiseFault c cmd s).status.fault = true := by
  rw [raiseFault_eq]

theorem State.DistanceInv.raiseFault (h : s.DistanceInv) (c : Cause) (cmd : Word) : (raiseFault c cmd s).Shaped :=
  (h.of_keeps (keepsAllBut_raiseFault c cmd s) (by decide)).shaped_of_fault (raiseFault_fault c cmd s)

theorem exec_shaped {i : Instr} (hi : i ≠ .sysReset) (hs : s.Sound) (h : exec i s = .next t) : t.Shaped := by
  rw [exec_eq_runCommand hi] at h
  rcases runCommand_cases i (commandBody i) s with ⟨u, hu, he⟩ | ⟨e, u, hu, he⟩
  · rw [he] at h
    cases h
    have hu' := (body_keepsTiling i).ok hs hu
    exact (hu'.of_keeps (keepsAllBut_endCommand u) (by decide)).shaped
  · rw [he] at h
    cases h
    exact State.DistanceInv.raiseFault ((body_keepsTiling i).error hs hu) e _

theorem issueCommand_shaped {w : Word} (hs : s.Shaped) (hready : s.status.fault = false → s.Provided)
    (h : issueCommand w s = .next t) : t.Shaped := by
  rcases issueCommand_cases h with ⟨_, _, rfl⟩ | ⟨_, rfl⟩ | ⟨_, hf, i, hi, he⟩ | ⟨_, _, e, cmd, rfl⟩
  · exact hs
  · exact (State.DistanceInv.tiling (distanceInv_of_invalid rfl) (show FtPhase.idle ≠ .build by decide)).shaped
  · have hprovided : (beginCommand s).Provided := hready hf
    exact exec_shaped hi ⟨hprovided, hs.beginCommand.tiling hf⟩ he
  · exact State.DistanceInv.raiseFault (s := beginCommand s) hs.2 e cmd

/-- The bank is locked while the tree is under construction (10_state.md R32). -/
theorem writeDataReg_shaped (n : Nat) (v : Word) (hs : s.Shaped) : (writeDataReg n v s).Shaped := by
  rcases writeDataReg_cases n v s with ⟨_, he⟩ | ⟨_, he⟩ | ⟨_, he⟩ | ⟨_, _, _, b, _, he⟩ | ⟨_, _, _, _, he⟩
  · rw [he]; exact hs.of_same rfl rfl rfl rfl rfl rfl rfl
  · rw [he]; exact hs.of_same rfl rfl rfl rfl rfl rfl rfl
  · rw [he]; exact hs.of_same rfl rfl rfl rfl rfl rfl rfl
  · rw [he]
    rcases writeBank_cases b s with ⟨hphase, hb⟩ | ⟨_, _, hb⟩ | ⟨_, _, hb⟩
    · rw [hb]
      exact (State.DistanceInv.tiling (s := s.withCp b) hs.2 hphase).shaped
    · rw [hb]; exact hs
    · rw [hb]; exact hs.2.raiseFault _ _
  · rw [he]; exact hs

/-- The host writes `NODE` and `SPAN` only while no tree is under construction (10_state.md R36). -/
theorem storeIn_shaped {a : HostAction} {sp : Space} {i : Nat} {d : BusData} (ha : a.stores = some (sp, i, d))
    (howned : s.owned sp = false) (hs : s.Shaped) : (a.storeIn s).Shaped := by
  have hkept := (storeIn_writes ha s).1
  have hfree : sp = .node ∨ sp = .span → s.ft.phase = .build → s.status.fault = true := by
    rintro (rfl | rfl) hphase <;> simpa [State.owned, State.treeOwned, hphase] using howned
  by_cases hsp : sp = .node ∨ sp = .span
  · have hdist : (a.storeIn s).DistanceInv := hs.2.of_keeps hkept (by simp)
    refine ⟨fun hf hphase => absurd (hfree hsp ?_) ?_, hdist⟩
    · rw [← hkept.ft_eq (by simp)]; exact hphase
    · have hstatus : (a.storeIn s).status = s.status := hkept .status (by simp)
      rw [← hstatus, hf]; exact nofun
  · refine hs.of_keeps hkept ?_
    simp only [not_or] at hsp
    simp [builtParts, treeParts, Ne.symm hsp.1, Ne.symm hsp.2]

theorem State.Inv.provided (hinv : s.Inv) (hf : s.status.fault = false) : s.Provided := by
  obtain ⟨⟨hb, hrom, _⟩, _, _, _, _, _, _, hvalid⟩ := hinv
  exact ⟨hb, hrom, hvalid hf⟩

end Step

/-- Settles O59: by the kind of the host action; a command by `exec_shaped`, whose triples keep the tiling node by node. -/
theorem stepKeepsTreeTiling : Obligations.StepKeepsTreeTiling := by
  intro s t hinv hshape hdist h
  suffices ht : t.Shaped from ht
  have hs : s.Shaped := ⟨hshape, hdist⟩
  rcases step_cases h with ⟨_, rfl⟩ | ⟨a, rest, _, hread | ⟨_, ha⟩⟩
  · exact hs
  · obtain ⟨_, d, rfl⟩ := hread
    exact (hs.withPending rest).withBus d
  · have hs' := hs.withPending rest
    rcases idleAction_cases ha with ⟨_, d, rfl⟩ | ⟨w, _, hi⟩ | ⟨n, v, _, _, rfl⟩ | ⟨sp, i, d, hst, howned, _, rfl⟩
    · exact hs'.withBus d
    · exact issueCommand_shaped hs' (fun hf => hinv.provided hf) hi
    · exact writeDataReg_shaped n v hs'
    · exact storeIn_shaped hst howned hs'

end Sys2Proof.Machine
end

section
/-! PROOFS. The render, `FT.RENDER` (47_fragment_tree.md R300, R301; 20_memory.md R72). -/

namespace Sys2Proof.Machine

/-! ### Pixels (R72) -/

/-- Byte `j` of a pixel of colour `c` (20_memory.md R72). -/
def Colour.channel (c : Colour) (j : Nat) : Byte := if j = 0 then c.r else if j = 1 then c.g else if j = 2 then c.b else c.a

section Pixels

variable {s : State} {c : Colour} {l : List SpanRec} {i w : Nat}

theorem putPixel_pixel (c : Colour) (q : Nat) (s : State) (i : Nat) :
    (putPixel c (4 * q) s).pixByte i = if i / 4 = q then c.channel (i % 4) else s.pixByte i := by
  rw [putPixel_pixByte]
  by_cases hq : i / 4 = q
  · rw [if_pos hq, Colour.channel]
    have hj : i % 4 = 0 ∨ i % 4 = 1 ∨ i % 4 = 2 ∨ i % 4 = 3 := by omega
    rcases hj with hj | hj | hj | hj
    · rw [hj, if_pos (by omega), if_pos rfl]
    · rw [hj, if_neg (by omega), if_pos (by omega)]
      rfl
    · rw [hj, if_neg (by omega), if_neg (by omega), if_pos (by omega)]
      rfl
    · rw [hj, if_neg (by omega), if_neg (by omega), if_neg (by omega), if_pos (by omega)]
      rfl
  · rw [if_neg hq, if_neg (by omega), if_neg (by omega), if_neg (by omega), if_neg (by omega)]

theorem paintRun_pixByte (c : Colour) (y k x : Nat) (s : State) (i : Nat) :
    (paintRun c y k x s).pixByte i =
      if y * s.cp.width.toNat + x ≤ i / 4 ∧ i / 4 < y * s.cp.width.toNat + x + k then c.channel (i % 4) else s.pixByte i := by
  induction k generalizing x s with
  | zero => rw [if_neg (by omega)]; rfl
  | succ k ih =>
    have hcp : (putPixel c (4 * (y * s.cp.width.toNat + x)) s).cp = s.cp :=
      (onlyPixels_putPixel _ _ _).keepsAllBut.cp_eq (by decide)
    rw [paintRun, ih, hcp, putPixel_pixel]
    generalize y * s.cp.width.toNat = b
    by_cases hrest : b + (x + 1) ≤ i / 4 ∧ i / 4 < b + (x + 1) + k
    · rw [if_pos hrest, if_pos (by omega)]
    · rw [if_neg hrest]
      by_cases hfirst : i / 4 = b + x
      · rw [if_pos hfirst, if_pos (by omega)]
      · rw [if_neg hfirst, if_neg (by omega)]

/-- Pixel `q` of an image of width `w` lies in columns `x0` to `x1` of row `y`. -/
theorem pixel_in_run_iff {y x0 x1 q : Nat} (hw : 1 ≤ w) (hx : x1 ≤ w) :
    (y * w + x0 ≤ q ∧ q < y * w + x0 + (x1 - x0)) ↔ (y = q / w ∧ x0 ≤ q % w ∧ q % w < x1) := by
  have hdiv : q / w * w + q % w = q := Nat.div_add_mod' q w
  have hmod : q % w < w := Nat.mod_lt q hw
  constructor
  · rintro ⟨hlo, hhi⟩
    have hy : y = q / w := by
      rw [eq_comm, Nat.div_eq_iff hw]
      omega
    subst hy
    omega
  · rintro ⟨rfl, hlo, hhi⟩
    omega

theorem paintSpans_pixByte (hw : 1 ≤ w) (hl : ∀ p ∈ l, p.x1 ≤ w) (hs : s.cp.width.toNat = w) (c : Colour) (i : Nat) :
    (covers l (i / 4 % w) (i / 4 / w) → (paintSpans c l s).pixByte i = c.channel (i % 4)) ∧
    (¬ covers l (i / 4 % w) (i / 4 / w) → (paintSpans c l s).pixByte i = s.pixByte i) := by
  induction l generalizing s with
  | nil => exact ⟨fun ⟨_, hp, _⟩ => absurd hp List.not_mem_nil, fun _ => rfl⟩
  | cons p l ih =>
    obtain ⟨hp, hrest⟩ := List.forall_mem_cons.mp hl
    have hrun := paintRun_pixByte c p.y (p.x1 - p.x0) p.x0 s i
    have hcp : (paintRun c p.y (p.x1 - p.x0) p.x0 s).cp = s.cp := by rw [onlyPixels_paintRun c p.y _ _ s]
    obtain ⟨hin, hout⟩ := ih hrest (hcp ▸ hs)
    have hcons : covers (p :: l) (i / 4 % w) (i / 4 / w) ↔
        (p.y = i / 4 / w ∧ p.x0 ≤ i / 4 % w ∧ i / 4 % w < p.x1) ∨ covers l (i / 4 % w) (i / 4 / w) := by
      simp only [covers, List.mem_cons, exists_eq_or_imp]
    simp only [hs, pixel_in_run_iff hw hp] at hrun
    rw [hcons, paintSpans]
    by_cases hlater : covers l (i / 4 % w) (i / 4 / w)
    · exact ⟨fun _ => hin hlater, fun h => absurd (.inr hlater) h⟩
    · rw [hout hlater, hrun]
      refine ⟨fun h => if_pos (h.resolve_right hlater), fun h => if_neg fun hfirst => h (.inl hfirst)⟩

end Pixels

/-! ### The nodes (R300) -/

/-- Node `n`, of the tree or not, is a Fill leaf whose region covers the pixel that byte `i` of `PIX` belongs to. -/
def State.paintsByte (s : State) (n i : Nat) : Prop :=
  (s.nodeRec n).kind = .fill ∧ covers (s.regionOf n) (i / 4 % s.cp.width.toNat) (i / 4 / s.cp.width.toNat)

/-- The Fill leaves from node `n` on, `k` nodes long, lie inside the rows of the image. -/
def State.FillsFit (s : State) (n k : Nat) : Prop :=
  ∀ m, n ≤ m → m < n + k → (s.nodeRec m).kind = .fill → ∀ p ∈ s.regionOf m, p.x1 ≤ s.cp.width.toNat

section Nodes

variable {s t : State} {n m k i : Nat}

theorem OnlyPixels.nodeRec_eq (h : OnlyPixels s t) : t.nodeRec = s.nodeRec := h.keepsAllBut.nodeRec_eq (by decide)

theorem OnlyPixels.regionOf_eq (h : OnlyPixels s t) : t.regionOf = s.regionOf :=
  regionOf_eq_of_reads h.nodeRec_eq (h.keepsAllBut.spanRec_eq (by decide))

theorem OnlyPixels.cp_eq (h : OnlyPixels s t) : t.cp = s.cp := h.keepsAllBut.cp_eq (by decide)

theorem OnlyPixels.paintsByte_iff (h : OnlyPixels s t) : t.paintsByte n i ↔ s.paintsByte n i := by
  rw [State.paintsByte, State.paintsByte, h.nodeRec_eq, h.regionOf_eq, h.cp_eq]

theorem OnlyPixels.fillsFit (h : OnlyPixels s t) (hs : s.FillsFit n k) : t.FillsFit n k := by
  rw [State.FillsFit, h.nodeRec_eq, h.regionOf_eq, h.cp_eq]
  exact hs

theorem renderNode_pixByte (hw : 1 ≤ s.cp.width.toNat)
    (hfit : (s.nodeRec n).kind = .fill → ∀ p ∈ s.regionOf n, p.x1 ≤ s.cp.width.toNat) (i : Nat) :
    (s.paintsByte n i → (renderNode n s).pixByte i = (s.nodeRec n).colour.channel (i % 4)) ∧
    (¬ s.paintsByte n i → (renderNode n s).pixByte i = s.pixByte i) := by
  unfold renderNode State.paintsByte
  cases hkind : (s.nodeRec n).kind with
  | fill =>
    obtain ⟨hin, hout⟩ := paintSpans_pixByte hw (hfit hkind) rfl (s.nodeRec n).colour i
    exact ⟨fun h => hin h.2, fun h => hout fun hc => h ⟨rfl, hc⟩⟩
  | unread => exact ⟨fun h => absurd h.1 nofun, fun _ => rfl⟩
  | split => exact ⟨fun h => absurd h.1 nofun, fun _ => rfl⟩

/-- A byte of a pixel that no Fill leaf covers keeps its value. -/
theorem renderFrom_pixByte_of_none (hw : 1 ≤ s.cp.width.toNat) (hfit : s.FillsFit n k)
    (hnone : ∀ m, n ≤ m → m < n + k → ¬ s.paintsByte m i) : (renderFrom k n s).pixByte i = s.pixByte i := by
  induction k generalizing n s with
  | zero => rfl
  | succ k ih =>
    have hpix := onlyPixels_renderNode n s
    obtain ⟨_, hout⟩ := renderNode_pixByte hw (hfit n (Nat.le_refl n) (by omega)) i
    rw [renderFrom, ih (hpix.cp_eq ▸ hw) (hpix.fillsFit fun m h1 h2 => hfit m (by omega) (by omega))
      (fun m h1 h2 => hpix.paintsByte_iff.not.mpr (hnone m (by omega) (by omega)))]
    exact hout (hnone n (Nat.le_refl n) (by omega))

/-- A byte of a pixel has the colour of the last Fill leaf that covers it. -/
theorem renderFrom_pixByte_of_last (hw : 1 ≤ s.cp.width.toNat) (hfit : s.FillsFit n k) (hlo : n ≤ m) (hhi : m < n + k)
    (hm : s.paintsByte m i) (hlast : ∀ m', m < m' → m' < n + k → ¬ s.paintsByte m' i) :
    (renderFrom k n s).pixByte i = (s.nodeRec m).colour.channel (i % 4) := by
  induction k generalizing n s with
  | zero => omega
  | succ k ih =>
    have hpix := onlyPixels_renderNode n s
    have hw' : 1 ≤ (renderNode n s).cp.width.toNat := hpix.cp_eq ▸ hw
    have hfit' : (renderNode n s).FillsFit (n + 1) k := hpix.fillsFit fun m h1 h2 => hfit m (by omega) (by omega)
    rw [renderFrom]
    by_cases hmn : m = n
    · subst hmn
      obtain ⟨hin, _⟩ := renderNode_pixByte hw (hfit m (Nat.le_refl m) (by omega)) i
      rw [renderFrom_pixByte_of_none hw' hfit' fun m' h1 h2 => hpix.paintsByte_iff.not.mpr (hlast m' (by omega) (by omega))]
      exact hin hm
    · rw [ih hw' hfit' (by omega) (by omega) (hpix.paintsByte_iff.mpr hm)
        (fun m' h1 h2 => hpix.paintsByte_iff.not.mpr (hlast m' h1 (by omega))), hpix.nodeRec_eq]

end Nodes

/-! ### The command (R301) -/

section Render

variable {s : State}

/-- The rendered state with its phase and results (47_fragment_tree.md R301). -/
def State.returnImage (t : State) : State :=
  (((t.withFt { t.ft with phase := .rendered }).withRes0 t.cp.width).withRes1 t.cp.height).withRes2 t.ft.tail

theorem returnImage_writes (t : State) : WritesOnly [.res0, .res1, .res2, .ft] t t.returnImage :=
  (((WritesOnly.withFt (by decide) t _).trans (.withRes0 (by decide) _ _)).trans (.withRes1 (by decide) _ _)).trans
    (.withRes2 (by decide) _ _)

theorem setPhase_bind_setImageResults (t : State) : (setPhase .rendered >>= fun _ => setImageResults) t = .ok () t.returnImage :=
  rfl

theorem returnImage_ft (t : State) : t.returnImage.ft = { t.ft with phase := .rendered } := rfl

theorem returnImage_results (t : State) :
    t.returnImage.res0 = t.cp.width ∧ t.returnImage.res1 = t.cp.height ∧ t.returnImage.res2 = t.ft.tail := ⟨rfl, rfl, rfl⟩

theorem KeepsAllBut.pixByte_eq {s t : State} {l : List Part} (h : KeepsAllBut l s t) (hl : .mem .pix ∉ l) :
    t.pixByte = s.pixByte :=
  funext fun i => BusData.byte.inj (h (.mem .pix) hl i)

theorem completed_endCommand {s t : State} (h : t.status = s.status) : CompletedKeepingPad s (endCommand t) := by
  rw [endCommand_eq]
  exact ⟨⟨rfl, rfl, (congrArg Status.fault h :)⟩, (congrArg Status.pad h :)⟩

theorem render_of_room (h : 4 * s.cp.width.toNat * s.cp.height.toNat ≤ s.cfg.pixCap) :
    render s = .ok () (renderFrom s.ft.tail.toNat 0 s) := by
  rcases render_spec s with ⟨_, he⟩ | ⟨hfull, _⟩
  · exact he
  · omega

theorem render_of_full (h : s.cfg.pixCap < 4 * s.cp.width.toNat * s.cp.height.toNat) : render s = .error .capacityPix s := by
  rcases render_spec s with ⟨hroom, _⟩ | ⟨_, he⟩
  · omega
  · exact he

theorem ftRenderBody_checked (hphase : s.ft.phase = .build) (hqueue : s.ft.head = s.ft.tail) :
    ftRenderBody s = (render >>= fun _ => setPhase .rendered >>= fun _ => setImageResults) s := by
  unfold ftRenderBody
  rw [get_bind, require_bind_of_true _ _ _ hphase, require_bind_of_true _ _ _ hqueue]

theorem ftRenderBody_protocol (h : s.ft.phase ≠ .build ∨ s.ft.head ≠ s.ft.tail) :
    ftRenderBody s = .error .protocolTree s := by
  unfold ftRenderBody
  rw [get_bind]
  by_cases hphase : s.ft.phase = .build
  · rw [require_bind_of_true _ _ _ hphase, require_bind_of_false _ _ _ (h.resolve_left (not_not.mpr hphase))]
  · rw [require_bind_of_false _ _ _ hphase]

theorem ftRenderBody_of_room (hphase : s.ft.phase = .build) (hqueue : s.ft.head = s.ft.tail)
    (h : 4 * s.cp.width.toNat * s.cp.height.toNat ≤ s.cfg.pixCap) :
    ftRenderBody s = .ok () (renderFrom s.ft.tail.toNat 0 s).returnImage := by
  rw [ftRenderBody_checked hphase hqueue, bind_of_ok (render_of_room h), setPhase_bind_setImageResults]

/-- Byte `4 * (y * w + x) + j` of `PIX` belongs to the pixel `(x, y)` (20_memory.md R72). -/
theorem pixel_of_byte {w x y j : Nat} (hx : x < w) (hj : j < 4) :
    (4 * (y * w + x) + j) / 4 % w = x ∧ (4 * (y * w + x) + j) / 4 / w = y ∧ (4 * (y * w + x) + j) % 4 = j := by
  have hq : (4 * (y * w + x) + j) / 4 = y * w + x := by omega
  refine ⟨?_, ?_, by omega⟩
  · rw [hq, Nat.mul_comm, Nat.mul_add_mod, Nat.mod_eq_of_lt hx]
  · rw [hq, Nat.mul_comm, Nat.mul_add_div (by omega), Nat.div_eq_of_lt hx, Nat.add_zero]

/-- A Fill leaf that covers a pixel paints its four bytes. -/
theorem paintsByte_iff_of_pixel {m x y j : Nat} (hx : x < s.cp.width.toNat) (hj : j < 4) :
    s.paintsByte m (4 * (y * s.cp.width.toNat + x) + j) ↔ (s.nodeRec m).kind = .fill ∧ covers (s.regionOf m) x y := by
  obtain ⟨hcol, hrow, _⟩ := pixel_of_byte (y := y) hx hj
  rw [State.paintsByte, hcol, hrow]

/-- The bytes of a pixel after the render: the colour of the last Fill leaf that covers it. -/
theorem render_pixel (hw : 1 ≤ s.cp.width.toNat) (hfit : s.FillsFit 0 s.ft.tail.toNat) {n x y : Nat}
    (hn : s.fillCovers n x y) (hlast : ∀ m, n < m → ¬ s.fillCovers m x y) {j : Nat} (hj : j < 4) :
    (renderFrom s.ft.tail.toNat 0 s).pixByte (4 * (y * s.cp.width.toNat + x) + j) = (s.nodeRec n).colour.channel j := by
  obtain ⟨htail, hkind, p, hp, hy, hx0, hx1⟩ := hn
  have hx : x < s.cp.width.toNat := hx1.trans_le (hfit n (Nat.zero_le n) (by omega) hkind p hp)
  have hpaint := renderFrom_pixByte_of_last (i := 4 * (y * s.cp.width.toNat + x) + j) hw hfit (Nat.zero_le n) (by omega)
    ((paintsByte_iff_of_pixel hx hj).mpr ⟨hkind, p, hp, hy, hx0, hx1⟩) fun m hm htop hc => hlast m hm
      ⟨by omega, (paintsByte_iff_of_pixel hx hj).mp hc⟩
  rw [hpaint, (pixel_of_byte (y := y) hx hj).2.2]

/-- The bytes of a pixel that no Fill leaf covers are as they were. -/
theorem render_byte_of_none (hw : 1 ≤ s.cp.width.toNat) (hfit : s.FillsFit 0 s.ft.tail.toNat) {i : Nat}
    (h : ∀ n, ¬ s.fillCovers n (i / 4 % s.cp.width.toNat) (i / 4 / s.cp.width.toNat)) :
    (renderFrom s.ft.tail.toNat 0 s).pixByte i = s.pixByte i :=
  renderFrom_pixByte_of_none hw hfit fun m _ hm hc => h m ⟨by omega, hc⟩

end Render

/-- Settles O53: the pixels by `render_pixel` and `render_byte_of_none`, the checks in their order. -/
theorem ftRenderResult : Obligations.FtRenderResult := by
  intro s
  refine ⟨fun hphase hqueue hw hroom hfills => ?_,
    fun hf h => trapsCleanly_of_error (i := .ftRender) hf (ftRenderBody_protocol h),
    fun hf hphase hqueue hfull => trapsCleanly_of_error (i := .ftRender) hf
      ((ftRenderBody_checked hphase hqueue).trans (bind_of_error (render_of_full hfull)))⟩
  have hbody := ftRenderBody_of_room hphase hqueue hroom
  have hfit : s.FillsFit 0 s.ft.tail.toNat := fun m _ hm => hfills m (by omega)
  have hpixels := fun n x y hn hlast j hj => render_pixel hw hfit (n := n) (x := x) (y := y) hn hlast (j := j) hj
  have hothers := fun i h => render_byte_of_none hw hfit (i := i) h
  have hpix := onlyPixels_renderFrom s.ft.tail.toNat 0 s
  generalize renderFrom s.ft.tail.toNat 0 s = t at hbody hpixels hothers hpix
  have hkept := hpix.keepsAllBut
  have hft : t.ft = s.ft := hkept.ft_eq (by decide)
  have hstatus : t.status = s.status := hkept .status (by decide)
  have hreturned := (returnImage_writes t).1
  have hend := keepsAllBut_endCommand t.returnImage
  have hdone : CompletedKeepingPad s (endCommand t.returnImage) :=
    completed_endCommand ((hreturned .status (by decide)).trans hstatus)
  have hphase' := returnImage_ft t
  obtain ⟨hres0, hres1, hres2⟩ := returnImage_results t
  generalize t.returnImage = u at hbody hreturned hend hdone hphase' hres0 hres1 hres2
  have hrun := runCommand_of_ok (i := .ftRender) hbody
  generalize endCommand u = v at hend hdone hrun
  have hpixByte : v.pixByte = t.pixByte := (hend.pixByte_eq (by decide)).trans (hreturned.pixByte_eq (by decide))
  refine ⟨v, hrun, hdone, ?_, fun n x y hn hlast => ?_, fun i h => ?_, ?_, ?_, ?_, ?_⟩
  · rw [hend.ft_eq (by decide), hphase', hft]
  · rw [hpixByte]
    exact ⟨hpixels n x y hn hlast 0 (by decide), hpixels n x y hn hlast 1 (by decide),
      hpixels n x y hn hlast 2 (by decide), hpixels n x y hn hlast 3 (by decide)⟩
  · rw [hpixByte]
    exact hothers i h
  · exact (hend .res0 (by decide)).trans (hres0.trans (congrArg CpRegs.width hpix.cp_eq))
  · exact (hend .res1 (by decide)).trans (hres1.trans (congrArg CpRegs.height hpix.cp_eq))
  · exact (hend .res2 (by decide)).trans (hres2.trans (congrArg FtRegs.tail hft))
  · exact ((hkept.mono (by decide)).trans (hreturned.mono (by decide))).trans (hend.mono (by decide))

end Sys2Proof.Machine
end

section
/-! PROOFS. What decoding an image does not look at (47_fragment_tree.md R302): the operands, the results and every bit of
`STATUS` but `PAD`. So each part of the sequence of commands does to its own state what `FT.DECODE` does to its. -/

namespace Sys2Proof.Machine

/-- `u` with the operands, the results and every bit of `STATUS` but `PAD` of `v`. -/
def State.dressedAs (u v : State) : State :=
  { u with
    status := { v.status with pad := u.status.pad }
    arg0 := v.arg0
    arg1 := v.arg1
    arg2 := v.arg2
    res0 := v.res0
    res1 := v.res1
    res2 := v.res2
    res3 := v.res3 }

/-- A run that ends does the same in every dress, and changes none of it. -/
def Cmd.Respects {α : Type} (x : Cmd α) : Prop :=
  ∀ v s a t, x s = .ok a t → x (s.dressedAs v) = .ok a (t.dressedAs v)

section Respects

variable {α β : Type}

theorem Cmd.Respects.pure (a : α) : Cmd.Respects (Pure.pure a) := by
  intro v s b t h
  cases h
  rfl

theorem Cmd.Respects.bind {x : Cmd α} {f : α → Cmd β} (hx : x.Respects) (hf : ∀ a, (f a).Respects) :
    Cmd.Respects (x >>= f) := by
  intro v s b t h
  obtain ⟨a, u, hxs, hfu⟩ := bind_eq_ok.mp h
  exact bind_eq_ok.mpr ⟨a, u.dressedAs v, hx v s a u hxs, hf a v u b t hfu⟩

theorem Cmd.Respects.get {f : State → Cmd β} (hf : ∀ s, (f s).Respects) (hsame : ∀ s v, f (s.dressedAs v) = f s) :
    Cmd.Respects (MonadState.get >>= f) := by
  intro v s b t h
  rw [get_bind] at h ⊢
  rw [hsame]
  exact hf s v s b t h

theorem Cmd.Respects.update {g : State → State} (hg : ∀ s v, g (s.dressedAs v) = (g s).dressedAs v) :
    (Machine.update g).Respects := by
  intro v s b t h
  cases h
  rw [update_apply, hg]

theorem Cmd.Respects.require_bind {p : Prop} [Decidable p] {c : Cause} {f : Unit → Cmd β} (hf : (f ()).Respects) :
    Cmd.Respects (Machine.require p c >>= f) := by
  intro v s b t h
  rw [require_bind_eq_ok] at h ⊢
  exact ⟨h.1, hf v s b t h.2⟩

theorem Cmd.Respects.ite {p : Prop} [Decidable p] {x y : Cmd α} (hx : x.Respects) (hy : y.Respects) :
    Cmd.Respects (if p then x else y) := by
  split
  · exact hx
  · exact hy

end Respects

/-! ### The decoder and the header (R149, R231) -/

section Header

theorem decoderBlind_dressedAs (v : State) : DecoderBlind (fun s => s.dressedAs v) :=
  ⟨fun _ => rfl, fun _ => rfl, fun _ => rfl, fun _ _ _ => rfl⟩

theorem readNumber_respects (max : Nat) : (readNumber max).Respects := fun v _ _ _ h =>
  readNumber_eq_ok.mpr ((readNumber_eq_ok.mp h).map (decoderBlind_dressedAs v))

theorem readSizeLoop_respects (c : Config) (n : Nat) (bits : Int) : (readSizeLoop c n bits).Respects := by
  induction n generalizing bits with
  | zero => exact .pure _
  | succ n ih =>
    exact (readNumber_respects _).bind fun v => .require_bind <| .ite (ih _) <|
      (readNumber_respects 2).bind fun f => .ite (ih _) (.pure _)

theorem readSize_respects : readSize.Respects := .get (fun s => readSizeLoop_respects s.cfg _ _) fun _ _ => rfl

theorem readDims_respects : readDims.Respects :=
  readSize_respects.bind fun _ => (Cmd.Respects.update fun _ _ => rfl).bind fun _ =>
    readSize_respects.bind fun _ => .update fun _ _ => rfl

theorem readPaletteLoop_respects (k i : Nat) : (readPaletteLoop k i).Respects := by
  have hnum := readNumber_respects 256
  induction k generalizing i with
  | zero => exact .pure _
  | succ k ih =>
    exact hnum.bind fun r => hnum.bind fun g => hnum.bind fun b => (Cmd.Respects.update fun _ _ => rfl).bind fun _ =>
      ih (i + 1)

theorem readPalette_respects : readPalette.Respects :=
  .get (fun _ => (readNumber_respects _).bind fun n => (readPaletteLoop_respects n 0).bind fun _ => .update fun _ _ => rfl)
    fun _ _ => rfl

theorem readHeader_respects (flags : Nat) : (readHeader flags).Respects := by
  have hcode : Cmd.Respects (do
      let s ← get
      let code ← readNumber s.cfg.maxCode
      update (setCode code)
      readPalette
      pure code) :=
    .get (fun s => (readNumber_respects _).bind fun code => (Cmd.Respects.update fun _ _ => rfl).bind fun _ =>
      readPalette_respects.bind fun _ => .pure code) fun _ _ => rfl
  exact .ite (readDims_respects.bind fun _ => hcode) hcode

end Header

/-! ### The tree (R283 to R286) -/

section Tree

variable {s v : State}

theorem dressedAs_regionOf (s v : State) : (s.dressedAs v).regionOf = s.regionOf := regionOf_eq_of_reads rfl rfl

theorem makeRoot_respects : makeRoot.Respects :=
  .get (fun _ => .require_bind <| .require_bind <| .update fun _ _ => rfl) fun _ _ => rfl

theorem readColor_respects : readColor.Respects :=
  .get (fun _ => .ite ((readNumber_respects _).bind fun _ => .pure _)
    ((readNumber_respects _).bind fun _ => (readNumber_respects _).bind fun _ => (readNumber_respects _).bind fun _ => .pure _))
    fun _ _ => rfl

theorem readAngle_respects (level : Fin 7) : (readAngle level).Respects :=
  .get (fun _ => (readNumber_respects _).bind fun _ => .pure _) fun _ _ => rfl

theorem parseFill_respects (n : Nat) : (parseFill n).Respects :=
  readColor_respects.bind fun _ => (Cmd.Respects.update fun _ _ => rfl).bind fun _ => .update fun _ _ => rfl

theorem drUpdate_dressedAs (n a : Nat) (s v : State) : drUpdate n a (s.dressedAs v) = (drUpdate n a s).dressedAs v := by
  have hdr : (drUpdate n a (s.dressedAs v)).dr = (drUpdate n a s).dr :=
    drUpdate_dr_congr rfl rfl (congrFun (dressedAs_regionOf s v) n) rfl
  rw [drUpdate_eq n a (s.dressedAs v), hdr, drUpdate_eq n a s]
  rfl

theorem storeRegion_dressedAs (n : Nat) (l : List SpanRec) (s v : State) :
    storeRegion n l (s.dressedAs v) = (storeRegion n l s).dressedAs v := rfl

theorem splitInto_dressedAs (n a : Nat) (d : Int) (l r : Nat) (s v : State) :
    splitInto n a d l r (s.dressedAs v) = (splitInto n a d l r s).dressedAs v := by
  rw [splitInto_eq, splitInto_eq, dressedAs_regionOf, storeRegion_dressedAs, storeRegion_dressedAs]
  rfl

theorem withChildren_dressedAs (n : Nat) (s v : State) : (s.dressedAs v).withChildren n = (s.withChildren n).dressedAs v := rfl

theorem linkChildren_dressedAs (n l r : Nat) (s v : State) :
    (s.dressedAs v).linkChildren n l r = (s.linkChildren n l r).dressedAs v := rfl

theorem splitNode_dressedAs (n a : Nat) (d : Int) (s v : State) :
    (s.dressedAs v).splitNode n a d = (s.splitNode n a d).dressedAs v := by
  have hft : (s.dressedAs v).ft = s.ft := rfl
  rw [State.splitNode, hft, withChildren_dressedAs, splitInto_dressedAs, linkChildren_dressedAs, State.splitNode]

theorem cutNode_respects (n a : Nat) (d : Int) : (cutNode n a d).Respects := by
  intro v s b t h
  rcases cutNode_spec n a d s with ⟨hroom, he⟩ | ⟨e, he⟩
  · rw [he] at h
    cases h
    have hroom' : (s.dressedAs v).RoomForChildren n := hroom
    rw [cutNode_of_room hroom', splitNode_dressedAs]
  · rw [he] at h
    cases h

theorem measureAndCut_respects (n a : Nat) : (measureAndCut n a).Respects :=
  (Cmd.Respects.update (drUpdate_dressedAs n a)).bind fun _ =>
    .get (fun _ => (readNumber_respects _).bind fun _ => cutNode_respects _ _ _) fun _ _ => rfl

theorem parseSplit_respects (n : Nat) : (parseSplit n).Respects := by
  intro v s b t h
  have hsame : (s.dressedAs v).getLevel n = s.getLevel n := by
    rw [State.getLevel, State.getLevel, dressedAs_regionOf]
    rfl
  cases hlevel : s.getLevel n with
  | none =>
    rw [parseSplit_of_empty hlevel] at h
    cases h
  | some level =>
    rw [parseSplit_of_level hlevel] at h
    rw [parseSplit_of_level (hsame.trans hlevel)]
    exact (readAngle_respects level.1).bind (measureAndCut_respects n) v s b t h

theorem parseNode_respects : parseNode.Respects := by
  have hhead : (update fun u => u.withFt { u.ft with head := u.ft.head + 1 }).Respects := .update fun _ _ => rfl
  exact .get (fun s => (readNumber_respects 2).bind fun t =>
    .ite ((parseFill_respects _).bind fun _ => hhead) ((parseSplit_respects _).bind fun _ => hhead)) fun _ _ => rfl

end Tree

/-! ### The render (R300) -/

section Render

theorem paintRun_dressedAs (c : Colour) (y k x : Nat) (s v : State) :
    paintRun c y k x (s.dressedAs v) = (paintRun c y k x s).dressedAs v := by
  induction k generalizing x s with
  | zero => rfl
  | succ k ih =>
    have hpixel : ∀ p, putPixel c p (s.dressedAs v) = (putPixel c p s).dressedAs v := fun _ => rfl
    rw [paintRun, hpixel, ih]
    rfl

theorem paintSpans_dressedAs (c : Colour) (l : List SpanRec) (s v : State) :
    paintSpans c l (s.dressedAs v) = (paintSpans c l s).dressedAs v := by
  induction l generalizing s with
  | nil => rfl
  | cons p l ih => rw [paintSpans, paintRun_dressedAs, ih, paintSpans]

theorem renderNode_dressedAs (n : Nat) (s v : State) : renderNode n (s.dressedAs v) = (renderNode n s).dressedAs v := by
  have hrec : (s.dressedAs v).nodeRec n = s.nodeRec n := rfl
  unfold renderNode
  rw [hrec, dressedAs_regionOf]
  cases (s.nodeRec n).kind with
  | fill => exact paintSpans_dressedAs _ _ _ _
  | unread => rfl
  | split => rfl

theorem renderFrom_dressedAs (k n : Nat) (s v : State) : renderFrom k n (s.dressedAs v) = (renderFrom k n s).dressedAs v := by
  induction k generalizing n s with
  | zero => rfl
  | succ k ih => rw [renderFrom, renderNode_dressedAs, ih, renderFrom]

theorem render_respects : render.Respects :=
  .get (fun s => .require_bind <| .update (renderFrom_dressedAs s.ft.tail.toNat 0)) fun _ _ => rfl

end Render

end Sys2Proof.Machine
end

section
/-! PROOFS. `FT.DECODE` does what the sequence of commands does (47_fragment_tree.md R302). -/

namespace Sys2Proof.Machine

/-! ### The queue (R286) -/

section Queue

variable {s t : State} {n : Nat} {w : Word} {c : Config}

/-- The queue's head, and its tail within `NODE`. -/
def State.QueueFits (c : Config) (w : Word) (s : State) : Prop := s.cfg = c ∧ s.ft.head = w ∧ s.ft.tail.toNat ≤ c.nodeCap

theorem State.QueueFits.of_keeps (h : s.QueueFits c w) {l : List Part} (hk : KeepsAllBut l s t) (hl : .ft ∉ l ∧ .hostSide ∉ l) :
    t.QueueFits c w := by
  unfold State.QueueFits
  rw [hk.cfg_eq hl.2, hk.ft_eq hl.1]
  exact h

theorem queueFits_of_writes {α : Type} {l : List Part} {x : Cmd α} (hx : Cmd.Writes l x) (hl : Part.ft ∉ l ∧ Part.hostSide ∉ l) :
    Cmd.Triple (State.QueueFits c w) x (fun _ => State.QueueFits c w) (fun _ _ => True) :=
  fun s hs => by
    cases h : x s with
    | ok a t => exact hs.of_keeps (hx.ok h).1 hl
    | error e t => trivial

/-- A Split allocates its children within `NODE`. -/
theorem cutNode_queueFits (hb : c.Bounds) (a : Nat) (d : Int) :
    Cmd.Triple (State.QueueFits c w) (cutNode n a d) (fun _ => State.QueueFits c w) (fun _ _ => True) := by
  obtain ⟨_, _, _, _, _, _, hcap, _⟩ := hb
  rintro s ⟨rfl, hhead, _⟩
  rcases cutNode_spec n a d s with ⟨⟨hnode, _⟩, he⟩ | ⟨e, he⟩
  · rw [he]
    refine ⟨(splitNode_writes s n a d).1.cfg_eq (by decide), (splitNode_head s n a d).trans hhead, ?_⟩
    have htail : (s.withChildren n).ft.tail = zext64 (s.ft.tail.toNat + 2) := rfl
    rw [splitNode_ft, htail, zext64_toNat (by omega)]
    exact hnode
  · rw [he]
    trivial

theorem parseSplit_queueFits (hb : c.Bounds) :
    Cmd.Triple (State.QueueFits c w) (parseSplit n) (fun _ => State.QueueFits c w) (fun _ _ => True) := by
  intro s hs
  cases hlevel : s.getLevel n with
  | none => rw [parseSplit_of_empty hlevel]; trivial
  | some level =>
    have hmeasure : ∀ a, Cmd.Triple (State.QueueFits c w) (measureAndCut n a) (fun _ => State.QueueFits c w) (fun _ _ => True) :=
      fun a => (queueFits_of_writes (.update (drUpdate_writes n a)) (by decide)).bind fun _ => .get_of fun t _ =>
        (queueFits_of_writes (readNumber_writes t.dr.numLines.toNat) (by decide)).bind fun line => cutNode_queueFits hb a _
    rw [parseSplit_of_level hlevel]
    exact ((queueFits_of_writes (readAngle_writes level.1) (by decide)).bind hmeasure) s hs

/-- A parsed node leaves the queue, whose tail stays within `NODE`. -/
theorem parseNode_queueFits (hb : c.Bounds) :
    Cmd.Triple (State.QueueFits c w) parseNode (fun _ => State.QueueFits c (w + 1)) (fun _ _ => True) := by
  have hadvance : Cmd.Triple (State.QueueFits c w) (update State.advanceHead) (fun _ => State.QueueFits c (w + 1))
      (fun _ _ => True) :=
    .update fun s ⟨hcfg, hhead, htail⟩ => ⟨hcfg, congrArg (· + 1) hhead, htail⟩
  exact .get_of fun u _ => (queueFits_of_writes (readNumber_writes 2) (by decide)).bind fun t =>
    .ite (fun _ => (queueFits_of_writes (parseFill_writes _) (by decide)).bind fun _ => hadvance)
      fun _ => (parseSplit_queueFits hb).bind fun _ => hadvance

end Queue

/-! ### The commands of the sequence -/

section Sequence

variable {s t v : State} {k n : Nat}

theorem endCommand_dressedAs (u v : State) : (endCommand u).dressedAs v = u.dressedAs v := rfl

theorem withArgs_dressedAs (u v : State) (a b c : Word) : (u.withArgs a b c).dressedAs v = u.dressedAs v := rfl

theorem withRes0_dressedAs (u v : State) (w : Word) : (u.withRes0 w).dressedAs v = u.dressedAs v := rfl

theorem withRes1_dressedAs (u v : State) (w : Word) : (u.withRes1 w).dressedAs v = u.dressedAs v := rfl

theorem withRes2_dressedAs (u v : State) (w : Word) : (u.withRes2 w).dressedAs v = u.dressedAs v := rfl

theorem withRes3_dressedAs (u v : State) (w : Word) : (u.withRes3 w).dressedAs v = u.dressedAs v := rfl

/-- `RD.INIT` begun with the phase at `IDLE`, and what `FT.DECODE` does in its place. -/
theorem rdInit_of_runs {ft : FtRegs} (h : Runs .rdInit (s.withFt ft) t) :
    s.operand0 ≤ s.cfg.inCap ∧ t.dressedAs s = rdInit s.operand0 (s.withFt ft) := by
  obtain ⟨u, hu, rfl⟩ := h.body_ok (by decide)
  have hbody : rdInitBody (s.withFt ft) = .ok () u := hu
  have hoperand : (s.withFt ft).operand0 = s.operand0 := rfl
  unfold rdInitBody at hbody
  rw [get_bind, require_bind_eq_ok, update_bind, update_apply, hoperand] at hbody
  obtain ⟨hlen, he⟩ := hbody
  have hmoved := onlyDecoderMoved_rdInit s.operand0 (s.withFt ft)
  refine ⟨hlen, ?_⟩
  generalize rdInit s.operand0 (s.withFt ft) = w at he hmoved
  cases he
  rw [endCommand_dressedAs, withRes0_dressedAs, hmoved]
  rfl

/-- `CP.READ` without its results. -/
theorem readHeader_of_runs (h : Runs .cpRead s t) :
    s.operand0 < 2 ∧ (s.operand0 = 1 → s.dimsValid = true) ∧
      ∃ code u, readHeader s.operand0 s = .ok code u ∧ ∀ v, t.dressedAs v = u.dressedAs v := by
  obtain ⟨u, hu, rfl⟩ := h.body_ok (by decide)
  have hbody : cpReadBody s = .ok () u := hu
  unfold cpReadBody at hbody
  rw [get_bind, require_bind_eq_ok, require_bind_eq_ok, require_bind_eq_ok, require_bind_eq_ok, bind_eq_ok] at hbody
  obtain ⟨_, _, hflags, hdims, code, p, hread, hrest⟩ := hbody
  cases hrest
  refine ⟨hflags, hdims, code, p, hread, fun v => ?_⟩
  rw [endCommand_dressedAs, withRes3_dressedAs, withRes2_dressedAs, withRes1_dressedAs, withRes0_dressedAs]

theorem makeRoot_of_runs (h : Runs .ftRoot s t) :
    s.paramsValid = true ∧ ∃ u, makeRoot s = .ok () u ∧ t = endCommand (u.withRes0 1) := by
  obtain ⟨u, hu, rfl⟩ := h.body_ok (by decide)
  have hbody : ftRootBody s = .ok () u := hu
  unfold ftRootBody at hbody
  rw [get_bind, require_bind_eq_ok, bind_eq_ok] at hbody
  obtain ⟨hvalid, _, p, hroot, hrest⟩ := hbody
  cases hrest
  exact ⟨hvalid, p, hroot, rfl⟩

theorem parseNode_of_runs (h : Runs .ftParse s t) : ∃ u, parseNode s = .ok () u ∧ t = endCommand (u.returnParsed s.ft.head) := by
  obtain ⟨u, hu, rfl⟩ := h.body_ok (by decide)
  have hbody : ftParseBody s = .ok () u := hu
  unfold ftParseBody at hbody
  rw [get_bind, require_bind_eq_ok, require_bind_eq_ok, require_bind_eq_ok, bind_eq_ok] at hbody
  obtain ⟨_, _, _, _, p, hparse, hrest⟩ := hbody
  cases hrest
  exact ⟨p, hparse, rfl⟩

theorem render_of_runs (h : Runs .ftRender s t) : ∃ u, render s = .ok () u ∧ t = endCommand u.returnImage := by
  obtain ⟨u, hu, rfl⟩ := h.body_ok (by decide)
  have hbody : ftRenderBody s = .ok () u := hu
  unfold ftRenderBody at hbody
  rw [get_bind, require_bind_eq_ok, require_bind_eq_ok, bind_eq_ok] at hbody
  obtain ⟨_, _, _, p, hrender, hrest⟩ := hbody
  rw [setPhase_bind_setImageResults] at hrest
  cases hrest
  exact ⟨p, hrender, rfl⟩

theorem parseAll_of_empty (h : s.ft.head = s.ft.tail) (n : Nat) : parseAll n s = .ok () s := by
  cases n with
  | zero => rfl
  | succ n =>
    rw [parseAll, get_bind, if_neg (by rw [h]; exact Nat.lt_irrefl _)]
    rfl

theorem parseAll_of_queued {u : State} (h : s.ft.head.toNat < s.ft.tail.toNat) (hparse : parseNode s = .ok () u) :
    parseAll (n + 1) s = parseAll n u := by
  rw [parseAll, get_bind, if_pos h, bind_of_ok hparse]

/-- `FT.PARSE` until the queue is empty, and the loop of `FT.DECODE` with rounds for the nodes that are left. -/
theorem parseAll_of_parsesQueue (hb : s.cfg.Bounds) (htail : s.ft.tail.toNat ≤ s.cfg.nodeCap)
    (hn : s.cfg.nodeCap ≤ s.ft.head.toNat + n) (h : ParsesQueue k s t) :
    parseAll n (s.dressedAs v) = .ok () (t.dressedAs v) := by
  induction k generalizing s n with
  | zero =>
    obtain ⟨rfl, hempty⟩ := h
    have hempty' : (t.dressedAs v).ft.head = (t.dressedAs v).ft.tail := hempty
    exact parseAll_of_empty hempty' n
  | succ k ih =>
    obtain ⟨hqueue, u, hrun, hrest⟩ := h
    obtain ⟨p, hparse, rfl⟩ := parseNode_of_runs hrun
    obtain ⟨n, rfl⟩ : ∃ m, n = m + 1 := ⟨n - 1, by omega⟩
    have hqueue' : (s.dressedAs v).ft.head.toNat < (s.dressedAs v).ft.tail.toNat := hqueue
    obtain ⟨hcfg, hhead, hfits⟩ := (parseNode_queueFits hb).ok ⟨rfl, rfl, htail⟩ hparse
    have hnext := head_succ_toNat hqueue
    rw [parseAll_of_queued hqueue' (parseNode_respects v s () p hparse)]
    have hsame : (endCommand (p.returnParsed s.ft.head)).dressedAs v = p.dressedAs v := by
      rw [endCommand_dressedAs, State.returnParsed, withRes2_dressedAs, withRes1_dressedAs, withRes0_dressedAs]
    have hkept : KeepsAllBut [.status, .res0, .res1, .res2] p (endCommand (p.returnParsed s.ft.head)) :=
      ((returnParsed_writes p s.ft.head).1.mono (by decide)).trans ((keepsAllBut_endCommand _).mono (by decide))
    rw [← hsame]
    have hcfg' := hkept.cfg_eq (by decide)
    have hft' := hkept.ft_eq (by decide)
    generalize endCommand (p.returnParsed s.ft.head) = u at hrest hcfg' hft'
    rw [hcfg] at hcfg'
    refine ih (hcfg' ▸ hb) ?_ ?_ hrest
    · rw [hft', hcfg']; exact hfits
    · rw [hft', hcfg', hhead, hnext]; omega

end Sequence

/-! ### The decode (R302) -/

/-- The parts of a decode of `s`, each run to its end: the header `h`, the root `r`, the parsed tree `p`, the image `q`. -/
structure Decodes (s h r p q : State) (code : Nat) : Prop where
  len : s.operand0 ≤ s.cfg.inCap
  flags : s.operand1 < 2
  dims : s.operand1 = 1 → s.dimsValid = true
  header : readHeader s.operand1 (rdInit s.operand0 (s.withFt { s.ft with phase := .idle })) = .ok code h
  valid : h.paramsValid = true
  root : makeRoot h = .ok () r
  parse : parseAll s.cfg.nodeCap r = .ok () p
  render : Machine.render p = .ok () q

section Decode

variable {s h r p q : State} {code : Nat}

/-- The image with its phase and results (R302). -/
def State.returnDecoded (t : State) : State := t.returnImage.withRes3 t.returnImage.rd.pad

theorem returnDecoded_writes (t : State) : WritesOnly [.res0, .res1, .res2, .res3, .ft] t t.returnDecoded :=
  ((returnImage_writes t).mono (by decide)).trans (.withRes3 (by decide) _ _)

theorem Decodes.body (hd : Decodes s h r p q code) : ftDecodeBody s = .ok () q.returnDecoded := by
  obtain ⟨hlen, hflags, hdims, hheader, hvalid, hroot, hparse, hrender⟩ := hd
  have hphase : setPhase .idle s = .ok () (s.withFt { s.ft with phase := .idle }) := rfl
  unfold ftDecodeBody
  rw [get_bind, require_bind_of_true _ _ _ hlen, require_bind_of_true _ _ _ hflags, require_bind_of_true _ _ _ hdims,
    bind_of_ok hphase, update_bind, bind_of_ok hheader, get_bind, require_bind_of_true _ _ _ hvalid, bind_of_ok hroot,
    bind_of_ok hparse, bind_of_ok hrender]
  rfl

/-- The parts that a decode writes before its render, besides those that parsing the tree does. -/
def decodeParts : List Part := [.status, .rd, .cp, .dr, .ft, .mem .pal, .mem .node, .mem .span]

theorem Decodes.keeps_parsed (hd : Decodes s h r p q code) {l : List Part} (hp : KeepsAllBut l r p) :
    KeepsAllBut (decodeParts ++ l) s p := by
  have hidle := ((WritesOnly.withFt (l := [.ft]) (by decide) s { s.ft with phase := .idle }).1.mono (by decide)).trans
    (((onlyDecoderMoved_rdInit s.operand0 _).keepsAllBut).mono (m := decodeParts) (by decide))
  have hheader := hidle.trans (((readHeader_writes _).ok hd.header).1.mono (by decide))
  have hroot := hheader.trans ((makeRoot_writes.ok hd.root).1.mono (by decide))
  exact (hroot.mono (List.subset_append_left _ _)).trans (hp.mono (List.subset_append_right _ _))

theorem Decodes.keeps (hd : Decodes s h r p q code) {l : List Part} (hp : KeepsAllBut l r p) :
    KeepsAllBut (.mem .pix :: (decodeParts ++ l)) s q :=
  ((hd.keeps_parsed hp).mono (List.subset_cons_self _ _)).trans ((render_writes.ok hd.render).1.mono (by simp))

/-- `FT.DECODE` completes with the image and its results. -/
theorem Decodes.exec (hd : Decodes s h r p q code) :
    ∃ t, exec .ftDecode s = .next t ∧ Completed s t ∧ t.status.pad = q.status.pad ∧
      t.ft = { q.ft with phase := .rendered } ∧ t.res0 = q.cp.width ∧ t.res1 = q.cp.height ∧ t.res2 = q.ft.tail ∧
      t.res3 = q.rd.pad ∧ KeepsAllBut [.status, .res0, .res1, .res2, .res3, .ft] q t := by
  have hbody := hd.body
  have hfault := (ftDecodeBody_movesOnlyPad.ok hbody).fault_eq
  have hwrites := (returnDecoded_writes q).1
  have hft : q.returnDecoded.ft = { q.ft with phase := .rendered } := rfl
  have hres : q.returnDecoded.res0 = q.cp.width ∧ q.returnDecoded.res1 = q.cp.height ∧ q.returnDecoded.res2 = q.ft.tail ∧
    q.returnDecoded.res3 = q.rd.pad := ⟨rfl, rfl, rfl, rfl⟩
  generalize q.returnDecoded = u at hbody hfault hwrites hft hres
  have hstatus : u.status = q.status := hwrites .status (by decide)
  have hend := keepsAllBut_endCommand u
  obtain ⟨hres0, hres1, hres2, hres3⟩ := hres
  exact ⟨endCommand u, runCommand_of_ok (i := .ftDecode) hbody, ⟨rfl, rfl, hfault⟩, (congrArg Status.pad hstatus :),
    (hend.ft_eq (by decide)).trans hft, (hend .res0 (by decide)).trans hres0, (hend .res1 (by decide)).trans hres1,
    (hend .res2 (by decide)).trans hres2, (hend .res3 (by decide)).trans hres3,
    (hwrites.mono (by decide)).trans (hend.mono (by decide))⟩

theorem keepsAllBut_dressedAs (u v : State) :
    KeepsAllBut [.status, .args, .res0, .res1, .res2, .res3] u (u.dressedAs v) := by
  rw [keepsAllBut_iff]
  simp only [List.mem_cons, List.not_mem_nil, reduceCtorEq, false_or, or_false, true_or, or_true, true_and]
  exact ⟨⟨rfl, rfl, rfl⟩, rfl, rfl, rfl, rfl, rfl, rfl, rfl, mem_kept_of_lists rfl rfl rfl rfl rfl rfl rfl, ⟨rfl, rfl, rfl⟩, rfl⟩

theorem keepsAllBut_of_render_end (q : State) :
    KeepsAllBut [.status, .res0, .res1, .res2, .ft] q (endCommand q.returnImage) :=
  ((returnImage_writes q).1.mono (by decide)).trans ((keepsAllBut_endCommand _).mono (by decide))

/-- The sequence of commands, in the dress of the state that it began with, is a decode (R302). -/
theorem decodes_of_sequence {s₁ s₂ s₃ s₄ s₅ : State} {k : Nat} (hb : s.cfg.Bounds)
    (hinit : Runs .rdInit (s.withFt { s.ft with phase := .idle }) s₁) (hread : Runs .cpRead (s₁.withArgs s.arg1 0 0) s₂)
    (hroot : Runs .ftRoot s₂ s₃) (hparses : ParsesQueue k s₃ s₄) (hrender : Runs .ftRender s₄ s₅) :
    ∃ (h r p q : State) (code : Nat), Decodes s h r p (q.dressedAs s) code ∧ s₅ = endCommand q.returnImage := by
  obtain ⟨hlen, hs₁⟩ := rdInit_of_runs hinit
  obtain ⟨hflags, hdims, code, h, hheader, hs₂⟩ := readHeader_of_runs hread
  obtain ⟨hvalid, r, hmake, rfl⟩ := makeRoot_of_runs hroot
  obtain ⟨q, hrendered, hs₅⟩ := render_of_runs hrender
  have hmoved := onlyDecoderMoved_rdInit s.operand0 (s.withFt { s.ft with phase := .idle })
  have hheader' := readHeader_respects _ s _ _ _ hheader
  rw [withArgs_dressedAs, hs₁] at hheader'
  have hroot' := makeRoot_respects s _ _ _ hmake
  rw [hs₂ s] at hroot'
  have hcfg₁ : s₁.cfg = s.cfg := (congrArg State.cfg hs₁ :).trans hmoved.cfg_eq
  have hcfg₂ : s₂.cfg = s.cfg := by
    have hsame : s₂.cfg = h.cfg := (congrArg State.cfg (hs₂ s) :)
    rw [hsame, ((readHeader_writes _).ok hheader).1.cfg_eq (by decide)]
    exact hcfg₁
  have hcp₁ : s₁.cp = s.cp := (congrArg State.cp hs₁ :).trans hmoved.cp_eq
  have hdims' : s.operand1 = 1 → s.dimsValid = true := fun hone => by
    have hd := hdims hone
    rw [State.dimsValid] at hd ⊢
    rwa [show (s₁.withArgs s.arg1 0 0).cfg = s₁.cfg from rfl, show (s₁.withArgs s.arg1 0 0).cp = s₁.cp from rfl, hcfg₁,
      hcp₁] at hd
  have hvalid' : (h.dressedAs s).paramsValid = true := by
    rw [← hs₂ s]
    exact hvalid
  have hkept : KeepsAllBut [.status, .res0] r (endCommand (r.withRes0 1)) :=
    ((WritesOnly.withRes0 (l := [.status, .res0]) (by decide) r 1).1).trans ((keepsAllBut_endCommand _).mono (by decide))
  have hft := hkept.ft_eq (by decide)
  have hcfg₃ : (endCommand (r.withRes0 1)).cfg = s.cfg := by
    rw [hkept.cfg_eq (by decide), (makeRoot_writes.ok hmake).1.cfg_eq (by decide), hcfg₂]
  obtain ⟨hnode, hrft⟩ : 1 ≤ s.cfg.nodeCap ∧ r.ft = ⟨.build, 0, 1, s₂.cp.height⟩ := by
    rcases makeRoot_spec s₂ with ⟨hnode, _, he⟩ | ⟨_, he⟩ | ⟨_, _, he⟩
    · rw [he] at hmake
      cases hmake
      exact ⟨hcfg₂ ▸ hnode, rootState_ft s₂⟩
    · rw [he] at hmake
      cases hmake
    · rw [he] at hmake
      cases hmake
  have hparse := parseAll_of_parsesQueue (v := s) (n := s.cfg.nodeCap) (hcfg₃ ▸ hb)
    (by rw [hft, hrft, hcfg₃]; exact hnode) (by rw [hft, hrft, hcfg₃]; exact Nat.le_add_left _ _) hparses
  rw [endCommand_dressedAs, withRes0_dressedAs] at hparse
  exact ⟨_, _, _, q, code, ⟨hlen, hflags, hdims', hheader', hvalid', hroot', hparse, render_respects s _ _ _ hrendered⟩, hs₅⟩

end Decode

/-- Settles O54: each command of the sequence, in the dress of the state of `FT.DECODE`, is a part of the decode. -/
theorem ftDecodeIsTheSequence : Obligations.FtDecodeIsTheSequence := by
  intro s s₁ s₂ s₃ s₄ s₅ k hb hinit hread hroot hparses hrender
  obtain ⟨h, r, p, q, code, hd, rfl⟩ := decodes_of_sequence hb hinit hread hroot hparses hrender
  have hs := hd.keeps ((parseAll_writes _).ok hd.parse).1
  obtain ⟨t, ht, hdone, hpad, hft, hres0, hres1, hres2, hres3, hkept⟩ := hd.exec
  have hdress := keepsAllBut_dressedAs q s
  have hpad' : (q.dressedAs s).status.pad = q.status.pad := rfl
  have hend := keepsAllBut_of_render_end q
  obtain ⟨hend0, hend1, hend2⟩ := returnImage_results q
  have hendft := returnImage_ft q
  have hendpad : q.returnImage.status.pad = q.status.pad := congrArg Status.pad ((returnImage_writes q).1 .status (by decide))
  have hlast := keepsAllBut_endCommand q.returnImage
  have hlastpad : (endCommand q.returnImage).status.pad = q.returnImage.status.pad := by rw [endCommand_eq]
  generalize endCommand q.returnImage = e at hend hlast hlastpad ⊢
  generalize q.dressedAs s = d at hs hres0 hres1 hres2 hres3 hkept hdress hpad' hpad hft
  have hqt : KeepsAllBut [.status, .args, .res0, .res1, .res2, .res3, .ft] q t :=
    (hdress.mono (by decide)).trans (hkept.mono (by decide))
  refine ⟨t, ht, hdone, ?_, ?_, ?_, ?_, ?_, ?_, ?_, ?_, ?_, ?_, ?_⟩
  · rw [hpad, hpad', hlastpad, hendpad]
  · rw [hqt.rd_eq (by decide), hend.rd_eq (by decide)]
  · rw [hqt.cp_eq (by decide), hend.cp_eq (by decide)]
  · rw [hqt.dr_eq (by decide), hend.dr_eq (by decide)]
  · rw [hft, hdress.ft_eq (by decide), hlast.ft_eq (by decide), hendft]
  · exact fun sp i => (hqt (.mem sp) (by simp) i).trans (hend (.mem sp) (by simp) i).symm
  · rw [hres0, hdress.cp_eq (by decide), ← hend0]
    exact (hlast .res0 (by decide)).symm
  · rw [hres1, hdress.cp_eq (by decide), ← hend1]
    exact (hlast .res1 (by decide)).symm
  · rw [hres2, hdress.ft_eq (by decide), ← hend2]
    exact (hlast .res2 (by decide)).symm
  · rw [hres3, hdress.rd_eq (by decide), hend.rd_eq (by decide)]
  · have hst : KeepsAllBut (.mem .pix :: (decodeParts ++ parseParts) ++ [.res0, .res1, .res2, .res3]) s t :=
      (hs.mono (by decide)).trans (hkept.mono (by decide))
    exact ⟨hst .re (by decide), hst .rp (by decide), hst .args (by decide), hst .cmdSeq (by decide),
      hst .faultRegs (by decide), hst .hostSide (by decide)⟩

end Sys2Proof.Machine
end

section
/-! PROOFS. `FT.DECODE` of a stream that holds an image header and a single Fill leaf (47_fragment_tree.md R302,
30_encoding.md R120). -/

namespace Sys2Proof.Machine

/-! ### What the seed and the header do not look at (R141, R231) -/

section Blind

variable {s u : State}

theorem decoderBlind_withFt (ft : FtRegs) : DecoderBlind (fun s => s.withFt ft) :=
  ⟨fun _ => rfl, fun _ => rfl, fun _ => rfl, fun _ _ _ => rfl⟩

theorem decoderBlind_withArgs (a b c : Word) : DecoderBlind (fun s => s.withArgs a b c) :=
  ⟨fun _ => rfl, fun _ => rfl, fun _ => rfl, fun _ _ _ => rfl⟩

/-- `t` with the decoder, the input and `PAD` of `s`. -/
def State.onto (t s : State) : State := { t with rd := s.rd, inMem := s.inMem, status := { t.status with pad := s.status.pad } }

theorem decoderBlind_onto (t : State) : DecoderBlind (fun s => t.onto s) :=
  ⟨fun _ => rfl, fun _ => rfl, fun _ => rfl, fun _ _ _ => rfl⟩

/-- Symbols are read alike from any state with the same decoder, input and `PAD`. -/
theorem ReadsSymbols.onto {t : State} {l : List (Nat × Nat)} (h : ReadsSymbols l s u) (hrd : t.rd = s.rd)
    (hin : t.inMem = s.inMem) (hpad : t.status.pad = s.status.pad) : ReadsSymbols l t (t.onto u) := by
  have hsame : t.onto s = t := by rw [State.onto, ← hrd, ← hin, ← hpad]
  have hmap : ReadsSymbols l (t.onto s) (t.onto u) := h.map (decoderBlind_onto t)
  rwa [hsame] at hmap

theorem rdByte_withFt (s : State) (ft : FtRegs) : rdByte (s.withFt ft) = ((rdByte s).1, (rdByte s).2.withFt ft) := by
  have hrd : (s.withFt ft).rd = s.rd := rfl
  unfold rdByte
  rw [hrd]
  split <;> rfl

theorem rdSeed_withFt (n : Nat) (c : Window) (s : State) (ft : FtRegs) :
    rdSeed n c (s.withFt ft) = ((rdSeed n c s).1, (rdSeed n c s).2.withFt ft) := by
  induction n generalizing c s with
  | zero => rfl
  | succ n ih => rw [rdSeed, rdByte_withFt, ih]; rfl

/-- The seed does not look at the tree's registers. -/
theorem rdInit_withFt (len : Nat) (s : State) (ft : FtRegs) : rdInit len (s.withFt ft) = (rdInit len s).withFt ft := by
  have hrestart : rdRestart len (s.withFt ft) = (rdRestart len s).withFt ft := rfl
  unfold rdInit
  rw [hrestart, rdSeed_withFt]
  generalize rdSeed seedBytes 0 (rdRestart len s) = r
  rfl

end Blind

theorem KeepsAllBut.palEntry_eq {l : List Part} {s t : State} (h : KeepsAllBut l s t) (hl : .mem .pal ∉ l) :
    t.palEntry = s.palEntry :=
  funext fun i => BusData.colour.inj (h (.mem .pal) hl i)

/-! ### The header (R231) -/

/-- What a header with sizes leaves in the bank and in `PAL`. -/
def State.headed (s : State) (w h code : Nat) (colours : List (Nat × Nat × Nat)) : State :=
  (s.withDims w h).withHeader code colours

section Header

variable {s u : State} {w h code : Nat} {colours : List (Nat × Nat × Nat)}

/-- The bank of a header with sizes. -/
def headerBank (c : Config) (w h code : Nat) (colours : List (Nat × Nat × Nat)) : CpRegs :=
  let d := deriveFor c.derive code w h
  ⟨BitVec.ofNat 64 w, BitVec.ofNat 64 h, BitVec.ofNat 64 code, d.lineLimit, d.lineQuant, d.qr, d.qg, d.qb,
    BitVec.ofNat 64 colours.length, d.levelScale, d.angleBits⟩

theorem headed_cp (hw : w < 2 ^ 64) (hh : h < 2 ^ 64) : (u.headed w h code colours).cp = headerBank u.cfg w h code colours := by
  rw [State.headed, withDims_withHeader_cp, zext64_toNat hw, zext64_toNat hh]
  rfl

theorem headed_inMem : (u.headed w h code colours).inMem = u.inMem := by
  have hcolours : ∀ t : State, (t.withColours 0 colours).inMem = t.inMem := fun _ => rfl
  rw [State.headed, State.withHeader, State.withPalette, withCp_inMem, hcolours, setCode, withCp_inMem, State.withDims,
    withCp_inMem]

theorem rootState_inMem (s : State) : (rootState s).inMem = s.inMem := by
  rw [rootState, withFt_inMem, withDr_inMem, putNode_inMem, withSpanMem_inMem]

theorem headed_palEntry (k : Nat) :
    (u.headed w h code colours).palEntry k = (colours[k]?.map opaqueColour).getD (u.palEntry k) :=
  withDims_withHeader_palEntry u w h code colours k

/-- A header with sizes is read whatever the operands are. -/
theorem readHeader_zero_of_reads (hw : 8 ≤ w) (hwmax : w ≤ s.cfg.dimMax) (hh : 8 ≤ h) (hhmax : h ≤ s.cfg.dimMax)
    (hreads : ReadsSymbols (headerSymbols s.cfg (some (w, h)) code colours) s u) :
    readHeader 0 s = .ok code (u.headed w h code colours) := by
  have hsizes : HeaderSizes (s.withArgs 0 0 0) (some (w, h)) w h := .inl ⟨rfl, rfl, hw, hwmax, hh, hhmax⟩
  have hmap : ReadsSymbols (headerSymbols (s.withArgs 0 0 0).cfg (some (w, h)) code colours) (s.withArgs 0 0 0)
      (u.withArgs 0 0 0) := hreads.map (decoderBlind_withArgs 0 0 0)
  have hread := readHeader_respects _ s _ _ _ (readHeader_of_reads hsizes hmap)
  have hsame : (s.withArgs 0 0 0).dressedAs s = s := rfl
  have hresult : (((u.withArgs 0 0 0).withDims w h).withHeader code colours).dressedAs s = u.headed w h code colours := by
    have hmoved := hreads.onlyDecoderMoved
    rw [hmoved]
    rfl
  rw [hsame, hresult] at hread
  exact hread

theorem colours_length_le (hb : s.cfg.Bounds) (hw : 8 ≤ w) (hwmax : w ≤ s.cfg.dimMax) (hh : 8 ≤ h) (hhmax : h ≤ s.cfg.dimMax)
    (hreads : ReadsSymbols (headerSymbols s.cfg (some (w, h)) code colours) s u) : colours.length ≤ s.cfg.paletteMax := by
  have hsizes : HeaderSizes (s.withArgs 0 0 0) (some (w, h)) w h := .inl ⟨rfl, rfl, hw, hwmax, hh, hhmax⟩
  have hmap : ReadsSymbols (headerSymbols (s.withArgs 0 0 0).cfg (some (w, h)) code colours) (s.withArgs 0 0 0)
      (u.withArgs 0 0 0) := hreads.map (decoderBlind_withArgs 0 0 0)
  exact (header_bounds (s := s.withArgs 0 0 0) hb hsizes hmap).2

/-- A leaf's symbols of a stream with its own bank stand for the colour that the bank and the palette give (R284). -/
theorem colourSymbols_of_leaf {symbols : List (Nat × Nat)} {c : Colour} {t : State} {cfg : Config}
    (hcp : t.cp = headerBank cfg w h code colours) (hlength : colours.length < 2 ^ 64)
    (hpal : ∀ k, t.palEntry k = (colours[k]?.map opaqueColour).getD (u.palEntry k))
    (hleaf : LeafSymbols (deriveFor cfg.derive code w h) colours symbols c) : ColourSymbols t symbols c := by
  have hsize : t.cp.palSize.toNat = colours.length := by
    rw [hcp]
    exact zext64_toNat hlength
  unfold LeafSymbols at hleaf
  unfold ColourSymbols
  rw [hsize]
  by_cases hempty : colours = []
  · rw [if_pos hempty] at hleaf
    rw [if_neg (by rw [hempty]; exact Nat.lt_irrefl 0), hcp]
    exact hleaf
  · rw [if_neg hempty] at hleaf
    rw [if_pos (List.length_pos_iff.mpr hempty)]
    obtain ⟨k, q, hk, rfl, rfl⟩ := hleaf
    refine ⟨k, rfl, ?_⟩
    rw [hpal, hk]
    rfl

end Header

/-! ### The tree of one leaf (R286, R300) -/

section Leaf

variable {s r p : State} {w h n : Nat} {c : Colour} {top : Word}

theorem parseAll_of_leaf (hr : r.ft = ⟨.build, 0, 1, top⟩) (hn : 1 ≤ n) (hparse : parseNode r = .ok () p)
    (hp : p.ft.head = p.ft.tail) : parseAll n r = .ok () p := by
  obtain ⟨m, rfl⟩ : ∃ m, n = m + 1 := ⟨n - 1, by omega⟩
  rw [parseAll_of_queued (by rw [hr]; exact (by decide : (0 : Word).toNat < (1 : Word).toNat)) hparse]
  exact parseAll_of_empty hp m

/-- A tree of one Fill leaf over the whole image. -/
structure State.OneLeaf (p : State) (w h : Nat) (c : Colour) : Prop where
  width : p.cp.width.toNat = w
  tail : p.ft.tail = 1
  kind : (p.nodeRec 0).kind = .fill
  colour : (p.nodeRec 0).colour = c
  region : p.regionOf 0 = rootSpans w h 0

theorem State.OneLeaf.fillCovers_iff (hp : p.OneLeaf w h c) {m x y : Nat} : p.fillCovers m x y ↔ m = 0 ∧ x < w ∧ y < h := by
  have htail : p.ft.tail.toNat = 1 := by rw [hp.tail]; rfl
  rw [State.fillCovers, htail, Nat.lt_one_iff]
  constructor
  · rintro ⟨rfl, _, hc⟩
    rw [hp.region, covers_rootSpans] at hc
    exact ⟨rfl, hc⟩
  · rintro ⟨rfl, hc⟩
    rw [hp.region, covers_rootSpans]
    exact ⟨rfl, hp.kind, hc⟩

theorem State.OneLeaf.fillsFit (hp : p.OneLeaf w h c) : p.FillsFit 0 p.ft.tail.toNat := by
  intro m _ hm _ q hq
  rw [hp.tail] at hm
  obtain rfl : m = 0 := Nat.lt_one_iff.mp hm
  rw [hp.region] at hq
  rw [hp.width, (mem_rootSpans.mp hq).2.1]

/-- The render of one leaf: every pixel of the image, and no other byte. -/
theorem State.OneLeaf.render (hp : p.OneLeaf w h c) (hw : 1 ≤ w) :
    (∀ x y j, x < w → y < h → j < 4 →
      (renderFrom p.ft.tail.toNat 0 p).pixByte (4 * (y * w + x) + j) = c.channel j) ∧
    ∀ i, 4 * w * h ≤ i → (renderFrom p.ft.tail.toNat 0 p).pixByte i = p.pixByte i := by
  have hw' : 1 ≤ p.cp.width.toNat := hp.width.symm ▸ hw
  refine ⟨fun x y j hx hy hj => ?_, fun i hi => render_byte_of_none hw' hp.fillsFit fun m hm => ?_⟩
  · have hpixel := render_pixel hw' hp.fillsFit (hp.fillCovers_iff.mpr ⟨rfl, hx, hy⟩)
      (fun m hm hc => hm.ne (hp.fillCovers_iff.mp hc).1.symm) hj
    rwa [hp.width, hp.colour] at hpixel
  · obtain ⟨_, _, hrow⟩ := hp.fillCovers_iff.mp hm
    rw [hp.width, Nat.div_div_eq_div_mul, Nat.div_lt_iff_lt_mul (by omega), Nat.mul_comm h] at hrow
    omega

/-- The root with its node filled is a tree of one leaf. -/
theorem oneLeaf_of_fill {v : State} (hv : OnlyDecoderMoved (rootState s) v) (hw : s.cp.width.toNat = w)
    (hh : s.cp.height.toNat = h) : (v.fillNode 0 c).advanceHead.OneLeaf w h c := by
  obtain ⟨_, hrecs⟩ := rootState_spec s
  have hregion := rootState_regionOf s
  have hft := rootState_ft s
  have hcp : (rootState s).cp = s.cp := (rootState_writes s).1.cp_eq (by decide)
  rw [← hv.regionOf_eq, hw, hh] at hregion
  rw [← hv.cp_eq] at hcp
  rw [← hv.ft_eq] at hft
  have hrec := fillNode_advanceHead_nodeRec v 0 c
  have hkept := fillNode_advanceHead_keeps v 0 c
  have htail : (v.fillNode 0 c).advanceHead.ft.tail = v.ft.tail := rfl
  generalize (v.fillNode 0 c).advanceHead = t at hrec hkept htail ⊢
  have hrec0 := hrec 0
  rw [if_pos rfl] at hrec0
  constructor
  case width => rw [hkept.cp_eq (by decide), hcp, hw]
  case tail => rw [htail, hft]
  case kind => rw [hrec0]
  case colour => rw [hrec0]
  case region =>
    rw [← hregion]
    exact regionOf_congr (by rw [hrec0]) (by rw [hrec0]) fun _ _ _ => by rw [hkept.spanRec_eq (by decide)]

end Leaf

/-! ### The decode (R302) -/

section Decode

variable {s u : State} {w h code : Nat} {colours : List (Nat × Nat × Nat)} {symbols : List (Nat × Nat)} {c : Colour}

/-- What the decode of one leaf leaves before its render. -/
structure LeafParsed (s u r p : State) (w h code : Nat) (colours : List (Nat × Nat × Nat)) (c : Colour) : Prop where
  leaf : p.OneLeaf w h c
  kept : KeepsAllBut [.status, .rd, .ft, .mem .node] r p
  cp : p.cp = headerBank s.cfg w h code colours
  rd : p.rd = u.rd
  pad : p.status.pad = u.status.pad
  ft : p.ft = ⟨.build, 1, 1, BitVec.ofNat 64 h⟩

/-- The root and the leaf's symbols after a header. -/
theorem leafParsed_of_reads {t v y : State} (hcfg : t.cfg = s.cfg) (hcp : t.cp = headerBank s.cfg w h code colours)
    (hw : w < 2 ^ 64) (hh : h < 2 ^ 64) (hlength : colours.length < 2 ^ 64)
    (hpal : ∀ k, t.palEntry k = (colours[k]?.map opaqueColour).getD (v.palEntry k))
    (hrd : t.rd = v.rd) (hin : t.inMem = v.inMem) (hpad : t.status.pad = v.status.pad)
    (hleaf : LeafSymbols (deriveFor s.cfg.derive code w h) colours symbols c)
    (hreads : ReadsSymbols ((2, s.cfg.nodeFill) :: symbols) v y) (hyrd : y.rd = u.rd) (hypad : y.status.pad = u.status.pad) :
    ∃ p, parseNode (rootState t) = .ok () p ∧ LeafParsed s u (rootState t) p w h code colours c := by
  have hkept := (rootState_writes t).1
  have hwidth : t.cp.width.toNat = w := by rw [hcp]; exact zext64_toNat hw
  have hheight : t.cp.height.toNat = h := by rw [hcp]; exact zext64_toNat hh
  have hrin : (rootState t).inMem = v.inMem := (rootState_inMem t).trans hin
  have hft := rootState_ft t
  have hread : ReadsSymbols ((2, (rootState t).cfg.nodeFill) :: symbols) (rootState t) ((rootState t).onto y) := by
    rw [hkept.cfg_eq (by decide), hcfg]
    refine hreads.onto ((hkept.rd_eq (by decide)).trans hrd) hrin ?_
    rw [show (rootState t).status = t.status from hkept .status (by decide), hpad]
  have hcolour : ColourSymbols (rootState t) symbols c := by
    refine colourSymbols_of_leaf (u := v) ((hkept.cp_eq (by decide)).trans hcp) hlength (fun k => ?_) hleaf
    rw [hkept.palEntry_eq (by decide)]
    exact hpal k
  have hparse := parseNode_of_fill hcolour hread
  have hmoved := hread.onlyDecoderMoved
  have hone := oneLeaf_of_fill (c := c) hmoved hwidth hheight
  have hzrd : ((rootState t).onto y).rd = y.rd := rfl
  have hzpad : ((rootState t).onto y).status.pad = y.status.pad := rfl
  have hrcp := hkept.cp_eq (by decide)
  rw [hft, show (0 : Word).toNat = 0 from rfl] at hparse
  generalize rootState t = r at hft hmoved hzrd hzpad hparse hone hrcp ⊢
  generalize r.onto y = z at hmoved hzrd hzpad hparse hone
  have hend := fillNode_advanceHead_keeps z 0 c
  have hendft : (z.fillNode 0 c).advanceHead.ft = { z.ft with head := z.ft.head + 1 } := rfl
  generalize (z.fillNode 0 c).advanceHead = p at hparse hone hend hendft
  have hheight' : t.cp.height = BitVec.ofNat 64 h := by rw [hcp]; rfl
  refine ⟨p, hparse, hone, (hmoved.keepsAllBut.mono (by decide)).trans (hend.mono (by decide)), ?_, ?_, ?_, ?_⟩
  · rw [hend.cp_eq (by decide), hmoved.cp_eq, hrcp, hcp]
  · rw [hend.rd_eq (by decide), hzrd, hyrd]
  · rw [show p.status = z.status from hend .status (by decide), hzpad, hypad]
  · rw [hendft, hmoved.ft_eq, hft, hheight']
    rfl

/-- The header, the root, the leaf and the render of a stream with one leaf. -/
theorem decodes_of_leaf (hb : s.cfg.Bounds) (hlen : s.arg0.toNat ≤ s.cfg.inCap) (hflags : s.arg1 = 0) (hw : 8 ≤ w)
    (hwmax : w ≤ s.cfg.dimMax) (hh : 8 ≤ h) (hhmax : h ≤ s.cfg.dimMax)
    (hvalid : (headerBank s.cfg w h code colours).valid s.cfg = true) (hnode : 1 ≤ s.cfg.nodeCap) (hspan : h ≤ s.cfg.spanCap)
    (hpix : 4 * w * h ≤ s.cfg.pixCap) (hleaf : LeafSymbols (deriveFor s.cfg.derive code w h) colours symbols c)
    (hreads : ReadsSymbols (headerSymbols s.cfg (some (w, h)) code colours ++ (2, s.cfg.nodeFill) :: symbols)
      (rdInit s.arg0.toNat s) u) :
    ∃ t r p, Decodes s t r p (renderFrom p.ft.tail.toNat 0 p) code ∧ LeafParsed s u r p w h code colours c := by
  obtain ⟨_, _, hpalette, _, _, _, _, _, _, _, _, _, _, hdim, _⟩ := id hb
  have hmap : ReadsSymbols (headerSymbols s.cfg (some (w, h)) code colours ++ (2, s.cfg.nodeFill) :: symbols)
      (rdInit s.arg0.toNat (s.withFt { s.ft with phase := .idle })) (u.withFt { s.ft with phase := .idle }) := by
    rw [rdInit_withFt]
    exact hreads.map (decoderBlind_withFt _)
  have hmoved := onlyDecoderMoved_rdInit s.arg0.toNat (s.withFt { s.ft with phase := .idle })
  have hcfg : (rdInit s.arg0.toNat (s.withFt { s.ft with phase := .idle })).cfg = s.cfg := hmoved.cfg_eq
  have hdecode : ∀ t r p q : State, readHeader 0 (rdInit s.arg0.toNat (s.withFt { s.ft with phase := .idle })) = .ok code t →
      t.paramsValid = true → makeRoot t = .ok () r → parseAll s.cfg.nodeCap r = .ok () p → render p = .ok () q →
      Decodes s t r p q code := fun t r p q hheader hv hr hp hq =>
    ⟨hlen, by rw [State.operand1, hflags]; decide, fun hone => absurd hone (by rw [State.operand1, hflags]; decide),
      by rw [State.operand1, hflags]; exact hheader, hv, hr, hp, hq⟩
  generalize rdInit s.arg0.toNat (s.withFt { s.ft with phase := .idle }) = x at hmap hcfg hdecode
  obtain ⟨v, hheader, hread⟩ := readsSymbols_append.mp hmap
  rw [← hcfg] at hheader
  have hlength := colours_length_le (hcfg ▸ hb) hw (hcfg ▸ hwmax) hh (hcfg ▸ hhmax) hheader
  have hrun := readHeader_zero_of_reads hw (hcfg ▸ hwmax) hh (hcfg ▸ hhmax) hheader
  have hvcfg : v.cfg = s.cfg := hheader.onlyDecoderMoved.cfg_eq.trans hcfg
  rw [hcfg] at hlength
  have htcfg : (v.headed w h code colours).cfg = s.cfg := (withDims_withHeader_cfg v w h code colours).trans hvcfg
  have htcp : (v.headed w h code colours).cp = headerBank s.cfg w h code colours := by
    rw [headed_cp (by omega) (by omega), hvcfg]
  have htpal := headed_palEntry (u := v) (w := w) (h := h) (code := code) (colours := colours)
  have htrd : (v.headed w h code colours).rd = v.rd := withDims_withHeader_rd v w h code colours
  have htpad : (v.headed w h code colours).status.pad = v.status.pad :=
    congrArg Status.pad (withDims_withHeader_status v w h code colours)
  have htin : (v.headed w h code colours).inMem = v.inMem := headed_inMem
  generalize v.headed w h code colours = t at hrun htcfg htcp htpal htrd htpad htin
  have htvalid : t.paramsValid = true := by rw [State.paramsValid, htcfg, htcp]; exact hvalid
  have hheight : t.cp.height.toNat = h := by rw [htcp]; exact zext64_toNat (by omega)
  obtain ⟨p, hparse, hp⟩ := leafParsed_of_reads (u := u) htcfg htcp (by omega) (by omega) (by omega) htpal htrd htin htpad hleaf
    hread rfl rfl
  have hroot := makeRoot_of_room (s := t) (htcfg ▸ hnode) (by rw [hheight, htcfg]; exact hspan)
  have hrcfg : (rootState t).cfg = s.cfg := ((rootState_writes t).1.cfg_eq (by decide)).trans htcfg
  have hparsed := parseAll_of_leaf (rootState_ft t) hnode hparse (by rw [hp.ft])
  generalize rootState t = r at hp hroot hrcfg hparsed
  have hpcfg : p.cfg = s.cfg := (hp.kept.cfg_eq (by decide)).trans hrcfg
  have hpheight : p.cp.height.toNat = h := by rw [hp.cp]; exact zext64_toNat (by omega)
  have hrender := render_of_room (s := p) (by rw [hp.leaf.width, hpheight, hpcfg]; exact hpix)
  exact ⟨t, r, p, hdecode t r p _ hrun htvalid hroot hparsed hrender, hp⟩

end Decode

/-! ### The checks (R302) -/

theorem ftDecodeBody_value {s : State} (h : s.cfg.inCap < s.operand0 ∨ 2 ≤ s.operand1) :
    ftDecodeBody s = .error .argValue s := by
  unfold ftDecodeBody
  rw [get_bind]
  by_cases hlen : s.operand0 ≤ s.cfg.inCap
  · have hflags := h.resolve_left (Nat.not_lt.mpr hlen)
    rw [require_bind_of_true _ _ _ hlen, require_bind_of_false _ _ _ (Nat.not_lt.mpr hflags)]
  · rw [require_bind_of_false _ _ _ hlen]

theorem ftDecodeBody_bank {s : State} (hlen : s.operand0 ≤ s.cfg.inCap) (hflags : s.arg1 = 1) (hdims : s.dimsValid = false) :
    ftDecodeBody s = .error .argBank s := by
  have hone : s.operand1 = 1 := by rw [State.operand1, hflags]; rfl
  unfold ftDecodeBody
  rw [get_bind, require_bind_of_true _ _ _ hlen, require_bind_of_true _ _ _ (by rw [hone]; decide),
    require_bind_of_false _ _ _ fun hd => Bool.eq_false_iff.mp hdims (hd hone)]

/-- Settles O55: the decode by `decodes_of_leaf`, its pixels by `State.OneLeaf.render`, the checks in their order. -/
theorem ftDecodeOneLeaf : Obligations.FtDecodeOneLeaf := by
  refine ⟨?_, fun s hf => ⟨fun h => trapsCleanly_of_error (i := .ftDecode) hf (ftDecodeBody_value h),
    fun hlen hflags hdims => trapsCleanly_of_error (i := .ftDecode) hf (ftDecodeBody_bank hlen hflags hdims)⟩⟩
  intro s u w h code colours symbols c d bank hb hlen hflags hw hwmax hh hhmax hvalid hnode hspan hpix hleaf hreads
  have hbank : bank = headerBank s.cfg w h code colours := rfl
  obtain ⟨_, _, _, _, _, _, _, _, _, _, _, _, _, hdim, _⟩ := id hb
  obtain ⟨x, r, p, hd, hp⟩ := decodes_of_leaf hb hlen hflags hw hwmax hh hhmax hvalid hnode hspan hpix hleaf hreads
  have hs := hd.keeps hp.kept
  obtain ⟨t, ht, hdone, hpad, hft, hres0, hres1, hres2, hres3, hkept⟩ := hd.exec
  obtain ⟨hpixels, hothers⟩ := hp.leaf.render (by omega)
  have hpix' := onlyPixels_renderFrom p.ft.tail.toNat 0 p
  generalize renderFrom p.ft.tail.toNat 0 p = q at hs hpad hft hres0 hres1 hres2 hres3 hkept hpixels hothers hpix'
  have hpq := hpix'.keepsAllBut
  have hpt : KeepsAllBut [.status, .res0, .res1, .res2, .res3, .ft, .mem .pix] p t :=
    (hpq.mono (by decide)).trans (hkept.mono (by decide))
  have hqcp : q.cp = bank := hpix'.cp_eq.trans (hp.cp.trans hbank.symm)
  have hqft : q.ft = ⟨.build, 1, 1, BitVec.ofNat 64 h⟩ := (hpq.ft_eq (by decide)).trans hp.ft
  have hpixByte : t.pixByte = q.pixByte := hkept.pixByte_eq (by decide)
  have hfirst : p.pixByte = s.pixByte := (hd.keeps_parsed hp.kept).pixByte_eq (by decide)
  refine ⟨t, ht, hdone, ?_, (hpt.rd_eq (by decide)).trans hp.rd, ?_, ?_, fun x y hx hy => ?_, fun i hi => ?_, ?_, ?_, ?_, ?_,
    ?_⟩
  · rw [hpad, show q.status = p.status from hpq .status (by decide), hp.pad]
  · rw [hkept.cp_eq (by decide), hqcp]
  · rw [hft, hqft]
  · rw [hpixByte]
    exact ⟨hpixels x y 0 hx hy (by decide), hpixels x y 1 hx hy (by decide), hpixels x y 2 hx hy (by decide),
      hpixels x y 3 hx hy (by decide)⟩
  · rw [hpixByte, hothers i hi, hfirst]
  · rw [hres0, hqcp]
    exact zext64_toNat (by omega)
  · rw [hres1, hqcp]
    exact zext64_toNat (by omega)
  · rw [hres2, hqft]
  · rw [hres3, hpq.rd_eq (by decide), hp.rd]
  · exact (hs.mono (by decide)).trans (hkept.mono (by decide))

end Sys2Proof.Machine
end

section
/-! PROOFS. The fault state (60_exceptions.md R340 to R343) and the return from it (48_system.md R320): what entering it writes,
what the host can still do in it, and that `SYS.RESET` alone leaves it. -/

namespace Sys2Proof.Machine

/-! ### Entering the fault state (R340, R341) -/

@[simp] theorem raiseFault_status (c : Cause) (cmd : Word) (s : State) : (raiseFault c cmd s).status = s.status.failed := by
  rw [raiseFault_eq]
  rfl

/-- The first cause is the one kept (10_state.md R27). -/
theorem faultRegs_kept_raiseFault {s : State} (hf : s.status.fault = true) (c : Cause) (cmd : Word) :
    Part.faultRegs.kept s (raiseFault c cmd s) := by
  rw [raiseFault_eq, hf]
  exact ⟨rfl, rfl, rfl⟩

/-- Settles O13: clause by clause, what `raiseFault` answers for each part of the state. -/
theorem faultEntryWrites : Obligations.FaultEntryWrites := fun c cmd s =>
  ⟨raiseFault_status c _ s, keepsAllBut_raiseFault c _ s, fun hf => faultedWith_raiseFault hf c cmd,
    fun hf => faultRegs_kept_raiseFault hf c _⟩

/-- A host write of a number of the bank, while no command executes, is a write of the bank. -/
theorem step_writeBank {s : State} {n : Nat} (v : Word) {rest : List HostAction} (hp : s.pending = .writeReg n v :: rest)
    (hb : s.status.busy = false) (hn : isBankNumber n = true) :
    ∃ b, step s = .next (writeBank b (s.withPending rest)) := by
  have hrange := (isBankNumber_iff n).mp hn
  obtain ⟨b, hwrite, _⟩ := s.cp.write?_of_bankNumber v hn
  refine ⟨b, ?_⟩
  rw [step_writeReg hp hb (by omega)]
  rcases writeDataReg_cases n v (s.withPending rest) with ⟨h8, _⟩ | ⟨h9, _⟩ | ⟨ha, _⟩ | ⟨_, _, _, b', hb', he⟩ |
      ⟨_, _, _, hnone, _⟩
  · omega
  · omega
  · omega
  · cases hwrite.symm.trans hb'
    exact congrArg _ he
  · cases hwrite.symm.trans hnone

/-- Settles O6: under the lock a write of the bank is the fault entry, or, in the fault state, nothing. -/
theorem lockedBankWriteFaults : Obligations.LockedBankWriteFaults := by
  intro s n v rest hp hb hn hphase
  obtain ⟨b, hstep⟩ := step_writeBank v hp hb hn
  rw [hstep]
  rcases writeBank_cases b (s.withPending rest) with ⟨hfree, _⟩ | ⟨_, hf', he⟩ | ⟨_, hf', he⟩
  · exact absurd hphase hfree
  · exact ⟨fun hf => absurd (hf.symm.trans hf') nofun, fun _ => congrArg _ he⟩
  · exact ⟨fun _ => ⟨_, congrArg _ he, faultedWith_raiseFault (cmd := 0) hf' _, raiseFault_pad _ _ _,
      keepsAllBut_raiseFault _ _ _⟩, fun hf => absurd (hf.symm.trans hf') nofun⟩

/-! ### What the host can do in the fault state (R342) -/

/-- In the fault state the block owns no memory (R342; log 13). -/
theorem owned_of_fault {s : State} (hf : s.status.fault = true) (sp : Space) : s.owned sp = false := by
  have htree : s.treeOwned = false := by rw [State.treeOwned, hf, Bool.not_true, Bool.and_false]
  cases sp with
  | node => exact htree
  | span => exact htree
  | _ => rfl

/-- A host write of an operand register, or of the unlocked bank, takes effect whatever `STATUS` is, and leaves it. -/
theorem step_writeReg_accepted {s : State} {n : Nat} {v : Word} {rest : List HostAction}
    (hp : s.pending = .writeReg n v :: rest) (hb : s.status.busy = false)
    (hn : isArgNumber n = true ∨ isBankNumber n = true ∧ s.ft.phase ≠ .build) :
    ∃ t, step s = .next t ∧ t.readReg n = v ∧ t.status = s.status := by
  have harg : isArgNumber n = true → 0x08 ≤ n ∧ n ≤ 0x0A := of_decide_eq_true
  have hbank := (isBankNumber_iff n).mp
  have hzero : n ≠ 0x00 := by
    rcases hn with h | ⟨h, _⟩
    · have := harg h; omega
    · have := hbank h; omega
  have hlock : isBankNumber n = true → s.ft.phase ≠ .build := by
    rcases hn with h | ⟨_, h⟩
    · intro h'
      have := harg h
      have := hbank h'
      omega
    · exact fun _ => h
  have hwritable : (isArgNumber n || isBankNumber n) = true := by
    rw [Bool.or_eq_true]
    exact hn.imp_right And.left
  obtain ⟨t, hstep, _, hreads, hkept, _⟩ := registerAccessRights.1 s n v rest hp hb hzero hlock
  exact ⟨t, hstep, (hreads n).trans (if_pos ⟨rfl, hwritable⟩), hkept .status (by decide)⟩

/-- Settles O5: one lemma of the step for each kind of host action; the words by `step_writeCmd`, whose refusal needs only the
fault state. -/
theorem faultStateRefusesCommands : Obligations.FaultStateRefusesCommands := by
  intro s a rest hp hb hf
  refine ⟨?_, ?_, ?_, ?_, ?_⟩
  · rintro w rfl hw
    rw [step_writeCmd hp hb, if_pos ⟨hf, hw⟩]
  · rintro n rfl
    exact step_readReg hp hb
  · rintro sp i rfl hi
    rw [step_of_not_busy hp hb]
    exact if_pos hi
  · rintro n v rfl hn
    exact step_writeReg_accepted hp hb hn
  · intro sp i d ha hi
    refine ⟨_, by rw [step_of_stores hp hb ha, owned_of_fault hf, if_neg Bool.false_ne_true, if_pos hi], ?_, ?_⟩
    · rw [storeIn_readElement ha, if_pos rfl]
    · exact (storeIn_writes ha (s.withPending rest)).1 .status (by simp)

/-! ### Leaving the fault state (R343) -/

/-- A write of a register other than `CMD` leaves the fault state as it is: under the lock it is dropped. -/
theorem writeDataReg_fault {s : State} (hf : s.status.fault = true) (n : Nat) (v : Word) :
    (writeDataReg n v s).status.fault = true := by
  rcases writeDataReg_cases n v s with ⟨_, he⟩ | ⟨_, he⟩ | ⟨_, he⟩ | ⟨_, _, _, b, _, he⟩ | ⟨_, _, _, _, he⟩
  · rw [he]; exact hf
  · rw [he]; exact hf
  · rw [he]; exact hf
  · rw [he]
    rcases writeBank_cases b s with ⟨_, hb⟩ | ⟨_, _, hb⟩ | ⟨_, hf', _⟩
    · rw [hb]; exact hf
    · rw [hb]; exact hf
    · exact absurd (hf.symm.trans hf') nofun
  · rw [he]; exact hf

/-- A word issued in the fault state leaves it exactly where it is `SYS.RESET`'s. -/
theorem issueCommand_leavesFault {w : Word} {s t : State} (hf : s.status.fault = true) (h : issueCommand w s = .next t)
    (ht : t.status.fault = false) : w = 0x01 := by
  rcases issueCommand_cases h with ⟨_, _, rfl⟩ | ⟨hw, _⟩ | ⟨_, hf', _⟩ | ⟨_, hf', _⟩
  · exact absurd (hf.symm.trans ht) nofun
  · exact hw
  · exact absurd (hf.symm.trans hf') nofun
  · exact absurd (hf.symm.trans hf') nofun

/-- A host action of an idle block that leaves the fault state is a write of `SYS.RESET`'s word. -/
theorem idleAction_leavesFault {a : HostAction} {s t : State} (hf : s.status.fault = true) (h : idleAction a s = .next t)
    (ht : t.status.fault = false) : a = .writeReg 0x00 0x01 := by
  have hstay : t.status.fault ≠ true := Bool.eq_false_iff.mp ht
  rcases idleAction_cases h with ⟨_, d, rfl⟩ | ⟨w, rfl, hi⟩ | ⟨n, v, _, _, rfl⟩ | ⟨sp, i, d, hst, _, _, rfl⟩
  · exact absurd hf hstay
  · rw [issueCommand_leavesFault hf hi ht]
  · exact absurd (writeDataReg_fault hf n v) hstay
  · have hstatus : (a.storeIn s).status = s.status := (storeIn_writes hst s).1 .status (by simp)
    exact absurd (hstatus ▸ hf) hstay

/-- `SYS.RESET`'s word resets the registers in every state in which no command executes (48_system.md R320). -/
theorem step_sysReset {s : State} {rest : List HostAction} (hp : s.pending = .writeReg 0x00 0x01 :: rest)
    (hb : s.status.busy = false) : step s = .next (resetRegisters (beginCommand (s.withPending rest))) := by
  rw [step_writeCmd hp hb, if_neg fun h => h.2 rfl]
  rfl

/-- Settles O12: by the kind of the host action; only an issued word can leave the fault state, and only `SYS.RESET`'s does. -/
theorem onlyResetLeavesFaultState : Obligations.OnlyResetLeavesFaultState := by
  refine ⟨fun s t hf hstep ht => ?_, fun s rest hp hb => ⟨_, step_sysReset hp hb, rfl⟩⟩
  rcases step_cases hstep with ⟨_, rfl⟩ | ⟨a, rest, hp, hread | ⟨_, ha⟩⟩
  · exact absurd (hf.symm.trans ht) nofun
  · obtain ⟨_, d, rfl⟩ := hread
    exact absurd (hf.symm.trans ht) nofun
  · exact ⟨rest, idleAction_leavesFault (s := s.withPending rest) hf ha ht ▸ hp⟩

/-! ### `SYS.RESET` (48_system.md R320) -/

/-- No register that the host can read is one that `SYS.RESET` leaves unspecified: it reads as at power-on. -/
theorem readReg_resetRegisters (s : State) (n : Nat) : (resetRegisters s).readReg n = State.reset.readReg n := rfl

/-- Settles O11: the registers as `ResetRegisterValues` has them, the rest by the frame of `resetRegisters`. -/
theorem sysResetResult : Obligations.SysResetResult := by
  intro s
  have hkept := (resetRegisters_writes s).1
  exact ⟨resetRegisters s, rfl, fun n => (readReg_resetRegisters s n).trans (resetRegisterValues.1 n), rfl, rfl, rfl, rfl,
    rfl, rfl, fun sp => hkept (.mem sp) (by simp [runParts, faultParts, mayWrite]), hkept .hostSide (by decide)⟩

end Sys2Proof.Machine
end

section
/-! PROOFS. The causes of a command's faults (60_exceptions.md R331), and that the fault of a precondition is taken before the
first effect (R333). -/

namespace Sys2Proof.Machine

/-! ### The causes that a piece of a run can raise -/

/-- From every state the run ends, or faults with a listed cause. -/
def Cmd.Raises {α : Type} (l : List Cause) (x : Cmd α) : Prop :=
  Cmd.Triple (fun _ => True) x (fun _ _ => True) (fun c _ => c ∈ l)

section Raises

variable {α β : Type} {l m : List Cause}

theorem Cmd.Raises.error {x : Cmd α} (h : Cmd.Raises l x) {s t : State} {c : Cause} (hx : x s = .error c t) : c ∈ l :=
  Cmd.Triple.error h trivial hx

theorem Cmd.Raises.of_error {x : Cmd α} (h : ∀ s c t, x s = .error c t → c ∈ l) : Cmd.Raises l x := by
  intro s _
  split
  · trivial
  · exact h s _ _ ‹_›

theorem Cmd.Raises.mono {x : Cmd α} (h : Cmd.Raises l x) (hlm : l ⊆ m) : Cmd.Raises m x :=
  Cmd.Triple.weaken h (fun _ h => h) (fun _ _ h => h) fun _ _ hc => hlm hc

theorem Cmd.Raises.pure (a : α) : Cmd.Raises l (Pure.pure a) :=
  Cmd.Triple.pure fun _ _ => trivial

theorem Cmd.Raises.raise {c : Cause} (hc : c ∈ l) : Cmd.Raises l (Machine.raise (α := α) c) :=
  Cmd.Triple.raise fun _ _ => hc

theorem Cmd.Raises.update (g : State → State) : Cmd.Raises l (Machine.update g) :=
  Cmd.Triple.update fun _ _ => trivial

theorem Cmd.Raises.bind {x : Cmd α} {f : α → Cmd β} (hx : Cmd.Raises l x) (hf : ∀ a, Cmd.Raises l (f a)) :
    Cmd.Raises l (x >>= f) :=
  Cmd.Triple.bind hx hf

theorem Cmd.Raises.update_bind {g : State → State} {f : Unit → Cmd β} (hf : Cmd.Raises l (f ())) :
    Cmd.Raises l (Machine.update g >>= f) :=
  (Cmd.Raises.update g).bind fun _ => hf

theorem Cmd.Raises.require_bind {p : Prop} [Decidable p] {c : Cause} {f : Unit → Cmd β} (hc : c ∈ l)
    (hf : Cmd.Raises l (f ())) : Cmd.Raises l (Machine.require p c >>= f) :=
  Cmd.Triple.require_bind (fun _ _ => hc) fun _ => hf

theorem Cmd.Raises.get {f : State → Cmd β} (hf : ∀ u, Cmd.Raises l (f u)) : Cmd.Raises l (MonadState.get >>= f) :=
  Cmd.Triple.get_of fun u _ => hf u

theorem Cmd.Raises.ite {p : Prop} [Decidable p] {x y : Cmd α} (hx : Cmd.Raises l x) (hy : Cmd.Raises l y) :
    Cmd.Raises l (if p then x else y) :=
  Cmd.Triple.ite (fun _ => hx) fun _ => hy

end Raises

/-! #### The decoder and the header -/

/-- The causes that reading a symbol can raise (40_range_decoder.md R149). -/
def symbolCauses : List Cause := [.corruptSymbol, .collapseDecoder]

/-- The causes that reading a size or a header can raise (44_codec_params.md R226, R231). -/
def headerCauses : List Cause := .corruptSize :: symbolCauses

theorem rdCount_raises (total : Nat) {l : List Cause} : (rdCount total).Raises l := .of_error fun _ _ _ h => nomatch h

theorem rdRemove_raises (bottom top : Nat) : (rdRemove bottom top).Raises [.collapseDecoder] :=
  .of_error fun s c t h => by
    rcases rdRemove_spec bottom top s with ⟨_, _, u, _, he, _⟩ | ⟨u, _, he, _⟩
    · cases he.symm.trans h
    · cases he.symm.trans h; decide

theorem readNumber_raises (max : Nat) : (readNumber max).Raises symbolCauses :=
  .ite (.pure 0) <| (rdCount_raises max).bind fun c => .require_bind (by decide) <|
    ((rdRemove_raises c (c + 1)).mono (by decide)).bind fun _ => .pure c

theorem readNumber_raises_header (max : Nat) : (readNumber max).Raises headerCauses :=
  (readNumber_raises max).mono (by decide)

theorem readSizeLoop_raises (c : Config) (n : Nat) (bits : Int) : (readSizeLoop c n bits).Raises headerCauses := by
  induction n generalizing bits with
  | zero => exact .pure _
  | succ n ih =>
    refine (readNumber_raises_header _).bind fun v => .require_bind (by decide) <| .ite (ih _) ?_
    exact (readNumber_raises_header 2).bind fun f => .ite (ih _) (.pure _)

theorem readSize_raises : readSize.Raises headerCauses := .get fun s => readSizeLoop_raises s.cfg _ _

theorem readDims_raises : readDims.Raises headerCauses :=
  readSize_raises.bind fun _ => .update_bind <| readSize_raises.bind fun _ => .update _

theorem readPaletteLoop_raises (k i : Nat) : (readPaletteLoop k i).Raises headerCauses := by
  have hnum := readNumber_raises_header 256
  induction k generalizing i with
  | zero => exact .pure _
  | succ k ih => exact hnum.bind fun r => hnum.bind fun g => hnum.bind fun b => .update_bind <| ih (i + 1)

theorem readPalette_raises : readPalette.Raises headerCauses :=
  .get fun _ => (readNumber_raises_header _).bind fun n => (readPaletteLoop_raises n 0).bind fun _ => .update _

theorem readHeader_raises (flags : Nat) : (readHeader flags).Raises headerCauses := by
  have hcode : readCodeAndPalette.Raises headerCauses :=
    .get fun _ => (readNumber_raises_header _).bind fun code => .update_bind <| readPalette_raises.bind fun _ => .pure code
  rw [readHeader_eq]
  exact .ite (readDims_raises.bind fun _ => hcode) hcode

/-! #### The tree -/

/-- The causes that parsing a node can raise (47_fragment_tree.md R281, R284 to R286). -/
def nodeCauses : List Cause := [.corruptRegion, .capacityNode, .capacitySpan] ++ symbolCauses

theorem allocChildren_raises (n : Nat) : (allocChildren n).Raises nodeCauses :=
  .get fun _ => .require_bind (by decide) <| .require_bind (by decide) <| .update_bind <| .update_bind <| .update_bind <|
    .pure _

theorem makeRoot_raises : makeRoot.Raises [.capacityNode, .capacitySpan] :=
  .get fun _ => .require_bind (by decide) <| .require_bind (by decide) <| .update _

theorem render_raises : render.Raises [.capacityPix] := .get fun _ => .require_bind (by decide) <| .update _

theorem setImageResults_raises {l : List Cause} : setImageResults.Raises l :=
  .update_bind <| .update_bind <| .update _

theorem readNumber_raises_node (max : Nat) : (readNumber max).Raises nodeCauses :=
  (readNumber_raises max).mono (by decide)

theorem readColor_raises : readColor.Raises nodeCauses :=
  .get fun _ => .ite ((readNumber_raises_node _).bind fun _ => .pure _) <|
    (readNumber_raises_node _).bind fun _ => (readNumber_raises_node _).bind fun _ =>
      (readNumber_raises_node _).bind fun _ => .pure _

theorem parseFill_raises (n : Nat) : (parseFill n).Raises nodeCauses :=
  readColor_raises.bind fun _ => .update_bind <| .update _

theorem parseSplit_raises (n : Nat) : (parseSplit n).Raises nodeCauses := by
  have hangle : ∀ level, (readAngle level).Raises nodeCauses := fun _ =>
    .get fun _ => (readNumber_raises_node _).bind fun _ => .pure _
  refine .get fun s => ?_
  cases s.getLevel n with
  | none => exact .raise (by decide)
  | some level =>
    exact (hangle level.1).bind fun ang => .update_bind <| .get fun t => (readNumber_raises_node _).bind fun line =>
      (allocChildren_raises n).bind fun kids => .update_bind <| .update_bind <| .update _

theorem parseNode_raises : parseNode.Raises nodeCauses :=
  .get fun _ => (readNumber_raises_node 2).bind fun _ =>
    .ite ((parseFill_raises _).bind fun _ => .update _) ((parseSplit_raises _).bind fun _ => .update _)

theorem parseAll_raises (k : Nat) : (parseAll k).Raises nodeCauses := by
  induction k with
  | zero => exact .pure _
  | succ k ih => exact .get fun _ => .ite (parseNode_raises.bind fun _ => ih) (.pure _)

/-! #### The encoder -/

theorem reEmit_raises (v : Byte) : (reEmit v).Raises [.capacityOut] :=
  .of_error fun s c t h => by
    rw [reEmit_apply] at h
    split at h
    · cases h
    · cases h; decide

theorem reNormalize_raises (n : Nat) : (reNormalize n).Raises [.capacityOut, .collapseEncoder] := by
  induction n with
  | zero => exact .of_error fun _ _ _ h => nomatch h
  | succ n ih =>
    intro s _
    cases hts : s.re.coder.toShift with
    | none => rw [reNormalize, hts]; trivial
    | some c =>
      cases hc : c.collapsed with
      | true => rw [reNormalize, hts]; simp [hc]
      | false =>
        rw [reNormalize_succ hts hc]
        exact (((reEmit_raises _).mono (by decide)).bind fun _ => .update_bind ih) _ trivial

theorem rePut_raises (bottom top total : Nat) : (rePut bottom top total).Raises [.capacityOut, .collapseEncoder] :=
  .update_bind <| reNormalize_raises _

theorem reLog_raises (bottom top total : Nat) : (reLog bottom top total).Raises [.capacityLog] :=
  .of_error fun s c t h => by
    rcases reLog_spec bottom top total s with ⟨_, u, he, _⟩ | ⟨_, he⟩
    · cases he.symm.trans h
    · cases he.symm.trans h; decide

theorem reFlush_raises (n : Nat) : (reFlush n).Raises [.capacityOut] := by
  have hbyte : reFlushByte.Raises [.capacityOut] := .get fun _ => (reEmit_raises _).bind fun _ => .update _
  induction n with
  | zero => exact .pure _
  | succ n ih => exact hbyte.bind fun _ => ih

theorem reFinish_raises : reFinish.Raises [.capacityOut] := (reFlush_raises _).bind fun _ => .update _

/-- A triplet is logged and coded (41_range_encoder.md R176, R177). -/
theorem reCode_raises (bottom top total : Nat) :
    (reLog bottom top total >>= fun _ => rePut bottom top total >>= fun _ => setRes0OutLen).Raises
      [.capacityLog, .capacityOut, .collapseEncoder] :=
  ((reLog_raises _ _ _).mono (by decide)).bind fun _ => ((rePut_raises _ _ _).mono (by decide)).bind fun _ => .update _

/-! ### The bank that a header leaves (44_codec_params.md R224 to R227, R231) -/

/-- Two groups take the accumulator to 8, and every folded value that is kept is at most `DIM_MAX`. -/
theorem readSizeLoop_range {c : Config} {n k : Nat} {bits : Int} {s t : State} (hlo : -1 ≤ bits) (hhi : bits ≤ c.dimMax)
    (hrounds : 8 ≤ bits ∨ 0 ≤ bits ∧ 1 ≤ n ∨ 2 ≤ n) (h : readSizeLoop c n bits s = .ok k t) : 8 ≤ k ∧ k ≤ c.dimMax := by
  induction n generalizing bits s with
  | zero => cases h; omega
  | succ n ih =>
    obtain ⟨v, u, _, h⟩ := bind_eq_ok.mp h
    rw [require_bind_apply] at h
    split at h
    · split at h
      · exact ih (by omega) (by omega) (by omega) h
      · obtain ⟨f, w, _, h⟩ := bind_eq_ok.mp h
        split at h
        · exact ih (by omega) (by omega) (by omega) h
        · cases h; omega
    · cases h

theorem readSize_range {s t : State} {n : Nat} (hb : s.cfg.Bounds) (h : readSize s = .ok n t) :
    8 ≤ n ∧ n ≤ s.cfg.dimMax := by
  rw [readSize, get_bind] at h
  exact readSizeLoop_range (by omega) (by omega) (.inr (.inr (by rw [Config.sizeRounds]; omega))) h

theorem readDims_dimsValid {s t : State} (hb : s.cfg.Bounds) (h : readDims s = .ok () t) : t.dimsValid = true := by
  obtain ⟨w, u, hw, h⟩ := bind_eq_ok.mp h
  rw [update_bind] at h
  obtain ⟨k, v, hk, h⟩ := bind_eq_ok.mp h
  cases h
  have hu := (readSize_writes.ok hw).1
  have hv := (readSize_writes.ok hk).1
  have hcfg : v.cfg = s.cfg := (hv.cfg_eq (by decide)).trans (hu.cfg_eq (by decide))
  have hwidth : v.cp.width = zext64 w := by rw [hv.cp_eq (by decide)]; rfl
  have hcfgu : u.cfg = s.cfg := hu.cfg_eq (by decide)
  have hkrange := readSize_range (s := u.withCp _) (hcfgu ▸ hb) hk
  have hwrange := readSize_range hb hw
  obtain ⟨_, _, _, _, _, _, _, _, _, _, _, _, _, hmax, _⟩ := hb
  rw [withCp_cfg, hcfgu] at hkrange
  show (dimOk v.cfg.dimMax v.cp.width && dimOk v.cfg.dimMax (zext64 k)) = true
  rw [hcfg, hwidth, dimOk_zext64 hmax (by omega) hwrange.2, dimOk_zext64 hmax (by omega) hkrange.2, Bool.and_self]

/-- `ReadPalette` writes nothing of the bank but a count of at most `PALETTE_MAX`. -/
theorem readPalette_cp {s t : State} (hb : s.cfg.Bounds) (h : readPalette s = .ok () t) :
    ∃ p : Word, p.toNat ≤ s.cfg.paletteMax ∧ t.cp = { s.cp with palSize := p } := by
  rw [readPalette, get_bind] at h
  obtain ⟨n, u, hn, h⟩ := bind_eq_ok.mp h
  obtain ⟨_, v, hv, h⟩ := bind_eq_ok.mp h
  cases h
  have hread := readNumber_eq_ok.mp hn
  have hle := hread.le_pred
  obtain ⟨_, _, hpal, _⟩ := hb
  have hcp : v.cp = s.cp :=
    (((readPaletteLoop_writes n 0).ok hv).1.cp_eq (by decide)).trans hread.onlyDecoderMoved.cp_eq
  refine ⟨zext64 n, ?_, ?_⟩
  · rw [zext64_toNat (by omega)]; omega
  · rw [withCp_cp, hcp]

theorem readCodeAndPalette_paramsValid {s t : State} {code : Nat} (hb : s.cfg.Bounds) (hderive : s.cfg.DeriveOk)
    (hdims : s.dimsValid = true) (h : readCodeAndPalette s = .ok code t) : t.paramsValid = true := by
  rw [readCodeAndPalette, get_bind] at h
  obtain ⟨k, u, hk, h⟩ := bind_eq_ok.mp h
  rw [update_bind] at h
  obtain ⟨_, v, hv, h⟩ := bind_eq_ok.mp h
  cases h
  have hread := readNumber_eq_ok.mp hk
  have hcode : code < s.cfg.maxCode := by have := hread.le_pred; obtain ⟨hmax, _⟩ := hb; omega
  have hcp : u.cp = s.cp := hread.onlyDecoderMoved.cp_eq
  have hcfg : u.cfg = s.cfg := hread.onlyDecoderMoved.cfg_eq
  obtain ⟨p, hp, hbank⟩ := readPalette_cp (s := setCode code u) (by rw [setCode, withCp_cfg, hcfg]; exact hb) hv
  rw [setCode, withCp_cfg, hcfg] at hp
  have htcfg : t.cfg = s.cfg := ((readPalette_writes.ok hv).1.cfg_eq (by decide)).trans hcfg
  obtain ⟨hw, hh⟩ := Bool.and_eq_true_iff.mp hdims
  rw [State.paramsValid, hbank, setCode_cp, htcfg, hcfg, hcp]
  exact hderive { s.cp with palSize := p } code hcode hw hh hp

/-- A header leaves a valid bank where `DeriveParams` keeps its contract (R224) and, if the stream has no sizes, the bank has
valid ones. -/
theorem readHeader_paramsValid {s t : State} {flags code : Nat} (hb : s.cfg.Bounds) (hderive : s.cfg.DeriveOk)
    (hdims : flags % 2 ≠ 0 → s.dimsValid = true) (h : readHeader flags s = .ok code t) : t.paramsValid = true := by
  rw [readHeader_eq] at h
  split at h
  · obtain ⟨_, u, hu, h⟩ := bind_eq_ok.mp h
    have hcfg : u.cfg = s.cfg := (readDims_writes.ok hu).1.cfg_eq (by decide)
    exact readCodeAndPalette_paramsValid (hcfg ▸ hb) (hcfg ▸ hderive) (readDims_dimsValid hb hu) h
  · exact readCodeAndPalette_paramsValid hb hderive (hdims ‹_›) h

/-! ### The faults of the commands (R331, R333) -/

/-- The causes that R333 lets a command raise only before its first effect: `PROTOCOL`, `INVALID_ARG`, and `CORRUPT` for
`CP.LEVEL` and `DR.UPDATE`. -/
def isPrecondition (i : Instr) (c : Cause) : Bool :=
  decide (c.code = 2 ∨ c.code = 3 ∨ (c.code = 4 ∧ (i = .cpLevel ∨ i = .drUpdate)))

/-- The bank test inside the pseudocode of `FT.DECODE`, which fails only where `DeriveParams` breaks its contract (R333,
44_codec_params.md R224). -/
def IsInnerBankTest (i : Instr) (s : State) (c : Cause) : Prop :=
  i = .ftDecode ∧ c = .argBank ∧ ¬ (s.cfg.Bounds ∧ s.cfg.DeriveOk)

/-- A fault that the run of `i` from `s` may end with, at the state `t`: its cause is listed (R331), and a precondition's has
left the state as it was (R333). -/
def ListedFault (i : Instr) (s : State) (c : Cause) (t : State) : Prop :=
  c ∈ mayRaise i ∧ (isPrecondition i c = true → t = s ∨ IsInnerBankTest i s c)

/-- Causes that `i` may raise after its first effect: listed for it, and none of a precondition. -/
abbrev LateCauses (i : Instr) (l : List Cause) : Prop := ∀ c ∈ l, c ∈ mayRaise i ∧ isPrecondition i c = false

theorem LateCauses.listedFault {i : Instr} {l : List Cause} (hl : LateCauses i l) {c : Cause} (hc : c ∈ l) (s t : State) :
    ListedFault i s c t :=
  ⟨(hl c hc).1, fun h => absurd (h.symm.trans (hl c hc).2) nofun⟩

/-- From every state, the run ends or faults as `ListedFault` says. -/
def Cmd.FaultsAs (i : Instr) (x : Cmd Unit) : Prop :=
  ∀ s₀, Cmd.Triple (fun s => s = s₀) x (fun _ _ => True) (ListedFault i s₀)

section FaultsAs

variable {i : Instr} {c : Cause}

theorem ListedFault.of_unchanged {s t : State} (hc : c ∈ mayRaise i) (h : t = s) : ListedFault i s c t :=
  ⟨hc, fun _ => .inl h⟩

theorem Cmd.FaultsAs.of_raises {x : Cmd Unit} {l : List Cause} (hx : x.Raises l) (hl : LateCauses i l) : x.FaultsAs i :=
  fun s₀ => Cmd.Triple.weaken hx (fun _ _ => trivial) (fun _ _ h => h) fun _ t hc => hl.listedFault hc s₀ t

/-- A rest that raises nothing. -/
theorem Cmd.FaultsAs.quiet {x : Cmd Unit} (hx : x.Raises []) : x.FaultsAs i := .of_raises hx nofun

theorem Cmd.FaultsAs.raise (hc : c ∈ mayRaise i) : Cmd.FaultsAs i (Machine.raise c) :=
  fun _ => .raise fun _ h => .of_unchanged hc h

/-- A check: where it fails, nothing has changed. -/
theorem Cmd.FaultsAs.check {p : Prop} [Decidable p] {f : Unit → Cmd Unit} (hc : c ∈ mayRaise i)
    (hf : (f ()).FaultsAs i) : Cmd.FaultsAs i (Machine.require p c >>= f) :=
  fun s₀ => .require_bind (fun _ h => .of_unchanged hc h) fun _ => hf s₀

theorem Cmd.FaultsAs.get {f : State → Cmd Unit} (hf : ∀ u, (f u).FaultsAs i) : Cmd.FaultsAs i (MonadState.get >>= f) :=
  fun s₀ => .get_of fun u _ => hf u s₀

end FaultsAs

/-! #### The commands -/

theorem reNumBody_faultsAs : Cmd.FaultsAs .reNum reNumBody := by
  refine .get fun s => .check (by decide) <| .check (by decide) <| .check (by decide) <| ?_
  have hrest : Cmd.Raises [.capacityLog, .capacityOut, .collapseEncoder]
      (if s.operand0 < 2 then setRes0OutLen
        else reLog s.operand1 (s.operand1 + 1) s.operand0 >>= fun _ => rePut s.operand1 (s.operand1 + 1) s.operand0 >>= fun _ =>
          setRes0OutLen) :=
    .ite (.update _) (reCode_raises _ _ _)
  exact .of_raises hrest (by decide)

theorem reOptfinBody_faultsAs : Cmd.FaultsAs .reOptfin reOptfinBody := by
  have hmin : (update (fun t => t.withRes1 t.re.outLen) >>= fun _ => update minimize >>= fun _ =>
      setRes0OutLen : Cmd Unit).Raises [.capacityOut] :=
    .update_bind <| .update_bind <| .update _
  exact .get fun _ => .check (by decide) <| .of_raises (.ite (reFinish_raises.bind fun _ => hmin) hmin) (by decide)

theorem cpLevelBody_faultsAs : Cmd.FaultsAs .cpLevel cpLevelBody := by
  refine .get fun s => .check (by decide) <| .check (by decide) <| ?_
  cases s.getLevel s.operand0 with
  | none => exact .raise (by decide)
  | some level => exact .quiet (.update_bind <| .update _)

/-- The causes that `FT.DECODE` raises after its checks, but for the bank test. -/
def decodeCauses : List Cause := .corruptSize :: .capacityPix :: nodeCauses

theorem lateCauses_decode : LateCauses .ftDecode decodeCauses := by decide

/-- `FT.DECODE` from its bank test on (47_fragment_tree.md R302). -/
theorem decodeRest_raises (k : Nat) :
    (makeRoot >>= fun _ => parseAll k >>= fun _ => render >>= fun _ => setPhase .rendered >>= fun _ =>
      setImageResults >>= fun _ => update fun u => u.withRes3 u.rd.pad).Raises decodeCauses :=
  (makeRoot_raises.mono (by decide)).bind fun _ => ((parseAll_raises k).mono (by decide)).bind fun _ =>
    (render_raises.mono (by decide)).bind fun _ => .update_bind <| setImageResults_raises.bind fun _ => .update _

/-- The parameters and the bank are the same in `t` as in `s`. -/
def SameBank (s t : State) : Prop := t.cfg = s.cfg ∧ t.cp = s.cp

theorem OnlyDecoderMoved.sameBank {s t : State} (h : OnlyDecoderMoved s t) : SameBank s t := ⟨h.cfg_eq, h.cp_eq⟩

/-- The header of `FT.DECODE` faults late, or leaves a bank that is valid where `DeriveParams` keeps its contract. -/
theorem decodeHeader_faults {s : State} (hdims : s.operand1 % 2 ≠ 0 → s.dimsValid = true) :
    Cmd.Triple (SameBank s) (readHeader s.operand1)
      (fun _ t => s.cfg.Bounds ∧ s.cfg.DeriveOk → t.paramsValid = true) (ListedFault .ftDecode s) := by
  rintro u ⟨hcfg, hcp⟩
  cases h : readHeader s.operand1 u with
  | error c t =>
    have hlate : c ∈ decodeCauses := ((readHeader_raises _).mono (by decide)).error h
    exact lateCauses_decode.listedFault hlate s t
  | ok code t =>
    rintro ⟨hb, hderive⟩
    refine readHeader_paramsValid (hcfg ▸ hb) (hcfg ▸ hderive) (fun hflags => ?_) h
    rw [State.dimsValid, hcfg, hcp]
    exact hdims hflags

/-- The checks come first; the phase and the decoder do not touch the bank; then the header, whose bank the inner test finds
valid by `decodeHeader_faults`. -/
theorem ftDecodeBody_faultsAs : Cmd.FaultsAs .ftDecode ftDecodeBody := by
  intro s₀
  refine .get_of fun s hs => ?_
  subst hs
  have hcheck : ∀ {c : Cause}, c ∈ mayRaise .ftDecode → ∀ t, t = s → ListedFault .ftDecode s c t :=
    fun hc _ h => .of_unchanged hc h
  refine .require_bind (hcheck (by decide)) fun _ => .require_bind (hcheck (by decide)) fun hflags =>
    .require_bind (hcheck (by decide)) fun hdims => ?_
  have hphase : Cmd.Triple (fun t => t = s) (setPhase .idle) (fun _ => SameBank s) (ListedFault .ftDecode s) :=
    .update fun _ h => h ▸ ⟨rfl, rfl⟩
  have hinit : Cmd.Triple (SameBank s) (update (rdInit s.operand0)) (fun _ => SameBank s) (ListedFault .ftDecode s) :=
    .update fun t ht =>
      have hmoved := (onlyDecoderMoved_rdInit s.operand0 t).sameBank
      ⟨hmoved.1.trans ht.1, hmoved.2.trans ht.2⟩
  refine hphase.bind fun _ => hinit.bind fun _ => (decodeHeader_faults fun _ => hdims (by omega)).bind fun _ =>
    .get_of fun u hu => .bind (.require fun _ _ hinvalid => ?_) fun _ => ?_
  · exact ⟨by decide, fun _ => .inr ⟨rfl, rfl, fun hok => hinvalid (hu hok)⟩⟩
  · exact Cmd.Triple.weaken (decodeRest_raises _) (fun _ _ => trivial) (fun _ _ h => h)
      fun _ t hc => lateCauses_decode.listedFault hc s t

/-- The run of every command faults with a cause that is listed for it, and with a precondition's before its first effect. -/
theorem body_faultsAs (i : Instr) : (commandBody i).FaultsAs i := by
  cases i with
  | sysReset => exact .quiet (.pure ())
  | rdInit => exact .get fun _ => .check (by decide) <| .quiet (.update_bind <| .update _)
  | rdCount =>
    exact .get fun _ => .check (by decide) <| .check (by decide) <| .quiet ((rdCount_raises _).bind fun _ => .update _)
  | rdRemove =>
    exact .get fun _ => .check (by decide) <| .check (by decide) <| .check (by decide) <|
      .of_raises (rdRemove_raises _ _) (by decide)
  | rdNum =>
    exact .get fun _ => .check (by decide) <| .check (by decide) <|
      .of_raises ((readNumber_raises _).bind fun _ => .update _) (by decide)
  | reInit => exact .quiet (.update _)
  | rePut =>
    exact .get fun _ => .check (by decide) <| .check (by decide) <| .check (by decide) <|
      .of_raises (reCode_raises _ _ _) (by decide)
  | reNum => exact reNumBody_faultsAs
  | reFinish =>
    exact .get fun _ => .check (by decide) <| .of_raises (reFinish_raises.bind fun _ => .update _) (by decide)
  | reOptfin => exact reOptfinBody_faultsAs
  | tgLookup => exact .get fun _ => .check (by decide) <| .quiet (.update_bind <| .update _)
  | cpSetcode =>
    exact .get fun _ => .check (by decide) <| .check (by decide) <| .check (by decide) <|
      .quiet (.update_bind <| .update _)
  | cpRead =>
    exact .get fun _ => .check (by decide) <| .check (by decide) <| .check (by decide) <| .check (by decide) <|
      .of_raises ((readHeader_raises _).bind fun _ => .update_bind <| .update_bind <| .update_bind <| .update _) (by decide)
  | cpSize =>
    exact .get fun _ => .check (by decide) <| .of_raises (readSize_raises.bind fun _ => .update _) (by decide)
  | cpLevel => exact cpLevelBody_faultsAs
  | cpDeq => exact .get fun _ => .check (by decide) <| .quiet (.update _)
  | drUpdate =>
    exact .get fun _ => .check (by decide) <| .check (by decide) <| .check (by decide) <| .check (by decide) <|
      .quiet (.update_bind <| .update_bind <| .update_bind <| .update_bind <| .update _)
  | drDist => exact .get fun _ => .check (by decide) <| .check (by decide) <| .quiet (.update _)
  | rgSplit =>
    exact .get fun _ => .check (by decide) <| .check (by decide) <| .check (by decide) <| .check (by decide) <|
      .check (by decide) <| .quiet (.update_bind <| .update_bind <| .update _)
  | ftRoot =>
    exact .get fun _ => .check (by decide) <| .of_raises (makeRoot_raises.bind fun _ => .update _) (by decide)
  | ftParse =>
    exact .get fun _ => .check (by decide) <| .check (by decide) <| .check (by decide) <|
      .of_raises (parseNode_raises.bind fun _ => .update_bind <| .update_bind <| .update _) (by decide)
  | ftRender =>
    exact .get fun _ => .check (by decide) <| .check (by decide) <|
      .of_raises (render_raises.bind fun _ => .update_bind setImageResults_raises) (by decide)
  | ftDecode => exact ftDecodeBody_faultsAs

/-! ### The fault entry of a command -/

/-- A command that begins outside the fault state and ends in it has run to a fault that `ListedFault` describes, and has taken
the fault entry from there. -/
theorem exec_faults {i : Instr} {s t : State} (hf : s.status.fault = false) (h : exec i s = .next t)
    (ht : t.status.fault = true) :
    ∃ c u, ListedFault i s c u ∧ u.status.fault = false ∧ t = raiseFault c ((opcode i).setWidth 64) u := by
  by_cases hi : i = .sysReset
  · subst hi
    cases h
    cases ht
  rw [exec_eq_runCommand hi] at h
  rcases runCommand_cases i (commandBody i) s with ⟨u, hu, he⟩ | ⟨c, u, hu, he⟩
  · cases h.symm.trans he
    have hfault : u.status.fault = s.status.fault := ((body_movesOnlyPad i).ok hu).fault_eq
    exact absurd (hf.symm.trans (hfault.symm.trans ht)) nofun
  · cases h.symm.trans he
    have hmoved : OnlyPadMoved s u := Cmd.Triple.error (body_movesOnlyPad i s) (.refl s) hu
    exact ⟨c, u, Cmd.Triple.error (body_faultsAs i s) rfl hu, hmoved.fault_eq.trans hf, rfl⟩

/-- Settles O14: the fault is one that `ListedFault` allows, and the fault entry records its cause and the opcode. -/
theorem faultCausesAreListed : Obligations.FaultCausesAreListed := by
  intro i s t hf h ht
  obtain ⟨c, u, ⟨hc, _⟩, hu, rfl⟩ := exec_faults hf h ht
  exact ⟨c, hc, faultedWith_raiseFault hu c _⟩

/-- A fault code in `FAULT_CODE` is the cause's. -/
theorem Cause.code_of_word {c : Cause} {n : Nat} (hn : n < 2 ^ 64) (h : BitVec.ofNat 64 c.code = BitVec.ofNat 64 n) :
    c.code = n := by
  have hlt : c.code < 7 := by cases c <;> decide
  have hnat := congrArg BitVec.toNat h
  rw [BitVec.toNat_ofNat, BitVec.toNat_ofNat] at hnat
  omega

/-- Settles O15: the code names a precondition, so by `ListedFault` nothing but the fault entry has happened, unless it is the
bank test of `FT.DECODE` with a broken contract, which the sub-code and the contract exclude. -/
theorem preconditionFaultsChangeNothing : Obligations.PreconditionFaultsChangeNothing := by
  intro i s t hf h ht hcode hdecode
  obtain ⟨c, u, ⟨_, hfirst⟩, hu, rfl⟩ := exec_faults hf h ht
  obtain ⟨_, _, _, hc, hsub, _⟩ := faultedWith_raiseFault hu c (opcode i)
  rw [hc] at hcode
  have hpre : isPrecondition i c = true :=
    decide_eq_true <| hcode.imp (Cause.code_of_word (by decide)) <|
      .imp (Cause.code_of_word (by decide)) <| .imp_left (Cause.code_of_word (by decide))
  rcases hfirst hpre with rfl | ⟨hi, rfl, hbroken⟩
  · exact ⟨keepsAllBut_raiseFault c _ u, raiseFault_pad c _ u⟩
  · rcases hdecode hi with hother | hok
    · exact absurd hsub hother
    · exact absurd hok hbroken

end Sys2Proof.Machine
end
